-- ==== Sys2Proof/Word.lean ====
section
/-! DEFINITION. The widths of the spec (`00_scope.md` R9) and the bounded indexes of its state. -/

namespace Sys2Proof

/-- A byte: u8. -/
abbrev Byte := BitVec 8

/-- A register word: u32 (`10_state.md` R40). -/
abbrev Word := BitVec 32

/-- A time in nanoseconds: u64 (`10_state.md` R35). -/
abbrev U64 := BitVec 64

/-- A requester port number: u5 (`10_state.md` R29, R31); `P_NREQ <= 32` (`00_scope.md` R7). -/
abbrev Port := Fin 32

/-- A ring region: A = 0, B = 1, C = 2 (`10_state.md` R26). -/
abbrev Region := Fin 3

/-- A row of the panel table: `0 <= k < 48` (`10_state.md` R24). -/
abbrev PanelIx := Fin 48

end Sys2Proof
end

