-- ==== Sys2Proof/Config.lean ====
section
/-! DEFINITION. What is fixed for one machine (the parameters of `00_scope.md` R7), what its environment may
do in one step (`00_scope.md` R5), and the free values the spec leaves open. -/

namespace Sys2Proof

/-- `P_SLOT_ORDER` (`40_encoder.md` R101): which packed colour bit stream slot `i` carries. -/
inductive SlotOrder
  | msbFirst
  | packed
  deriving DecidableEq, Repr, Inhabited

/-- `P_BYTE_BIT_ORDER` (`40_encoder.md` R103): the weight of bit-in-byte `k`. -/
inductive BitOrder
  | lsb0
  | msb0
  deriving DecidableEq, Repr, Inhabited

/-- `P_MODE` (`43_command_sequencer.md` R179). -/
inductive PropagationMode
  | server
  | standalone
  deriving DecidableEq, Repr, Inhabited

/-- `FS_VARIANT[s]` (`20_memory.md` R64). -/
inductive Variant
  | single
  | multi
  deriving DecidableEq, Repr, Inhabited

/-- A frame store `FS[s]` (`10_state.md` R37): its variant and its bytes; `FS_LEN[s]` is their number. -/
structure Store where
  variant : Variant
  bytes   : List Byte
  deriving DecidableEq, Repr, Inhabited

/-- `P_REGION_BASE[r]` and `P_REGION_CAP[r]` (`10_state.md` R26). -/
structure RegionParam where
  base : Word
  cap  : Word
  deriving DecidableEq, Repr, Inhabited

/-- A colour of the input port `CS(k, j)` (`10_state.md` R38). -/
structure Colour where
  r : Byte
  g : Byte
  b : Byte
  deriving DecidableEq, Repr, Inhabited

/-- The parameters of `00_scope.md` R7. `P_NSTORE` is the number of `stores`; `Resolve` is the table
`resolve`, a path it does not list being `MISSING`. DESIGN CHOICE: a store id in it may be any u32, one at or above
`P_NSTORE` too; R7 does not constrain it (log 32). -/
structure Params where
  hwChannels  : Nat
  nreq        : Nat
  regions     : Vector RegionParam 3
  tBit        : Word
  tReset      : Word
  tPoll       : Word
  showBackoff : Nat
  mode        : PropagationMode
  slotOrder   : SlotOrder
  bitOrder    : BitOrder
  stores      : List Store
  resolve     : List (List Byte × Word)
  deriving DecidableEq, Repr

/-- One agent's step (`00_scope.md` R5), with the data its environment gives it. -/
inductive Action
  /-- Software writes `v` to a register-space offset, `size` bytes wide (`10_state.md` R41). -/
  | regWrite (off size : Nat) (v : Word)
  /-- Software reads a register-space offset, `size` bytes wide. -/
  | regRead (off size : Nat)
  /-- DG delivers one datagram (`43_command_sequencer.md` R180). -/
  | datagram (d : List Byte)
  /-- Port `q` takes a phase step of its macro-command (R170). -/
  | portStep (q : Port)
  /-- TK takes GRANT (`42_token_arbiter.md` R152). -/
  | grant
  /-- RC takes the step of its state (`41_ring_controller.md` R125). -/
  | ringStep
  /-- CP consumes the region it is at (R138). -/
  | cpConsume
  /-- CP finds an empty region and goes to LATCH (R139). -/
  | cpLatch
  /-- CP goes from LATCH to STOPPED (R139). -/
  | cpStop
  /-- CP hangs (R140). -/
  | cpHang
  /-- TIME advances by `d` (`10_state.md` R35). -/
  | tick (d : Nat)
  /-- The host opens the coprocessor and loads its image (`70_reset_and_hazards.md` R231 step 2). -/
  | coproLoad
  /-- The colour collaborator presents new values at the colour input port (`10_state.md` R38). -/
  | sampleColours (cs : List (List Colour))
  /-- An agent outside BTFE writes one byte of region memory (`70_reset_and_hazards.md` R235). -/
  | outsideWrite (a : Nat) (b : Byte)
  deriving DecidableEq, Repr, Inhabited

/-- A step of the agenda: the action and the environment's choice for every `draw` in it
(`00_scope.md` R10, log 2). -/
structure Event where
  pick : Nat
  act  : Action
  deriving DecidableEq, Repr, Inhabited

namespace Config

/-- FREE VALUE: the event that happens when the agenda is empty, applied to a counter (log 1). -/
opaque freeEvent : Nat → Event

/-- FREE VALUE: the colour at the input port where the state lists none: for a draw, a row and an LED
(`10_state.md` R38, log 9). -/
opaque freeColour : Nat → Nat → Nat → Colour

/-- FREE VALUE: what a byte of region memory that nothing has written holds
(`70_reset_and_hazards.md` R230, log 5). -/
opaque freeByte : Nat → Byte

/-- FREE VALUE: a u64 register after a sum that does not fit it (log 14). -/
opaque freeU64 : Nat → U64

/-- FREE VALUE: a u32 log argument for a count that does not fit it (log 29). -/
opaque freeWord : Nat → Word

/-- A SINGLE store of 8 channels and 3 LEDs (`95_test_vectors.md` V-MEM-1): the header and one payload of 72
bytes. -/
def exampleStore : Store where
  variant := .single
  bytes := [0x08#8, 0x00#8, 0x00#8, 0x00#8, 0x03#8, 0x00#8, 0x00#8, 0x00#8] ++ List.replicate 72 0#8

/-- The path `a.dat`. -/
def examplePath : List Byte := [0x61#8, 0x2E#8, 0x64#8, 0x61#8, 0x74#8]

/-- The parameters `State.reset` holds: the common parameters of `95_test_vectors.md` section 0, with the one
store of V-MEM-1 (log 3). -/
def resetParams : Params where
  hwChannels  := 8
  nreq        := 4
  regions     := #v[⟨0x00010000#32, 0x38#32⟩, ⟨0x00010040#32, 0x38#32⟩, ⟨0x00010080#32, 0x38#32⟩]
  tBit        := 1250#32
  tReset      := 50000#32
  tPoll       := 20000#32
  showBackoff := 0
  mode        := .server
  slotOrder   := .msbFirst
  bitOrder    := .lsb0
  stores      := [exampleStore]
  resolve     := [(examplePath, 0#32)]

end Config

end Sys2Proof
end

