-- ==== Sys2Proof/Syntax.lean ====
section
/-! DEFINITION. The commands of `spec/opcode_table.json`: eight command words and three datagram forms. -/

namespace Sys2Proof

/-- One constructor per row of the opcode table (`30_encoding.md` R83, R92). A command word has no fields: the
issuing port is the port the word is written to (R80) and its operands are that port's argument registers
(R82). A datagram form carries the values its text names. -/
inductive Instr
  /-- `ENCODE`, 0x01 (`40_encoder.md` R107). -/
  | encodeFrame
  /-- `XFER`, 0x10 (`41_ring_controller.md` R120). -/
  | xfer
  /-- `ACQUIRE`, 0x20 (`42_token_arbiter.md` R151). -/
  | acquire
  /-- `TRY_HANDOFF`, 0x21 (`42_token_arbiter.md` R153). -/
  | tryHandoff
  /-- `RELEASE`, 0x22 (`42_token_arbiter.md` R154). -/
  | release
  /-- `SHOW`, 0x30 (`43_command_sequencer.md` R172). -/
  | showFrame
  /-- `PLAY`, 0x31 (`43_command_sequencer.md` R174). -/
  | playFrames
  /-- `STOP`, 0x32 (`43_command_sequencer.md` R178). -/
  | stopPlayback
  /-- The datagram `show <input-path> <frameIndex>` (`30_encoding.md` R92). -/
  | showDatagram (path : List Byte) (frame : Word)
  /-- The datagram `play <input-path> <from> to <to> @ <fps> fps` (`30_encoding.md` R92). -/
  | playDatagram (path : List Byte) (first last fps : Word)
  /-- The datagram `stop` (`30_encoding.md` R92). -/
  | stopDatagram
  deriving DecidableEq, Repr, Inhabited

end Sys2Proof
end

