-- ==== Sys2Proof/WellFormed.lean ====
section
/-! DEFINITION. Which instructions an encoding exists for. -/

namespace Sys2Proof

/-- The separator of the datagram grammar: one ASCII space (`30_encoding.md` R90). -/
def spaceByte : Byte := 0x20#8

/-- `<input-path>` is one token: it is not empty and contains no space (`30_encoding.md` R90). -/
def pathOk (p : List Byte) : Bool := !p.isEmpty && !p.contains spaceByte

/-- Every command word is well-formed; a datagram form is when its path is one token. -/
def Instr.wf : Instr → Bool
  | .encodeFrame => true
  | .xfer => true
  | .acquire => true
  | .tryHandoff => true
  | .release => true
  | .showFrame => true
  | .playFrames => true
  | .stopPlayback => true
  | .showDatagram path _ => pathOk path
  | .playDatagram path _ _ _ => pathOk path
  | .stopDatagram => true

end Sys2Proof
end

