-- ==== Sys2Proof/Decode.lean ====
section
/-! DEFINITION. From a command word or a datagram to an instruction, or to a rejection by name; and the encoder
back (`30_encoding.md` R80-R92). -/

namespace Sys2Proof

/-- Why bits are no command. -/
inductive DecodeError
  /-- A command word with a nonzero `RSV` field (`30_encoding.md` R84). -/
  | reservedBits
  /-- A command word whose `OPCODE` is not in the map (`30_encoding.md` R84). -/
  | unknownOpcode
  /-- A datagram that matches no form of the grammar (`30_encoding.md` R90-R92). -/
  | unrecognised
  deriving DecidableEq, Repr, Inhabited

/-- What a requester sends: a word written to a `CMD` register (R80) or a datagram (R89). -/
inductive Message
  | word (w : Word)
  | datagram (d : List Byte)
  deriving DecidableEq, Repr, Inhabited

/-! ### Command words -/

/-- `OPCODE`, bits 7:0 of format `CW` (R80). -/
def opcodeField (w : Word) : Byte := w.extractLsb' 0 8

/-- `RSV`, bits 31:8 of format `CW` (R80). -/
def reservedField (w : Word) : BitVec 24 := w.extractLsb' 8 24

/-- The opcode map (R83). -/
def opcodeTable : List (Byte × Instr) :=
  [(0x01#8, .encodeFrame), (0x10#8, .xfer),
   (0x20#8, .acquire), (0x21#8, .tryHandoff), (0x22#8, .release),
   (0x30#8, .showFrame), (0x31#8, .playFrames), (0x32#8, .stopPlayback)]

/-- Decoding a command word (R83, R84): total, at most one row. -/
def decodeWord (w : Word) : Except DecodeError Instr :=
  if reservedField w ≠ 0#24 then .error .reservedBits
  else match opcodeTable.lookup (opcodeField w) with
    | some i => .ok i
    | none => .error .unknownOpcode

/-! ### Datagrams -/

/-- `show`. -/
def kwShow : List Byte := [0x73#8, 0x68#8, 0x6F#8, 0x77#8]
/-- `play`. -/
def kwPlay : List Byte := [0x70#8, 0x6C#8, 0x61#8, 0x79#8]
/-- `to`. -/
def kwTo : List Byte := [0x74#8, 0x6F#8]
/-- `@`. -/
def kwAt : List Byte := [0x40#8]
/-- `fps`. -/
def kwFps : List Byte := [0x66#8, 0x70#8, 0x73#8]
/-- `stop`. -/
def kwStop : List Byte := [0x73#8, 0x74#8, 0x6F#8, 0x70#8]

/-- A finished run of bytes is a token when it is not empty (R90). -/
def flushToken (cur : List Byte) : List (List Byte) := if cur.isEmpty then [] else [cur]

/-- The tokens of a text, `cur` being the run read so far (R90). -/
def tokensFrom (cur : List Byte) : List Byte → List (List Byte)
  | [] => flushToken cur
  | b :: bs => if b = spaceByte then flushToken cur ++ tokensFrom [] bs else tokensFrom (cur ++ [b]) bs

/-- Maximal runs of bytes other than 0x20, in order (R90). -/
def tokens (t : List Byte) : List (List Byte) := tokensFrom [] t

/-- The value of decimal digits after a value already read; no value where a byte is no digit (R91). -/
def decimalFrom (acc : Nat) : List Byte → Option Nat
  | [] => some acc
  | b :: bs => if 0x30#8 ≤ b ∧ b ≤ 0x39#8 then decimalFrom (acc * 10 + (b.toNat - 0x30)) bs else none

/-- A number token: one or more digits, a value below 2^32 (R91). -/
def numberToken (t : List Byte) : Option Word :=
  if t.isEmpty then none
  else match decimalFrom 0 t with
    | some n => if n < 2 ^ 32 then some (BitVec.ofNat 32 n) else none
    | none => none

/-- `show <input-path> <frameIndex>` from its three tokens (R92). -/
def recogniseShow (k p n : List Byte) : Option Instr :=
  if k = kwShow then (numberToken n).map (Instr.showDatagram p) else none

/-- `play <input-path> <from> to <to> @ <fps> fps` from its eight tokens (R92). -/
def recognisePlay (k p f w t a r z : List Byte) : Option Instr :=
  if k = kwPlay ∧ w = kwTo ∧ a = kwAt ∧ z = kwFps then
    match numberToken f, numberToken t, numberToken r with
    | some first, some last, some fps => some (.playDatagram p first last fps)
    | _, _, _ => none
  else none

/-- `stop` from its one token (R92). -/
def recogniseStop (k : List Byte) : Option Instr := if k = kwStop then some .stopDatagram else none

/-- A token list to a command: exactly the token counts of R92. -/
def recognise : List (List Byte) → Option Instr
  | [k] => recogniseStop k
  | [k, p, n] => recogniseShow k p n
  | [k, p, f, w, t, a, r, z] => recognisePlay k p f w t a r z
  | _ => none

/-- Decoding a datagram: the last byte is the terminator and is removed, whatever its value; an empty datagram
is unrecognised (R90). -/
def decodeDatagram (d : List Byte) : Except DecodeError Instr :=
  if d.isEmpty then .error .unrecognised
  else match recognise (tokens d.dropLast) with
    | some i => .ok i
    | none => .error .unrecognised

/-- Decoding whatever a requester sends. -/
def decode : Message → Except DecodeError Instr
  | .word w => decodeWord w
  | .datagram d => decodeDatagram d

/-! ### The encoder -/

/-- The decimal digits of a number below 10^fuel, most significant first, no leading zero (R91). -/
def decimalDigits : Nat → Nat → List Byte
  | 0, _ => []
  | fuel + 1, n =>
    if n < 10 then [BitVec.ofNat 8 (0x30 + n)]
    else decimalDigits fuel (n / 10) ++ [BitVec.ofNat 8 (0x30 + n % 10)]

/-- The text of a u32 number token: at most ten digits. -/
def numberText (w : Word) : List Byte := decimalDigits 10 w.toNat

/-- Tokens with one space between them and the terminator the encoder writes, 0x0A (log 26). -/
def datagramText : List (List Byte) → List Byte
  | [] => [0x0A#8]
  | [t] => t ++ [0x0A#8]
  | t :: ts => t ++ spaceByte :: datagramText ts

/-- The command word of a row: `zext_32(opcode)` (R83, R87). -/
def opcodeWord (op : Byte) : Word := op.setWidth 32

/-- The message that stands for an instruction. -/
def encode : Instr → Message
  | .encodeFrame => .word (opcodeWord 0x01#8)
  | .xfer => .word (opcodeWord 0x10#8)
  | .acquire => .word (opcodeWord 0x20#8)
  | .tryHandoff => .word (opcodeWord 0x21#8)
  | .release => .word (opcodeWord 0x22#8)
  | .showFrame => .word (opcodeWord 0x30#8)
  | .playFrames => .word (opcodeWord 0x31#8)
  | .stopPlayback => .word (opcodeWord 0x32#8)
  | .showDatagram path frame => .datagram (datagramText [kwShow, path, numberText frame])
  | .playDatagram path first last fps =>
    .datagram (datagramText
      [kwPlay, path, numberText first, kwTo, numberText last, kwAt, numberText fps, kwFps])
  | .stopDatagram => .datagram (datagramText [kwStop])

/-! ### The opcode table's numbering -/

/-- The bytes of a number, the byte of bits 7..0 first. -/
def bytesOf : Nat → Nat → List Byte
  | 0, _ => []
  | n + 1, v => BitVec.ofNat 8 v :: bytesOf n (v / 256)

/-- A table row of at most 32 bits is a command word; a longer one is a datagram's bytes, the first byte in
bits 7..0. -/
def tableMessage (nbits w : Nat) : Message :=
  if nbits ≤ 32 then .word (BitVec.ofNat 32 w) else .datagram (bytesOf (nbits / 8) w)

/-- The instruction the decoder reads from the bits `w` of an opcode-table row. -/
def decodeTableWord (nbits w : Nat) : Option Instr :=
  match decode (tableMessage nbits w) with
  | .ok i => some i
  | .error _ => none

end Sys2Proof
end

