-- ==== Sys2Proof/Machine/State.lean ====
section
/-! DEFINITION. The machine's state (`10_state.md`), the reasons a step can stop, and the state after reset
(`70_reset_and_hazards.md` R230). -/

namespace Sys2Proof.Machine

/-- Why the machine stops with a fault: the model faults of `60_exceptions.md` R213. -/
inductive Fault
  /-- `MF_RC_REENTRY`: an XFER passed validation while `RC.STATE != IDLE`. Raised by XFER and by the XFER phase
  of SHOW and PLAY; no run reaches it (R213). Safe. -/
  | rcReentry
  /-- `MF_FS_RANGE`: `FsRead` beyond `FS_LEN[s]`. Raised by FillRegion; no run reaches it (R213). Safe. -/
  | fsRange
  /-- `MF_TIME_WRAP`: a TICK past `2^64 - 1`. Raised by the TICK action (R213, log 17). Safe. -/
  | timeWrap
  /-- `MF_BAD_PARAM`: a parameter outside `00_scope.md` R7 or `20_memory.md` R52. Raised by every step of a
  machine with such a parameter (R213, log 33). Safe. -/
  | badParam
  deriving DecidableEq, Repr

/-- Why a step has no meaning. -/
inductive Refusal
  /-- An instruction whose arm has no meaning yet. Raised by `exec` only; no arm raises it now. Safe. -/
  | notModelled (mnemonic : String)
  /-- A register access that is neither 32 bits wide and 4-aligned nor a byte read of `ENC_OUT`: refused, no
  step (`10_state.md` R41). Raised by the register actions. Safe. -/
  | registerAccess
  /-- A register access beyond the register space (`20_memory.md` R50, log 19). Raised by the register actions.
  Safe. -/
  | outsideRegisterSpace
  deriving DecidableEq, Repr

/-- The result codes of `30_encoding.md` R86. -/
inductive Result
  | ok
  | stillHeld
  | preempted
  | eUnderrun
  | eTimeout
  | eUnconsumed
  | eChannels
  | eRange
  | eIo
  | eConfig
  | eNotReady
  | eNotHolder
  | eReentry
  | eIllegal
  deriving DecidableEq, Repr, Inhabited

/-- `RC.STATE` (`41_ring_controller.md` R125). -/
inductive RcState
  | idle
  | setup
  | fill
  | start
  | drain
  | sleep
  | check
  deriving DecidableEq, Repr, Inhabited

/-- `TK.STATE` (`10_state.md` R31). -/
inductive TkState
  | idle
  | held
  deriving DecidableEq, Repr, Inhabited

/-- `SEQ[q].PHASE` (`43_command_sequencer.md` R170). -/
inductive Phase
  | none
  | validate
  | acq
  | clock
  | poll
  | xfer
  | backoff
  | pace
  | release
  deriving DecidableEq, Repr, Inhabited

/-- `SEQ[q].KIND` (`10_state.md` R34). -/
inductive Kind
  | none
  | showCmd
  | playCmd
  | stopCmd
  deriving DecidableEq, Repr, Inhabited

/-- `CP.MODE` (`10_state.md` R39). -/
inductive CpMode
  | stopped
  | running
  | latch
  | hung
  deriving DecidableEq, Repr, Inhabited

/-- The event kinds of `43_command_sequencer.md` R184. -/
inductive LogKind
  | dgramUnrecognized
  | ioError
  | dgramDropped
  | cmdInvalid
  | showOk
  | showFail
  | playFrame
  | playDone
  | fatal
  deriving DecidableEq, Repr, Inhabited

/-- `CFG.NC`, `CFG.NL`, `CFG.NP` and the fields of `CFG.CTRL` (`10_state.md` R22, R23, R25). -/
structure Cfg where
  nc     : Word
  nl     : Word
  np     : Word
  locked : Bool
  cfgErr : Bool
  hwErr  : Bool
  fatal  : Bool
  deriving DecidableEq, Repr

/-- A row of the panel table (`10_state.md` R24); `NLED` is derived, not stored. -/
structure PanelRow where
  ch    : BitVec 6
  nreal : Word
  nbuf  : Word
  deriving DecidableEq, Repr

/-- `RC.FLAGS` (`10_state.md` R30). -/
structure Flags where
  underrun   : Bool
  timeout    : Bool
  unconsumed : Bool
  deriving DecidableEq, Repr

/-- The ring controller's registers (`10_state.md` R29). -/
structure Rc where
  state    : RcState
  owner    : Port
  store    : Word
  src      : Word
  total    : Word
  cursor   : Word
  g        : BitVec 4
  fillIdx  : BitVec 2
  cur      : Region
  t0       : U64
  deadline : U64
  wake     : U64
  flags    : Flags
  result   : Result
  deriving DecidableEq, Repr

/-- The token arbiter (`10_state.md` R31); `wait` is the mask of `TK.WAIT`. -/
structure Tk where
  state  : TkState
  holder : Port
  wait   : BitVec 32
  deriving DecidableEq, Repr

/-- The context of a macro-command (`10_state.md` R34); `first` and `upto` are `FROM` and `TO`. `queued` is the
model's own: ACQ has put the port into `TK.WAIT` (log 39). -/
structure Seq where
  phase  : Phase
  kind   : Kind
  store  : Word
  idx    : Word
  first  : Word
  upto   : Word
  fps    : Word
  t0     : U64
  wake   : U64
  last   : Result
  queued : Bool
  deriving DecidableEq, Repr

/-- A requester port (`10_state.md` R33) with its context `SEQ[q]`; `opcode` is `PORT_STATUS[15:8]`. -/
structure PortState where
  arg0    : Word
  arg1    : Word
  arg2    : Word
  arg3    : Word
  result  : Result
  busy    : Bool
  blocked : Bool
  ovr     : Bool
  opcode  : Byte
  seq     : Seq
  deriving DecidableEq, Repr

/-- The consumer (`10_state.md` R39). -/
structure Cp where
  mode : CpMode
  c    : Region
  deriving DecidableEq, Repr

/-- An event of the LOG (`10_state.md` R36); no port stands for the datagram receiver. -/
structure LogEvent where
  t    : U64
  q    : Option Port
  kind : LogKind
  a    : Word
  b    : Word
  deriving DecidableEq, Repr

/-- Region memory (`20_memory.md` R51): the bytes something has written, addresses strictly rising. -/
abbrev Memory := List Host.Cell

/-- Everything the spec gives the machine, and the model's own fields at the end. -/
structure State where
  /-- The parameters of the run (`00_scope.md` R7); no step changes them. -/
  par         : Params
  cfg         : Cfg
  panel       : Vector PanelRow 48
  /-- `ENC_OUT`; `ENC_LEN` is its length (`10_state.md` R28). -/
  encOut      : List Byte
  rc          : Rc
  tk          : Tk
  ports       : Vector PortState 32
  tNow        : U64
  /-- The latch read at `TIME_HI` (`10_state.md` R35). -/
  timeHi      : Word
  log         : List LogEvent
  /-- The values at the colour input port, row by row; a place it does not list is a free value (log 9). -/
  colours     : List (List Colour)
  cp          : Cp
  /-- `OUT` (`41_ring_controller.md` R141): the groups clocked out since the last START. -/
  out         : List (List Byte)
  coproReady  : Bool
  mem         : Memory
  /-- The model's own: the steps to come (log 1). -/
  agenda      : List Event
  /-- The model's own: the environment's draw in the current step (log 2). -/
  pick        : Nat
  /-- The model's own: how many free events have been taken (log 1). -/
  freeIx      : Nat
  /-- The model's own: the port whose command is being issued (log 21). -/
  issuer      : Port
  /-- The model's own: what the last register read returned (log 22). -/
  readData    : Word
  deriving DecidableEq, Repr

/-- `SEQ[q]` after reset (`10_state.md` R34). -/
def Seq.reset : Seq where
  phase  := .none
  kind   := .none
  store  := 0
  idx    := 0
  first  := 0
  upto   := 0
  fps    := 0
  t0     := 0
  wake   := 0
  last   := .ok
  queued := false

/-- `Q[q]` after reset (`10_state.md` R33). -/
def PortState.reset : PortState where
  arg0    := 0
  arg1    := 0
  arg2    := 0
  arg3    := 0
  result  := .ok
  busy    := false
  blocked := false
  ovr     := false
  opcode  := 0
  seq     := Seq.reset

/-- `RC` after reset (`70_reset_and_hazards.md` R230). -/
def Rc.reset : Rc where
  state    := .idle
  owner    := 0
  store    := 0
  src      := 0
  total    := 0
  cursor   := 0
  g        := 0
  fillIdx  := 0
  cur      := 0
  t0       := 0
  deadline := 0
  wake     := 0
  flags    := ⟨false, false, false⟩
  result   := .ok

/-- The machine right after reset (`70_reset_and_hazards.md` R230). The configuration registers, the panel
table, `T_NOW` and `TIME_HI` have no value in the spec: zero (logs 6, 7, 8); the parameters are those of
the spec's vectors (log 3). -/
def State.reset : State where
  par        := Config.resetParams
  cfg        := ⟨0, 0, 0, false, false, false, false⟩
  panel      := Vector.replicate 48 ⟨0, 0, 0⟩
  encOut     := []
  rc         := Rc.reset
  tk         := ⟨.idle, 0, 0⟩
  ports      := Vector.replicate 32 PortState.reset
  tNow       := 0
  timeHi     := 0
  log        := []
  colours    := []
  cp         := ⟨.stopped, 0⟩
  out        := []
  coproReady := false
  mem        := []
  agenda     := []
  pick       := 0
  freeIx     := 0
  issuer     := 0
  readData   := 0

end Sys2Proof.Machine
end

