-- ==== Sys2Proof/Machine/Ops.lean ====
section
/-! DEFINITION. The named operations every meaning is written over: parameters, region memory, frame stores,
ports, the token, the log, completing a command with its result code, and the fatal state. -/

namespace Sys2Proof.Machine

/-! ### Parameters (`00_scope.md` R7, `20_memory.md` R52) -/

/-- The region's range ends before the other's begins, or the other way round. -/
def regionsDisjoint (x y : RegionParam) : Bool :=
  decide (x.base.toNat + x.cap.toNat ≤ y.base.toNat) || decide (y.base.toNat + y.cap.toNat ≤ x.base.toNat)

/-- One region's constraints (`20_memory.md` R52). -/
def regionOk (x : RegionParam) : Bool :=
  decide (x.base.toNat % 4 = 0) && decide (8 ≤ x.cap.toNat)
    && decide (x.base.toNat + x.cap.toNat ≤ 2 ^ 32) && decide (x.base.toNat ≠ 0)

/-- The legal channel counts (`10_state.md` R22, `00_scope.md` R7). -/
def legalChannels : List Nat := [8, 16, 24, 32, 40, 48]

/-- The constraints on the parameters (`00_scope.md` R7, `20_memory.md` R52), one by one. A store's byte offsets
are u32 (`20_memory.md` R50, log 25). -/
def paramChecks (p : Params) : List Bool :=
  [legalChannels.contains p.hwChannels,
   decide (2 ≤ p.nreq), decide (p.nreq ≤ 32),
   regionOk p.regions[0], regionOk p.regions[1], regionOk p.regions[2],
   regionsDisjoint p.regions[0] p.regions[1], regionsDisjoint p.regions[0] p.regions[2],
   regionsDisjoint p.regions[1] p.regions[2],
   decide (1 ≤ p.tBit.toNat),
   decide (10000 ≤ p.tPoll.toNat), decide (p.tPoll.toNat ≤ 99999),
   decide (1 ≤ p.stores.length),
   p.stores.all fun f => decide (f.bytes.length ≤ 2 ^ 32)]

/-- Every constraint holds: a machine that breaks one is not built (`60_exceptions.md` R213). -/
def paramsOk (p : Params) : Bool := (paramChecks p).all id

/-- `REGION[r].BASE`. -/
def State.base (s : State) (r : Region) : Nat := (s.par.regions.get r).base.toNat

/-- `REGION[r].CAP`. -/
def State.cap (s : State) (r : Region) : Nat := (s.par.regions.get r).cap.toNat

/-- `0 <= q < P_NREQ`: the port exists. -/
def State.portExists (s : State) (q : Port) : Bool := decide (q.val < s.par.nreq)

/-- An address inside one of the three ring regions (`20_memory.md` R50). -/
def State.inRegions (s : State) (a : Nat) : Bool :=
  (List.finRange 3).any fun r => decide (s.base r ≤ a) && decide (a < s.base r + s.cap r)

/-! ### Numbers of fixed width -/

/-- Bytes to a number, least significant first (`20_memory.md` R54). -/
def leNat : List Byte → Nat
  | [] => 0
  | b :: bs => b.toNat + 256 * leNat bs

/-- The low `n` bytes of a number, least significant first (`20_memory.md` R54). -/
def leBytes : Nat → Nat → List Byte
  | 0, _ => []
  | n + 1, v => BitVec.ofNat 8 v :: leBytes n (v / 256)

/-- `ceil_div` (`00_scope.md` R9). -/
def ceilDiv (a b : Nat) : Nat := (a + b - 1) / b

/-- A time stored in a u64 register; a sum that does not fit is a free value (log 14). -/
def fitU64 (n : Nat) : U64 := if n < 2 ^ 64 then BitVec.ofNat 64 n else Config.freeU64 n

/-- A count stored in a u32 log argument; a count that does not fit is a free value (log 29). -/
def fitWord (n : Nat) : Word := if n < 2 ^ 32 then BitVec.ofNat 32 n else Config.freeWord n

/-! ### Region memory (`20_memory.md` R54, R58) -/

/-- The byte something wrote at an address, if anything did. -/
def Memory.read : Memory → Nat → Option Byte
  | [], _ => none
  | (k, b) :: m, a => if k = a then some b else Memory.read m a

/-- Write one byte, keeping the addresses strictly rising. -/
def Memory.write : Memory → Nat → Byte → Memory
  | [], a, b => [(a, b)]
  | (k, c) :: m, a, b =>
    if a < k then (a, b) :: (k, c) :: m
    else if a = k then (a, b) :: m
    else (k, c) :: Memory.write m a b

/-- Write bytes at consecutive addresses. -/
def Memory.writeBytes : Memory → Nat → List Byte → Memory
  | m, _, [] => m
  | m, a, b :: bs => Memory.writeBytes (Memory.write m a b) (a + 1) bs

/-- The canonical form: addresses strictly rising. An unlisted address holds no value, so no entry can equal
what it reads as (log 5). -/
def Memory.wf : Memory → Bool
  | [] => true
  | [_] => true
  | (k, _) :: (l, c) :: m => decide (k < l) && Memory.wf ((l, c) :: m)

/-- Reading one byte of region memory; a byte nothing has written reads as a free value of its address
(`70_reset_and_hazards.md` R230, log 5). -/
def State.loadByte (s : State) (a : Nat) : Byte := (Memory.read s.mem a).getD (Config.freeByte a)

/-- `n` bytes from an address upwards. -/
def State.loadBytes (s : State) (a n : Nat) : List Byte := (List.range n).map fun i => s.loadByte (a + i)

/-- `MemRead(addr, n)` (`00_scope.md` R10). -/
def State.memRead (s : State) (a n : Nat) : Nat := leNat (s.loadBytes a n)

/-- Write bytes of region memory. -/
def State.storeBytes (s : State) (a : Nat) (bs : List Byte) : State :=
  { s with mem := Memory.writeBytes s.mem a bs }

/-- `MemWrite(addr, n, v)` (`00_scope.md` R10). -/
def State.memWrite (s : State) (a n v : Nat) : State := s.storeBytes a (leBytes n v)

/-- Region r's `end_addr` word (`20_memory.md` R53). -/
def State.endAddr (s : State) (r : Region) : Nat := s.memRead (s.base r) 4

/-- Region r's `next_addr` word (`20_memory.md` R53). -/
def State.nextAddr (s : State) (r : Region) : Nat := s.memRead (s.base r + 4) 4

/-! ### Frame stores (`20_memory.md` R63-R67) -/

/-- The header size `H` (`20_memory.md` R64). -/
def headerSize : Variant → Nat
  | .single => 8
  | .multi => 12

/-- `FsRead(s, off, n)` as bytes; defined only inside the store (`00_scope.md` R10). -/
def fsSlice (f : Store) (off n : Nat) : Option (List Byte) :=
  if ((f.bytes.drop off).take n).length = n then some ((f.bytes.drop off).take n) else none

/-- A header word of a store that is at least `off + 4` bytes long (`30_encoding.md` R93). -/
def fsWord (f : Store) (off : Nat) : Nat := leNat ((f.bytes.drop off).take 4)

/-- The frame count `NF` (`20_memory.md` R64). -/
def frameCount (f : Store) : Nat :=
  match f.variant with
  | .single => 1
  | .multi => fsWord f 8

/-! ### Ports and units (`10_state.md` R29, R31, R33, R39) -/

/-- `Q[q]`. -/
def State.port (s : State) (q : Port) : PortState := s.ports.get q

/-- `Q[q] <- p`. -/
def State.setPort (s : State) (q : Port) (p : PortState) : State :=
  { s with ports := s.ports.set q.val p q.isLt }

/-- `Q[q].BLOCKED <- b`. -/
def State.setBlocked (s : State) (q : Port) (b : Bool) : State :=
  s.setPort q { s.port q with blocked := b }

/-- `SEQ[q] <- x`. -/
def State.setSeq (s : State) (q : Port) (x : Seq) : State := s.setPort q { s.port q with seq := x }

/-- `SEQ[q].PHASE <- p`. -/
def State.setPhase (s : State) (q : Port) (p : Phase) : State :=
  s.setSeq q { (s.port q).seq with phase := p }

/-- `RC <- x`. -/
def State.setRc (s : State) (x : Rc) : State := { s with rc := x }

/-- `TK <- x`. -/
def State.setTk (s : State) (x : Tk) : State := { s with tk := x }

/-- `CP <- x`. -/
def State.setCp (s : State) (x : Cp) : State := { s with cp := x }

/-- BTFE accepts commands: `CFG.LOCKED = 1` and `CFG.FATAL = 0` (`30_encoding.md` R84). -/
def State.ready (s : State) : Bool := s.cfg.locked && !s.cfg.fatal

/-- Accepting a command word on an idle port (`30_encoding.md` R81): `BUSY <- 1`, the opcode into
`PORT_STATUS[15:8]`; the port is the issuer (log 21). -/
def State.beginCommand (s : State) (q : Port) (op : Byte) : State :=
  { s.setPort q { s.port q with busy := true, opcode := op } with issuer := q }

/-- A port after its command completes with a result (`30_encoding.md` R81, `43_command_sequencer.md` R170). -/
def PortState.completed (p : PortState) (r : Result) : PortState :=
  { p with
    result := r
    busy := false
    blocked := false
    seq := { p.seq with phase := .none, kind := .none, queued := false } }

/-- Completing port q's command with a result code (`30_encoding.md` R81). This is BTFE's whole error entry
(`60_exceptions.md` R200, R207): no saved state, no vector, no mode. -/
def State.complete (s : State) (q : Port) (r : Result) : State := s.setPort q ((s.port q).completed r)

/-- `raise E` (`00_scope.md` R10): the running command ends at once with a result code. -/
def raise (q : Port) (r : Result) (s : State) : Host.Outcome State Fault Refusal := .next (s.complete q r)

/-! ### The log (`10_state.md` R36) -/

/-- `LOG(e)`: the event is appended with the time of the step. -/
def State.logEvent (s : State) (q : Option Port) (kind : LogKind) (a b : Word) : State :=
  { s with log := s.log ++ [⟨s.tNow, q, kind, a, b⟩] }

/-- The number of a result code (`30_encoding.md` R86). -/
def Result.code : Result → Byte
  | .ok => 0x00#8
  | .stillHeld => 0x01#8
  | .preempted => 0x02#8
  | .eUnderrun => 0x10#8
  | .eTimeout => 0x11#8
  | .eUnconsumed => 0x12#8
  | .eChannels => 0x20#8
  | .eRange => 0x21#8
  | .eIo => 0x22#8
  | .eConfig => 0x30#8
  | .eNotReady => 0x31#8
  | .eNotHolder => 0x40#8
  | .eReentry => 0x41#8
  | .eIllegal => 0x42#8

/-- A result code as a log argument or register field. -/
def Result.word (r : Result) : Word := r.code.setWidth 32

/-! ### The token (`42_token_arbiter.md`) -/

/-- Port q holds the token. -/
def State.holds (s : State) (q : Port) : Bool := decide (s.tk.state = .held) && decide (s.tk.holder = q)

/-- Port q is in `TK.WAIT`. -/
def State.waiting (s : State) (q : Port) : Bool := s.tk.wait.getLsbD q.val

/-- The one-bit mask of a port. -/
def portMask (q : Port) : BitVec 32 := 1#32 <<< q.val

/-- `TK.WAIT <- TK.WAIT + {q}`. -/
def State.enqueue (s : State) (q : Port) : State :=
  s.setTk { s.tk with wait := s.tk.wait ||| portMask q }

/-- `TK.WAIT <- TK.WAIT - {q}`. -/
def State.dequeue (s : State) (q : Port) : State :=
  s.setTk { s.tk with wait := s.tk.wait &&& ~~~(portMask q) }

/-- The members of `TK.WAIT`. -/
def State.waiters (s : State) : List Port := (List.finRange 32).filter fun q => s.waiting q

/-- `draw(TK.WAIT)` (`42_token_arbiter.md` R155): the environment's choice among the waiters; none when there
is no waiter (log 2). -/
def State.drawWaiter (s : State) : Option Port := s.waiters[s.pick % s.waiters.length]?

/-- The hold of port w's ACQUIRE is lifted (R152): a plain ACQUIRE completes with OK; of a macro-command, which
goes on, only `Q[w].BLOCKED` is cleared. `SEQ[w]` is port w's own (`60_exceptions.md` R212): its next step leaves
ACQ (log 10). -/
def State.resumeGranted (s : State) (w : Port) : State :=
  if (s.port w).seq.kind = .none then s.complete w .ok else s.setBlocked w false

/-- The waiter w becomes the holder (R152, R153): it leaves `TK.WAIT` and its ACQUIRE ends. -/
def State.grantTo (s : State) (w : Port) : State :=
  ((s.dequeue w).setTk { (s.dequeue w).tk with state := .held, holder := w }).resumeGranted w

/-- `TK.STATE <- IDLE; TK.HOLDER <- 0` (R154). -/
def State.freeToken (s : State) : State := s.setTk { s.tk with state := .idle, holder := 0 }

/-! ### The fatal state (`60_exceptions.md` R214) -/

/-- A port cut off by FATAL: its running command completes with `E_NOT_READY`. -/
def PortState.cutOff (p : PortState) : PortState := if p.busy then p.completed .eNotReady else p

/-- Entering FATAL: every busy port but `keep` is cut off, `TK.WAIT` is emptied and the token is idle. -/
def State.enterFatal (s : State) (keep : Option Port) : State :=
  { s with
    cfg := { s.cfg with fatal := true }
    ports := Vector.ofFn fun w => if keep = some w then s.port w else (s.port w).cutOff
    tk := ⟨.idle, 0, 0⟩ }

end Sys2Proof.Machine
end

