-- ==== Sys2Proof/Machine/Flags.lean ====
section
/-! DEFINITION. `RC.FLAGS` and the result they give (`10_state.md` R30, `41_ring_controller.md` R132, R133), and
the packed status registers (`10_state.md` R25, R30, R32, R33). -/

namespace Sys2Proof.Machine

/-- No condition holds. -/
def Flags.clear : Flags := ⟨false, false, false⟩

/-- `is_running()` (`10_state.md` R39). -/
def State.isRunning (s : State) : Bool := decide (s.cp.mode ≠ .stopped)

/-- Some region's `end_addr` is nonzero (`41_ring_controller.md` R132). -/
def State.anyUnconsumed (s : State) : Bool := (List.finRange 3).any fun r => decide (s.endAddr r ≠ 0)

/-- The three completion conditions, all sampled in one step (R132). -/
def State.completionFlags (s : State) : Flags :=
  ⟨decide (s.rc.cursor.toNat < s.rc.total.toNat), s.isRunning, s.anyUnconsumed⟩

/-- The single result of a transfer: `E_TIMEOUT`, then `E_UNDERRUN`, then `E_UNCONSUMED` (R133). -/
def Flags.result (f : Flags) : Result :=
  if f.timeout then .eTimeout else if f.underrun then .eUnderrun else if f.unconsumed then .eUnconsumed else .ok

/-- A bit's weight-one value. -/
def bit (b : Bool) : Nat := if b then 1 else 0

/-- `RC.FLAGS` as a number: bit 0 underrun, bit 1 timeout, bit 2 unconsumed (R30). -/
def Flags.code (f : Flags) : Nat := bit f.underrun + 2 * bit f.timeout + 4 * bit f.unconsumed

/-- The encoding of `RC.STATE` (`41_ring_controller.md` R125). -/
def RcState.code : RcState → Nat
  | .idle => 0
  | .setup => 1
  | .fill => 2
  | .start => 3
  | .drain => 4
  | .sleep => 5
  | .check => 6

/-- The encoding of `SEQ[q].PHASE` (`43_command_sequencer.md` R170). -/
def Phase.code : Phase → Nat
  | .none => 0
  | .validate => 1
  | .acq => 2
  | .clock => 3
  | .poll => 4
  | .xfer => 5
  | .backoff => 6
  | .pace => 7
  | .release => 8

/-- `CFG.CTRL` as read (R25): LOCKED, CFG_ERR, HW_ERR, FATAL in bits 0 to 3. -/
def State.cfgCtrl (s : State) : Word :=
  BitVec.ofNat 32 (bit s.cfg.locked + 2 * bit s.cfg.cfgErr + 4 * bit s.cfg.hwErr + 8 * bit s.cfg.fatal)

/-- `RC_STATUS` (R30): STATE 3:0, BUSY 4, CUR 6:5, RESULT 15:8, FLAGS 18:16, OWNER 23:19. -/
def State.rcStatus (s : State) : Word :=
  BitVec.ofNat 32
    (s.rc.state.code + 16 * bit (decide (s.rc.state ≠ .idle)) + 32 * s.rc.cur.val
      + 256 * s.rc.result.code.toNat + 65536 * s.rc.flags.code + 524288 * s.rc.owner.val)

/-- `TK_STATUS` (R32): HELD 0, HOLDER 12:8 when held. -/
def State.tkStatus (s : State) : Word :=
  match s.tk.state with
  | .idle => 0
  | .held => BitVec.ofNat 32 (1 + 256 * s.tk.holder.val)

/-- `TK_WAIT` (R32): bit q is set when q waits; bits at and above `P_NREQ` read 0. -/
def State.tkWait (s : State) : Word := s.tk.wait &&& BitVec.ofNat 32 (2 ^ s.par.nreq - 1)

/-- `PORT_STATUS` (R33): BUSY 0, BLOCKED 1, OVR 2, PHASE 7:4, opcode 15:8. -/
def PortState.status (p : PortState) : Word :=
  BitVec.ofNat 32
    (bit p.busy + 2 * bit p.blocked + 4 * bit p.ovr + 16 * p.seq.phase.code + 256 * p.opcode.toNat)

end Sys2Proof.Machine
end

