-- ==== Sys2Proof/Machine/Consumer.lean ====
section
/-! DEFINITION. The reference consumer CP (`41_ring_controller.md` R136-R143, log 24). Its START effect is part of
RC's START step (`ringStart`). -/

namespace Sys2Proof.Machine

/-- `Gc = P_HW_CHANNELS / 8`: the group size the firmware is built for (R136). -/
def State.consumerGroup (s : State) : Nat := s.par.hwChannels / 8

/-- An `end_addr` that lies outside its region's payload or on no group boundary (R138, R142). -/
def State.badEnd (s : State) (r : Region) : Bool :=
  decide (s.endAddr r < s.base r + 8) || decide (s.base r + s.cap r < s.endAddr r + s.consumerGroup)
    || decide ((s.endAddr r - s.base r - 8) % s.consumerGroup ≠ 0)

/-- The number of groups up to and with the one at `end_addr` (R138). -/
def State.groupCount (s : State) (r : Region) : Nat := (s.endAddr r - s.base r - 8) / s.consumerGroup + 1

/-- The groups CONSUME clocks out of a region, in order (R138). -/
def State.regionGroups (s : State) (r : Region) : List (List Byte) :=
  (List.range (s.groupCount r)).map fun m => s.loadBytes (s.base r + 8 + m * s.consumerGroup) s.consumerGroup

/-- `CP.MODE <- HUNG`. -/
def State.hang (s : State) : State := s.setCp { s.cp with mode := .hung }

/-- The region whose base an address is (R138). -/
def State.regionOfBase (s : State) (a : Nat) : Option Region := (List.finRange 3).find? fun r => decide (s.base r = a)

/-- The consumer follows `next_addr`; an address that is no region's base hangs it (R138, R142). -/
def State.followNext (s : State) (r : Region) : State :=
  match s.regionOfBase (s.nextAddr r) with
  | some r' => s.setCp { s.cp with c := r' }
  | none => s.hang

/-- CONSUME of a region with a good `end_addr`: clock the groups out, clear `end_addr`, follow `next_addr`
(R138). -/
def State.consumeRegion (s : State) (r : Region) : State :=
  (({ s with out := s.out ++ s.regionGroups r }).memWrite (s.base r) 4 0).followNext r

/-- `CONSUME` (R138), enabled when CP is RUNNING at a region whose `end_addr` is nonzero. -/
def cpConsume (s : State) : State :=
  if s.cp.mode = .running ∧ s.endAddr s.cp.c ≠ 0 then
    if s.badEnd s.cp.c then s.hang else s.consumeRegion s.cp.c
  else s

/-- `STOP`, first half (R139): from RUNNING at an empty region to LATCH. -/
def cpLatch (s : State) : State :=
  if s.cp.mode = .running ∧ s.endAddr s.cp.c = 0 then s.setCp { s.cp with mode := .latch } else s

/-- `STOP`, second half (R139): from LATCH to STOPPED. -/
def cpStop (s : State) : State :=
  if s.cp.mode = .latch then s.setCp { s.cp with mode := .stopped } else s

/-- `HANG` (R140): from RUNNING or LATCH. -/
def cpHang (s : State) : State := if s.cp.mode = .running ∨ s.cp.mode = .latch then s.hang else s

end Sys2Proof.Machine
end

