-- ==== Sys2Proof/Machine/Operands.lean ====
section
/-! DEFINITION. The operand forms (`30_encoding.md` R81, R82, R83): four argument registers of the issuing port,
latched at issue. There are no immediates and no addressing modes. -/

namespace Sys2Proof.Machine

/-- The operands latched at issue: `a0, a1, a2, a3 <- Q[q].ARG0 .. ARG3` (R81). -/
structure Operands where
  a0 : Word
  a1 : Word
  a2 : Word
  a3 : Word
  deriving DecidableEq, Repr

/-- The argument registers of port q (R81). -/
def State.operands (s : State) (q : Port) : Operands :=
  ⟨(s.port q).arg0, (s.port q).arg1, (s.port q).arg2, (s.port q).arg3⟩

/-- XFER and SHOW: ARG0 is the frame index (R83). -/
def Operands.frame (o : Operands) : Word := o.a0

/-- XFER, SHOW and PLAY: ARG1 is the store id (R83). -/
def Operands.store (o : Operands) : Word := o.a1

/-- PLAY: ARG0 is `from` (R83). -/
def Operands.first (o : Operands) : Word := o.a0

/-- PLAY: ARG2 is `to` (R83). -/
def Operands.upto (o : Operands) : Word := o.a2

/-- PLAY: ARG3 is `fps` (R83). -/
def Operands.fps (o : Operands) : Word := o.a3

/-- The datagram receiver writes a SHOW's operands (R92): ARG0 and ARG1. -/
def State.writeShowArgs (s : State) (q : Port) (frame store : Word) : State :=
  s.setPort q { s.port q with arg0 := frame, arg1 := store }

/-- The datagram receiver writes a PLAY's operands (R92): ARG0 to ARG3. -/
def State.writePlayArgs (s : State) (q : Port) (first store upto fps : Word) : State :=
  s.setPort q { s.port q with arg0 := first, arg1 := store, arg2 := upto, arg3 := fps }

end Sys2Proof.Machine
end

