-- ==== Sys2Proof/Machine/Ring.lean ====
section
/-! DEFINITION. The ring controller RC: validation, the XFER command and the per-frame state machine
(`41_ring_controller.md` R120-R135). -/

namespace Sys2Proof.Machine

/-! ### Sizing -/

/-- `U(r, G)`: the usable bytes of a region of capacity `cap` (R123). -/
def usableBytes (cap g : Nat) : Nat := (cap - 8) / g / 24 * 24 * g

/-- `U(r, G)` of region r. -/
def State.usable (s : State) (r : Region) (g : Nat) : Nat := usableBytes (s.cap r) g

/-! ### Validation (R121) -/

/-- What `Validate` returns for a frame it accepts. -/
structure Frame where
  nc     : Nat
  nl     : Nat
  offset : Nat
  deriving DecidableEq, Repr

/-- `Validate(s, f)` (R121), in its order. It writes nothing. -/
def State.validate (s : State) (store frame : Word) : Except Result Frame :=
  match s.par.stores[store.toNat]? with
  | none => .error .eIo
  | some f =>
    if f.bytes.length < headerSize f.variant then .error .eIo
    else if fsWord f 0 ≠ s.par.hwChannels then .error .eChannels
    else if fsWord f 4 = 0 ∨ 2 ^ 32 - 1 < fsWord f 0 * fsWord f 4 * 3 then .error .eIo
    else if f.bytes.length ≠ headerSize f.variant + frameCount f * (fsWord f 0 * fsWord f 4 * 3) then .error .eIo
    else if frameCount f ≤ frame.toNat then .error .eRange
    else if (List.finRange 3).any fun r => decide (s.usable r (fsWord f 0 / 8) = 0) then .error .eConfig
    else .ok ⟨fsWord f 0, fsWord f 4, headerSize f.variant + frame.toNat * (fsWord f 0 * fsWord f 4 * 3)⟩

/-! ### The XFER effect, from Validate on (R120) -/

/-- How the XFER effect begins. -/
inductive XferStart
  /-- Validation failed: the code, and the state with `RC.RESULT` and `RC.FLAGS` written. -/
  | failed (e : Result) (s : State)
  /-- The transfer runs and the port holds. -/
  | started (s : State)
  /-- `RC.STATE != IDLE` (`60_exceptions.md` R213). -/
  | reentry

/-- RC loaded with a validated frame for port q: `RC.STATE <- SETUP` (R120). -/
def Rc.load (rc : Rc) (q : Port) (store : Word) (v : Frame) : Rc :=
  { rc with
    owner := q, store := store, src := BitVec.ofNat 32 v.offset
    total := BitVec.ofNat 32 (v.nc * v.nl * 3), cursor := 0, g := BitVec.ofNat 4 (v.nc / 8)
    state := .setup }

/-- The XFER effect for port q (R120, R172, R174): validate, then start the transfer. -/
def State.startXfer (s : State) (q : Port) (frame store : Word) : XferStart :=
  match s.validate store frame with
  | .error e => .failed e (s.setRc { s.rc with result := e, flags := Flags.clear })
  | .ok v =>
    if s.rc.state ≠ .idle then .reentry
    else .started ((s.setRc (s.rc.load q store v)).setBlocked q true)

/-- XFER by port q, which is ready and holds the token (R120). -/
def State.xferFor (s : State) (q : Port) : Host.Outcome State Fault Refusal :=
  match s.startXfer q (s.operands q).frame (s.operands q).store with
  | .failed e s' => raise q e s'
  | .started s' => .next s'
  | .reentry => .fault .rcReentry

/-- `XFER` (R120). -/
def execXfer (s : State) : Host.Outcome State Fault Refusal :=
  if !s.ready then raise s.issuer .eNotReady s
  else if !s.holds s.issuer then raise s.issuer .eNotHolder s
  else s.xferFor s.issuer

/-! ### The state machine -/

/-- The number of bytes FillRegion writes: `min(U(r, RC.G), RC.TOTAL - RC.CURSOR)` (R124). -/
def State.fillCount (s : State) (r : Region) : Nat :=
  min (s.usable r s.rc.g.toNat) (s.rc.total.toNat - s.rc.cursor.toNat)

/-- The bytes FillRegion copies, defined only inside the store (R124). -/
def State.fillBytes (s : State) (r : Region) : Option (List Byte) :=
  match s.par.stores[s.rc.store.toNat]? with
  | none => none
  | some f => fsSlice f (s.rc.src.toNat + s.rc.cursor.toNat) (s.fillCount r)

/-- FillRegion with its bytes: payload first, `end_addr` last, then the cursor (R124, `20_memory.md` R59). -/
def State.fillWith (s : State) (r : Region) (bs : List Byte) : State :=
  let s' := (s.storeBytes (s.base r + 8) bs).memWrite (s.base r) 4 (s.base r + 8 + bs.length - s.rc.g.toNat)
  s'.setRc { s'.rc with cursor := BitVec.ofNat 32 (s.rc.cursor.toNat + bs.length) }

/-- `FillRegion(r)` (R124); none where `FsRead` is undefined. -/
def State.fillRegion (s : State) (r : Region) : Option State := (s.fillBytes r).map (s.fillWith r)

/-- SETUP's headers of one region (R126). -/
def State.setupRegion (s : State) (r : Region) : State :=
  (s.memWrite (s.base r) 4 0).memWrite (s.base r + 4) 4 (s.base (r + 1))

/-- `SETUP` (R126). -/
def ringSetup (s : State) : State :=
  let s' := (List.finRange 3).foldl State.setupRegion s
  s'.setRc { s'.rc with fillIdx := 0, state := .fill }

/-- The region FILL fills next, while there is one (R127). -/
def fillTarget (i : BitVec 2) : Option Region := if h : i.toNat < 3 then some ⟨i.toNat, h⟩ else none

/-- FILL with nothing left to fill: the current region is the one after the last filled (R127). -/
def ringFillDone (s : State) : State :=
  s.setRc { s.rc with cur := Fin.ofNat 3 s.rc.fillIdx.toNat, state := .start }

/-- `FILL` (R127): one region a step, while payload remains. -/
def ringFill (s : State) : Host.Outcome State Fault Refusal :=
  match fillTarget s.rc.fillIdx with
  | none => .next (ringFillDone s)
  | some r =>
    if s.rc.cursor.toNat < s.rc.total.toNat then
      match s.fillRegion r with
      | some s' => .next (s'.setRc { s'.rc with fillIdx := s'.rc.fillIdx + 1 })
      | none => .fault .fsRange
    else .next (ringFillDone s)

/-- `Deadline()` (R131). -/
def State.deadline (s : State) : Nat :=
  s.rc.total.toNat / s.rc.g.toNat * s.par.tBit.toNat + s.par.tReset.toNat

/-- `START` (R128), with the START effect of the consumer (R137, R141). -/
def ringStart (s : State) : State :=
  let s' := s.setRc { s.rc with t0 := s.tNow, deadline := BitVec.ofNat 64 s.deadline, state := .drain }
  { s'.setCp ⟨.running, 0⟩ with out := [] }

/-- "Under the deadline": `T_NOW - RC.T0 < RC.DEADLINE`, strict (R135). -/
def State.underDeadline (s : State) : Bool := decide (s.tNow.toNat - s.rc.t0.toNat < s.rc.deadline.toNat)

/-- DRAIN with nothing to refill: sleep one poll interval (R129). -/
def ringSleepNow (s : State) : State :=
  s.setRc { s.rc with wake := fitU64 (s.tNow.toNat + s.par.tPoll.toNat), state := .sleep }

/-- `DRAIN` (R129). -/
def ringDrain (s : State) : Host.Outcome State Fault Refusal :=
  if !(s.isRunning && s.underDeadline) then .next (s.setRc { s.rc with state := .check })
  else if s.rc.cursor.toNat < s.rc.total.toNat ∧ s.endAddr s.rc.cur = 0 then
    match s.fillRegion s.rc.cur with
    | some s' => .next (s'.setRc { s'.rc with cur := s'.rc.cur + 1 })
    | none => .fault .fsRange
  else .next (ringSleepNow s)

/-- `SLEEP` (R130): no step before the wake time. -/
def ringSleep (s : State) : State :=
  if s.tNow.toNat < s.rc.wake.toNat then s else s.setRc { s.rc with state := .drain }

/-- The end of the owner's XFER when RC reaches IDLE (R120, R134). A plain XFER completes with `RC.RESULT`; the
XFER phase of a macro-command goes on by a step of its own port (log 11). -/
def State.finishOwner (s : State) : State :=
  match (s.port s.rc.owner).seq.kind with
  | .none => s.complete s.rc.owner s.rc.result
  | .showCmd => s
  | .playCmd => s
  | .stopCmd => s

/-- `CHECK` (R132, R133): the flags, the result, IDLE, and the owner's completion in the same step. -/
def ringCheck (s : State) : State :=
  (s.setRc { s.rc with flags := s.completionFlags, result := s.completionFlags.result, state := .idle }).finishOwner

/-- One step of RC (R125). In IDLE it has none. -/
def ringStep (s : State) : Host.Outcome State Fault Refusal :=
  match s.rc.state with
  | .idle => .next s
  | .setup => .next (ringSetup s)
  | .fill => ringFill s
  | .start => .next (ringStart s)
  | .drain => ringDrain s
  | .sleep => .next (ringSleep s)
  | .check => .next (ringCheck s)

end Sys2Proof.Machine
end

