-- ==== Sys2Proof/Machine/Token.lean ====
section
/-! DEFINITION. The token arbiter TK: ACQUIRE, GRANT, TRY_HANDOFF, RELEASE (`42_token_arbiter.md`). -/

namespace Sys2Proof.Machine

/-- Port q already holds the token or already waits for it: `E_REENTRY` (R151). -/
def State.reentrant (s : State) (q : Port) : Bool := s.holds q || s.waiting q

/-- Port q enters `TK.WAIT` and holds (R151). -/
def State.enterWait (s : State) (q : Port) : State := (s.enqueue q).setBlocked q true

/-- ACQUIRE by port q, which is ready (R151). -/
def State.acquireFor (s : State) (q : Port) : State :=
  if s.reentrant q then s.complete q .eReentry else s.enterWait q

/-- `ACQUIRE` (R151). -/
def execAcquire (s : State) : Host.Outcome State Fault Refusal :=
  if s.ready then .next (s.acquireFor s.issuer) else raise s.issuer .eNotReady s

/-- `GRANT` (R152), enabled when TK is IDLE and some port waits. -/
def grantStep (s : State) : State :=
  match s.tk.state with
  | .held => s
  | .idle =>
    match s.drawWaiter with
    | some w => s.grantTo w
    | none => s

/-- The TRY_HANDOFF effect for port q (R153): the state, and `PREEMPTED`, `STILL_HELD` or `E_NOT_HOLDER`. It
does not complete the port. -/
def State.handoffFor (s : State) (q : Port) : State × Result :=
  if !s.holds q then (s, .eNotHolder)
  else match s.drawWaiter with
    | some w => (s.grantTo w, .preempted)
    | none => (s, .stillHeld)

/-- `TRY_HANDOFF` (R153). -/
def execTryHandoff (s : State) : Host.Outcome State Fault Refusal :=
  if s.ready then raise s.issuer (s.handoffFor s.issuer).2 (s.handoffFor s.issuer).1
  else raise s.issuer .eNotReady s

/-- The RELEASE effect for port q (R154): the state, and `OK` or `E_NOT_HOLDER`. It does not complete the
port. -/
def State.releaseFor (s : State) (q : Port) : State × Result :=
  if s.holds q then (s.freeToken, .ok) else (s, .eNotHolder)

/-- `RELEASE` (R154). -/
def execRelease (s : State) : Host.Outcome State Fault Refusal :=
  if s.ready then raise s.issuer (s.releaseFor s.issuer).2 (s.releaseFor s.issuer).1
  else raise s.issuer .eNotReady s

end Sys2Proof.Machine
end

