-- ==== Sys2Proof/Machine/Sequencer.lean ====
section
/-! DEFINITION. The command sequencer SEQ: the macro-commands SHOW, PLAY and STOP and their phases
(`43_command_sequencer.md` R170-R179). -/

namespace Sys2Proof.Machine

/-! ### Issue -/

/-- SHOW's context at issue (R172): `KIND <- SHOW, IDX <- f, STORE <- s`, first phase VALIDATE. -/
def Seq.forShow (x : Seq) (o : Operands) : Seq :=
  { x with phase := .validate, kind := .showCmd, idx := o.frame, store := o.store }

/-- PLAY's context at issue (R174): `KIND <- PLAY`, `FROM`, `STORE`, `TO`, `FPS`, first phase VALIDATE. -/
def Seq.forPlay (x : Seq) (o : Operands) : Seq :=
  { x with phase := .validate, kind := .playCmd, first := o.first, store := o.store, upto := o.upto, fps := o.fps }

/-- STOP's context at issue (R178): `KIND <- STOP`, first phase ACQ. -/
def Seq.forStop (x : Seq) : Seq := { x with phase := .acq, kind := .stopCmd }

/-- SHOW begins on port q, which is ready. -/
def State.beginShow (s : State) (q : Port) : State := s.setSeq q ((s.port q).seq.forShow (s.operands q))

/-- PLAY begins on port q, which is ready. -/
def State.beginPlay (s : State) (q : Port) : State := s.setSeq q ((s.port q).seq.forPlay (s.operands q))

/-- STOP begins on port q, which is ready. -/
def State.beginStop (s : State) (q : Port) : State := s.setSeq q (s.port q).seq.forStop

/-- `SHOW` (R172), its issue; the phases are steps of the port. -/
def execShowFrame (s : State) : Host.Outcome State Fault Refusal :=
  if s.ready then .next (s.beginShow s.issuer) else raise s.issuer .eNotReady s

/-- `PLAY` (R174), its issue; the phases are steps of the port. -/
def execPlayFrames (s : State) : Host.Outcome State Fault Refusal :=
  if s.ready then .next (s.beginPlay s.issuer) else raise s.issuer .eNotReady s

/-- `STOP` (R178), its issue; the phases are steps of the port. -/
def execStopPlayback (s : State) : Host.Outcome State Fault Refusal :=
  if s.ready then .next (s.beginStop s.issuer) else raise s.issuer .eNotReady s

/-! ### Shared phases -/

/-- An invalid command (R171): `LOG(CMD_INVALID, q, E)`, complete E. -/
def State.invalidCommand (s : State) (q : Port) (e : Result) : State :=
  (s.logEvent (some q) .cmdInvalid e.word 0).complete q e

/-- The phase that follows ACQ (R172, R174, R178). -/
def Kind.afterAcq : Kind → Phase
  | .none => .none
  | .showCmd => .poll
  | .playCmd => .clock
  | .stopCmd => .release

/-- `ACQ` (R172, R174, R178): enter `TK.WAIT`, or `E_REENTRY`; while the port holds there it has no step; once it
is granted its next step goes on to the phase after ACQ (`60_exceptions.md` R212, log 10). -/
def acqPhase (q : Port) (s : State) : State :=
  if (s.port q).blocked then s
  else if (s.port q).seq.queued then
    s.setSeq q { (s.port q).seq with phase := (s.port q).seq.kind.afterAcq, queued := false }
  else if s.reentrant q then s.complete q .eReentry
  else (s.setSeq q { (s.port q).seq with queued := true }).enterWait q

/-- `POLL` (R172, R174): go on to XFER with the token still held, or end with `PREEMPTED`; a port that does not
hold the token ends with `E_NOT_HOLDER` (log 13). -/
def pollPhase (q : Port) (s : State) : State :=
  match (s.handoffFor q).2 with
  | .stillHeld => (s.handoffFor q).1.setPhase q .xfer
  | r => (s.handoffFor q).1.complete q r

/-- A sleep of the port until `wake` (R172 BACKOFF, R174 PACE): `BLOCKED` while the time is not reached
(log 12). -/
def State.sleepUntil (s : State) (q : Port) (p : Phase) (wake : U64) : State :=
  s.setPort q
    { s.port q with
      blocked := decide (s.tNow.toNat < wake.toNat)
      seq := { (s.port q).seq with phase := p, wake := wake } }

/-- The end of such a sleep: back to POLL at the first step with `T_NOW >= WAKE`
(`70_reset_and_hazards.md` R244). -/
def wakePhase (q : Port) (s : State) : State :=
  if s.tNow.toNat < (s.port q).seq.wake.toNat then s else (s.setPhase q .poll).setBlocked q false

/-- A failed transfer in `P_MODE = STANDALONE` (R179): FATAL, its log event, and the command ends with the
code. -/
def State.fatalTransfer (s : State) (q : Port) (res : Result) : State :=
  ((s.logEvent (some q) .fatal res.word 0).enterFatal (some q)).complete q res

/-- `SEQ[q].LAST <- res`, and the hold of the XFER phase is over (log 11). -/
def State.recordLast (s : State) (q : Port) (res : Result) : State :=
  s.setPort q { s.port q with blocked := false, seq := { (s.port q).seq with last := res } }

/-! ### SHOW (R172) -/

/-- SHOW's `VALIDATE`. -/
def showValidate (q : Port) (s : State) : State :=
  match s.validate (s.port q).seq.store (s.port q).seq.idx with
  | .error e => s.invalidCommand q e
  | .ok _ => s.setPhase q .acq

/-- A failed transfer of SHOW: FATAL in STANDALONE, else the backoff before the retry (R172, R173, R179). -/
def showRetry (q : Port) (res : Result) (s : State) : State :=
  match s.par.mode with
  | .standalone => s.fatalTransfer q res
  | .server => s.sleepUntil q .backoff (fitU64 (s.tNow.toNat + s.par.showBackoff))

/-- SHOW's `XFER` after the transfer ended with `res`. -/
def showXferDone (q : Port) (res : Result) (s : State) : State :=
  if res = .ok then
    ((s.recordLast q res).logEvent (some q) .showOk (s.port q).seq.idx 0).setPhase q .release
  else
    showRetry q res ((s.recordLast q res).logEvent (some q) .showFail (s.port q).seq.idx res.word)

/-- SHOW's `XFER`: start the transfer, hold while it runs, then handle its result. -/
def showXfer (q : Port) (s : State) : Host.Outcome State Fault Refusal :=
  if (s.port q).blocked then
    if s.rc.state = .idle then .next (showXferDone q s.rc.result s) else .next s
  else match s.startXfer q (s.port q).seq.idx (s.port q).seq.store with
    | .failed e s' => .next (showXferDone q e s')
    | .started s' => .next s'
    | .reentry => .fault .rcReentry

/-- SHOW's `RELEASE`. -/
def showRelease (q : Port) (s : State) : State := (s.releaseFor q).1.complete q (s.releaseFor q).2

/-- SHOW's phases. -/
def showStep (q : Port) (s : State) : Host.Outcome State Fault Refusal :=
  match (s.port q).seq.phase with
  | .validate => .next (showValidate q s)
  | .acq => .next (acqPhase q s)
  | .poll => .next (pollPhase q s)
  | .xfer => showXfer q s
  | .backoff => .next (wakePhase q s)
  | .release => .next (showRelease q s)
  | .none => .next s
  | .clock => .next s
  | .pace => .next s

/-! ### PLAY (R174-R176) -/

/-- PLAY's own range check: `fps = 0` or `from > to` (R174). -/
def playRangeBad (x : Seq) : Bool := decide (x.fps.toNat = 0) || decide (x.upto.toNat < x.first.toNat)

/-- PLAY's `VALIDATE`: the range check, then `Validate(s, to)`. -/
def playValidate (q : Port) (s : State) : State :=
  if playRangeBad (s.port q).seq then s.invalidCommand q .eRange
  else match s.validate (s.port q).seq.store (s.port q).seq.upto with
    | .error e => s.invalidCommand q e
    | .ok _ => s.setPhase q .acq

/-- PLAY's `CLOCK`: `T0 <- T_NOW`. -/
def playClock (q : Port) (s : State) : State :=
  s.setSeq q { (s.port q).seq with t0 := s.tNow, phase := .poll }

/-- `PlayIndex()` (R175), on unbounded naturals. -/
def playIndex (x : Seq) (now : Nat) : Nat :=
  min x.upto.toNat (x.first.toNat + (now - x.t0.toNat) * x.fps.toNat / 1000000000)

/-- `NextDeadline(idx)` (R176), on unbounded naturals. -/
def nextDeadline (x : Seq) (idx : Nat) : Nat :=
  x.t0.toNat + ceilDiv ((idx - x.first.toNat + 1) * 1000000000) x.fps.toNat

/-- PLAY goes on pacing after a frame: PACE until `NextDeadline(idx)` (R174). -/
def playPace (q : Port) (s : State) : State :=
  s.sleepUntil q .pace (fitU64 (nextDeadline (s.port q).seq (s.port q).seq.idx.toNat))

/-- A failed frame: FATAL in STANDALONE, else the pacing goes on (R174, R179). -/
def playFailed (q : Port) (res : Result) (s : State) : State :=
  match s.par.mode with
  | .standalone => s.fatalTransfer q res
  | .server => playPace q s

/-- PLAY's `XFER` after the transfer of frame `IDX` ended with `res`. -/
def playXferDone (q : Port) (res : Result) (s : State) : State :=
  let s' := (s.recordLast q res).logEvent (some q) .playFrame (s.port q).seq.idx res.word
  if res = .ok then
    if (s.port q).seq.idx = (s.port q).seq.upto then s'.setPhase q .release else playPace q s'
  else playFailed q res s'

/-- `SEQ[q].IDX <- PlayIndex()`. -/
def State.choosePlayIndex (s : State) (q : Port) : State :=
  s.setSeq q { (s.port q).seq with idx := BitVec.ofNat 32 (playIndex (s.port q).seq s.tNow.toNat) }

/-- PLAY's `XFER`: choose the frame, start the transfer, hold while it runs, then handle its result. -/
def playXfer (q : Port) (s : State) : Host.Outcome State Fault Refusal :=
  if (s.port q).blocked then
    if s.rc.state = .idle then .next (playXferDone q s.rc.result s) else .next s
  else
    let s1 := s.choosePlayIndex q
    match s1.startXfer q (s1.port q).seq.idx (s1.port q).seq.store with
    | .failed e s' => .next (playXferDone q e s')
    | .started s' => .next s'
    | .reentry => .fault .rcReentry

/-- PLAY's `RELEASE`: `LOG(PLAY_DONE, q, to)` and complete OK. A port that does not hold the token ends with
`E_NOT_HOLDER` and logs nothing (log 13). -/
def playRelease (q : Port) (s : State) : State :=
  match (s.releaseFor q).2 with
  | .ok => ((s.releaseFor q).1.logEvent (some q) .playDone (s.port q).seq.upto 0).complete q .ok
  | r => (s.releaseFor q).1.complete q r

/-- PLAY's phases. -/
def playStep (q : Port) (s : State) : Host.Outcome State Fault Refusal :=
  match (s.port q).seq.phase with
  | .validate => .next (playValidate q s)
  | .acq => .next (acqPhase q s)
  | .clock => .next (playClock q s)
  | .poll => .next (pollPhase q s)
  | .xfer => playXfer q s
  | .pace => .next (wakePhase q s)
  | .release => .next (playRelease q s)
  | .none => .next s
  | .backoff => .next s

/-! ### STOP (R178) -/

/-- STOP's `RELEASE`. -/
def stopRelease (q : Port) (s : State) : State := (s.releaseFor q).1.complete q (s.releaseFor q).2

/-- STOP's phases. -/
def stopStep (q : Port) (s : State) : Host.Outcome State Fault Refusal :=
  match (s.port q).seq.phase with
  | .acq => .next (acqPhase q s)
  | .release => .next (stopRelease q s)
  | .none => .next s
  | .validate => .next s
  | .clock => .next s
  | .poll => .next s
  | .xfer => .next s
  | .backoff => .next s
  | .pace => .next s

/-! ### A port's own step (R170) -/

/-- One phase step of port q. An idle port, a port that runs a plain command and a phase that holds have none
(log 16, log 28). -/
def portStep (q : Port) (s : State) : Host.Outcome State Fault Refusal :=
  if s.portExists q && (s.port q).busy then
    match (s.port q).seq.kind with
    | .none => .next s
    | .showCmd => showStep q s
    | .playCmd => playStep q s
    | .stopCmd => stopStep q s
  else .next s

end Sys2Proof.Machine
end

