-- ==== Sys2Proof/Machine/Datagram.lean ====
section
/-! DEFINITION. The datagram receiver's dispatch (`43_command_sequencer.md` R180-R186): the meanings of the
datagram forms. -/

namespace Sys2Proof.Machine

/-- `Resolve(path)` (R183): none is `MISSING` (log 32). -/
def State.resolvePath (s : State) (path : List Byte) : Option Word := s.par.resolve.lookup path

/-- The lowest-numbered port with `BUSY = 0` (R181). DESIGN CHOICE: of the two ways R186 allows, the receiver shares
every port with software and so admits the race on it; it has no ports of its own (log 37). -/
def State.freePort (s : State) : Option Port := (List.finRange 32).find? fun q => s.portExists q && !(s.port q).busy

/-- The receiver logs a path that resolves to `MISSING` (R183). -/
def State.logMissing (s : State) : State := s.logEvent none .ioError 0 0

/-- The receiver logs a datagram it drops because every port is busy (R181). -/
def State.logDropped (s : State) (op : Byte) : State := s.logEvent none .dgramDropped (op.setWidth 32) 0

/-- The receiver logs text it does not recognise (R182). -/
def State.logUnrecognised (s : State) (d : List Byte) : State :=
  s.logEvent none .dgramUnrecognized (fitWord d.length) 0

/-- Dispatching SHOW on port q: its operands, then its command word (R181, R92). -/
def State.issueShow (s : State) (q : Port) (frame store : Word) : State :=
  ((s.writeShowArgs q frame store).beginCommand q 0x30#8).beginShow q

/-- Dispatching PLAY on port q (R181, R92). -/
def State.issuePlay (s : State) (q : Port) (first store upto fps : Word) : State :=
  ((s.writePlayArgs q first store upto fps).beginCommand q 0x31#8).beginPlay q

/-- Dispatching STOP on port q (R181, R92). -/
def State.issueStop (s : State) (q : Port) : State := (s.beginCommand q 0x32#8).beginStop q

/-- The datagram `show <input-path> <frameIndex>` (R180-R183): resolved, then dispatched on a free port. Before
the lock and in FATAL it is not taken (`70_reset_and_hazards.md` R231, `60_exceptions.md` R214). -/
def execShowDatagram (path : List Byte) (frame : Word) (s : State) : Host.Outcome State Fault Refusal :=
  if !s.ready then .next s
  else match s.resolvePath path with
    | none => .next s.logMissing
    | some store =>
      match s.freePort with
      | none => .next (s.logDropped 0x30#8)
      | some q => .next (s.issueShow q frame store)

/-- The datagram `play <input-path> <from> to <to> @ <fps> fps` (R180-R183). -/
def execPlayDatagram (path : List Byte) (first last fps : Word) (s : State) : Host.Outcome State Fault Refusal :=
  if !s.ready then .next s
  else match s.resolvePath path with
    | none => .next s.logMissing
    | some store =>
      match s.freePort with
      | none => .next (s.logDropped 0x31#8)
      | some q => .next (s.issuePlay q first store last fps)

/-- The datagram `stop` (R180, R181). -/
def execStopDatagram (s : State) : Host.Outcome State Fault Refusal :=
  if !s.ready then .next s
  else match s.freePort with
    | none => .next (s.logDropped 0x32#8)
    | some q => .next (s.issueStop q)

end Sys2Proof.Machine
end

