-- ==== Sys2Proof/Machine/Encoder.lean ====
section
/-! DEFINITION. The frame encoder ENC: the bit-transposed layout and the ENCODE command (`40_encoder.md`). -/

namespace Sys2Proof.Machine

/-! ### The layout -/

/-- `Pack(r, g, b) = (g << 16) | (r << 8) | b` (R100). -/
def packColour (c : Colour) : BitVec 24 :=
  (c.g.setWidth 24 <<< 16) ||| (c.r.setWidth 24 <<< 8) ||| c.b.setWidth 24

/-- `Slot(c, i)`: the packed bit in stream slot `i` (R101). -/
def slotBit (order : SlotOrder) (c : BitVec 24) (i : Nat) : Bool :=
  match order with
  | .msbFirst => c.getLsbD (23 - i)
  | .packed => c.getLsbD i

/-- `Idx(p, i, ch)`, the global bit index (R102). -/
def bitIndex (nc p i ch : Nat) : Nat := p * 24 * nc + i * nc + ch

/-- The weight of bit-in-byte `k` (R103). -/
def bitWeight (order : BitOrder) (k : Nat) : Byte :=
  match order with
  | .lsb0 => 1#8 <<< k
  | .msb0 => 1#8 <<< (7 - k)

/-- Whether the bit of index `x` is set in a payload (R103). -/
def bitSet (order : BitOrder) (buf : List Byte) (x : Nat) : Bool :=
  decide (buf.getD (x / 8) 0 &&& bitWeight order (x % 8) ≠ 0)

/-- `BitAt(buf, p, i, ch)` (R112). -/
def bitAt (order : BitOrder) (nc : Nat) (buf : List Byte) (p i ch : Nat) : Bool :=
  bitSet order buf (bitIndex nc p i ch)

/-- `buf[x / 8] <- buf[x / 8] | weight (x % 8)` (R107). -/
def orBit (order : BitOrder) (buf : List Byte) (x : Nat) : List Byte :=
  buf.set (x / 8) (buf.getD (x / 8) 0 ||| bitWeight order (x % 8))

/-- The payload size `NC * NL * 3` (R104). -/
def payloadBytes (nc nl : Nat) : Nat := nc * nl * 3

/-! ### The configuration host's counts -/

/-- The smallest legal channel count for the largest channel index: `8 * ceil_div(1 + max CH, 8)` (R105, log 40). -/
def hostChannelCount (rows : List PanelRow) : Nat :=
  8 * ceilDiv (1 + (rows.map fun r => r.ch.toNat).foldl max 0) 8

/-- The LED count `max_k (NREAL + NBUF)` (R106). -/
def hostLedCount (rows : List PanelRow) : Nat :=
  (rows.map fun r => r.nreal.toNat + r.nbuf.toNat).foldl max 0

/-! ### The ENCODE command (R107) -/

/-- `PANEL[k]`. -/
def State.row (s : State) (k : PanelIx) : PanelRow := s.panel.get k

/-- The valid rows: `k < CFG.NP` (`10_state.md` R24). -/
def State.validRows (s : State) : List PanelIx := (List.finRange 48).filter fun k => decide (k.val < s.cfg.np.toNat)

/-- `CS(k, j)` in this step (`10_state.md` R38, `70_reset_and_hazards.md` R239): the value presented at the
port, a free value where none is listed (log 9). -/
def State.colourAt (s : State) (k : PanelIx) (j : Nat) : Colour :=
  ((s.colours[k.val]?).bind fun row => row[j]?).getD (Config.freeColour s.pick k.val j)

/-- The indices of the set bits of LED `j` of row `k` (R107): slots `i` with `Slot(Pack(CS(k, j)), i) = 1`. -/
def State.ledBits (s : State) (k : PanelIx) (j : Nat) : List Nat :=
  ((List.range 24).filter fun i => slotBit s.par.slotOrder (packColour (s.colourAt k j)) i).map fun i =>
    bitIndex s.cfg.nc.toNat (j + (s.row k).nbuf.toNat) i (s.row k).ch.toNat

/-- The indices of all set bits, in the order of R107's loops. -/
def State.payloadBits (s : State) : List Nat :=
  s.validRows.flatMap fun k => (List.range (s.row k).nreal.toNat).flatMap fun j => s.ledBits k j

/-- The encoded payload (R107): a zero buffer with every set bit ORed in. -/
def State.payload (s : State) : List Byte :=
  s.payloadBits.foldl (orBit s.par.bitOrder)
    (List.replicate (payloadBytes s.cfg.nc.toNat s.cfg.nl.toNat) 0#8)

/-- ENCODE on a machine that is ready, for port q: `ENC_OUT <- buf; ENC_LEN <- L`, result OK (R107). -/
def State.encodeFor (s : State) (q : Port) : State := ({ s with encOut := s.payload }).complete q .ok

/-- `ENCODE` (R107). -/
def execEncodeFrame (s : State) : Host.Outcome State Fault Refusal :=
  if s.ready then .next (s.encodeFor s.issuer) else raise s.issuer .eNotReady s

end Sys2Proof.Machine
end

