-- ==== Sys2Proof/Machine/Dispatch.lean ====
section
/-! DEFINITION. One arm per instruction: the meaning it calls. -/

namespace Sys2Proof.Machine

/-- The meaning of an instruction, for the port whose command is being issued. -/
def exec (i : Instr) (s : State) : Host.Outcome State Fault Refusal :=
  match i with
  | .encodeFrame => Sys2Proof.Machine.execEncodeFrame s
  | .xfer => Sys2Proof.Machine.execXfer s
  | .acquire => Sys2Proof.Machine.execAcquire s
  | .tryHandoff => Sys2Proof.Machine.execTryHandoff s
  | .release => Sys2Proof.Machine.execRelease s
  | .showFrame => Sys2Proof.Machine.execShowFrame s
  | .playFrames => Sys2Proof.Machine.execPlayFrames s
  | .stopPlayback => Sys2Proof.Machine.execStopPlayback s
  | .showDatagram path frame => Sys2Proof.Machine.execShowDatagram path frame s
  | .playDatagram path first last fps => Sys2Proof.Machine.execPlayDatagram path first last fps s
  | .stopDatagram => Sys2Proof.Machine.execStopDatagram s

end Sys2Proof.Machine
end

