-- ==== Sys2Proof/Machine/Registers.lean ====
section
/-! DEFINITION. The register map (`10_state.md` R40), its access rules (R41) and the configuration lock
(`70_reset_and_hazards.md` R233). A write of a `CMD` register is in `Environment.lean`. -/

namespace Sys2Proof.Machine

/-- What a 4-aligned register-space offset names (R40). -/
inductive Reg
  | cfgNc
  | cfgNl
  | cfgNp
  | hwChannels
  | timBit
  | timReset
  | timPoll
  | cfgCtrl
  | regionBase (r : Region)
  | regionCap (r : Region)
  | encLen
  | rcStatus
  | rcCursor
  | rcTotal
  | rcStore
  | rcDeadlineLo
  | rcDeadlineHi
  | tkStatus
  | tkWait
  | timeLo
  | timeHi
  | panelCh (k : PanelIx)
  | panelNreal (k : PanelIx)
  | panelNbuf (k : PanelIx)
  | cmd (q : Port)
  | arg0 (q : Port)
  | arg1 (q : Port)
  | arg2 (q : Port)
  | arg3 (q : Port)
  | result (q : Port)
  | portStatus (q : Port)
  | encOut (n : Nat)
  | reserved
  deriving DecidableEq, Repr

/-- The offset of `Q[q].CMD` (R40). -/
def cmdOffset (q : Port) : Nat := 0x400 + 32 * q.val

/-- The offset of `Q[q].ARGn` (R40). -/
def argOffset (q : Port) (n : Nat) : Nat := cmdOffset q + 4 + 4 * n

/-- The offset of the panel row k (R40). -/
def panelOffset (k : Nat) : Nat := 0x100 + 16 * k

/-- The registers below 0x100 (R40). -/
def blockReg : Nat → Reg
  | 0x000 => .cfgNc
  | 0x004 => .cfgNl
  | 0x008 => .cfgNp
  | 0x00C => .hwChannels
  | 0x010 => .timBit
  | 0x014 => .timReset
  | 0x018 => .timPoll
  | 0x01C => .cfgCtrl
  | 0x020 => .regionBase 0
  | 0x024 => .regionCap 0
  | 0x028 => .regionBase 1
  | 0x02C => .regionCap 1
  | 0x030 => .regionBase 2
  | 0x034 => .regionCap 2
  | 0x038 => .encLen
  | 0x040 => .rcStatus
  | 0x044 => .rcCursor
  | 0x048 => .rcTotal
  | 0x04C => .rcStore
  | 0x050 => .rcDeadlineLo
  | 0x054 => .rcDeadlineHi
  | 0x058 => .tkStatus
  | 0x05C => .tkWait
  | 0x060 => .timeLo
  | 0x064 => .timeHi
  | _ => .reserved

/-- A panel row's registers by offset in the row (R40). -/
def panelReg (k : PanelIx) : Nat → Reg
  | 0x0 => .panelCh k
  | 0x4 => .panelNreal k
  | 0x8 => .panelNbuf k
  | _ => .reserved

/-- A port's registers by offset in the port (R40). -/
def portReg (q : Port) : Nat → Reg
  | 0x00 => .cmd q
  | 0x04 => .arg0 q
  | 0x08 => .arg1 q
  | 0x0C => .arg2 q
  | 0x10 => .arg3 q
  | 0x14 => .result q
  | 0x18 => .portStatus q
  | _ => .reserved

/-- The register at a 4-aligned offset (R40). DESIGN CHOICE: the offsets of ports at and above `P_NREQ`, which stand in
no row of R40's map, are reserved (log 38), and so are those past `ENC_LEN` (log 18). -/
def regAt (nreq off : Nat) : Reg :=
  if off < 0x100 then blockReg off
  else if off < 0x400 then panelReg (Fin.ofNat 48 ((off - 0x100) / 16)) ((off - 0x100) % 16)
  else if off < 0x800 then
    if (off - 0x400) / 32 < nreq then portReg (Fin.ofNat 32 ((off - 0x400) / 32)) ((off - 0x400) % 32)
    else .reserved
  else .encOut (off - 0x800)

/-- Bytes of `ENC_OUT` from `n`, as a number; past `ENC_LEN` the offsets are reserved and read 0 (log 18). -/
def State.encBytes (s : State) (n len : Nat) : Nat := leNat ((List.range len).map fun i => s.encOut.getD (n + i) 0)

/-- The value of a register (R40, R41). -/
def State.readReg (s : State) : Reg → Word
  | .cfgNc => s.cfg.nc
  | .cfgNl => s.cfg.nl
  | .cfgNp => s.cfg.np
  | .hwChannels => BitVec.ofNat 32 s.par.hwChannels
  | .timBit => s.par.tBit
  | .timReset => s.par.tReset
  | .timPoll => s.par.tPoll
  | .cfgCtrl => s.cfgCtrl
  | .regionBase r => (s.par.regions.get r).base
  | .regionCap r => (s.par.regions.get r).cap
  | .encLen => BitVec.ofNat 32 s.encOut.length
  | .rcStatus => s.rcStatus
  | .rcCursor => s.rc.cursor
  | .rcTotal => s.rc.total
  | .rcStore => s.rc.store
  | .rcDeadlineLo => s.rc.deadline.extractLsb' 0 32
  | .rcDeadlineHi => s.rc.deadline.extractLsb' 32 32
  | .tkStatus => s.tkStatus
  | .tkWait => s.tkWait
  | .timeLo => s.tNow.extractLsb' 0 32
  | .timeHi => s.timeHi
  | .panelCh k => (s.row k).ch.setWidth 32
  | .panelNreal k => (s.row k).nreal
  | .panelNbuf k => (s.row k).nbuf
  | .cmd _ => 0
  | .arg0 q => (s.port q).arg0
  | .arg1 q => (s.port q).arg1
  | .arg2 q => (s.port q).arg2
  | .arg3 q => (s.port q).arg3
  | .result q => (s.port q).result.word
  | .portStatus q => (s.port q).status
  | .encOut n => BitVec.ofNat 32 (s.encBytes n 4)
  | .reserved => 0

/-- The side effect of a register read: reading `TIME_LO` latches bits 63:32 (`10_state.md` R35). -/
def State.latchTime (s : State) : Reg → State
  | .timeLo => { s with timeHi := s.tNow.extractLsb' 32 32 }
  | _ => s

/-- Configuration registers take writes while unlocked and not fatal (R41, `60_exceptions.md` R214). -/
def State.configOpen (s : State) : Bool := !s.cfg.locked && !s.cfg.fatal

/-- `PANEL[k] <- x`. -/
def State.setRow (s : State) (k : PanelIx) (x : PanelRow) : State :=
  { s with panel := s.panel.set k.val x k.isLt }

/-! ### The lock (`70_reset_and_hazards.md` R233) -/

/-- One valid row's check: `CH < NC` and `NREAL + NBUF <= NL`. -/
def State.rowOk (s : State) (k : PanelIx) : Bool :=
  decide ((s.row k).ch.toNat < s.cfg.nc.toNat)
    && decide ((s.row k).nreal.toNat + (s.row k).nbuf.toNat ≤ s.cfg.nl.toNat)

/-- The conditions of `cfg_ok`, one by one (R233). -/
def State.cfgChecks (s : State) : List Bool :=
  [legalChannels.contains s.cfg.nc.toNat,
   decide (1 ≤ s.cfg.np.toNat), decide (s.cfg.np.toNat ≤ 48),
   decide (1 ≤ s.cfg.nl.toNat), decide (s.cfg.nl.toNat * s.cfg.nc.toNat * 3 ≤ 2 ^ 32 - 1),
   s.validRows.all s.rowOk,
   decide ((s.validRows.map fun k => (s.row k).ch).Nodup)]

/-- `cfg_ok` (R233). -/
def State.cfgValid (s : State) : Bool := s.cfgChecks.all id

/-- The lock step (R233): validate, record what failed, lock or enter FATAL. -/
def lockStep (s : State) : State :=
  if s.cfgValid && s.coproReady then { s with cfg := { s.cfg with locked := true } }
  else
    State.enterFatal
      { s with
        cfg := { s.cfg with cfgErr := s.cfg.cfgErr || !s.cfgValid, hwErr := s.cfg.hwErr || !s.coproReady } }
      none

/-- A write of `CFG.CTRL` (R233): only bit 0 = 1 while unlocked and not fatal has an effect. -/
def writeCfgCtrl (v : Word) (s : State) : State := if v.getLsbD 0 && s.configOpen then lockStep s else s

/-! ### Writes (R41) -/

/-- A configuration write. -/
def State.whenOpen (s s' : State) : State := if s.configOpen then s' else s

/-- The effect of a register write other than of `CMD` (R40, R41). A read-only or reserved register ignores it. -/
def State.writeReg (s : State) (v : Word) : Reg → State
  | .cfgNc => s.whenOpen { s with cfg := { s.cfg with nc := v } }
  | .cfgNl => s.whenOpen { s with cfg := { s.cfg with nl := v } }
  | .cfgNp => s.whenOpen { s with cfg := { s.cfg with np := v } }
  | .cfgCtrl => writeCfgCtrl v s
  | .panelCh k => s.whenOpen (s.setRow k { s.row k with ch := v.setWidth 6 })
  | .panelNreal k => s.whenOpen (s.setRow k { s.row k with nreal := v })
  | .panelNbuf k => s.whenOpen (s.setRow k { s.row k with nbuf := v })
  | .arg0 q => s.setPort q { s.port q with arg0 := v }
  | .arg1 q => s.setPort q { s.port q with arg1 := v }
  | .arg2 q => s.setPort q { s.port q with arg2 := v }
  | .arg3 q => s.setPort q { s.port q with arg3 := v }
  | .cmd _ => s
  | .hwChannels => s
  | .timBit => s
  | .timReset => s
  | .timPoll => s
  | .regionBase _ => s
  | .regionCap _ => s
  | .encLen => s
  | .rcStatus => s
  | .rcCursor => s
  | .rcTotal => s
  | .rcStore => s
  | .rcDeadlineLo => s
  | .rcDeadlineHi => s
  | .tkStatus => s
  | .tkWait => s
  | .timeLo => s
  | .timeHi => s
  | .result _ => s
  | .portStatus _ => s
  | .encOut _ => s
  | .reserved => s

/-! ### Access forms (R41) -/

/-- The end of the register space: 12-bit offsets, extended by `ENC_OUT` (`20_memory.md` R50). -/
def State.registerEnd (s : State) : Nat := max 0x1000 (0x800 + s.encOut.length)

/-- A 32-bit aligned access. -/
def wordAccess (off size : Nat) : Bool := decide (size = 4) && decide (off % 4 = 0)

/-- A byte read of `ENC_OUT`. -/
def State.encByteAccess (s : State) (off size : Nat) : Bool :=
  decide (size = 1) && decide (0x800 ≤ off) && decide (off < 0x800 + s.encOut.length)

/-- A register read (R41): the value goes to the reader (log 22); other forms are refused. -/
def registerRead (off size : Nat) (s : State) : Host.Outcome State Fault Refusal :=
  if wordAccess off size then
    if off + 4 ≤ s.registerEnd then
      .next { s.latchTime (regAt s.par.nreq off) with readData := s.readReg (regAt s.par.nreq off) }
    else .refused .outsideRegisterSpace
  else if s.encByteAccess off size then
    .next { s with readData := BitVec.ofNat 32 (s.encBytes (off - 0x800) 1) }
  else .refused .registerAccess

end Sys2Proof.Machine
end

