-- ==== Sys2Proof/Machine/Environment.lean ====
section
/-! DEFINITION. One action of one agent (`00_scope.md` R5, R6): issuing a command word, delivering a datagram,
register writes, the arbiter's, RC's, the ports' and the consumer's steps, time, and the outside world. -/

namespace Sys2Proof.Machine

/-- What an illegal command word completes with (`30_encoding.md` R84, `60_exceptions.md` R203). -/
def State.illegalResult (s : State) : Result := if s.ready then .eIllegal else .eNotReady

/-- A write of word `w` to `Q[q].CMD` (`30_encoding.md` R81): ignored with `OVR` on a busy port; else decoded and
run on behalf of port q. -/
def issueWord (q : Port) (w : Word) (s : State) : Host.Outcome State Fault Refusal :=
  if (s.port q).busy then .next (s.setPort q { s.port q with ovr := true })
  else match decodeWord w with
    | .ok i => exec i (s.beginCommand q (opcodeField w))
    | .error _ => raise q s.illegalResult (s.beginCommand q (opcodeField w))

/-- A register write's effect: a `CMD` register issues a command, the others are registers. -/
def writeEffect (r : Reg) (v : Word) (s : State) : Host.Outcome State Fault Refusal :=
  match r with
  | .cmd q => issueWord q v s
  | r => .next (s.writeReg v r)

/-- A register write (`10_state.md` R41): 32-bit aligned, or refused. -/
def registerWrite (off size : Nat) (v : Word) (s : State) : Host.Outcome State Fault Refusal :=
  if wordAccess off size then
    if off + 4 ≤ s.registerEnd then writeEffect (regAt s.par.nreq off) v s
    else .refused .outsideRegisterSpace
  else .refused .registerAccess

/-- One datagram (`43_command_sequencer.md` R180, R182): recognised and run, or logged. Before the lock and in
FATAL none is taken (`70_reset_and_hazards.md` R231, `60_exceptions.md` R214). -/
def deliverDatagram (d : List Byte) (s : State) : Host.Outcome State Fault Refusal :=
  if !s.ready then .next s
  else match decodeDatagram d with
    | .ok i => exec i s
    | .error _ => .next (s.logUnrecognised d)

/-- TICK (`10_state.md` R35): `d >= 1`; a wrap is a model fault (log 17). -/
def tickStep (d : Nat) (s : State) : Host.Outcome State Fault Refusal :=
  if d = 0 then .next s
  else if s.tNow.toNat + d < 2 ^ 64 then .next { s with tNow := BitVec.ofNat 64 (s.tNow.toNat + d) }
  else .fault .timeWrap

/-- An outside write of one byte of region memory (`70_reset_and_hazards.md` R235, log 20). -/
def outsideWriteStep (a : Nat) (b : Byte) (s : State) : State :=
  if s.inRegions a then { s with mem := Memory.write s.mem a b } else s

/-- One action. An action whose agent has no enabled step leaves the state as it is (log 16). -/
def runAction (a : Action) (s : State) : Host.Outcome State Fault Refusal :=
  match a with
  | .regWrite off size v => registerWrite off size v s
  | .regRead off size => registerRead off size s
  | .datagram d => deliverDatagram d s
  | .portStep q => portStep q s
  | .grant => .next (grantStep s)
  | .ringStep => ringStep s
  | .cpConsume => .next (cpConsume s)
  | .cpLatch => .next (cpLatch s)
  | .cpStop => .next (cpStop s)
  | .cpHang => .next (cpHang s)
  | .tick d => tickStep d s
  | .coproLoad => .next { s with coproReady := true }
  | .sampleColours cs => .next { s with colours := cs }
  | .outsideWrite a b => .next (outsideWriteStep a b s)

/-- The event of the next step: the first of the agenda, or a free one (log 1). -/
def State.nextEvent (s : State) : Event :=
  match s.agenda with
  | [] => Config.freeEvent s.freeIx
  | e :: _ => e

/-- The state in which the next event's action runs: the event is taken off the agenda, or counted, and its draw
is the draw of the step (log 1, log 2). -/
def State.takeEvent (s : State) : State :=
  match s.agenda with
  | [] => { s with freeIx := s.freeIx + 1, pick := (Config.freeEvent s.freeIx).pick }
  | e :: rest => { s with agenda := rest, pick := e.pick }

/-- One step of a machine whose parameters are legal. -/
def runNext (s : State) : Host.Outcome State Fault Refusal := runAction s.nextEvent.act s.takeEvent

/-- The port a word is placed on: the lowest idle one, or port 0 (log 23). -/
def State.placementPort (s : State) : Port := s.freePort.getD 0

/-- Placing a command word so that the next step issues it: it heads the agenda as a write of an idle port's
`CMD` (log 23). -/
def State.placeWord (s : State) (w : Word) : State :=
  { s.setPort s.placementPort { s.port s.placementPort with busy := false } with
    agenda := ⟨s.pick, .regWrite (cmdOffset s.placementPort) 4 w⟩ :: s.agenda }

/-- Placing a datagram so that the next step delivers it: it heads the agenda and BTFE takes datagrams
(log 23). -/
def State.placeDatagram (s : State) (d : List Byte) : State :=
  { s with
    cfg := { s.cfg with locked := true, fatal := false }
    agenda := ⟨s.pick, .datagram d⟩ :: s.agenda }

/-- Placing whatever an opcode-table row's bits stand for. -/
def State.placeMessage (s : State) : Message → State
  | .word w => s.placeWord w
  | .datagram d => s.placeDatagram d

end Sys2Proof.Machine
end

