-- ==== Sys2Proof/Machine/Step.lean ====
section
/-! DEFINITION. One step of the machine, and placing an instruction where the next step takes it. -/

namespace Sys2Proof.Machine

/-- One atomic step of one agent (`00_scope.md` R6). A machine with an illegal parameter is not built
(`60_exceptions.md` R213). -/
def step (s : State) : Host.Outcome State Fault Refusal :=
  if paramsOk s.par then runNext s else .fault .badParam

/-- The state whose next step issues or delivers the instruction of an opcode-table row's bits (log 23). -/
def State.withFetchWord (s : State) (nbits w : Nat) : State := s.placeMessage (tableMessage nbits w)

end Sys2Proof.Machine
end

