-- ==== Sys2Proof/Machine/Schedule.lean ====
section
/-! DEFINITION. Infinite runs of the agents and the fairness `00_scope.md` R6 assumes of them: weak fairness of TIME,
RC, GRANT and each port's own steps; none of the consumer, of the draws, or of software (log 1). -/

namespace Sys2Proof.Machine

/-! ### Runs -/

/-- Which agent's event happens in each step, for ever (R6). -/
abbrev Schedule := Nat → Event

/-- An infinite run along a schedule: step n takes the schedule's event n, whatever the agenda held (log 1). -/
def IsRun (σ : Schedule) (r : Nat → State) : Prop :=
  ∀ n, step { r n with agenda := [σ n] } = .next (r (n + 1))

/-! ### Enabled steps (R6) -/

/-- The phases a macro-command of each kind goes through (`43_command_sequencer.md` R172, R174, R178). -/
def kindHasPhase : Kind → Phase → Bool
  | .none, p => decide (p = .none)
  | .showCmd, p => decide (p ∈ [Phase.validate, .acq, .poll, .xfer, .backoff, .release])
  | .playCmd, p => decide (p ∈ [Phase.validate, .acq, .clock, .poll, .xfer, .pace, .release])
  | .stopCmd, p => decide (p ∈ [Phase.acq, .release])

/-- Port q's phase does not hold in a `wait until`: ACQ holds until granted, XFER until RC is IDLE, BACKOFF and PACE
until `SEQ[q].WAKE` (`43_command_sequencer.md` R172, R174, R178). -/
def State.phaseOpen (s : State) (q : Port) : Bool :=
  match (s.port q).seq.phase with
  | .none => false
  | .validate => true
  | .acq => !(s.port q).blocked
  | .clock => true
  | .poll => true
  | .xfer => !(s.port q).blocked || decide (s.rc.state = .idle)
  | .backoff => decide ((s.port q).seq.wake.toNat ≤ s.tNow.toNat)
  | .pace => decide ((s.port q).seq.wake.toNat ≤ s.tNow.toNat)
  | .release => true

/-- The agents R6 assumes weak fairness of, beside TIME. -/
inductive FairAgent
  | rc
  | grant
  | port (q : Port)
  deriving DecidableEq, Repr

/-- The agent's own step. -/
def FairAgent.action : FairAgent → Action
  | .rc => .ringStep
  | .grant => .grant
  | .port q => .portStep q

/-- RC has an enabled step: in every state but IDLE, in SLEEP from `RC.WAKE` on (`41_ring_controller.md` R125,
R130). -/
def State.ringEnabled (s : State) : Bool :=
  match s.rc.state with
  | .idle => false
  | .setup => true
  | .fill => true
  | .start => true
  | .drain => true
  | .sleep => decide (s.rc.wake.toNat ≤ s.tNow.toNat)
  | .check => true

/-- GRANT is enabled: the token is IDLE and some port waits (`42_token_arbiter.md` R152). -/
def State.grantEnabled (s : State) : Bool := decide (s.tk.state = .idle) && !s.waiters.isEmpty

/-- Port q has an enabled step of its own: it runs a macro-command, at a phase of that kind that does not hold
(`43_command_sequencer.md` R170). -/
def State.portEnabled (s : State) (q : Port) : Bool :=
  s.portExists q && (s.port q).busy && decide ((s.port q).seq.kind ≠ .none)
    && kindHasPhase (s.port q).seq.kind (s.port q).seq.phase && s.phaseOpen q

/-- The agent has an enabled step. -/
def FairAgent.enabled (s : State) : FairAgent → Bool
  | .rc => s.ringEnabled
  | .grant => s.grantEnabled
  | .port q => s.portEnabled q

/-! ### Fairness (R6) -/

/-- Weak fairness of an agent: from no step on is it enabled for ever without ever stepping. -/
def WeaklyFair (a : FairAgent) (σ : Schedule) (r : Nat → State) : Prop :=
  ∀ n, (∀ m, n ≤ m → a.enabled (r m) = true) → ∃ m, n ≤ m ∧ (σ m).act = a.action

/-- Fairness of TIME: time passes every bound that `T_NOW` can hold; past it a TICK would wrap (log 17). -/
def TimePasses (r : Nat → State) : Prop := ∀ b < 2 ^ 64, ∃ n, b ≤ (r n).tNow.toNat

/-- The fairness R6 assumes of a run. -/
structure Fair (σ : Schedule) (r : Nat → State) : Prop where
  time   : TimePasses r
  agents : ∀ a, WeaklyFair a σ r

end Sys2Proof.Machine
end

