-- ==== Sys2Proof/Safety.lean ====
section
/-! DEFINITION. What claims about the machine are stated with: what a step keeps, and the invariant of every
state a run reaches (`10_state.md` R43, `42_token_arbiter.md` R150, `60_exceptions.md` R213). -/

namespace Sys2Proof.Machine

/-! ### What a step keeps -/

/-- Every byte of region memory reads as before. -/
def KeepsMemory (s t : State) : Prop := ∀ a, t.loadByte a = s.loadByte a

/-- Every byte of region memory outside `[lo, lo + len)` reads as before. -/
def KeepsMemoryOutside (lo len : Nat) (s t : State) : Prop :=
  ∀ a, (a < lo ∨ lo + len ≤ a) → t.loadByte a = s.loadByte a

/-- Parameters, configuration registers and the panel table are as before. -/
structure KeepsConfig (s t : State) : Prop where
  par   : t.par = s.par
  cfg   : t.cfg = s.cfg
  panel : t.panel = s.panel

/-- Time, the inputs of the environment and the model's own fields are as before. -/
structure KeepsInputs (s t : State) : Prop where
  tNow       : t.tNow = s.tNow
  timeHi     : t.timeHi = s.timeHi
  colours    : t.colours = s.colours
  coproReady : t.coproReady = s.coproReady
  agenda     : t.agenda = s.agenda
  pick       : t.pick = s.pick
  freeIx     : t.freeIx = s.freeIx
  readData   : t.readData = s.readData

/-- The ring controller, the consumer, `OUT` and all of region memory are as before. -/
structure KeepsRing (s t : State) : Prop where
  rc  : t.rc = s.rc
  cp  : t.cp = s.cp
  out : t.out = s.out
  mem : KeepsMemory s t

/-- Every port but q, with its `SEQ` context, is as before. -/
def KeepsOtherPorts (q : Port) (s t : State) : Prop := ∀ p, p ≠ q → t.port p = s.port p

/-- Port q's argument registers, `OVR` and opcode are as before. -/
structure KeepsPortInputs (q : Port) (s t : State) : Prop where
  arg0   : (t.port q).arg0 = (s.port q).arg0
  arg1   : (t.port q).arg1 = (s.port q).arg1
  arg2   : (t.port q).arg2 = (s.port q).arg2
  arg3   : (t.port q).arg3 = (s.port q).arg3
  ovr    : (t.port q).ovr = (s.port q).ovr
  opcode : (t.port q).opcode = (s.port q).opcode

/-- Port q's command has completed with a result (`60_exceptions.md` R205), and nothing else of the port has
changed but the end of a macro-command's phase (`43_command_sequencer.md` R170). -/
def CompletesWith (q : Port) (r : Result) (s t : State) : Prop := t.port q = (s.port q).completed r

/-- The only change is that port q's command has completed with a result (`60_exceptions.md` R206). -/
structure OnlyCompletes (q : Port) (r : Result) (s t : State) : Prop where
  config : KeepsConfig s t
  inputs : KeepsInputs s t
  ring   : KeepsRing s t
  token  : t.tk = s.tk
  encOut : t.encOut = s.encOut
  log    : t.log = s.log
  others : KeepsOtherPorts q s t
  port   : CompletesWith q r s t

/-- Everything outside port q, the token, the ring and the log is as before. -/
structure PortFrame (q : Port) (s t : State) : Prop where
  config : KeepsConfig s t
  inputs : KeepsInputs s t
  encOut : t.encOut = s.encOut
  others : KeepsOtherPorts q s t

/-- Everything the requesters see is as before: configuration, inputs, ports, token, log and `ENC_OUT`. -/
structure KeepsRequesters (s t : State) : Prop where
  config : KeepsConfig s t
  inputs : KeepsInputs s t
  ports  : t.ports = s.ports
  token  : t.tk = s.tk
  encOut : t.encOut = s.encOut
  log    : t.log = s.log

/-- Port q runs a macro-command of a kind and is at one of its phases (`43_command_sequencer.md` R170). -/
structure AtPhase (s : State) (q : Port) (k : Kind) (p : Phase) : Prop where
  exist : s.portExists q = true
  busy  : (s.port q).busy = true
  kind  : (s.port q).seq.kind = k
  phase : (s.port q).seq.phase = p

/-- Port w's ACQUIRE has ended (`42_token_arbiter.md` R152): a plain ACQUIRE has completed with OK; of a
macro-command only `BLOCKED` is cleared, and port w's own next step leaves ACQ (`60_exceptions.md` R212, log 10). -/
def GrantEnds (w : Port) (s t : State) : Prop :=
  ((s.port w).seq.kind = .none → CompletesWith w .ok s t) ∧
  ((s.port w).seq.kind ≠ .none → t.port w = { s.port w with blocked := false })

/-- A 32-bit read of a register-space offset returns v and changes no other state (`10_state.md` R41, log 22). -/
def ReadsAs (s : State) (off : Nat) (v : Word) : Prop := registerRead off 4 s = .next { s with readData := v }

/-- The command words whose run is on behalf of the issuing port (`30_encoding.md` R83). -/
def commandWords : List Instr :=
  [.encodeFrame, .xfer, .acquire, .tryHandoff, .release, .showFrame, .playFrames, .stopPlayback]

/-! ### The invariant of every reachable state -/

/-- The phases in which a macro-command's port holds the token. -/
def holderPhase (p : Phase) : Bool := decide (p ∈ [Phase.clock, .poll, .xfer, .backoff, .pace, .release])

/-- The port's macro-command has been granted the token and has not handed it on: it is in a later phase, or in
ACQ with its hold lifted. -/
def PortState.pastGrant (p : PortState) : Bool := holderPhase p.seq.phase || (p.seq.queued && !p.blocked)

/-- The phases in which a port's command holds in a `wait until` (R170, R172, R174, R178); `NONE` is a plain
ACQUIRE or XFER. -/
def waitPhase (p : Phase) : Bool := decide (p ∈ [Phase.none, .acq, .xfer, .backoff, .pace])

/-- One port in a reachable state. -/
structure PortInv (s : State) (q : Port) : Prop where
  /-- R43 (4). -/
  blockedBusy : (s.port q).blocked = true → (s.port q).busy = true
  /-- Only an existing port runs a command. -/
  busyExists : (s.port q).busy = true → s.portExists q = true
  /-- An idle port has no macro-command. -/
  idleKind : (s.port q).busy = false → (s.port q).seq.kind = .none
  /-- The phase is one of its kind's. -/
  kindPhase : kindHasPhase (s.port q).seq.kind (s.port q).seq.phase = true
  /-- A port is in `TK.WAIT` only while its ACQUIRE holds (R150). -/
  waitHolds : s.waiting q = true → (s.port q).blocked = true ∧
    ((s.port q).seq.phase = .none ∨ (s.port q).seq.phase = .acq)
  /-- A macro-command that holds in ACQ has entered `TK.WAIT` and is in it (R150). -/
  acqWaits : (s.port q).seq.phase = .acq → (s.port q).blocked = true →
    s.waiting q = true ∧ (s.port q).seq.queued = true
  /-- Only a macro-command in ACQ has its ACQUIRE under way. -/
  queuedAcq : (s.port q).seq.queued = true → (s.port q).seq.phase = .acq
  /-- Once granted the port holds the token. -/
  phaseHolds : (s.port q).pastGrant = true → s.holds q = true
  /-- A plain command in flight is an ACQUIRE in `TK.WAIT` or the running XFER. -/
  plainHolds : (s.port q).busy = true → (s.port q).seq.kind = .none →
    s.waiting q = true ∨ (s.rc.state ≠ .idle ∧ s.rc.owner = q)
  /-- `BLOCKED` is set only where the command holds (`10_state.md` R33). -/
  blockedWaits : (s.port q).blocked = true → waitPhase (s.port q).seq.phase = true

/-- The token in a reachable state. -/
structure TokenInv (s : State) : Prop where
  /-- R43 (1). -/
  holderNotWaiting : s.tk.state = .held → s.waiting s.tk.holder = false
  /-- The holder is a port. -/
  holderExists : s.tk.state = .held → s.portExists s.tk.holder = true
  /-- `TK.HOLDER` is 0 while no port holds the token (R154). -/
  idleHolder : s.tk.state = .idle → s.tk.holder = 0

/-- The transfer RC is running: what `Validate` found stays true of it (`41_ring_controller.md` R121). -/
structure TransferInv (s : State) : Prop where
  /-- The group size is the hardware's (R136). -/
  group : s.rc.g.toNat = s.par.hwChannels / 8
  /-- The payload is whole LEDs (R144). -/
  wholeLeds : s.rc.total.toNat % (24 * s.rc.g.toNat) = 0
  /-- The payload lies inside its store, so `MF_FS_RANGE` cannot arise (`60_exceptions.md` R213). -/
  inStore : ∃ f, s.par.stores[s.rc.store.toNat]? = some f ∧ s.rc.src.toNat + s.rc.total.toNat ≤ f.bytes.length
  /-- Every region takes a whole LED (R121, R123). -/
  usable : ∀ r, s.usable r s.rc.g.toNat ≠ 0

/-- The ring controller in a reachable state. -/
structure RingInv (s : State) : Prop where
  /-- R43 (2). -/
  ownerHolds : s.rc.state ≠ .idle → s.holds s.rc.owner = true
  /-- The owner's XFER holds while the transfer runs (`42_token_arbiter.md` R158). -/
  ownerBlocked : s.rc.state ≠ .idle → (s.port s.rc.owner).blocked = true ∧
    ((s.port s.rc.owner).seq.phase = .none ∨ (s.port s.rc.owner).seq.phase = .xfer)
  /-- R43 (3), first half. -/
  cursorLe : s.rc.cursor.toNat ≤ s.rc.total.toNat
  /-- R43 (3), second half. -/
  cursorWhole : 0 < s.rc.g.toNat → s.rc.cursor.toNat % (24 * s.rc.g.toNat) = 0
  /-- The running transfer. -/
  transfer : s.rc.state ≠ .idle → TransferInv s

/-- A machine that is not ready runs nothing (`70_reset_and_hazards.md` R230, `60_exceptions.md` R214). -/
structure QuietInv (s : State) : Prop where
  ports : s.ready = false → ∀ q, (s.port q).busy = false
  ring  : s.ready = false → s.rc.state = .idle
  token : s.ready = false → s.tk.state = .idle

/-- The invariant of every reachable state. -/
structure State.Inv (s : State) : Prop where
  /-- Region memory is in its canonical form. -/
  memWf : Memory.wf s.mem = true
  /-- A locked configuration passed the lock's validation (`70_reset_and_hazards.md` R233, R241). -/
  lockedValid : s.cfg.locked = true → s.cfgValid = true
  port : ∀ q, PortInv s q
  token : TokenInv s
  ring : RingInv s
  quiet : QuietInv s

/-- Every `end_addr` word is 0 or lies in its region's payload (R43 (5)). -/
def State.EndsOk (s : State) : Prop :=
  ∀ r, s.endAddr r = 0 ∨ (s.base r + 8 ≤ s.endAddr r ∧ s.endAddr r ≤ s.base r + s.cap r - 1)

/-- Every header is as RC and CP write them (`41_ring_controller.md` R142): an `end_addr` is 0 or on a group
boundary of its region's payload, a `next_addr` is the successor's base. -/
def State.HeadersOk (s : State) : Prop :=
  ∀ r, (s.endAddr r = 0 ∨ s.badEnd r = false) ∧ s.nextAddr r = s.base (r + 1)

/-- The payload of the running transfer: `RC.TOTAL` bytes of its store from `RC.SRC`
(`41_ring_controller.md` R120). -/
def State.transferBytes (s : State) : List Byte :=
  match s.par.stores[s.rc.store.toNat]? with
  | some f => (f.bytes.drop s.rc.src.toNat).take s.rc.total.toNat
  | none => []

/-- The payload bytes a region holds that the consumer has not taken (`20_memory.md` R55). -/
def State.pendingBytes (s : State) (r : Region) : List Byte :=
  if s.endAddr r = 0 then [] else s.loadBytes (s.base r + 8) (s.endAddr r + s.consumerGroup - (s.base r + 8))

/-- The pending bytes of `n` regions in cycle order. -/
def State.pendingFrom (s : State) : Region → Nat → List Byte
  | _, 0 => []
  | r, n + 1 => s.pendingBytes r ++ s.pendingFrom (r + 1) n

/-- `n` regions in cycle order from r are full, the others empty. -/
def State.fullFrom (s : State) (r : Region) (n : Nat) : Prop :=
  n ≤ 3 ∧ ∀ j < 3, s.endAddr (r + Fin.ofNat 3 j) ≠ 0 ↔ j < n

/-- RC is in DRAIN, SLEEP or CHECK: the consumer has been started for this transfer. -/
def State.afterStart (s : State) : Bool := decide (s.rc.state ∈ [RcState.drain, .sleep, .check])

/-- A transfer that no earlier run of the consumer disturbs (`41_ring_controller.md` R141, R143): until START the
consumer is not RUNNING; what has been clocked out and what waits in the regions, in cycle order, is the payload
up to the cursor. -/
structure Streaming (s : State) : Prop where
  quiet : s.rc.state ∈ [RcState.setup, .fill, .start] → s.cp.mode ≠ .running
  starting : s.rc.state = .setup → s.rc.cursor = 0
  headers : s.rc.state ≠ .setup → s.HeadersOk
  filling : s.rc.state = .fill → s.fullFrom 0 s.rc.fillIdx.toNat ∧
    s.pendingFrom 0 s.rc.fillIdx.toNat = s.transferBytes.take s.rc.cursor.toNat
  filled : s.rc.state = .start → ∃ n, s.fullFrom 0 n ∧ s.rc.cur = Fin.ofNat 3 n ∧
    s.pendingFrom 0 n = s.transferBytes.take s.rc.cursor.toNat
  draining : s.afterStart = true → ∃ n, s.fullFrom s.cp.c n ∧ s.rc.cur = s.cp.c + Fin.ofNat 3 n ∧
    s.out.flatten ++ s.pendingFrom s.cp.c n = s.transferBytes.take s.rc.cursor.toNat
  groups : s.afterStart = true → ∀ g ∈ s.out, g.length = s.consumerGroup

/-- A step that faults for no reason but the two that lie outside the machine: a wrap of time and an illegal
parameter (`60_exceptions.md` R213). -/
def EnvironmentFault : Fault → Prop
  | .rcReentry => False
  | .fsRange => False
  | .timeWrap => True
  | .badParam => True

end Sys2Proof.Machine
end

