-- ==== Sys2Proof/Certificates/Slice0/Obligations.lean ====
section
/-! DEFINITION. The statements about the machine, each from a rule of the spec. -/

open Sys2Proof Sys2Proof.Machine

/-! ### Encoding -/

/-- Decoding the encoding of a well-formed instruction gives it back, at every operand (`30_encoding.md` R83,
R90-R92). -/
def Obligations.DecodeEncodeRoundTrip : Prop :=
  ∀ i : Instr, i.wf = true → decode (encode i) = .ok i

/-- R85: every word selects one row of the opcode map or is illegal under R84; no word selects two rows. -/
def Obligations.CommandWordsDecodeUniquely : Prop :=
  (∀ w : Word,
    (reservedField w = 0#24 ∧ opcodeField w ∈ [0x01#8, 0x10#8, 0x20#8, 0x21#8, 0x22#8, 0x30#8, 0x31#8, 0x32#8] ∧
      ∃ i, decodeWord w = .ok i ∧ encode i = .word w) ∨
    ((reservedField w ≠ 0#24 ∨
        opcodeField w ∉ [0x01#8, 0x10#8, 0x20#8, 0x21#8, 0x22#8, 0x30#8, 0x31#8, 0x32#8]) ∧
      ∃ e, decodeWord w = .error e)) ∧
  ∀ w i j, encode i = .word w → encode j = .word w → i = j

/-- Words and datagrams written out from R83 and R92 decode to the instructions they stand for. -/
def Obligations.WrittenOutEncodings : Prop :=
  decodeWord 0x00000001#32 = .ok .encodeFrame ∧
  decodeWord 0x00000010#32 = .ok .xfer ∧
  decodeWord 0x00000020#32 = .ok .acquire ∧
  decodeWord 0x00000021#32 = .ok .tryHandoff ∧
  decodeWord 0x00000022#32 = .ok .release ∧
  decodeWord 0x00000030#32 = .ok .showFrame ∧
  decodeWord 0x00000031#32 = .ok .playFrames ∧
  decodeWord 0x00000032#32 = .ok .stopPlayback ∧
  decodeWord 0x00000131#32 = .error .reservedBits ∧
  decodeWord 0x00000002#32 = .error .unknownOpcode ∧
  decodeDatagram [0x73#8, 0x74#8, 0x6F#8, 0x70#8, 0x0A#8] = .ok .stopDatagram ∧
  decodeDatagram [0x73#8, 0x68#8, 0x6F#8, 0x77#8, 0x20#8, 0x61#8, 0x20#8, 0x31#8, 0x32#8, 0x00#8]
    = .ok (.showDatagram [0x61#8] 12#32) ∧
  decodeDatagram [] = .error .unrecognised

/-- R91: a number token is one or more digits with a value of at most `2^32 - 1`; leading zeros are allowed; a
token that is no number leaves its datagram unrecognised. -/
def Obligations.NumberTokens : Prop :=
  (∀ t : List Byte, numberToken t =
    if t ≠ [] ∧ (∀ b ∈ t, 0x30#8 ≤ b ∧ b ≤ 0x39#8) ∧ t.foldl (fun v b => 10 * v + (b.toNat - 48)) 0 ≤ 2 ^ 32 - 1
    then some (BitVec.ofNat 32 (t.foldl (fun v b => 10 * v + (b.toNat - 48)) 0)) else none) ∧
  (∀ t, t ≠ [] → numberToken (0x30#8 :: t) = numberToken t) ∧
  (∀ p n, numberToken n = none → recognise [kwShow, p, n] = none) ∧
  (∀ p f t r, numberToken f = none ∨ numberToken t = none ∨ numberToken r = none →
    recognise [kwPlay, p, f, kwTo, t, kwAt, r, kwFps] = none)

/-- R90, R92: a datagram is recognised by the tokens of its bytes without the last, whatever that last byte is; runs of
spaces separate tokens, and adjacent spaces give no token; no token is empty or holds a space; an empty datagram is
unrecognised. A datagram is a command exactly when its token list is that command's row of R92, byte for byte: `show`,
P, N; `play`, P, F, `to`, T, `@`, R, `fps`; `stop`. Any other token list is unrecognised. -/
def Obligations.Tokenising : Prop :=
  decodeDatagram [] = .error .unrecognised ∧
  (∀ d x i, recognise (tokens d) = some i → decodeDatagram (d ++ [x]) = .ok i) ∧
  (∀ d x, recognise (tokens d) = none → decodeDatagram (d ++ [x]) = .error .unrecognised) ∧
  tokens [] = [] ∧
  (∀ t u, tokens (t ++ spaceByte :: u) = tokens t ++ tokens u) ∧
  (∀ t, t ≠ [] → spaceByte ∉ t → tokens t = [t]) ∧
  (∀ t, ∀ k ∈ tokens t, k ≠ [] ∧ spaceByte ∉ k) ∧
  (∀ d i, decodeDatagram d = .ok i ↔
    (∃ path n frame, tokens d.dropLast = [[0x73#8, 0x68#8, 0x6F#8, 0x77#8], path, n] ∧
      numberToken n = some frame ∧ i = .showDatagram path frame) ∨
    (∃ path f t r first last fps,
      tokens d.dropLast = [[0x70#8, 0x6C#8, 0x61#8, 0x79#8], path, f, [0x74#8, 0x6F#8], t, [0x40#8], r,
        [0x66#8, 0x70#8, 0x73#8]] ∧
      numberToken f = some first ∧ numberToken t = some last ∧ numberToken r = some fps ∧
      i = .playDatagram path first last fps) ∨
    (tokens d.dropLast = [[0x73#8, 0x74#8, 0x6F#8, 0x70#8]] ∧ i = .stopDatagram)) ∧
  ∀ d, (∀ i, decodeDatagram d ≠ .ok i) → decodeDatagram d = .error .unrecognised

/-! ### A step and the instruction it runs -/

/-- A step whose event is a write of a legal command word to an idle port's `CMD` is the instruction's meaning in
the state in which the port has accepted the command (`30_encoding.md` R81); a step whose event is a recognised
datagram is the instruction's meaning, but a machine that is not ready takes no datagram
(`43_command_sequencer.md` R180, `70_reset_and_hazards.md` R231, `60_exceptions.md` R214): that step only takes the
event (log 16). Every step is one agent's (`00_scope.md` R5, R6): with an event at the head of the agenda it is that
agent's function in the state without the event, and with none it is a free event's (log 1). The arm of an outside
write is the model's choice (`70_reset_and_hazards.md` R235, log 20): it writes exactly its byte of a ring region in
every state, during a transfer too, where R235 forbids it and leaves the contents unspecified, and does nothing outside
the regions. -/
def Obligations.StepRunsDecoded : Prop :=
  (∀ (s : State) (q : Port) (w : Word) (i : Instr) (n : Nat) (rest : List Event),
    paramsOk s.par = true → s.portExists q = true → (s.port q).busy = false →
    s.agenda = ⟨n, .regWrite (cmdOffset q) 4 w⟩ :: rest → decodeWord w = .ok i →
    step s = exec i (State.beginCommand { s with agenda := rest, pick := n } q (opcodeField w))) ∧
  (∀ (s : State) (d : List Byte) (i : Instr) (n : Nat) (rest : List Event),
    paramsOk s.par = true → s.agenda = ⟨n, .datagram d⟩ :: rest → decodeDatagram d = .ok i →
    (s.ready = true → step s = exec i { s with agenda := rest, pick := n }) ∧
    (s.ready = false → step s = .next { s with agenda := rest, pick := n })) ∧
  (∀ (s u : State) (a : Action) (n : Nat) (rest : List Event),
    paramsOk s.par = true → s.agenda = ⟨n, a⟩ :: rest → u = { s with agenda := rest, pick := n } →
    step s = match a with
      | .regWrite off size v => registerWrite off size v u
      | .regRead off size => registerRead off size u
      | .datagram d => deliverDatagram d u
      | .portStep q => portStep q u
      | .grant => .next (grantStep u)
      | .ringStep => ringStep u
      | .cpConsume => .next (cpConsume u)
      | .cpLatch => .next (cpLatch u)
      | .cpStop => .next (cpStop u)
      | .cpHang => .next (cpHang u)
      | .tick d => tickStep d u
      | .coproLoad => .next { u with coproReady := true }
      | .sampleColours cs => .next { u with colours := cs }
      | .outsideWrite addr b =>
        .next { u with mem := if u.inRegions addr then Memory.write u.mem addr b else u.mem }) ∧
  ∀ (s : State) (e : Event), paramsOk s.par = true → s.agenda = [] → e = Config.freeEvent s.freeIx →
    step s = runAction e.act { s with freeIx := s.freeIx + 1, pick := e.pick }

/-- What the environment's actions do. R213, R35, log 17, log 33: TICK moves time by `d`; a TICK past `2^64 - 1` is
`MF_TIME_WRAP`; a machine with a parameter outside R7 or R52 is `MF_BAD_PARAM`, the constraints being those written
out; that a store is at most `2^32` bytes long stands in neither rule and is the model's reading (log 25), and that a
store id of `Resolve` is not constrained is the model's choice (log 32). The
coprocessor load sets `COPRO_READY` (R136, R231 step 2); new values at the colour input port are what is there from
then on (R38, log 9). -/
def Obligations.TickAndModelFaults : Prop :=
  (∀ (s : State) (d : Nat), 1 ≤ d → s.tNow.toNat + d < 2 ^ 64 →
    ∃ t, runAction (.tick d) s = .next t ∧ t.tNow.toNat = s.tNow.toNat + d ∧ t = { s with tNow := t.tNow }) ∧
  (∀ (s : State) (d : Nat), 1 ≤ d → 2 ^ 64 ≤ s.tNow.toNat + d → runAction (.tick d) s = .fault .timeWrap) ∧
  (∀ s : State, paramsOk s.par = false → step s = .fault .badParam) ∧
  (∀ x : Params, paramsOk x = true ↔
    x.hwChannels ∈ [8, 16, 24, 32, 40, 48] ∧ 2 ≤ x.nreq ∧ x.nreq ≤ 32 ∧ 1 ≤ x.tBit.toNat ∧
    10000 ≤ x.tPoll.toNat ∧ x.tPoll.toNat ≤ 99999 ∧ 1 ≤ x.stores.length ∧
    (∀ f ∈ x.stores, f.bytes.length ≤ 2 ^ 32) ∧
    (∀ r : Region, (x.regions.get r).base.toNat % 4 = 0 ∧ 8 ≤ (x.regions.get r).cap.toNat ∧
      (x.regions.get r).base.toNat + (x.regions.get r).cap.toNat ≤ 2 ^ 32 ∧ (x.regions.get r).base ≠ 0) ∧
    ∀ r r' : Region, r ≠ r' → ∀ a : Nat,
      (x.regions.get r).base.toNat ≤ a → a < (x.regions.get r).base.toNat + (x.regions.get r).cap.toNat →
      ¬ ((x.regions.get r').base.toNat ≤ a ∧
        a < (x.regions.get r').base.toNat + (x.regions.get r').cap.toNat)) ∧
  (∀ s : State, runAction .coproLoad s = .next { s with coproReady := true }) ∧
  ∀ (s : State) (cs : List (List Colour)), ∃ t, runAction (.sampleColours cs) s = .next t ∧
    t = { s with colours := cs } ∧
    ∀ (k : PanelIx) (j : Nat) (row : List Colour) (c : Colour), cs[k.val]? = some row → row[j]? = some c →
      t.colourAt k j = c

/-- A `CMD` write to a busy port sets `OVR` and is otherwise ignored (`30_encoding.md` R81). An illegal word on an
idle port completes with `E_ILLEGAL`, or with `E_NOT_READY` on a machine that is not ready; but for the opcode the
port has latched (log 34) nothing else changes (R84). -/
def Obligations.WordsThatRunNothing : Prop :=
  (∀ (s : State) (q : Port) (w : Word), (s.port q).busy = true →
    ∃ t, issueWord q w s = .next t ∧ t.port q = { s.port q with ovr := true } ∧
      PortFrame q s t ∧ KeepsRing s t ∧ t.tk = s.tk ∧ t.log = s.log) ∧
  ∀ (s : State) (q : Port) (w : Word) (e : DecodeError), (s.port q).busy = false → decodeWord w = .error e →
    ∃ t, issueWord q w s = .next t ∧
      OnlyCompletes q (if s.ready then .eIllegal else .eNotReady) (s.beginCommand q (opcodeField w)) t

/-- Every command completes with `E_NOT_READY`, and does nothing else, on a machine that is not locked or is fatal
(`60_exceptions.md` R203, R206). -/
def Obligations.CommandsNeedReady : Prop :=
  ∀ i ∈ commandWords, ∀ s : State, s.ready = false →
    ∃ t, exec i s = .next t ∧ OnlyCompletes s.issuer .eNotReady s t

/-! ### ENCODE -/

/-- ENCODE on a ready machine completes with OK, `ENC_OUT` being the payload of `NC * NL * 3` bytes, and changes
nothing else (`40_encoder.md` R107, R104). -/
def Obligations.EncodeCompletes : Prop :=
  ∀ s : State, s.ready = true →
    ∃ t, exec .encodeFrame s = .next t ∧
      t.encOut = s.payload ∧ t.encOut.length = s.cfg.nc.toNat * s.cfg.nl.toNat * 3 ∧
      CompletesWith s.issuer .ok s t ∧ KeepsOtherPorts s.issuer s t ∧
      KeepsConfig s t ∧ KeepsInputs s t ∧ KeepsRing s t ∧ t.tk = s.tk ∧ t.log = s.log

/-- R103, R112: the bit of `(p, i, ch)` has index `p * 24 * NC + i * NC + ch`; under LSB0 the bit of index x is bit
`x % 8` of byte `x / 8`, under MSB0 bit `7 - x % 8` of it. R108, R109: after ENCODE a bit of the payload is set
exactly where a valid row has that channel, the LED slot is one of its real LEDs, and the slot's bit of that LED's
packed colour is set. R112: a valid row's bit of a real LED is the slot's bit of its packed colour. -/
def Obligations.EncodedBits : Prop :=
  (∀ (buf : List Byte) (nc p i ch x : Nat), x = p * 24 * nc + i * nc + ch →
    bitAt .lsb0 nc buf p i ch = (buf.getD (x / 8) 0).getLsbD (x % 8) ∧
    bitAt .msb0 nc buf p i ch = (buf.getD (x / 8) 0).getLsbD (7 - x % 8)) ∧
  ∀ s t : State, s.cfgValid = true → exec .encodeFrame s = .next t → s.ready = true →
    (∀ p i ch : Nat, p < s.cfg.nl.toNat → i < 24 → ch < s.cfg.nc.toNat →
      (bitAt s.par.bitOrder s.cfg.nc.toNat t.encOut p i ch = true ↔
        ∃ k : PanelIx, k.val < s.cfg.np.toNat ∧ (s.row k).ch.toNat = ch ∧ (s.row k).nbuf.toNat ≤ p ∧
          p < (s.row k).nbuf.toNat + (s.row k).nreal.toNat ∧
          slotBit s.par.slotOrder (packColour (s.colourAt k (p - (s.row k).nbuf.toNat))) i = true)) ∧
    ∀ (k : PanelIx) (j i : Nat), k.val < s.cfg.np.toNat → j < (s.row k).nreal.toNat → i < 24 →
      bitAt s.par.bitOrder s.cfg.nc.toNat t.encOut (j + (s.row k).nbuf.toNat) i (s.row k).ch.toNat =
        slotBit s.par.slotOrder (packColour (s.colourAt k j)) i

/-- R100, R101: the packing of a colour, with the three pure colours; slots 0-7 carry the green bits, 8-15 the red,
16-23 the blue, MSB first; the other reading is the packed order. -/
def Obligations.ColourSlots : Prop :=
  (∀ c : Colour, (packColour c).toNat = c.g.toNat * 2 ^ 16 + c.r.toNat * 2 ^ 8 + c.b.toNat) ∧
  packColour ⟨255, 0, 0⟩ = 0x00FF00#24 ∧ packColour ⟨0, 255, 0⟩ = 0xFF0000#24 ∧ packColour ⟨0, 0, 255⟩ = 0x0000FF#24 ∧
  ∀ (c : Colour) (j : Nat), j < 8 →
    slotBit .msbFirst (packColour c) j = c.g.getLsbD (7 - j) ∧
    slotBit .msbFirst (packColour c) (8 + j) = c.r.getLsbD (7 - j) ∧
    slotBit .msbFirst (packColour c) (16 + j) = c.b.getLsbD (7 - j) ∧
    slotBit .packed (packColour c) j = c.b.getLsbD j ∧
    slotBit .packed (packColour c) (8 + j) = c.r.getLsbD j ∧
    slotBit .packed (packColour c) (16 + j) = c.g.getLsbD j

/-- R104, R110, R113: every index lies inside the payload, no two places share an index, and channel ch of a group
is bit `ch % 8` of byte `(24p + i) * G + ch / 8`. -/
def Obligations.BitPlaces : Prop :=
  ∀ nc nl : Nat, nc % 8 = 0 →
    (∀ p i ch, p < nl → i < 24 → ch < nc →
      bitIndex nc p i ch / 8 < nc * nl * 3 ∧
      bitIndex nc p i ch / 8 = (24 * p + i) * (nc / 8) + ch / 8 ∧ bitIndex nc p i ch % 8 = ch % 8) ∧
    ∀ p i ch p' i' ch', i < 24 → ch < nc → i' < 24 → ch' < nc →
      bitIndex nc p i ch = bitIndex nc p' i' ch' → p = p' ∧ i = i' ∧ ch = ch'

/-! ### Region memory -/

/-- R54, R58: a word is four bytes, least significant first; a word written reads back; every byte outside those
written reads as before. -/
def Obligations.MemoryWords : Prop :=
  (∀ (s : State) (a : Nat), s.memRead a 4 = (s.loadByte a).toNat + (s.loadByte (a + 1)).toNat * 2 ^ 8
    + (s.loadByte (a + 2)).toNat * 2 ^ 16 + (s.loadByte (a + 3)).toNat * 2 ^ 24) ∧
  ∀ (s : State) (a v : Nat), v < 2 ^ 32 →
    (∀ k < 4, (s.memWrite a 4 v).loadByte (a + k) = BitVec.ofNat 8 (v / 2 ^ (8 * k))) ∧
    (s.memWrite a 4 v).memRead a 4 = v ∧ KeepsMemoryOutside a 4 s (s.memWrite a 4 v)

/-! ### XFER and the ring controller -/

/-- R121: the checks of `Validate`, in their order. The header words `numChannels`, `numLeds` and, in the MULTI variant
only, `numFrames` are bytes 0-3, 4-7 and 8-11, least significant byte first (R93, R63); a SINGLE store has `H = 8` and
`NF = 1`, a MULTI store `H = 12` and `NF` its third word (R64); `U(r, G)` is R123's. -/
def Obligations.ValidateInOrder : Prop :=
  ∀ (s : State) (store frame : Word),
    (s.par.stores[store.toNat]? = none → s.validate store frame = .error .eIo) ∧
    ∀ f, s.par.stores[store.toNat]? = some f → ∀ (word : Nat → Nat) (H NF nc nl size : Nat),
      (∀ off, word off = (f.bytes.getD off 0).toNat + (f.bytes.getD (off + 1) 0).toNat * 2 ^ 8
        + (f.bytes.getD (off + 2) 0).toNat * 2 ^ 16 + (f.bytes.getD (off + 3) 0).toNat * 2 ^ 24) →
      (f.variant = .single → H = 8 ∧ NF = 1) → (f.variant = .multi → H = 12 ∧ NF = word 8) →
      nc = word 0 → nl = word 4 → size = nc * nl * 3 →
      (f.bytes.length < H → s.validate store frame = .error .eIo) ∧
      (H ≤ f.bytes.length →
        (nc ≠ s.par.hwChannels → s.validate store frame = .error .eChannels) ∧
        (nc = s.par.hwChannels →
          (nl = 0 ∨ 2 ^ 32 - 1 < size → s.validate store frame = .error .eIo) ∧
          (nl ≠ 0 → size ≤ 2 ^ 32 - 1 →
            (f.bytes.length ≠ H + NF * size → s.validate store frame = .error .eIo) ∧
            (f.bytes.length = H + NF * size →
              (NF ≤ frame.toNat → s.validate store frame = .error .eRange) ∧
              (frame.toNat < NF →
                ((∃ r, (s.cap r - 8) / (nc / 8) / 24 * 24 * (nc / 8) = 0) →
                  s.validate store frame = .error .eConfig) ∧
                ((∀ r, (s.cap r - 8) / (nc / 8) / 24 * 24 * (nc / 8) ≠ 0) →
                  s.validate store frame = .ok ⟨nc, nl, H + frame.toNat * size⟩))))))

/-- XFER by the holder of a frame that validates, RC being IDLE: RC is loaded and in SETUP, the port holds, and
nothing else changes (`41_ring_controller.md` R120). -/
def Obligations.XferStarts : Prop :=
  ∀ (s : State) (v : Frame), paramsOk s.par = true → s.ready = true → s.holds s.issuer = true →
    s.rc.state = .idle → s.validate (s.port s.issuer).arg1 (s.port s.issuer).arg0 = .ok v →
    ∃ t, exec .xfer s = .next t ∧
      t.rc = { s.rc with
        owner := s.issuer, store := (s.port s.issuer).arg1, src := t.rc.src, total := t.rc.total, cursor := 0
        g := t.rc.g, state := .setup } ∧
      t.rc.src.toNat = v.offset ∧ t.rc.total.toNat = v.nc * v.nl * 3 ∧ t.rc.g.toNat = v.nc / 8 ∧
      t.port s.issuer = { s.port s.issuer with blocked := true } ∧
      PortFrame s.issuer s t ∧ t.tk = s.tk ∧ t.log = s.log ∧ t.cp = s.cp ∧ t.out = s.out ∧ KeepsMemory s t

/-- XFER by a port that does not hold the token, or of a frame that does not validate, completes with its error;
the second writes `RC.RESULT` and clears `RC.FLAGS`; no region is touched (`41_ring_controller.md` R120,
`60_exceptions.md` R206). A valid one while RC is not IDLE is `MF_RC_REENTRY` (R213). -/
def Obligations.XferRejected : Prop :=
  ∀ s : State, s.ready = true →
    (s.holds s.issuer = false → ∃ t, exec .xfer s = .next t ∧ OnlyCompletes s.issuer .eNotHolder s t) ∧
    (s.holds s.issuer = true →
      ∀ e, s.validate (s.port s.issuer).arg1 (s.port s.issuer).arg0 = .error e →
        ∃ t, exec .xfer s = .next t ∧ t.rc = { s.rc with result := e, flags := ⟨false, false, false⟩ } ∧
          CompletesWith s.issuer e s t ∧ PortFrame s.issuer s t ∧ t.tk = s.tk ∧ t.log = s.log ∧
          t.cp = s.cp ∧ t.out = s.out ∧ KeepsMemory s t) ∧
    (s.holds s.issuer = true → s.rc.state ≠ .idle →
      ∀ v, s.validate (s.port s.issuer).arg1 (s.port s.issuer).arg0 = .ok v → exec .xfer s = .fault .rcReentry)

/-- R126: SETUP zeroes every `end_addr`, points every `next_addr` at its successor and goes to FILL. -/
def Obligations.SetupStep : Prop :=
  ∀ s : State, paramsOk s.par = true → s.rc.state = .setup →
    ∃ t, ringStep s = .next t ∧ (∀ r, t.endAddr r = 0 ∧ t.nextAddr r = s.base (r + 1)) ∧
      t.rc = { s.rc with fillIdx := 0, state := .fill } ∧
      (∀ a, (∀ r, a < s.base r ∨ s.base r + 8 ≤ a) → t.loadByte a = s.loadByte a) ∧
      KeepsRequesters s t ∧ t.cp = s.cp ∧ t.out = s.out

/-- R124, R123, R144: FillRegion in a running transfer copies the next bytes of the store unchanged, as many as the
region's usable bytes `U(r, G)` and the rest of the payload allow, a whole number of LEDs, writes `end_addr`, advances
the cursor, and writes no other byte. -/
def Obligations.FillRegionStep : Prop :=
  ∀ (s : State) (r : Region), paramsOk s.par = true → s.Inv → s.rc.state ≠ .idle →
    s.rc.cursor.toNat < s.rc.total.toNat →
    ∃ t n f, s.fillRegion r = some t ∧ s.par.stores[s.rc.store.toNat]? = some f ∧
      n = min ((s.cap r - 8) / s.rc.g.toNat / 24 * 24 * s.rc.g.toNat) (s.rc.total.toNat - s.rc.cursor.toNat) ∧
      n % (24 * s.rc.g.toNat) = 0 ∧ 24 * s.rc.g.toNat ≤ n ∧ n ≤ s.cap r - 8 ∧
      (∀ i < n, f.bytes[s.rc.src.toNat + s.rc.cursor.toNat + i]? = some (t.loadByte (s.base r + 8 + i))) ∧
      t.endAddr r = s.base r + 8 + n - s.rc.g.toNat ∧ t.nextAddr r = s.nextAddr r ∧
      t.rc = { s.rc with cursor := t.rc.cursor } ∧ t.rc.cursor.toNat = s.rc.cursor.toNat + n ∧
      (∀ a, (a < s.base r ∨ s.base r + 4 ≤ a) → (a < s.base r + 8 ∨ s.base r + 8 + n ≤ a) →
        t.loadByte a = s.loadByte a) ∧
      KeepsRequesters s t ∧ t.cp = s.cp ∧ t.out = s.out

/-- R127: FILL fills one region a step while payload remains, then goes to START with the region after the last
filled as the current one. -/
def Obligations.FillStep : Prop :=
  ∀ s : State, s.rc.state = .fill →
    (∀ r u, s.rc.fillIdx.toNat = r.val → s.rc.cursor.toNat < s.rc.total.toNat → s.fillRegion r = some u →
      ringStep s = .next { u with rc := { u.rc with fillIdx := s.rc.fillIdx + 1 } }) ∧
    (s.rc.fillIdx.toNat = 3 ∨ s.rc.total.toNat ≤ s.rc.cursor.toNat →
      ∃ t, ringStep s = .next t ∧ t.rc.state = .start ∧ t.rc.cur.val = s.rc.fillIdx.toNat % 3 ∧
        t.rc = { s.rc with cur := t.rc.cur, state := .start } ∧
        KeepsRequesters s t ∧ t.cp = s.cp ∧ t.out = s.out ∧ KeepsMemory s t)

/-- R128, R131, R137: START notes the time and the deadline, and the consumer starts at region A with `OUT`
empty. -/
def Obligations.StartStep : Prop :=
  ∀ s : State, s.rc.state = .start →
    ∃ t, ringStep s = .next t ∧
      t.rc = { s.rc with t0 := s.tNow, deadline := t.rc.deadline, state := .drain } ∧
      t.rc.deadline.toNat = s.rc.total.toNat / s.rc.g.toNat * s.par.tBit.toNat + s.par.tReset.toNat ∧
      t.cp = ⟨.running, 0⟩ ∧ t.out = [] ∧ KeepsRequesters s t ∧ KeepsMemory s t

/-- R129: DRAIN ends when the consumer has stopped or the deadline is reached; else it refills the current region
when that is empty and payload remains; else it sleeps one poll interval. -/
def Obligations.DrainStep : Prop :=
  ∀ s : State, s.rc.state = .drain →
    (s.cp.mode = .stopped ∨ s.rc.deadline.toNat ≤ s.tNow.toNat - s.rc.t0.toNat →
      ringStep s = .next { s with rc := { s.rc with state := .check } }) ∧
    (s.cp.mode ≠ .stopped → s.tNow.toNat - s.rc.t0.toNat < s.rc.deadline.toNat →
      (∀ u, s.rc.cursor.toNat < s.rc.total.toNat → s.memRead (s.base s.rc.cur) 4 = 0 →
        s.fillRegion s.rc.cur = some u →
        ringStep s = .next { u with rc := { u.rc with cur := s.rc.cur + 1 } }) ∧
      (s.rc.total.toNat ≤ s.rc.cursor.toNat ∨ s.memRead (s.base s.rc.cur) 4 ≠ 0 →
        ∃ t, ringStep s = .next t ∧ t.rc = { s.rc with wake := t.rc.wake, state := .sleep } ∧
          (s.tNow.toNat + s.par.tPoll.toNat < 2 ^ 64 → t.rc.wake.toNat = s.tNow.toNat + s.par.tPoll.toNat) ∧
          KeepsRequesters s t ∧ t.cp = s.cp ∧ t.out = s.out ∧ KeepsMemory s t))

/-- R130: SLEEP has no step before `RC.WAKE` (the state stays as it is: log 16), and goes to DRAIN at the first step
at or after it. -/
def Obligations.SleepStep : Prop :=
  ∀ s : State, s.rc.state = .sleep →
    (s.tNow.toNat < s.rc.wake.toNat → ringStep s = .next s) ∧
    (s.rc.wake.toNat ≤ s.tNow.toNat → ringStep s = .next { s with rc := { s.rc with state := .drain } })

/-- R132, R133, R134: CHECK samples the three conditions, writes them and the one result, goes to IDLE, and a plain
XFER's port completes with that result; a macro-command's port goes on by its own step (log 11). -/
def Obligations.CheckStep : Prop :=
  ∀ s : State, s.rc.state = .check →
    ∃ t, ringStep s = .next t ∧
      t.rc = { s.rc with flags := t.rc.flags, result := t.rc.result, state := .idle } ∧
      (t.rc.flags.underrun = true ↔ s.rc.cursor.toNat < s.rc.total.toNat) ∧
      (t.rc.flags.timeout = true ↔ s.cp.mode ≠ .stopped) ∧
      (t.rc.flags.unconsumed = true ↔ ∃ r, s.memRead (s.base r) 4 ≠ 0) ∧
      t.rc.result = (if t.rc.flags.timeout then .eTimeout else if t.rc.flags.underrun then .eUnderrun
        else if t.rc.flags.unconsumed then .eUnconsumed else .ok) ∧
      ((s.port s.rc.owner).seq.kind = .none → CompletesWith s.rc.owner t.rc.result s t) ∧
      ((s.port s.rc.owner).seq.kind ≠ .none → t.port s.rc.owner = s.port s.rc.owner) ∧
      PortFrame s.rc.owner s t ∧ t.tk = s.tk ∧ t.log = s.log ∧ t.cp = s.cp ∧ t.out = s.out ∧ KeepsMemory s t

/-- R145: the deadline of a payload of more LEDs is strictly later. -/
def Obligations.DeadlineGrows : Prop :=
  ∀ (s s' : State) (nl nl' : Nat), paramsOk s.par = true → s'.par = s.par → s'.rc.g = s.rc.g → s.rc.g ≠ 0 →
    s.rc.total.toNat = 24 * s.rc.g.toNat * nl → s'.rc.total.toNat = 24 * s.rc.g.toNat * nl' → nl < nl' →
    s.deadline = 24 * nl * s.par.tBit.toNat + s.par.tReset.toNat ∧ s.deadline < s'.deadline

/-- R146: in a reachable state each DRAIN step goes to CHECK, or raises the cursor by at least one LED, or sleeps;
at or after the deadline it goes to CHECK. In a run with the fairness of `00_scope.md` R6 (log 1) every transfer ends:
RC comes to CHECK, still for the same owner, and takes the step from there to IDLE, whatever the consumer does, a hung
one included; the deadline is taken to fall before the end of time (`10_state.md` R35, log 17). -/
def Obligations.DrainProgress : Prop :=
  (∀ s : State, paramsOk s.par = true → s.Inv → s.rc.state = .drain →
    ∃ t, ringStep s = .next t ∧
      (t.rc.state = .check ∨
        (t.rc.state = .drain ∧ s.rc.cursor.toNat + 24 * s.rc.g.toNat ≤ t.rc.cursor.toNat ∧
          t.rc.cursor.toNat ≤ t.rc.total.toNat ∧ t.rc.total = s.rc.total) ∨
        t.rc.state = .sleep) ∧
      (s.rc.deadline.toNat ≤ s.tNow.toNat - s.rc.t0.toNat → t.rc.state = .check)) ∧
  ∀ (σ : Schedule) (r : Nat → State) (n : Nat), IsRun σ r → Fair σ r → (r n).Inv → (r n).rc.state ≠ .idle →
    (∀ m, n ≤ m → (∀ k, n ≤ k → k ≤ m → (r k).rc.state ≠ .idle) → (r m).rc.state ∈ [RcState.drain, .sleep] →
      (r m).rc.t0.toNat + (r m).rc.deadline.toNat < 2 ^ 64) →
    ∃ m, n ≤ m ∧ (∀ k, n ≤ k → k ≤ m → (r k).rc.state ≠ .idle ∧ (r k).rc.owner = (r n).rc.owner) ∧
      (r m).rc.state = .check ∧ (σ m).act = .ringStep ∧ (r (m + 1)).rc.state = .idle

/-! ### The consumer -/

/-- R138: CONSUME of a region whose `end_addr` lies in its payload on a group boundary clocks its groups out in order,
clears `end_addr` and follows `next_addr`; one whose `end_addr` or `next_addr` is bad hangs. -/
def Obligations.ConsumeStep : Prop :=
  ∀ (s : State) (B e G : Nat), paramsOk s.par = true → s.cp.mode = .running → B = s.base s.cp.c →
    e = s.memRead B 4 → G = s.par.hwChannels / 8 → e ≠ 0 →
    KeepsRequesters s (cpConsume s) ∧ (cpConsume s).rc = s.rc ∧
    (e < B + 8 ∨ B + s.cap s.cp.c < e + G ∨ (e - B - 8) % G ≠ 0 →
      (cpConsume s).cp = { s.cp with mode := .hung } ∧ (cpConsume s).out = s.out ∧ KeepsMemory s (cpConsume s)) ∧
    (B + 8 ≤ e → e + G ≤ B + s.cap s.cp.c → (e - B - 8) % G = 0 →
      (∃ gs : List (List Byte), (cpConsume s).out = s.out ++ gs ∧ gs.length = (e - (B + 8)) / G + 1 ∧
        ∀ m < gs.length, gs[m]? = some (s.loadBytes (B + 8 + m * G) G)) ∧
      (cpConsume s).memRead B 4 = 0 ∧ KeepsMemoryOutside B 4 s (cpConsume s) ∧
      (∀ r, s.memRead (B + 4) 4 = s.base r → (cpConsume s).cp = ⟨.running, r⟩) ∧
      ((∀ r, s.memRead (B + 4) 4 ≠ s.base r) → (cpConsume s).cp = { s.cp with mode := .hung }))

/-- R139, R140: from RUNNING at an empty region the consumer may go to LATCH, from LATCH to STOPPED, from either to
HUNG; LATCH and HUNG report running. At a region that is not empty it does not latch; a consumer with no enabled step
stays as it is (log 16). -/
def Obligations.ConsumerStops : Prop :=
  ∀ s : State,
    (s.cp.mode = .running → s.memRead (s.base s.cp.c) 4 = 0 →
      cpLatch s = { s with cp := { s.cp with mode := .latch } } ∧ (cpLatch s).isRunning = true ∧ cpConsume s = s) ∧
    (s.cp.mode = .running → s.memRead (s.base s.cp.c) 4 ≠ 0 → cpLatch s = s) ∧
    (s.cp.mode = .running → cpStop s = s) ∧
    (s.cp.mode = .latch → cpStop s = { s with cp := { s.cp with mode := .stopped } } ∧
      (cpStop s).isRunning = false ∧ cpConsume s = s ∧ cpLatch s = s) ∧
    (s.cp.mode = .running ∨ s.cp.mode = .latch →
      cpHang s = { s with cp := { s.cp with mode := .hung } } ∧ (cpHang s).isRunning = true) ∧
    (s.cp.mode = .hung ∨ s.cp.mode = .stopped →
      cpConsume s = s ∧ cpLatch s = s ∧ cpStop s = s ∧ cpHang s = s) ∧
    (s.isRunning = true ↔ s.cp.mode ≠ .stopped)

/-- R142, R43 (5): headers that are as RC and CP write them stay so through every step but an outside write of
region memory, and the consumer never hangs on them. -/
def Obligations.HeadersStayGood : Prop :=
  (∀ s t : State, s.Inv → s.HeadersOk → (∀ a b, s.nextEvent.act ≠ .outsideWrite a b) → step s = .next t →
    t.HeadersOk ∧ t.EndsOk) ∧
  (∀ s t : State, paramsOk s.par = true → s.rc.state = .setup → ringStep s = .next t → t.HeadersOk) ∧
  ∀ s : State, paramsOk s.par = true → s.HeadersOk → s.cp.mode = .running → (cpConsume s).cp.mode = .running

/-- R141: through every step of a transfer that is not an outside write of region memory, what has been clocked
out and what waits in the regions stays the payload up to the cursor. -/
def Obligations.StreamingKept : Prop :=
  ∀ s t : State, s.Inv → Streaming s → s.rc.state ≠ .idle → (∀ a b, s.nextEvent.act ≠ .outsideWrite a b) →
    step s = .next t → t.rc.state ≠ .idle → Streaming t

/-- R141: a transfer that ends with OK has clocked out the whole payload of the frame, in whole groups, when it was
started, by XFER, SHOW or PLAY, while the consumer was not RUNNING. -/
def Obligations.StreamedPayload : Prop :=
  (∀ (s t : State) (a : Action), s.rc.state = .idle → t.rc.state = .setup → s.cp.mode ≠ .running →
    runAction a s = .next t → Streaming t) ∧
  ∀ s t : State, s.Inv → Streaming s → s.rc.state = .check → ringStep s = .next t → t.rc.result = .ok →
    t.out.flatten = s.transferBytes ∧ s.transferBytes.length = s.rc.total.toNat ∧
      ∀ g ∈ t.out, g.length = s.par.hwChannels / 8

/-! ### The token -/

/-- ACQUIRE on a ready machine: a port that neither holds nor waits enters `TK.WAIT` and holds; another completes
with `E_REENTRY` (`42_token_arbiter.md` R151). -/
def Obligations.AcquireWaits : Prop :=
  ∀ s : State, s.ready = true →
    ∃ t, exec .acquire s = .next t ∧
      (s.holds s.issuer = false → s.waiting s.issuer = false →
        t.tk.state = s.tk.state ∧ t.tk.holder = s.tk.holder ∧
        (∀ p, t.waiting p = true ↔ s.waiting p = true ∨ p = s.issuer) ∧
        t.port s.issuer = { s.port s.issuer with blocked := true } ∧
        PortFrame s.issuer s t ∧ KeepsRing s t ∧ t.log = s.log) ∧
      (s.holds s.issuer = true ∨ s.waiting s.issuer = true → OnlyCompletes s.issuer .eReentry s t)

/-- R152, R155: GRANT makes some waiter of an idle token the holder, and any waiter can be the one; a plain ACQUIRE
completes with OK; of a macro-command only `BLOCKED` is cleared, since `SEQ[w]` is port w's own (R212, log 10); with no
waiter, or a held token, GRANT has no step (log 16). In a run with the fairness of `00_scope.md` R6 (log 1) an idle token with a waiter comes
to be held, unless the machine becomes fatal (R152, R214). -/
def Obligations.GrantStep : Prop :=
  (∀ s : State, s.tk.state = .idle → (∃ q, s.waiting q = true) →
    ∃ w, s.waiting w = true ∧ (grantStep s).tk.state = .held ∧ (grantStep s).tk.holder = w ∧
      (∀ p, (grantStep s).waiting p = true ↔ s.waiting p = true ∧ p ≠ w) ∧
      GrantEnds w s (grantStep s) ∧
      PortFrame w s (grantStep s) ∧ KeepsRing s (grantStep s) ∧ (grantStep s).log = s.log) ∧
  (∀ (s : State) (w : Port), s.tk.state = .idle → s.waiting w = true →
    ∃ n, (grantStep { s with pick := n }).tk.holder = w) ∧
  (∀ s : State, s.tk.state = .held ∨ (∀ q, s.waiting q = false) → grantStep s = s) ∧
  ∀ (σ : Schedule) (r : Nat → State) (n : Nat), IsRun σ r → Fair σ r → (r n).tk.state = .idle →
    (∃ q, (r n).waiting q = true) → ∃ m, n ≤ m ∧ ((r m).tk.state = .held ∨ (r m).cfg.fatal = true)

/-- TRY_HANDOFF by the holder: with a waiter, one becomes the holder in the same step, the token staying HELD, and
the caller ends with `PREEMPTED`; with none it ends with `STILL_HELD` and nothing else changes
(`42_token_arbiter.md` R153, R157). The waiter's plain ACQUIRE completes in this step; that of a macro-command
only `BLOCKED` is cleared is the model's reading (R212, log 10). -/
def Obligations.TryHandoffCompletes : Prop :=
  ∀ s : State, s.ready = true → s.holds s.issuer = true → s.waiting s.issuer = false →
    ∃ t, exec .tryHandoff s = .next t ∧
      ((∃ p, s.waiting p = true) →
        ∃ w, s.waiting w = true ∧ t.tk.state = .held ∧ t.tk.holder = w ∧
          (∀ p, t.waiting p = true ↔ s.waiting p = true ∧ p ≠ w) ∧
          CompletesWith s.issuer .preempted s t ∧
          GrantEnds w s t ∧ (∀ p, p ≠ s.issuer → p ≠ w → t.port p = s.port p) ∧
          KeepsConfig s t ∧ KeepsInputs s t ∧ KeepsRing s t ∧ t.encOut = s.encOut ∧ t.log = s.log) ∧
      ((∀ p, s.waiting p = false) → OnlyCompletes s.issuer .stillHeld s t)

/-- RELEASE by the holder idles the token and completes with OK; the waiters stay. RELEASE and TRY_HANDOFF by a port
that does not hold the token complete with `E_NOT_HOLDER` and do nothing else (`42_token_arbiter.md` R153,
R154). -/
def Obligations.ReleaseCompletes : Prop :=
  (∀ s : State, s.ready = true → s.holds s.issuer = true →
    ∃ t, exec .release s = .next t ∧ t.tk = { s.tk with state := .idle, holder := 0 } ∧
      CompletesWith s.issuer .ok s t ∧ PortFrame s.issuer s t ∧ KeepsRing s t ∧ t.log = s.log) ∧
  ∀ i ∈ [Instr.tryHandoff, .release], ∀ s : State, s.ready = true → s.holds s.issuer = false →
    ∃ t, exec i s = .next t ∧ OnlyCompletes s.issuer .eNotHolder s t

/-- R156, R157: in one step a port becomes the holder only if it was waiting, and it then no
longer waits; a port leaves `TK.WAIT` only by being granted, or because the machine became fatal. -/
def Obligations.TokenMovesToWaiters : Prop :=
  ∀ s t : State, step s = .next t →
    (∀ w, t.holds w = true → s.holds w = false → s.waiting w = true ∧ t.waiting w = false) ∧
    ∀ w, s.waiting w = true → t.waiting w = false → t.holds w = true ∨ t.cfg.fatal = true

/-- R158, R236: while a transfer runs no step takes the token from its owner. -/
def Obligations.NoPreemptionMidTransfer : Prop :=
  ∀ s t : State, s.Inv → s.rc.state ≠ .idle → step s = .next t → t.holds s.rc.owner = true

/-! ### SHOW, PLAY and STOP -/

/-- SHOW, PLAY and STOP on a ready machine begin: KIND and the context are set from the operands, the phase is
VALIDATE, for STOP it is ACQ; the port stays busy and nothing else changes (`43_command_sequencer.md` R172, R174,
R178). -/
def Obligations.MacroBegins : Prop :=
  ∀ s : State, s.ready = true →
    (∃ t, exec .showFrame s = .next t ∧
      t.port s.issuer = { s.port s.issuer with
        seq := { (s.port s.issuer).seq with
          kind := .showCmd, phase := .validate, idx := (s.port s.issuer).arg0, store := (s.port s.issuer).arg1 } } ∧
      PortFrame s.issuer s t ∧ KeepsRing s t ∧ t.tk = s.tk ∧ t.log = s.log) ∧
    (∃ t, exec .playFrames s = .next t ∧
      t.port s.issuer = { s.port s.issuer with
        seq := { (s.port s.issuer).seq with
          kind := .playCmd, phase := .validate, first := (s.port s.issuer).arg0
          store := (s.port s.issuer).arg1, upto := (s.port s.issuer).arg2, fps := (s.port s.issuer).arg3 } } ∧
      PortFrame s.issuer s t ∧ KeepsRing s t ∧ t.tk = s.tk ∧ t.log = s.log) ∧
    ∃ t, exec .stopPlayback s = .next t ∧
      t.port s.issuer = { s.port s.issuer with
        seq := { (s.port s.issuer).seq with kind := .stopCmd, phase := .acq } } ∧
      PortFrame s.issuer s t ∧ KeepsRing s t ∧ t.tk = s.tk ∧ t.log = s.log

/-- R171, R174: VALIDATE of SHOW and PLAY logs `CMD_INVALID` and completes with the error of an invalid command,
the play range before the frame, never touching the token or the ring; a valid one goes to ACQ. -/
def Obligations.MacroValidates : Prop :=
  ∀ (s : State) (q : Port),
    (AtPhase s q .showCmd .validate →
      ∃ t, portStep q s = .next t ∧ PortFrame q s t ∧ KeepsRing s t ∧ t.tk = s.tk ∧
        (∀ e, s.validate (s.port q).seq.store (s.port q).seq.idx = .error e →
          t.log = s.log ++ [⟨s.tNow, some q, .cmdInvalid, e.word, 0⟩] ∧ CompletesWith q e s t) ∧
        ∀ v, s.validate (s.port q).seq.store (s.port q).seq.idx = .ok v →
          t.log = s.log ∧ t.port q = { s.port q with seq := { (s.port q).seq with phase := .acq } }) ∧
    (AtPhase s q .playCmd .validate →
      ∃ t, portStep q s = .next t ∧ PortFrame q s t ∧ KeepsRing s t ∧ t.tk = s.tk ∧
        ((s.port q).seq.fps = 0 ∨ (s.port q).seq.upto.toNat < (s.port q).seq.first.toNat →
          t.log = s.log ++ [⟨s.tNow, some q, .cmdInvalid, Result.word .eRange, 0⟩] ∧
            CompletesWith q .eRange s t) ∧
        ((s.port q).seq.fps ≠ 0 → (s.port q).seq.first.toNat ≤ (s.port q).seq.upto.toNat →
          (∀ e, s.validate (s.port q).seq.store (s.port q).seq.upto = .error e →
            t.log = s.log ++ [⟨s.tNow, some q, .cmdInvalid, e.word, 0⟩] ∧ CompletesWith q e s t) ∧
          ∀ v, s.validate (s.port q).seq.store (s.port q).seq.upto = .ok v →
            t.log = s.log ∧ t.port q = { s.port q with seq := { (s.port q).seq with phase := .acq } }))

/-- ACQ of SHOW, PLAY and STOP: a port that holds or waits already ends with `E_REENTRY`; another enters `TK.WAIT`
and holds there; while it holds it has no step (log 16; `43_command_sequencer.md` R172, R174, R178). Once granted, it
goes by its own next step to POLL, for PLAY to CLOCK, for STOP to RELEASE (`60_exceptions.md` R212, log 10); that it
has entered `TK.WAIT` is the model's own `queued` (log 39). -/
def Obligations.MacroAcquires : Prop :=
  ∀ (s : State) (q : Port) (k : Kind), k ≠ .none → AtPhase s q k .acq →
    ((s.port q).blocked = true → portStep q s = .next s) ∧
    ((s.port q).blocked = false → (s.port q).seq.queued = false →
      ∃ t, portStep q s = .next t ∧
        (s.holds q = true ∨ s.waiting q = true → OnlyCompletes q .eReentry s t) ∧
        (s.holds q = false → s.waiting q = false →
          (∀ p, t.waiting p = true ↔ s.waiting p = true ∨ p = q) ∧
          t.tk.state = s.tk.state ∧ t.tk.holder = s.tk.holder ∧
          t.port q = { s.port q with blocked := true, seq := { (s.port q).seq with queued := true } } ∧
          PortFrame q s t ∧ KeepsRing s t ∧ t.log = s.log)) ∧
    ((s.port q).blocked = false → (s.port q).seq.queued = true →
      ∀ p, (k, p) ∈ [(Kind.showCmd, Phase.poll), (.playCmd, .clock), (.stopCmd, .release)] →
        ∃ t, portStep q s = .next t ∧
          t.port q = { s.port q with seq := { (s.port q).seq with phase := p, queued := false } } ∧
          PortFrame q s t ∧ KeepsRing s t ∧ t.tk = s.tk ∧ t.log = s.log)

/-- POLL of SHOW and PLAY by the holder: with a waiter the token goes to one and the command ends with `PREEMPTED`
without releasing or logging; with none it goes to XFER (`43_command_sequencer.md` R172, R174). That of a waiting
macro-command only `BLOCKED` is cleared in this step is the model's reading (`60_exceptions.md` R212, log 10). -/
def Obligations.MacroPolls : Prop :=
  ∀ (s : State) (q : Port) (k : Kind), k ∈ [Kind.showCmd, .playCmd] → AtPhase s q k .poll → s.holds q = true →
    s.waiting q = false →
    ∃ t, portStep q s = .next t ∧
      KeepsConfig s t ∧ KeepsInputs s t ∧ KeepsRing s t ∧ t.encOut = s.encOut ∧ t.log = s.log ∧
      ((∃ p, s.waiting p = true) →
        ∃ w, s.waiting w = true ∧ t.tk.state = .held ∧ t.tk.holder = w ∧ CompletesWith q .preempted s t ∧
          (∀ p, t.waiting p = true ↔ s.waiting p = true ∧ p ≠ w) ∧
          GrantEnds w s t ∧ ∀ p, p ≠ q → p ≠ w → t.port p = s.port p) ∧
      ((∀ p, s.waiting p = false) →
        t.tk = s.tk ∧ t.port q = { s.port q with seq := { (s.port q).seq with phase := .xfer } } ∧
          KeepsOtherPorts q s t)

/-- XFER of SHOW and PLAY starts the transfer of the frame, for PLAY the frame `PlayIndex()`, RC being IDLE and the
frame valid: RC is loaded, the port holds, and while the transfer runs the port has no step
(log 16; `43_command_sequencer.md` R172, R174). -/
def Obligations.MacroStartsTransfer : Prop :=
  ∀ (s : State) (q : Port),
    (∀ v, AtPhase s q .showCmd .xfer → (s.port q).blocked = false → s.rc.state = .idle →
      s.validate (s.port q).seq.store (s.port q).seq.idx = .ok v →
      ∃ t, portStep q s = .next t ∧ t.rc = s.rc.load q (s.port q).seq.store v ∧
        t.port q = { s.port q with blocked := true } ∧ PortFrame q s t ∧ t.tk = s.tk ∧ t.log = s.log ∧
        t.cp = s.cp ∧ t.out = s.out ∧ KeepsMemory s t) ∧
    (∀ v, AtPhase s q .playCmd .xfer → (s.port q).blocked = false → s.rc.state = .idle →
      s.validate (s.port q).seq.store (BitVec.ofNat 32 (playIndex (s.port q).seq s.tNow.toNat)) = .ok v →
      ∃ t, portStep q s = .next t ∧ t.rc = s.rc.load q (s.port q).seq.store v ∧
        t.port q = { s.port q with
          blocked := true
          seq := { (s.port q).seq with idx := BitVec.ofNat 32 (playIndex (s.port q).seq s.tNow.toNat) } } ∧
        PortFrame q s t ∧ t.tk = s.tk ∧ t.log = s.log ∧ t.cp = s.cp ∧ t.out = s.out ∧ KeepsMemory s t) ∧
    ∀ k ∈ [Kind.showCmd, .playCmd], AtPhase s q k .xfer → (s.port q).blocked = true → s.rc.state ≠ .idle →
      portStep q s = .next s

/-- XFER of SHOW after its transfer: OK is logged and goes to RELEASE; a failure is logged, and in SERVER mode SHOW
goes to BACKOFF until `T_NOW + P_SHOW_BACKOFF` with the token still held (`43_command_sequencer.md` R172, R173,
R179). That the port takes this by a step of its own after CHECK, `BLOCKED` being set until then, is the model's
reading (log 11); that BACKOFF has `BLOCKED` set exactly when its wake time is still to come is too (log 12). -/
def Obligations.ShowTransferEnds : Prop :=
  ∀ (s : State) (q : Port), AtPhase s q .showCmd .xfer → (s.port q).blocked = true → s.rc.state = .idle →
    (s.rc.result = .ok →
      ∃ t, portStep q s = .next t ∧ t.log = s.log ++ [⟨s.tNow, some q, .showOk, (s.port q).seq.idx, 0⟩] ∧
        t.port q = { s.port q with
          blocked := false, seq := { (s.port q).seq with last := .ok, phase := .release } } ∧
        PortFrame q s t ∧ KeepsRing s t ∧ t.tk = s.tk) ∧
    (s.rc.result ≠ .ok → s.par.mode = .server →
      ∃ t, portStep q s = .next t ∧
        t.log = s.log ++ [⟨s.tNow, some q, .showFail, (s.port q).seq.idx, s.rc.result.word⟩] ∧
        (t.port q).seq.phase = .backoff ∧ (t.port q).seq.last = s.rc.result ∧
        (s.tNow.toNat + s.par.showBackoff < 2 ^ 64 →
          (t.port q).seq.wake.toNat = s.tNow.toNat + s.par.showBackoff) ∧
        t.port q = { s.port q with
          blocked := decide (s.tNow.toNat < (t.port q).seq.wake.toNat)
          seq := { (s.port q).seq with
            last := s.rc.result, phase := .backoff, wake := (t.port q).seq.wake } } ∧
        PortFrame q s t ∧ KeepsRing s t ∧ t.tk = s.tk)

/-- XFER of PLAY after its transfer: the frame is logged; an end frame that succeeded goes to RELEASE; otherwise, in
SERVER mode or after a success, PLAY goes to PACE until `NextDeadline(idx)` (`43_command_sequencer.md` R174,
R176, R179). That the port takes this by a step of its own after CHECK, `BLOCKED` being set until then, is the model's
reading (log 11); that PACE has `BLOCKED` set exactly when its wake time is still to come is too (log 12). -/
def Obligations.PlayTransferEnds : Prop :=
  ∀ (s : State) (q : Port), AtPhase s q .playCmd .xfer → (s.port q).blocked = true → s.rc.state = .idle →
    (s.rc.result = .ok ∧ (s.port q).seq.idx = (s.port q).seq.upto →
      ∃ t, portStep q s = .next t ∧
        t.log = s.log ++ [⟨s.tNow, some q, .playFrame, (s.port q).seq.idx, s.rc.result.word⟩] ∧
        t.port q = { s.port q with
          blocked := false, seq := { (s.port q).seq with last := .ok, phase := .release } } ∧
        PortFrame q s t ∧ KeepsRing s t ∧ t.tk = s.tk) ∧
    ((s.rc.result = .ok ∧ (s.port q).seq.idx ≠ (s.port q).seq.upto) ∨
        (s.rc.result ≠ .ok ∧ s.par.mode = .server) →
      ∃ t, portStep q s = .next t ∧
        t.log = s.log ++ [⟨s.tNow, some q, .playFrame, (s.port q).seq.idx, s.rc.result.word⟩] ∧
        (nextDeadline (s.port q).seq (s.port q).seq.idx.toNat < 2 ^ 64 →
          (t.port q).seq.wake.toNat = nextDeadline (s.port q).seq (s.port q).seq.idx.toNat) ∧
        t.port q = { s.port q with
          blocked := decide (s.tNow.toNat < (t.port q).seq.wake.toNat)
          seq := { (s.port q).seq with
            last := s.rc.result, phase := .pace, wake := (t.port q).seq.wake } } ∧
        PortFrame q s t ∧ KeepsRing s t ∧ t.tk = s.tk)

/-- R179, R214: a failed transfer of SHOW or PLAY in STANDALONE mode makes the machine fatal: the command ends with
the transfer's code, every other running command with `E_NOT_READY`, the token is idle with nobody waiting, and the
failure and FATAL are logged. That the port takes this by a step of its own after CHECK, `BLOCKED` being set until
then, is the model's reading (log 11). -/
def Obligations.StandaloneFailureIsFatal : Prop :=
  ∀ (s : State) (q : Port) (k : Kind), k ∈ [Kind.showCmd, .playCmd] → AtPhase s q k .xfer →
    (s.port q).blocked = true → s.rc.state = .idle → s.rc.result ≠ .ok → s.par.mode = .standalone →
    ∃ t, portStep q s = .next t ∧
      t.cfg = { s.cfg with fatal := true } ∧ t.tk = ⟨.idle, 0, 0⟩ ∧
      t.port q = { s.port q with
        result := s.rc.result, busy := false, blocked := false
        seq := { (s.port q).seq with last := s.rc.result, phase := .none, kind := .none, queued := false } } ∧
      (∀ p, p ≠ q → (s.port p).busy = true → t.port p = (s.port p).completed .eNotReady) ∧
      (∀ p, p ≠ q → (s.port p).busy = false → t.port p = s.port p) ∧
      t.log = s.log ++ [⟨s.tNow, some q, if k = .showCmd then .showFail else .playFrame,
        (s.port q).seq.idx, s.rc.result.word⟩, ⟨s.tNow, some q, .fatal, s.rc.result.word, 0⟩] ∧
      t.par = s.par ∧ t.panel = s.panel ∧ KeepsInputs s t ∧ KeepsRing s t ∧ t.encOut = s.encOut

/-- CLOCK of PLAY notes the time and goes to POLL (`43_command_sequencer.md` R174). BACKOFF and PACE hold while
`T_NOW < WAKE` (log 16), and go back to POLL at the first step at or after it, `BLOCKED` being cleared (log 12;
`70_reset_and_hazards.md` R244). -/
def Obligations.ClockAndWaits : Prop :=
  (∀ (s : State) (q : Port), AtPhase s q .playCmd .clock →
    ∃ t, portStep q s = .next t ∧
      t.port q = { s.port q with seq := { (s.port q).seq with t0 := s.tNow, phase := .poll } } ∧
      PortFrame q s t ∧ KeepsRing s t ∧ t.tk = s.tk ∧ t.log = s.log) ∧
  ∀ (s : State) (q : Port) (k : Kind) (p : Phase), (k, p) ∈ [(Kind.showCmd, Phase.backoff), (.playCmd, .pace)] →
    AtPhase s q k p →
    (s.tNow.toNat < (s.port q).seq.wake.toNat → portStep q s = .next s) ∧
    ((s.port q).seq.wake.toNat ≤ s.tNow.toNat →
      ∃ t, portStep q s = .next t ∧
        t.port q = { s.port q with blocked := false, seq := { (s.port q).seq with phase := .poll } } ∧
        PortFrame q s t ∧ KeepsRing s t ∧ t.tk = s.tk ∧ t.log = s.log)

/-- RELEASE of SHOW, PLAY and STOP by the holder idles the token and completes with OK; PLAY logs `PLAY_DONE`
(`43_command_sequencer.md` R172, R174, R178). -/
def Obligations.MacroReleases : Prop :=
  ∀ (s : State) (q : Port) (k : Kind), k ≠ .none → AtPhase s q k .release → s.holds q = true →
    ∃ t, portStep q s = .next t ∧ t.tk = { s.tk with state := .idle, holder := 0 } ∧
      CompletesWith q .ok s t ∧ PortFrame q s t ∧ KeepsRing s t ∧
      t.log = s.log ++ (if k = .playCmd then [⟨s.tNow, some q, .playDone, (s.port q).seq.upto, 0⟩] else [])

/-- R175, R176: the play index is `min(TO, FROM + ((T_NOW - T0) * FPS) / 10^9)`, and `NextDeadline(idx)` is
`T0 + ceil((idx - FROM + 1) * 10^9 / FPS)`. Before `NextDeadline(idx)` the index is at most `idx`; at or after it, at
least `idx + 1` or TO; it never falls as time passes. A store and range that VALIDATE accepts hold every frame up to TO
(R174). -/
def Obligations.PlayOrder : Prop :=
  (∀ (x : Seq) (now : Nat),
    playIndex x now = min x.upto.toNat (x.first.toNat + (now - x.t0.toNat) * x.fps.toNat / 10 ^ 9) ∧
    (∀ idx, x.fps ≠ 0 → x.first.toNat ≤ idx →
      (∃ c, nextDeadline x idx = x.t0.toNat + c ∧ (idx - x.first.toNat + 1) * 10 ^ 9 ≤ c * x.fps.toNat ∧
        ∀ d, (idx - x.first.toNat + 1) * 10 ^ 9 ≤ d * x.fps.toNat → c ≤ d) ∧
      (now < nextDeadline x idx → playIndex x now ≤ idx) ∧
      (nextDeadline x idx ≤ now → idx + 1 ≤ playIndex x now ∨ playIndex x now = x.upto.toNat)) ∧
    (∀ later, now ≤ later → playIndex x now ≤ playIndex x later) ∧
    (x.first.toNat ≤ x.upto.toNat → x.first.toNat ≤ playIndex x now)) ∧
  ∀ (s : State) (store upto : Word) (v : Frame), s.validate store upto = .ok v →
    ∀ i : Word, i.toNat ≤ upto.toNat → ∃ v', s.validate store i = .ok v' ∧ v'.nc = v.nc ∧ v'.nl = v.nl

/-! ### Datagrams -/

/-- The datagram forms on a ready machine (`43_command_sequencer.md` R181, R183, `30_encoding.md` R92): a path that
resolves goes to the lowest-numbered idle port, whose operands and command are those of the datagram. That it may be
any port, one that software writes too, is the model's choice (log 37), and so is that the store it resolves to may be
one at or above `P_NSTORE` (log 32). -/
def Obligations.DatagramsDispatch : Prop :=
  (∀ (s : State) (path : List Byte) (frame store : Word) (q : Port), s.ready = true →
    s.par.resolve.lookup path = some store → s.portExists q = true → (s.port q).busy = false →
    (∀ p, p < q → (s.port p).busy = true) →
    ∃ t, exec (.showDatagram path frame) s = .next t ∧
      t.port q = { s.port q with
        arg0 := frame, arg1 := store, busy := true, opcode := 0x30#8
        seq := { (s.port q).seq with kind := .showCmd, phase := .validate, idx := frame, store := store } } ∧
      PortFrame q s t ∧ KeepsRing s t ∧ t.tk = s.tk ∧ t.log = s.log) ∧
  (∀ (s : State) (path : List Byte) (first last fps store : Word) (q : Port), s.ready = true →
    s.par.resolve.lookup path = some store → s.portExists q = true → (s.port q).busy = false →
    (∀ p, p < q → (s.port p).busy = true) →
    ∃ t, exec (.playDatagram path first last fps) s = .next t ∧
      t.port q = { s.port q with
        arg0 := first, arg1 := store, arg2 := last, arg3 := fps, busy := true, opcode := 0x31#8
        seq := { (s.port q).seq with
          kind := .playCmd, phase := .validate, first := first, store := store, upto := last, fps := fps } } ∧
      PortFrame q s t ∧ KeepsRing s t ∧ t.tk = s.tk ∧ t.log = s.log) ∧
  ∀ (s : State) (q : Port), s.ready = true → s.portExists q = true → (s.port q).busy = false →
    (∀ p, p < q → (s.port p).busy = true) →
    ∃ t, exec .stopDatagram s = .next t ∧
      t.port q = { s.port q with
        busy := true, opcode := 0x32#8, seq := { (s.port q).seq with kind := .stopCmd, phase := .acq } } ∧
      PortFrame q s t ∧ KeepsRing s t ∧ t.tk = s.tk ∧ t.log = s.log

/-- The datagrams that reach no port (R181-R183): unrecognised text is logged with its length; a path that is
MISSING logs `IO_ERROR`; with every port busy the datagram is dropped and logged; a machine that is not ready takes
none, recognised or not (log 16). Nothing else changes. -/
def Obligations.DatagramsNotDispatched : Prop :=
  (∀ (s : State) (d : List Byte) (e : DecodeError), s.ready = true → decodeDatagram d = .error e →
    d.length < 2 ^ 32 → deliverDatagram d s =
      .next { s with log := s.log ++ [⟨s.tNow, none, .dgramUnrecognized, BitVec.ofNat 32 d.length, 0⟩] }) ∧
  ∀ s : State,
    (s.ready = false → ∀ d, deliverDatagram d s = .next s) ∧
    (s.ready = false → ∀ path a b c, exec (.showDatagram path a) s = .next s ∧
      exec (.playDatagram path a b c) s = .next s ∧ exec .stopDatagram s = .next s) ∧
    (s.ready = true → ∀ path a b c, s.par.resolve.lookup path = none →
      exec (.showDatagram path a) s = .next { s with log := s.log ++ [⟨s.tNow, none, .ioError, 0, 0⟩] } ∧
      exec (.playDatagram path a b c) s = .next { s with log := s.log ++ [⟨s.tNow, none, .ioError, 0, 0⟩] }) ∧
    (s.ready = true → (∀ q, s.portExists q = true → (s.port q).busy = true) →
      (∀ path a b c store, s.par.resolve.lookup path = some store →
        exec (.showDatagram path a) s =
          .next { s with log := s.log ++ [⟨s.tNow, none, .dgramDropped, 0x30#32, 0⟩] } ∧
        exec (.playDatagram path a b c) s =
          .next { s with log := s.log ++ [⟨s.tNow, none, .dgramDropped, 0x31#32, 0⟩] }) ∧
      exec .stopDatagram s = .next { s with log := s.log ++ [⟨s.tNow, none, .dgramDropped, 0x32#32, 0⟩] })

/-! ### Registers, lock and reset -/

/-- R30, R32, R33, R25: the fields of the packed status registers; bit q of `TK_WAIT` is set when q waits, and the
bits at and above `P_NREQ` read 0. The numbers of `RC.STATE` (R125), of `PHASE` (R170) and of the result codes (R86),
which a `RESULT` register holds in bits 7:0 (R33). -/
def Obligations.StatusRegisters : Prop :=
  (∀ p ∈ [(RcState.idle, 0), (.setup, 1), (.fill, 2), (.start, 3), (.drain, 4), (.sleep, 5), (.check, 6)],
    p.1.code = p.2) ∧
  (∀ p ∈ [(Phase.none, 0), (.validate, 1), (.acq, 2), (.clock, 3), (.poll, 4), (.xfer, 5), (.backoff, 6), (.pace, 7),
      (.release, 8)], p.1.code = p.2) ∧
  (∀ p ∈ [(Result.ok, 0x00#8), (.stillHeld, 0x01#8), (.preempted, 0x02#8), (.eUnderrun, 0x10#8), (.eTimeout, 0x11#8),
      (.eUnconsumed, 0x12#8), (.eChannels, 0x20#8), (.eRange, 0x21#8), (.eIo, 0x22#8), (.eConfig, 0x30#8),
      (.eNotReady, 0x31#8), (.eNotHolder, 0x40#8), (.eReentry, 0x41#8), (.eIllegal, 0x42#8)],
    p.1.code = p.2 ∧ p.1.word = p.2.setWidth 32) ∧
  ∀ (s : State) (q : Port),
    ((s.rcStatus.extractLsb' 0 4).toNat = s.rc.state.code ∧ (s.rcStatus.getLsbD 4 = decide (s.rc.state ≠ .idle)) ∧
      (s.rcStatus.extractLsb' 5 2).toNat = s.rc.cur.val ∧ s.rcStatus.getLsbD 7 = false ∧
      s.rcStatus.extractLsb' 8 8 = s.rc.result.code ∧ s.rcStatus.getLsbD 16 = s.rc.flags.underrun ∧
      s.rcStatus.getLsbD 17 = s.rc.flags.timeout ∧ s.rcStatus.getLsbD 18 = s.rc.flags.unconsumed ∧
      (s.rcStatus.extractLsb' 19 5).toNat = s.rc.owner.val ∧ s.rcStatus.extractLsb' 24 8 = 0#8) ∧
    (s.tkStatus.getLsbD 0 = decide (s.tk.state = .held) ∧ s.tkStatus.extractLsb' 1 7 = 0#7 ∧
      (s.tkStatus.extractLsb' 8 5).toNat = (if s.tk.state = .held then s.tk.holder.val else 0) ∧
      s.tkStatus.extractLsb' 13 19 = 0#19) ∧
    (∀ p : Port, s.tkWait.getLsbD p.val = (decide (p.val < s.par.nreq) && s.waiting p)) ∧
    ((s.port q).status.getLsbD 0 = (s.port q).busy ∧ (s.port q).status.getLsbD 1 = (s.port q).blocked ∧
      (s.port q).status.getLsbD 2 = (s.port q).ovr ∧ (s.port q).status.getLsbD 3 = false ∧
      ((s.port q).status.extractLsb' 4 4).toNat = (s.port q).seq.phase.code ∧
      (s.port q).status.extractLsb' 8 8 = (s.port q).opcode ∧ (s.port q).status.extractLsb' 16 16 = 0#16) ∧
    (s.cfgCtrl.getLsbD 0 = s.cfg.locked ∧ s.cfgCtrl.getLsbD 1 = s.cfg.cfgErr ∧
      s.cfgCtrl.getLsbD 2 = s.cfg.hwErr ∧ s.cfgCtrl.getLsbD 3 = s.cfg.fatal ∧ s.cfgCtrl.extractLsb' 4 28 = 0#28)

/-- R40, R41, R35: the register map as 32-bit aligned reads see it, offset by offset; a read changes no state of BTFE,
but that of `TIME_LO` latches bits 63:32 of the time (the value read is the model's `readData`: log 22). A byte read
returns a byte of `ENC_OUT`, and a 32-bit read in that window four bytes, 0 past `ENC_LEN` (the model's choice: log 18). The offsets of
ports that do not exist are reserved (log 38). Every access that is neither 32 bits wide and 4-aligned nor such a
byte read is refused, and so is one beyond the register space (log 19). -/
def Obligations.RegisterReads : Prop :=
  ∀ s : State,
    (∀ p ∈ [(0x000, s.cfg.nc), (0x004, s.cfg.nl), (0x008, s.cfg.np), (0x00C, BitVec.ofNat 32 s.par.hwChannels),
        (0x010, s.par.tBit), (0x014, s.par.tReset), (0x018, s.par.tPoll), (0x01C, s.cfgCtrl),
        (0x038, BitVec.ofNat 32 s.encOut.length), (0x03C, 0#32), (0x040, s.rcStatus), (0x044, s.rc.cursor),
        (0x048, s.rc.total), (0x04C, s.rc.store), (0x050, s.rc.deadline.extractLsb' 0 32),
        (0x054, s.rc.deadline.extractLsb' 32 32), (0x058, s.tkStatus), (0x05C, s.tkWait), (0x064, s.timeHi)],
      ReadsAs s p.1 p.2) ∧
    registerRead 0x060 4 s =
      .next { s with timeHi := s.tNow.extractLsb' 32 32, readData := s.tNow.extractLsb' 0 32 } ∧
    (∀ r : Region, ReadsAs s (0x020 + 8 * r.val) (s.par.regions.get r).base ∧
      ReadsAs s (0x024 + 8 * r.val) (s.par.regions.get r).cap) ∧
    (∀ off, off % 4 = 0 → 0x068 ≤ off → off < 0x100 → ReadsAs s off 0) ∧
    (∀ k : PanelIx, ReadsAs s (0x100 + 16 * k.val) ((s.row k).ch.setWidth 32) ∧
      ReadsAs s (0x104 + 16 * k.val) (s.row k).nreal ∧ ReadsAs s (0x108 + 16 * k.val) (s.row k).nbuf ∧
      ReadsAs s (0x10C + 16 * k.val) 0) ∧
    (∀ q : Port, q.val < s.par.nreq →
      ReadsAs s (0x400 + 32 * q.val) 0 ∧ ReadsAs s (0x404 + 32 * q.val) (s.port q).arg0 ∧
      ReadsAs s (0x408 + 32 * q.val) (s.port q).arg1 ∧ ReadsAs s (0x40C + 32 * q.val) (s.port q).arg2 ∧
      ReadsAs s (0x410 + 32 * q.val) (s.port q).arg3 ∧ ReadsAs s (0x414 + 32 * q.val) (s.port q).result.word ∧
      ReadsAs s (0x418 + 32 * q.val) (s.port q).status ∧ ReadsAs s (0x41C + 32 * q.val) 0) ∧
    (∀ off, off % 4 = 0 → 0x400 + 32 * s.par.nreq ≤ off → off < 0x800 → ReadsAs s off 0) ∧
    (∀ n b, s.encOut[n]? = some b → registerRead (0x800 + n) 1 s = .next { s with readData := b.setWidth 32 }) ∧
    (∀ n, n % 4 = 0 → 0x800 + n + 4 ≤ max 0x1000 (0x800 + s.encOut.length) →
      ∃ w, ReadsAs s (0x800 + n) w ∧ ∀ i < 4, w.extractLsb' (8 * i) 8 = s.encOut.getD (n + i) 0) ∧
    (∀ off size, ¬(size = 4 ∧ off % 4 = 0) → ¬(size = 1 ∧ 0x800 ≤ off ∧ off < 0x800 + s.encOut.length) →
      registerRead off size s = .refused .registerAccess) ∧
    (∀ off size v, ¬(size = 4 ∧ off % 4 = 0) → registerWrite off size v s = .refused .registerAccess) ∧
    ∀ off v, off % 4 = 0 → max 0x1000 (0x800 + s.encOut.length) < off + 4 →
      registerRead off 4 s = .refused .outsideRegisterSpace ∧
      registerWrite off 4 v s = .refused .outsideRegisterSpace

/-- R40, R41: 32-bit aligned writes, offset by offset. A write of `CMD` issues the word (R81). A write of an argument
writes that argument and nothing else. While unlocked and not fatal a configuration write writes that register, for a
panel channel its low six bits, and is read back (R22-R24); after the lock, or in FATAL (R214), it is ignored, as is a
write of any read-only or reserved offset. That the offsets which stand in no row of R40 are reserved, and so ignore
writes, is the model's choice: those of ports that do not exist (log 38) and those past `ENC_LEN` (log 18). -/
def Obligations.RegisterWrites : Prop :=
  (∀ (s : State) (v : Word) (off : Nat), off % 4 = 0 → off + 4 ≤ max 0x1000 (0x800 + s.encOut.length) →
    (off ∈ [0x00C, 0x010, 0x014, 0x018] ∨ (0x020 ≤ off ∧ off < 0x100) ∨
      (0x100 ≤ off ∧ off < 0x400 ∧ off % 16 = 0xC) ∨
      (0x400 ≤ off ∧ off < 0x800 ∧ (s.par.nreq ≤ (off - 0x400) / 32 ∨ 0x14 ≤ off % 32)) ∨ 0x800 ≤ off) →
    registerWrite off 4 v s = .next s) ∧
  (∀ (s : State) (v : Word) (off : Nat), s.cfg.locked = true ∨ s.cfg.fatal = true → off % 4 = 0 →
    off ∈ [0x000, 0x004, 0x008, 0x01C] ∨ (0x100 ≤ off ∧ off < 0x400) → registerWrite off 4 v s = .next s) ∧
  (∀ (s : State) (v : Word) (q : Port), q.val < s.par.nreq →
    registerWrite (0x400 + 32 * q.val) 4 v s = issueWord q v s ∧
    ∀ n < 4, ∃ t, registerWrite (0x404 + 32 * q.val + 4 * n) 4 v s = .next t ∧
      [(t.port q).arg0, (t.port q).arg1, (t.port q).arg2, (t.port q).arg3] =
        [(s.port q).arg0, (s.port q).arg1, (s.port q).arg2, (s.port q).arg3].set n v ∧
      t.port q = { s.port q with
        arg0 := (t.port q).arg0, arg1 := (t.port q).arg1, arg2 := (t.port q).arg2, arg3 := (t.port q).arg3 } ∧
      PortFrame q s t ∧ KeepsRing s t ∧ t.tk = s.tk ∧ t.log = s.log) ∧
  ∀ (s : State) (v : Word), s.cfg.locked = false → s.cfg.fatal = false →
    registerWrite 0x000 4 v s = .next { s with cfg := { s.cfg with nc := v } } ∧
    registerWrite 0x004 4 v s = .next { s with cfg := { s.cfg with nl := v } } ∧
    registerWrite 0x008 4 v s = .next { s with cfg := { s.cfg with np := v } } ∧
    ∀ k : PanelIx,
      (∃ t, registerWrite (0x100 + 16 * k.val) 4 v s = .next t ∧ t = { s with panel := t.panel } ∧
        t.row k = { s.row k with ch := v.setWidth 6 } ∧ (∀ l, l ≠ k → t.row l = s.row l) ∧
        ReadsAs t (0x100 + 16 * k.val) (v &&& 0x3F#32)) ∧
      (∃ t, registerWrite (0x104 + 16 * k.val) 4 v s = .next t ∧ t = { s with panel := t.panel } ∧
        t.row k = { s.row k with nreal := v } ∧ ∀ l, l ≠ k → t.row l = s.row l) ∧
      ∃ t, registerWrite (0x108 + 16 * k.val) 4 v s = .next t ∧ t = { s with panel := t.panel } ∧
        t.row k = { s.row k with nbuf := v } ∧ ∀ l, l ≠ k → t.row l = s.row l

/-- R233, R214: a write of `CFG.CTRL` (offset `0x01C`, R40) with bit 0 set, while unlocked and not fatal, locks a valid
configuration when the coprocessor is ready; else it records what failed and enters FATAL, which idles the token and
ends every running command with `E_NOT_READY`. Any other write of `CFG.CTRL` is ignored. -/
def Obligations.LockValidates : Prop :=
  ∀ (s : State) (v : Word),
    ((s.cfgValid = true ↔
      s.cfg.nc.toNat ∈ [8, 16, 24, 32, 40, 48] ∧ 1 ≤ s.cfg.np.toNat ∧ s.cfg.np.toNat ≤ 48 ∧
      1 ≤ s.cfg.nl.toNat ∧ s.cfg.nl.toNat * s.cfg.nc.toNat * 3 ≤ 2 ^ 32 - 1 ∧
      (∀ k : PanelIx, k.val < s.cfg.np.toNat → (s.row k).ch.toNat < s.cfg.nc.toNat ∧
        (s.row k).nreal.toNat + (s.row k).nbuf.toNat ≤ s.cfg.nl.toNat) ∧
      ∀ k l : PanelIx, k.val < s.cfg.np.toNat → l.val < s.cfg.np.toNat → (s.row k).ch = (s.row l).ch → k = l)) ∧
    (v.getLsbD 0 = false ∨ s.cfg.locked = true ∨ s.cfg.fatal = true → registerWrite 0x01C 4 v s = .next s) ∧
    (v.getLsbD 0 = true → s.cfg.locked = false → s.cfg.fatal = false →
      (s.cfgValid = true → s.coproReady = true →
        registerWrite 0x01C 4 v s = .next { s with cfg := { s.cfg with locked := true } }) ∧
      (s.cfgValid = false ∨ s.coproReady = false →
        ∃ t, registerWrite 0x01C 4 v s = .next t ∧
          t.cfg = { s.cfg with
            cfgErr := s.cfg.cfgErr || !s.cfgValid, hwErr := s.cfg.hwErr || !s.coproReady, fatal := true } ∧
          t.tk = ⟨.idle, 0, 0⟩ ∧
          (∀ q, (s.port q).busy = true → t.port q = (s.port q).completed .eNotReady) ∧
          (∀ q, (s.port q).busy = false → t.port q = s.port q) ∧
          t.par = s.par ∧ t.panel = s.panel ∧ KeepsInputs s t ∧ KeepsRing s t ∧ t.encOut = s.encOut ∧
          t.log = s.log))

/-- R230: what reset leaves, for every value the spec gives; the registers the parameters give read as those
parameters, and the machine is not ready. -/
def Obligations.ResetState : Prop :=
  State.reset.cfgCtrl = 0 ∧ State.reset.encOut = [] ∧ State.reset.readReg .encLen = 0 ∧
  State.reset.rc = ⟨.idle, 0, 0, 0, 0, 0, 0, 0, 0, 0, 0, 0, ⟨false, false, false⟩, .ok⟩ ∧ State.reset.rcStatus = 0 ∧
  State.reset.tk = ⟨.idle, 0, 0⟩ ∧
  (∀ q, State.reset.port q =
    ⟨0, 0, 0, 0, .ok, false, false, false, 0,
      ⟨.none, .none, 0, 0, 0, 0, 0, 0, 0, .ok, (State.reset.port q).seq.queued⟩⟩) ∧
  State.reset.log = [] ∧ State.reset.cp = ⟨.stopped, 0⟩ ∧ State.reset.out = [] ∧ State.reset.coproReady = false ∧
  (∀ r, State.reset.readReg (.regionBase r) = (State.reset.par.regions.get r).base ∧
    State.reset.readReg (.regionCap r) = (State.reset.par.regions.get r).cap) ∧
  State.reset.readReg .timBit = State.reset.par.tBit ∧ State.reset.readReg .timReset = State.reset.par.tReset ∧
  State.reset.readReg .timPoll = State.reset.par.tPoll ∧
  (State.reset.readReg .hwChannels).toNat = State.reset.par.hwChannels ∧ State.reset.ready = false

/-! ### Whole-machine rules -/

/-- The invariant of every reachable state holds after reset, with legal parameters. -/
def Obligations.ResetInvariant : Prop := paramsOk State.reset.par = true ∧ State.reset.Inv

/-- R43: every step of a state that meets the invariant gives one that meets it: the token's holder does not wait,
a running transfer is the holder's, its cursor is whole LEDs of its payload, `BLOCKED` implies `BUSY`; region memory
is in its canonical form. -/
def Obligations.InvariantKept : Prop := ∀ s t : State, s.Inv → step s = .next t → t.Inv

/-- R213: from a state that meets the invariant no step meets `MF_RC_REENTRY` or `MF_FS_RANGE`; only a wrap of time
or an illegal parameter is a fault. -/
def Obligations.NoModelFault : Prop := ∀ (s : State) (f : Fault), s.Inv → step s = .fault f → EnvironmentFault f

/-- R241, R240, R25, R36, R35: no step changes the parameters or the stores, a locked configuration or its panel
table; no step clears LOCKED, CFG_ERR, HW_ERR or FATAL; the log only grows; time never decreases. That no step clears
the coprocessor's readiness either is the model's choice (log 27). -/
def Obligations.OneWayState : Prop :=
  ∀ s t : State, step s = .next t →
    t.par = s.par ∧
    (s.cfg.locked = true →
      t.panel = s.panel ∧ t.cfg.nc = s.cfg.nc ∧ t.cfg.nl = s.cfg.nl ∧ t.cfg.np = s.cfg.np ∧ t.cfg.locked = true) ∧
    (s.cfg.cfgErr = true → t.cfg.cfgErr = true) ∧ (s.cfg.hwErr = true → t.cfg.hwErr = true) ∧
    (s.cfg.fatal = true → t.cfg.fatal = true) ∧ (s.coproReady = true → t.coproReady = true) ∧
    s.log <+: t.log ∧ s.tNow.toNat ≤ t.tNow.toNat

/-- R50, R58: in a reachable state no step changes a byte outside the three ring regions, and only RC, the consumer
and an outside write change a byte inside them. -/
def Obligations.OnlyRingWritesRegions : Prop :=
  ∀ s t : State, s.Inv → step s = .next t →
    (∀ a, s.inRegions a = false → t.loadByte a = s.loadByte a) ∧
    (s.nextEvent.act ≠ .ringStep → s.nextEvent.act ≠ .cpConsume → (∀ a b, s.nextEvent.act ≠ .outsideWrite a b) →
      KeepsMemory s t)
end

