-- ==== Sys2Proof/Laws/State.lean ====
section
/-! SUPPORT. One lemma per field, and per accessor, per update: what each named operation leaves as it is. -/

namespace Sys2Proof.Machine

variable (s : State)

/-! ### `setPort` -/

@[simp] theorem setPort_par (q : Port) (p : PortState) : (s.setPort q p).par = s.par := rfl
@[simp] theorem setPort_cfg (q : Port) (p : PortState) : (s.setPort q p).cfg = s.cfg := rfl
@[simp] theorem setPort_panel (q : Port) (p : PortState) : (s.setPort q p).panel = s.panel := rfl
@[simp] theorem setPort_encOut (q : Port) (p : PortState) : (s.setPort q p).encOut = s.encOut := rfl
@[simp] theorem setPort_rc (q : Port) (p : PortState) : (s.setPort q p).rc = s.rc := rfl
@[simp] theorem setPort_tk (q : Port) (p : PortState) : (s.setPort q p).tk = s.tk := rfl
@[simp] theorem setPort_tNow (q : Port) (p : PortState) : (s.setPort q p).tNow = s.tNow := rfl
@[simp] theorem setPort_timeHi (q : Port) (p : PortState) : (s.setPort q p).timeHi = s.timeHi := rfl
@[simp] theorem setPort_log (q : Port) (p : PortState) : (s.setPort q p).log = s.log := rfl
@[simp] theorem setPort_colours (q : Port) (p : PortState) : (s.setPort q p).colours = s.colours := rfl
@[simp] theorem setPort_cp (q : Port) (p : PortState) : (s.setPort q p).cp = s.cp := rfl
@[simp] theorem setPort_out (q : Port) (p : PortState) : (s.setPort q p).out = s.out := rfl
@[simp] theorem setPort_coproReady (q : Port) (p : PortState) : (s.setPort q p).coproReady = s.coproReady := rfl
@[simp] theorem setPort_mem (q : Port) (p : PortState) : (s.setPort q p).mem = s.mem := rfl
@[simp] theorem setPort_agenda (q : Port) (p : PortState) : (s.setPort q p).agenda = s.agenda := rfl
@[simp] theorem setPort_pick (q : Port) (p : PortState) : (s.setPort q p).pick = s.pick := rfl
@[simp] theorem setPort_freeIx (q : Port) (p : PortState) : (s.setPort q p).freeIx = s.freeIx := rfl
@[simp] theorem setPort_issuer (q : Port) (p : PortState) : (s.setPort q p).issuer = s.issuer := rfl
@[simp] theorem setPort_readData (q : Port) (p : PortState) : (s.setPort q p).readData = s.readData := rfl
@[simp] theorem setPort_ready (q : Port) (p : PortState) : (s.setPort q p).ready = s.ready := rfl
@[simp] theorem setPort_holds (q : Port) (p : PortState) (p' : Port) : (s.setPort q p).holds p' = s.holds p' := rfl
@[simp] theorem setPort_waiting (q : Port) (p : PortState) (p' : Port) : (s.setPort q p).waiting p' = s.waiting p' := rfl
@[simp] theorem setPort_portExists (q : Port) (p : PortState) (p' : Port) : (s.setPort q p).portExists p' = s.portExists p' := rfl
@[simp] theorem setPort_base (q : Port) (p : PortState) (r' : Region) : (s.setPort q p).base r' = s.base r' := rfl
@[simp] theorem setPort_cap (q : Port) (p : PortState) (r' : Region) : (s.setPort q p).cap r' = s.cap r' := rfl
@[simp] theorem setPort_loadByte (q : Port) (p : PortState) (a' : Nat) : (s.setPort q p).loadByte a' = s.loadByte a' := rfl
@[simp] theorem setPort_endAddr (q : Port) (p : PortState) (r' : Region) : (s.setPort q p).endAddr r' = s.endAddr r' := rfl
@[simp] theorem setPort_nextAddr (q : Port) (p : PortState) (r' : Region) : (s.setPort q p).nextAddr r' = s.nextAddr r' := rfl
@[simp] theorem setPort_usable (q : Port) (p : PortState) (r' : Region) (g' : Nat) : (s.setPort q p).usable r' g' = s.usable r' g' := rfl
@[simp] theorem setPort_validate (q : Port) (p : PortState) (st' f' : Word) : (s.setPort q p).validate st' f' = s.validate st' f' := rfl
@[simp] theorem setPort_isRunning (q : Port) (p : PortState) : (s.setPort q p).isRunning = s.isRunning := rfl
@[simp] theorem setPort_cfgValid (q : Port) (p : PortState) : (s.setPort q p).cfgValid = s.cfgValid := rfl

/-! ### `setBlocked` -/

@[simp] theorem setBlocked_par (q : Port) (b : Bool) : (s.setBlocked q b).par = s.par := rfl
@[simp] theorem setBlocked_cfg (q : Port) (b : Bool) : (s.setBlocked q b).cfg = s.cfg := rfl
@[simp] theorem setBlocked_panel (q : Port) (b : Bool) : (s.setBlocked q b).panel = s.panel := rfl
@[simp] theorem setBlocked_encOut (q : Port) (b : Bool) : (s.setBlocked q b).encOut = s.encOut := rfl
@[simp] theorem setBlocked_rc (q : Port) (b : Bool) : (s.setBlocked q b).rc = s.rc := rfl
@[simp] theorem setBlocked_tk (q : Port) (b : Bool) : (s.setBlocked q b).tk = s.tk := rfl
@[simp] theorem setBlocked_tNow (q : Port) (b : Bool) : (s.setBlocked q b).tNow = s.tNow := rfl
@[simp] theorem setBlocked_timeHi (q : Port) (b : Bool) : (s.setBlocked q b).timeHi = s.timeHi := rfl
@[simp] theorem setBlocked_log (q : Port) (b : Bool) : (s.setBlocked q b).log = s.log := rfl
@[simp] theorem setBlocked_colours (q : Port) (b : Bool) : (s.setBlocked q b).colours = s.colours := rfl
@[simp] theorem setBlocked_cp (q : Port) (b : Bool) : (s.setBlocked q b).cp = s.cp := rfl
@[simp] theorem setBlocked_out (q : Port) (b : Bool) : (s.setBlocked q b).out = s.out := rfl
@[simp] theorem setBlocked_coproReady (q : Port) (b : Bool) : (s.setBlocked q b).coproReady = s.coproReady := rfl
@[simp] theorem setBlocked_mem (q : Port) (b : Bool) : (s.setBlocked q b).mem = s.mem := rfl
@[simp] theorem setBlocked_agenda (q : Port) (b : Bool) : (s.setBlocked q b).agenda = s.agenda := rfl
@[simp] theorem setBlocked_pick (q : Port) (b : Bool) : (s.setBlocked q b).pick = s.pick := rfl
@[simp] theorem setBlocked_freeIx (q : Port) (b : Bool) : (s.setBlocked q b).freeIx = s.freeIx := rfl
@[simp] theorem setBlocked_issuer (q : Port) (b : Bool) : (s.setBlocked q b).issuer = s.issuer := rfl
@[simp] theorem setBlocked_readData (q : Port) (b : Bool) : (s.setBlocked q b).readData = s.readData := rfl
@[simp] theorem setBlocked_ready (q : Port) (b : Bool) : (s.setBlocked q b).ready = s.ready := rfl
@[simp] theorem setBlocked_holds (q : Port) (b : Bool) (p' : Port) : (s.setBlocked q b).holds p' = s.holds p' := rfl
@[simp] theorem setBlocked_waiting (q : Port) (b : Bool) (p' : Port) : (s.setBlocked q b).waiting p' = s.waiting p' := rfl
@[simp] theorem setBlocked_portExists (q : Port) (b : Bool) (p' : Port) : (s.setBlocked q b).portExists p' = s.portExists p' := rfl
@[simp] theorem setBlocked_base (q : Port) (b : Bool) (r' : Region) : (s.setBlocked q b).base r' = s.base r' := rfl
@[simp] theorem setBlocked_cap (q : Port) (b : Bool) (r' : Region) : (s.setBlocked q b).cap r' = s.cap r' := rfl
@[simp] theorem setBlocked_loadByte (q : Port) (b : Bool) (a' : Nat) : (s.setBlocked q b).loadByte a' = s.loadByte a' := rfl
@[simp] theorem setBlocked_endAddr (q : Port) (b : Bool) (r' : Region) : (s.setBlocked q b).endAddr r' = s.endAddr r' := rfl
@[simp] theorem setBlocked_nextAddr (q : Port) (b : Bool) (r' : Region) : (s.setBlocked q b).nextAddr r' = s.nextAddr r' := rfl
@[simp] theorem setBlocked_usable (q : Port) (b : Bool) (r' : Region) (g' : Nat) : (s.setBlocked q b).usable r' g' = s.usable r' g' := rfl
@[simp] theorem setBlocked_validate (q : Port) (b : Bool) (st' f' : Word) : (s.setBlocked q b).validate st' f' = s.validate st' f' := rfl
@[simp] theorem setBlocked_isRunning (q : Port) (b : Bool) : (s.setBlocked q b).isRunning = s.isRunning := rfl
@[simp] theorem setBlocked_cfgValid (q : Port) (b : Bool) : (s.setBlocked q b).cfgValid = s.cfgValid := rfl

/-! ### `setSeq` -/

@[simp] theorem setSeq_par (q : Port) (x : Seq) : (s.setSeq q x).par = s.par := rfl
@[simp] theorem setSeq_cfg (q : Port) (x : Seq) : (s.setSeq q x).cfg = s.cfg := rfl
@[simp] theorem setSeq_panel (q : Port) (x : Seq) : (s.setSeq q x).panel = s.panel := rfl
@[simp] theorem setSeq_encOut (q : Port) (x : Seq) : (s.setSeq q x).encOut = s.encOut := rfl
@[simp] theorem setSeq_rc (q : Port) (x : Seq) : (s.setSeq q x).rc = s.rc := rfl
@[simp] theorem setSeq_tk (q : Port) (x : Seq) : (s.setSeq q x).tk = s.tk := rfl
@[simp] theorem setSeq_tNow (q : Port) (x : Seq) : (s.setSeq q x).tNow = s.tNow := rfl
@[simp] theorem setSeq_timeHi (q : Port) (x : Seq) : (s.setSeq q x).timeHi = s.timeHi := rfl
@[simp] theorem setSeq_log (q : Port) (x : Seq) : (s.setSeq q x).log = s.log := rfl
@[simp] theorem setSeq_colours (q : Port) (x : Seq) : (s.setSeq q x).colours = s.colours := rfl
@[simp] theorem setSeq_cp (q : Port) (x : Seq) : (s.setSeq q x).cp = s.cp := rfl
@[simp] theorem setSeq_out (q : Port) (x : Seq) : (s.setSeq q x).out = s.out := rfl
@[simp] theorem setSeq_coproReady (q : Port) (x : Seq) : (s.setSeq q x).coproReady = s.coproReady := rfl
@[simp] theorem setSeq_mem (q : Port) (x : Seq) : (s.setSeq q x).mem = s.mem := rfl
@[simp] theorem setSeq_agenda (q : Port) (x : Seq) : (s.setSeq q x).agenda = s.agenda := rfl
@[simp] theorem setSeq_pick (q : Port) (x : Seq) : (s.setSeq q x).pick = s.pick := rfl
@[simp] theorem setSeq_freeIx (q : Port) (x : Seq) : (s.setSeq q x).freeIx = s.freeIx := rfl
@[simp] theorem setSeq_issuer (q : Port) (x : Seq) : (s.setSeq q x).issuer = s.issuer := rfl
@[simp] theorem setSeq_readData (q : Port) (x : Seq) : (s.setSeq q x).readData = s.readData := rfl
@[simp] theorem setSeq_ready (q : Port) (x : Seq) : (s.setSeq q x).ready = s.ready := rfl
@[simp] theorem setSeq_holds (q : Port) (x : Seq) (p' : Port) : (s.setSeq q x).holds p' = s.holds p' := rfl
@[simp] theorem setSeq_waiting (q : Port) (x : Seq) (p' : Port) : (s.setSeq q x).waiting p' = s.waiting p' := rfl
@[simp] theorem setSeq_portExists (q : Port) (x : Seq) (p' : Port) : (s.setSeq q x).portExists p' = s.portExists p' := rfl
@[simp] theorem setSeq_base (q : Port) (x : Seq) (r' : Region) : (s.setSeq q x).base r' = s.base r' := rfl
@[simp] theorem setSeq_cap (q : Port) (x : Seq) (r' : Region) : (s.setSeq q x).cap r' = s.cap r' := rfl
@[simp] theorem setSeq_loadByte (q : Port) (x : Seq) (a' : Nat) : (s.setSeq q x).loadByte a' = s.loadByte a' := rfl
@[simp] theorem setSeq_endAddr (q : Port) (x : Seq) (r' : Region) : (s.setSeq q x).endAddr r' = s.endAddr r' := rfl
@[simp] theorem setSeq_nextAddr (q : Port) (x : Seq) (r' : Region) : (s.setSeq q x).nextAddr r' = s.nextAddr r' := rfl
@[simp] theorem setSeq_usable (q : Port) (x : Seq) (r' : Region) (g' : Nat) : (s.setSeq q x).usable r' g' = s.usable r' g' := rfl
@[simp] theorem setSeq_validate (q : Port) (x : Seq) (st' f' : Word) : (s.setSeq q x).validate st' f' = s.validate st' f' := rfl
@[simp] theorem setSeq_isRunning (q : Port) (x : Seq) : (s.setSeq q x).isRunning = s.isRunning := rfl
@[simp] theorem setSeq_cfgValid (q : Port) (x : Seq) : (s.setSeq q x).cfgValid = s.cfgValid := rfl

/-! ### `setPhase` -/

@[simp] theorem setPhase_par (q : Port) (p : Phase) : (s.setPhase q p).par = s.par := rfl
@[simp] theorem setPhase_cfg (q : Port) (p : Phase) : (s.setPhase q p).cfg = s.cfg := rfl
@[simp] theorem setPhase_panel (q : Port) (p : Phase) : (s.setPhase q p).panel = s.panel := rfl
@[simp] theorem setPhase_encOut (q : Port) (p : Phase) : (s.setPhase q p).encOut = s.encOut := rfl
@[simp] theorem setPhase_rc (q : Port) (p : Phase) : (s.setPhase q p).rc = s.rc := rfl
@[simp] theorem setPhase_tk (q : Port) (p : Phase) : (s.setPhase q p).tk = s.tk := rfl
@[simp] theorem setPhase_tNow (q : Port) (p : Phase) : (s.setPhase q p).tNow = s.tNow := rfl
@[simp] theorem setPhase_timeHi (q : Port) (p : Phase) : (s.setPhase q p).timeHi = s.timeHi := rfl
@[simp] theorem setPhase_log (q : Port) (p : Phase) : (s.setPhase q p).log = s.log := rfl
@[simp] theorem setPhase_colours (q : Port) (p : Phase) : (s.setPhase q p).colours = s.colours := rfl
@[simp] theorem setPhase_cp (q : Port) (p : Phase) : (s.setPhase q p).cp = s.cp := rfl
@[simp] theorem setPhase_out (q : Port) (p : Phase) : (s.setPhase q p).out = s.out := rfl
@[simp] theorem setPhase_coproReady (q : Port) (p : Phase) : (s.setPhase q p).coproReady = s.coproReady := rfl
@[simp] theorem setPhase_mem (q : Port) (p : Phase) : (s.setPhase q p).mem = s.mem := rfl
@[simp] theorem setPhase_agenda (q : Port) (p : Phase) : (s.setPhase q p).agenda = s.agenda := rfl
@[simp] theorem setPhase_pick (q : Port) (p : Phase) : (s.setPhase q p).pick = s.pick := rfl
@[simp] theorem setPhase_freeIx (q : Port) (p : Phase) : (s.setPhase q p).freeIx = s.freeIx := rfl
@[simp] theorem setPhase_issuer (q : Port) (p : Phase) : (s.setPhase q p).issuer = s.issuer := rfl
@[simp] theorem setPhase_readData (q : Port) (p : Phase) : (s.setPhase q p).readData = s.readData := rfl
@[simp] theorem setPhase_ready (q : Port) (p : Phase) : (s.setPhase q p).ready = s.ready := rfl
@[simp] theorem setPhase_holds (q : Port) (p : Phase) (p' : Port) : (s.setPhase q p).holds p' = s.holds p' := rfl
@[simp] theorem setPhase_waiting (q : Port) (p : Phase) (p' : Port) : (s.setPhase q p).waiting p' = s.waiting p' := rfl
@[simp] theorem setPhase_portExists (q : Port) (p : Phase) (p' : Port) : (s.setPhase q p).portExists p' = s.portExists p' := rfl
@[simp] theorem setPhase_base (q : Port) (p : Phase) (r' : Region) : (s.setPhase q p).base r' = s.base r' := rfl
@[simp] theorem setPhase_cap (q : Port) (p : Phase) (r' : Region) : (s.setPhase q p).cap r' = s.cap r' := rfl
@[simp] theorem setPhase_loadByte (q : Port) (p : Phase) (a' : Nat) : (s.setPhase q p).loadByte a' = s.loadByte a' := rfl
@[simp] theorem setPhase_endAddr (q : Port) (p : Phase) (r' : Region) : (s.setPhase q p).endAddr r' = s.endAddr r' := rfl
@[simp] theorem setPhase_nextAddr (q : Port) (p : Phase) (r' : Region) : (s.setPhase q p).nextAddr r' = s.nextAddr r' := rfl
@[simp] theorem setPhase_usable (q : Port) (p : Phase) (r' : Region) (g' : Nat) : (s.setPhase q p).usable r' g' = s.usable r' g' := rfl
@[simp] theorem setPhase_validate (q : Port) (p : Phase) (st' f' : Word) : (s.setPhase q p).validate st' f' = s.validate st' f' := rfl
@[simp] theorem setPhase_isRunning (q : Port) (p : Phase) : (s.setPhase q p).isRunning = s.isRunning := rfl
@[simp] theorem setPhase_cfgValid (q : Port) (p : Phase) : (s.setPhase q p).cfgValid = s.cfgValid := rfl

/-! ### `complete` -/

@[simp] theorem complete_par (q : Port) (r : Result) : (s.complete q r).par = s.par := rfl
@[simp] theorem complete_cfg (q : Port) (r : Result) : (s.complete q r).cfg = s.cfg := rfl
@[simp] theorem complete_panel (q : Port) (r : Result) : (s.complete q r).panel = s.panel := rfl
@[simp] theorem complete_encOut (q : Port) (r : Result) : (s.complete q r).encOut = s.encOut := rfl
@[simp] theorem complete_rc (q : Port) (r : Result) : (s.complete q r).rc = s.rc := rfl
@[simp] theorem complete_tk (q : Port) (r : Result) : (s.complete q r).tk = s.tk := rfl
@[simp] theorem complete_tNow (q : Port) (r : Result) : (s.complete q r).tNow = s.tNow := rfl
@[simp] theorem complete_timeHi (q : Port) (r : Result) : (s.complete q r).timeHi = s.timeHi := rfl
@[simp] theorem complete_log (q : Port) (r : Result) : (s.complete q r).log = s.log := rfl
@[simp] theorem complete_colours (q : Port) (r : Result) : (s.complete q r).colours = s.colours := rfl
@[simp] theorem complete_cp (q : Port) (r : Result) : (s.complete q r).cp = s.cp := rfl
@[simp] theorem complete_out (q : Port) (r : Result) : (s.complete q r).out = s.out := rfl
@[simp] theorem complete_coproReady (q : Port) (r : Result) : (s.complete q r).coproReady = s.coproReady := rfl
@[simp] theorem complete_mem (q : Port) (r : Result) : (s.complete q r).mem = s.mem := rfl
@[simp] theorem complete_agenda (q : Port) (r : Result) : (s.complete q r).agenda = s.agenda := rfl
@[simp] theorem complete_pick (q : Port) (r : Result) : (s.complete q r).pick = s.pick := rfl
@[simp] theorem complete_freeIx (q : Port) (r : Result) : (s.complete q r).freeIx = s.freeIx := rfl
@[simp] theorem complete_issuer (q : Port) (r : Result) : (s.complete q r).issuer = s.issuer := rfl
@[simp] theorem complete_readData (q : Port) (r : Result) : (s.complete q r).readData = s.readData := rfl
@[simp] theorem complete_ready (q : Port) (r : Result) : (s.complete q r).ready = s.ready := rfl
@[simp] theorem complete_holds (q : Port) (r : Result) (p' : Port) : (s.complete q r).holds p' = s.holds p' := rfl
@[simp] theorem complete_waiting (q : Port) (r : Result) (p' : Port) : (s.complete q r).waiting p' = s.waiting p' := rfl
@[simp] theorem complete_portExists (q : Port) (r : Result) (p' : Port) : (s.complete q r).portExists p' = s.portExists p' := rfl
@[simp] theorem complete_base (q : Port) (r : Result) (r' : Region) : (s.complete q r).base r' = s.base r' := rfl
@[simp] theorem complete_cap (q : Port) (r : Result) (r' : Region) : (s.complete q r).cap r' = s.cap r' := rfl
@[simp] theorem complete_loadByte (q : Port) (r : Result) (a' : Nat) : (s.complete q r).loadByte a' = s.loadByte a' := rfl
@[simp] theorem complete_endAddr (q : Port) (r : Result) (r' : Region) : (s.complete q r).endAddr r' = s.endAddr r' := rfl
@[simp] theorem complete_nextAddr (q : Port) (r : Result) (r' : Region) : (s.complete q r).nextAddr r' = s.nextAddr r' := rfl
@[simp] theorem complete_usable (q : Port) (r : Result) (r' : Region) (g' : Nat) : (s.complete q r).usable r' g' = s.usable r' g' := rfl
@[simp] theorem complete_validate (q : Port) (r : Result) (st' f' : Word) : (s.complete q r).validate st' f' = s.validate st' f' := rfl
@[simp] theorem complete_isRunning (q : Port) (r : Result) : (s.complete q r).isRunning = s.isRunning := rfl
@[simp] theorem complete_cfgValid (q : Port) (r : Result) : (s.complete q r).cfgValid = s.cfgValid := rfl

/-! ### `beginCommand` -/

@[simp] theorem beginCommand_par (q : Port) (op : Byte) : (s.beginCommand q op).par = s.par := rfl
@[simp] theorem beginCommand_cfg (q : Port) (op : Byte) : (s.beginCommand q op).cfg = s.cfg := rfl
@[simp] theorem beginCommand_panel (q : Port) (op : Byte) : (s.beginCommand q op).panel = s.panel := rfl
@[simp] theorem beginCommand_encOut (q : Port) (op : Byte) : (s.beginCommand q op).encOut = s.encOut := rfl
@[simp] theorem beginCommand_rc (q : Port) (op : Byte) : (s.beginCommand q op).rc = s.rc := rfl
@[simp] theorem beginCommand_tk (q : Port) (op : Byte) : (s.beginCommand q op).tk = s.tk := rfl
@[simp] theorem beginCommand_tNow (q : Port) (op : Byte) : (s.beginCommand q op).tNow = s.tNow := rfl
@[simp] theorem beginCommand_timeHi (q : Port) (op : Byte) : (s.beginCommand q op).timeHi = s.timeHi := rfl
@[simp] theorem beginCommand_log (q : Port) (op : Byte) : (s.beginCommand q op).log = s.log := rfl
@[simp] theorem beginCommand_colours (q : Port) (op : Byte) : (s.beginCommand q op).colours = s.colours := rfl
@[simp] theorem beginCommand_cp (q : Port) (op : Byte) : (s.beginCommand q op).cp = s.cp := rfl
@[simp] theorem beginCommand_out (q : Port) (op : Byte) : (s.beginCommand q op).out = s.out := rfl
@[simp] theorem beginCommand_coproReady (q : Port) (op : Byte) : (s.beginCommand q op).coproReady = s.coproReady := rfl
@[simp] theorem beginCommand_mem (q : Port) (op : Byte) : (s.beginCommand q op).mem = s.mem := rfl
@[simp] theorem beginCommand_agenda (q : Port) (op : Byte) : (s.beginCommand q op).agenda = s.agenda := rfl
@[simp] theorem beginCommand_pick (q : Port) (op : Byte) : (s.beginCommand q op).pick = s.pick := rfl
@[simp] theorem beginCommand_freeIx (q : Port) (op : Byte) : (s.beginCommand q op).freeIx = s.freeIx := rfl
@[simp] theorem beginCommand_readData (q : Port) (op : Byte) : (s.beginCommand q op).readData = s.readData := rfl
@[simp] theorem beginCommand_ready (q : Port) (op : Byte) : (s.beginCommand q op).ready = s.ready := rfl
@[simp] theorem beginCommand_holds (q : Port) (op : Byte) (p' : Port) : (s.beginCommand q op).holds p' = s.holds p' := rfl
@[simp] theorem beginCommand_waiting (q : Port) (op : Byte) (p' : Port) : (s.beginCommand q op).waiting p' = s.waiting p' := rfl
@[simp] theorem beginCommand_portExists (q : Port) (op : Byte) (p' : Port) : (s.beginCommand q op).portExists p' = s.portExists p' := rfl
@[simp] theorem beginCommand_base (q : Port) (op : Byte) (r' : Region) : (s.beginCommand q op).base r' = s.base r' := rfl
@[simp] theorem beginCommand_cap (q : Port) (op : Byte) (r' : Region) : (s.beginCommand q op).cap r' = s.cap r' := rfl
@[simp] theorem beginCommand_loadByte (q : Port) (op : Byte) (a' : Nat) : (s.beginCommand q op).loadByte a' = s.loadByte a' := rfl
@[simp] theorem beginCommand_endAddr (q : Port) (op : Byte) (r' : Region) : (s.beginCommand q op).endAddr r' = s.endAddr r' := rfl
@[simp] theorem beginCommand_nextAddr (q : Port) (op : Byte) (r' : Region) : (s.beginCommand q op).nextAddr r' = s.nextAddr r' := rfl
@[simp] theorem beginCommand_usable (q : Port) (op : Byte) (r' : Region) (g' : Nat) : (s.beginCommand q op).usable r' g' = s.usable r' g' := rfl
@[simp] theorem beginCommand_validate (q : Port) (op : Byte) (st' f' : Word) : (s.beginCommand q op).validate st' f' = s.validate st' f' := rfl
@[simp] theorem beginCommand_isRunning (q : Port) (op : Byte) : (s.beginCommand q op).isRunning = s.isRunning := rfl
@[simp] theorem beginCommand_cfgValid (q : Port) (op : Byte) : (s.beginCommand q op).cfgValid = s.cfgValid := rfl

/-! ### `setRc` -/

@[simp] theorem setRc_par (x : Rc) : (s.setRc x).par = s.par := rfl
@[simp] theorem setRc_cfg (x : Rc) : (s.setRc x).cfg = s.cfg := rfl
@[simp] theorem setRc_panel (x : Rc) : (s.setRc x).panel = s.panel := rfl
@[simp] theorem setRc_encOut (x : Rc) : (s.setRc x).encOut = s.encOut := rfl
@[simp] theorem setRc_tk (x : Rc) : (s.setRc x).tk = s.tk := rfl
@[simp] theorem setRc_ports (x : Rc) : (s.setRc x).ports = s.ports := rfl
@[simp] theorem setRc_tNow (x : Rc) : (s.setRc x).tNow = s.tNow := rfl
@[simp] theorem setRc_timeHi (x : Rc) : (s.setRc x).timeHi = s.timeHi := rfl
@[simp] theorem setRc_log (x : Rc) : (s.setRc x).log = s.log := rfl
@[simp] theorem setRc_colours (x : Rc) : (s.setRc x).colours = s.colours := rfl
@[simp] theorem setRc_cp (x : Rc) : (s.setRc x).cp = s.cp := rfl
@[simp] theorem setRc_out (x : Rc) : (s.setRc x).out = s.out := rfl
@[simp] theorem setRc_coproReady (x : Rc) : (s.setRc x).coproReady = s.coproReady := rfl
@[simp] theorem setRc_mem (x : Rc) : (s.setRc x).mem = s.mem := rfl
@[simp] theorem setRc_agenda (x : Rc) : (s.setRc x).agenda = s.agenda := rfl
@[simp] theorem setRc_pick (x : Rc) : (s.setRc x).pick = s.pick := rfl
@[simp] theorem setRc_freeIx (x : Rc) : (s.setRc x).freeIx = s.freeIx := rfl
@[simp] theorem setRc_issuer (x : Rc) : (s.setRc x).issuer = s.issuer := rfl
@[simp] theorem setRc_readData (x : Rc) : (s.setRc x).readData = s.readData := rfl
@[simp] theorem setRc_ready (x : Rc) : (s.setRc x).ready = s.ready := rfl
@[simp] theorem setRc_holds (x : Rc) (p' : Port) : (s.setRc x).holds p' = s.holds p' := rfl
@[simp] theorem setRc_waiting (x : Rc) (p' : Port) : (s.setRc x).waiting p' = s.waiting p' := rfl
@[simp] theorem setRc_portExists (x : Rc) (p' : Port) : (s.setRc x).portExists p' = s.portExists p' := rfl
@[simp] theorem setRc_port (x : Rc) (p' : Port) : (s.setRc x).port p' = s.port p' := rfl
@[simp] theorem setRc_base (x : Rc) (r' : Region) : (s.setRc x).base r' = s.base r' := rfl
@[simp] theorem setRc_cap (x : Rc) (r' : Region) : (s.setRc x).cap r' = s.cap r' := rfl
@[simp] theorem setRc_loadByte (x : Rc) (a' : Nat) : (s.setRc x).loadByte a' = s.loadByte a' := rfl
@[simp] theorem setRc_endAddr (x : Rc) (r' : Region) : (s.setRc x).endAddr r' = s.endAddr r' := rfl
@[simp] theorem setRc_nextAddr (x : Rc) (r' : Region) : (s.setRc x).nextAddr r' = s.nextAddr r' := rfl
@[simp] theorem setRc_usable (x : Rc) (r' : Region) (g' : Nat) : (s.setRc x).usable r' g' = s.usable r' g' := rfl
@[simp] theorem setRc_validate (x : Rc) (st' f' : Word) : (s.setRc x).validate st' f' = s.validate st' f' := rfl
@[simp] theorem setRc_isRunning (x : Rc) : (s.setRc x).isRunning = s.isRunning := rfl
@[simp] theorem setRc_cfgValid (x : Rc) : (s.setRc x).cfgValid = s.cfgValid := rfl

/-! ### `setTk` -/

@[simp] theorem setTk_par (x : Tk) : (s.setTk x).par = s.par := rfl
@[simp] theorem setTk_cfg (x : Tk) : (s.setTk x).cfg = s.cfg := rfl
@[simp] theorem setTk_panel (x : Tk) : (s.setTk x).panel = s.panel := rfl
@[simp] theorem setTk_encOut (x : Tk) : (s.setTk x).encOut = s.encOut := rfl
@[simp] theorem setTk_rc (x : Tk) : (s.setTk x).rc = s.rc := rfl
@[simp] theorem setTk_ports (x : Tk) : (s.setTk x).ports = s.ports := rfl
@[simp] theorem setTk_tNow (x : Tk) : (s.setTk x).tNow = s.tNow := rfl
@[simp] theorem setTk_timeHi (x : Tk) : (s.setTk x).timeHi = s.timeHi := rfl
@[simp] theorem setTk_log (x : Tk) : (s.setTk x).log = s.log := rfl
@[simp] theorem setTk_colours (x : Tk) : (s.setTk x).colours = s.colours := rfl
@[simp] theorem setTk_cp (x : Tk) : (s.setTk x).cp = s.cp := rfl
@[simp] theorem setTk_out (x : Tk) : (s.setTk x).out = s.out := rfl
@[simp] theorem setTk_coproReady (x : Tk) : (s.setTk x).coproReady = s.coproReady := rfl
@[simp] theorem setTk_mem (x : Tk) : (s.setTk x).mem = s.mem := rfl
@[simp] theorem setTk_agenda (x : Tk) : (s.setTk x).agenda = s.agenda := rfl
@[simp] theorem setTk_pick (x : Tk) : (s.setTk x).pick = s.pick := rfl
@[simp] theorem setTk_freeIx (x : Tk) : (s.setTk x).freeIx = s.freeIx := rfl
@[simp] theorem setTk_issuer (x : Tk) : (s.setTk x).issuer = s.issuer := rfl
@[simp] theorem setTk_readData (x : Tk) : (s.setTk x).readData = s.readData := rfl
@[simp] theorem setTk_ready (x : Tk) : (s.setTk x).ready = s.ready := rfl
@[simp] theorem setTk_portExists (x : Tk) (p' : Port) : (s.setTk x).portExists p' = s.portExists p' := rfl
@[simp] theorem setTk_port (x : Tk) (p' : Port) : (s.setTk x).port p' = s.port p' := rfl
@[simp] theorem setTk_base (x : Tk) (r' : Region) : (s.setTk x).base r' = s.base r' := rfl
@[simp] theorem setTk_cap (x : Tk) (r' : Region) : (s.setTk x).cap r' = s.cap r' := rfl
@[simp] theorem setTk_loadByte (x : Tk) (a' : Nat) : (s.setTk x).loadByte a' = s.loadByte a' := rfl
@[simp] theorem setTk_endAddr (x : Tk) (r' : Region) : (s.setTk x).endAddr r' = s.endAddr r' := rfl
@[simp] theorem setTk_nextAddr (x : Tk) (r' : Region) : (s.setTk x).nextAddr r' = s.nextAddr r' := rfl
@[simp] theorem setTk_usable (x : Tk) (r' : Region) (g' : Nat) : (s.setTk x).usable r' g' = s.usable r' g' := rfl
@[simp] theorem setTk_validate (x : Tk) (st' f' : Word) : (s.setTk x).validate st' f' = s.validate st' f' := rfl
@[simp] theorem setTk_isRunning (x : Tk) : (s.setTk x).isRunning = s.isRunning := rfl
@[simp] theorem setTk_cfgValid (x : Tk) : (s.setTk x).cfgValid = s.cfgValid := rfl

/-! ### `setCp` -/

@[simp] theorem setCp_par (x : Cp) : (s.setCp x).par = s.par := rfl
@[simp] theorem setCp_cfg (x : Cp) : (s.setCp x).cfg = s.cfg := rfl
@[simp] theorem setCp_panel (x : Cp) : (s.setCp x).panel = s.panel := rfl
@[simp] theorem setCp_encOut (x : Cp) : (s.setCp x).encOut = s.encOut := rfl
@[simp] theorem setCp_rc (x : Cp) : (s.setCp x).rc = s.rc := rfl
@[simp] theorem setCp_tk (x : Cp) : (s.setCp x).tk = s.tk := rfl
@[simp] theorem setCp_ports (x : Cp) : (s.setCp x).ports = s.ports := rfl
@[simp] theorem setCp_tNow (x : Cp) : (s.setCp x).tNow = s.tNow := rfl
@[simp] theorem setCp_timeHi (x : Cp) : (s.setCp x).timeHi = s.timeHi := rfl
@[simp] theorem setCp_log (x : Cp) : (s.setCp x).log = s.log := rfl
@[simp] theorem setCp_colours (x : Cp) : (s.setCp x).colours = s.colours := rfl
@[simp] theorem setCp_out (x : Cp) : (s.setCp x).out = s.out := rfl
@[simp] theorem setCp_coproReady (x : Cp) : (s.setCp x).coproReady = s.coproReady := rfl
@[simp] theorem setCp_mem (x : Cp) : (s.setCp x).mem = s.mem := rfl
@[simp] theorem setCp_agenda (x : Cp) : (s.setCp x).agenda = s.agenda := rfl
@[simp] theorem setCp_pick (x : Cp) : (s.setCp x).pick = s.pick := rfl
@[simp] theorem setCp_freeIx (x : Cp) : (s.setCp x).freeIx = s.freeIx := rfl
@[simp] theorem setCp_issuer (x : Cp) : (s.setCp x).issuer = s.issuer := rfl
@[simp] theorem setCp_readData (x : Cp) : (s.setCp x).readData = s.readData := rfl
@[simp] theorem setCp_ready (x : Cp) : (s.setCp x).ready = s.ready := rfl
@[simp] theorem setCp_holds (x : Cp) (p' : Port) : (s.setCp x).holds p' = s.holds p' := rfl
@[simp] theorem setCp_waiting (x : Cp) (p' : Port) : (s.setCp x).waiting p' = s.waiting p' := rfl
@[simp] theorem setCp_portExists (x : Cp) (p' : Port) : (s.setCp x).portExists p' = s.portExists p' := rfl
@[simp] theorem setCp_port (x : Cp) (p' : Port) : (s.setCp x).port p' = s.port p' := rfl
@[simp] theorem setCp_base (x : Cp) (r' : Region) : (s.setCp x).base r' = s.base r' := rfl
@[simp] theorem setCp_cap (x : Cp) (r' : Region) : (s.setCp x).cap r' = s.cap r' := rfl
@[simp] theorem setCp_loadByte (x : Cp) (a' : Nat) : (s.setCp x).loadByte a' = s.loadByte a' := rfl
@[simp] theorem setCp_endAddr (x : Cp) (r' : Region) : (s.setCp x).endAddr r' = s.endAddr r' := rfl
@[simp] theorem setCp_nextAddr (x : Cp) (r' : Region) : (s.setCp x).nextAddr r' = s.nextAddr r' := rfl
@[simp] theorem setCp_usable (x : Cp) (r' : Region) (g' : Nat) : (s.setCp x).usable r' g' = s.usable r' g' := rfl
@[simp] theorem setCp_validate (x : Cp) (st' f' : Word) : (s.setCp x).validate st' f' = s.validate st' f' := rfl
@[simp] theorem setCp_cfgValid (x : Cp) : (s.setCp x).cfgValid = s.cfgValid := rfl

/-! ### `logEvent` -/

@[simp] theorem logEvent_par (q : Option Port) (kind : LogKind) (a b : Word) : (s.logEvent q kind a b).par = s.par := rfl
@[simp] theorem logEvent_cfg (q : Option Port) (kind : LogKind) (a b : Word) : (s.logEvent q kind a b).cfg = s.cfg := rfl
@[simp] theorem logEvent_panel (q : Option Port) (kind : LogKind) (a b : Word) : (s.logEvent q kind a b).panel = s.panel := rfl
@[simp] theorem logEvent_encOut (q : Option Port) (kind : LogKind) (a b : Word) : (s.logEvent q kind a b).encOut = s.encOut := rfl
@[simp] theorem logEvent_rc (q : Option Port) (kind : LogKind) (a b : Word) : (s.logEvent q kind a b).rc = s.rc := rfl
@[simp] theorem logEvent_tk (q : Option Port) (kind : LogKind) (a b : Word) : (s.logEvent q kind a b).tk = s.tk := rfl
@[simp] theorem logEvent_ports (q : Option Port) (kind : LogKind) (a b : Word) : (s.logEvent q kind a b).ports = s.ports := rfl
@[simp] theorem logEvent_tNow (q : Option Port) (kind : LogKind) (a b : Word) : (s.logEvent q kind a b).tNow = s.tNow := rfl
@[simp] theorem logEvent_timeHi (q : Option Port) (kind : LogKind) (a b : Word) : (s.logEvent q kind a b).timeHi = s.timeHi := rfl
@[simp] theorem logEvent_colours (q : Option Port) (kind : LogKind) (a b : Word) : (s.logEvent q kind a b).colours = s.colours := rfl
@[simp] theorem logEvent_cp (q : Option Port) (kind : LogKind) (a b : Word) : (s.logEvent q kind a b).cp = s.cp := rfl
@[simp] theorem logEvent_out (q : Option Port) (kind : LogKind) (a b : Word) : (s.logEvent q kind a b).out = s.out := rfl
@[simp] theorem logEvent_coproReady (q : Option Port) (kind : LogKind) (a b : Word) : (s.logEvent q kind a b).coproReady = s.coproReady := rfl
@[simp] theorem logEvent_mem (q : Option Port) (kind : LogKind) (a b : Word) : (s.logEvent q kind a b).mem = s.mem := rfl
@[simp] theorem logEvent_agenda (q : Option Port) (kind : LogKind) (a b : Word) : (s.logEvent q kind a b).agenda = s.agenda := rfl
@[simp] theorem logEvent_pick (q : Option Port) (kind : LogKind) (a b : Word) : (s.logEvent q kind a b).pick = s.pick := rfl
@[simp] theorem logEvent_freeIx (q : Option Port) (kind : LogKind) (a b : Word) : (s.logEvent q kind a b).freeIx = s.freeIx := rfl
@[simp] theorem logEvent_issuer (q : Option Port) (kind : LogKind) (a b : Word) : (s.logEvent q kind a b).issuer = s.issuer := rfl
@[simp] theorem logEvent_readData (q : Option Port) (kind : LogKind) (a b : Word) : (s.logEvent q kind a b).readData = s.readData := rfl
@[simp] theorem logEvent_ready (q : Option Port) (kind : LogKind) (a b : Word) : (s.logEvent q kind a b).ready = s.ready := rfl
@[simp] theorem logEvent_holds (q : Option Port) (kind : LogKind) (a b : Word) (p' : Port) : (s.logEvent q kind a b).holds p' = s.holds p' := rfl
@[simp] theorem logEvent_waiting (q : Option Port) (kind : LogKind) (a b : Word) (p' : Port) : (s.logEvent q kind a b).waiting p' = s.waiting p' := rfl
@[simp] theorem logEvent_portExists (q : Option Port) (kind : LogKind) (a b : Word) (p' : Port) : (s.logEvent q kind a b).portExists p' = s.portExists p' := rfl
@[simp] theorem logEvent_port (q : Option Port) (kind : LogKind) (a b : Word) (p' : Port) : (s.logEvent q kind a b).port p' = s.port p' := rfl
@[simp] theorem logEvent_base (q : Option Port) (kind : LogKind) (a b : Word) (r' : Region) : (s.logEvent q kind a b).base r' = s.base r' := rfl
@[simp] theorem logEvent_cap (q : Option Port) (kind : LogKind) (a b : Word) (r' : Region) : (s.logEvent q kind a b).cap r' = s.cap r' := rfl
@[simp] theorem logEvent_loadByte (q : Option Port) (kind : LogKind) (a b : Word) (a' : Nat) : (s.logEvent q kind a b).loadByte a' = s.loadByte a' := rfl
@[simp] theorem logEvent_endAddr (q : Option Port) (kind : LogKind) (a b : Word) (r' : Region) : (s.logEvent q kind a b).endAddr r' = s.endAddr r' := rfl
@[simp] theorem logEvent_nextAddr (q : Option Port) (kind : LogKind) (a b : Word) (r' : Region) : (s.logEvent q kind a b).nextAddr r' = s.nextAddr r' := rfl
@[simp] theorem logEvent_usable (q : Option Port) (kind : LogKind) (a b : Word) (r' : Region) (g' : Nat) : (s.logEvent q kind a b).usable r' g' = s.usable r' g' := rfl
@[simp] theorem logEvent_validate (q : Option Port) (kind : LogKind) (a b : Word) (st' f' : Word) : (s.logEvent q kind a b).validate st' f' = s.validate st' f' := rfl
@[simp] theorem logEvent_isRunning (q : Option Port) (kind : LogKind) (a b : Word) : (s.logEvent q kind a b).isRunning = s.isRunning := rfl
@[simp] theorem logEvent_cfgValid (q : Option Port) (kind : LogKind) (a b : Word) : (s.logEvent q kind a b).cfgValid = s.cfgValid := rfl

/-! ### `enqueue` -/

@[simp] theorem enqueue_par (q : Port) : (s.enqueue q).par = s.par := rfl
@[simp] theorem enqueue_cfg (q : Port) : (s.enqueue q).cfg = s.cfg := rfl
@[simp] theorem enqueue_panel (q : Port) : (s.enqueue q).panel = s.panel := rfl
@[simp] theorem enqueue_encOut (q : Port) : (s.enqueue q).encOut = s.encOut := rfl
@[simp] theorem enqueue_rc (q : Port) : (s.enqueue q).rc = s.rc := rfl
@[simp] theorem enqueue_ports (q : Port) : (s.enqueue q).ports = s.ports := rfl
@[simp] theorem enqueue_tNow (q : Port) : (s.enqueue q).tNow = s.tNow := rfl
@[simp] theorem enqueue_timeHi (q : Port) : (s.enqueue q).timeHi = s.timeHi := rfl
@[simp] theorem enqueue_log (q : Port) : (s.enqueue q).log = s.log := rfl
@[simp] theorem enqueue_colours (q : Port) : (s.enqueue q).colours = s.colours := rfl
@[simp] theorem enqueue_cp (q : Port) : (s.enqueue q).cp = s.cp := rfl
@[simp] theorem enqueue_out (q : Port) : (s.enqueue q).out = s.out := rfl
@[simp] theorem enqueue_coproReady (q : Port) : (s.enqueue q).coproReady = s.coproReady := rfl
@[simp] theorem enqueue_mem (q : Port) : (s.enqueue q).mem = s.mem := rfl
@[simp] theorem enqueue_agenda (q : Port) : (s.enqueue q).agenda = s.agenda := rfl
@[simp] theorem enqueue_pick (q : Port) : (s.enqueue q).pick = s.pick := rfl
@[simp] theorem enqueue_freeIx (q : Port) : (s.enqueue q).freeIx = s.freeIx := rfl
@[simp] theorem enqueue_issuer (q : Port) : (s.enqueue q).issuer = s.issuer := rfl
@[simp] theorem enqueue_readData (q : Port) : (s.enqueue q).readData = s.readData := rfl
@[simp] theorem enqueue_ready (q : Port) : (s.enqueue q).ready = s.ready := rfl
@[simp] theorem enqueue_portExists (q : Port) (p' : Port) : (s.enqueue q).portExists p' = s.portExists p' := rfl
@[simp] theorem enqueue_port (q : Port) (p' : Port) : (s.enqueue q).port p' = s.port p' := rfl
@[simp] theorem enqueue_base (q : Port) (r' : Region) : (s.enqueue q).base r' = s.base r' := rfl
@[simp] theorem enqueue_cap (q : Port) (r' : Region) : (s.enqueue q).cap r' = s.cap r' := rfl
@[simp] theorem enqueue_loadByte (q : Port) (a' : Nat) : (s.enqueue q).loadByte a' = s.loadByte a' := rfl
@[simp] theorem enqueue_endAddr (q : Port) (r' : Region) : (s.enqueue q).endAddr r' = s.endAddr r' := rfl
@[simp] theorem enqueue_nextAddr (q : Port) (r' : Region) : (s.enqueue q).nextAddr r' = s.nextAddr r' := rfl
@[simp] theorem enqueue_usable (q : Port) (r' : Region) (g' : Nat) : (s.enqueue q).usable r' g' = s.usable r' g' := rfl
@[simp] theorem enqueue_validate (q : Port) (st' f' : Word) : (s.enqueue q).validate st' f' = s.validate st' f' := rfl
@[simp] theorem enqueue_isRunning (q : Port) : (s.enqueue q).isRunning = s.isRunning := rfl
@[simp] theorem enqueue_cfgValid (q : Port) : (s.enqueue q).cfgValid = s.cfgValid := rfl

/-! ### `dequeue` -/

@[simp] theorem dequeue_par (q : Port) : (s.dequeue q).par = s.par := rfl
@[simp] theorem dequeue_cfg (q : Port) : (s.dequeue q).cfg = s.cfg := rfl
@[simp] theorem dequeue_panel (q : Port) : (s.dequeue q).panel = s.panel := rfl
@[simp] theorem dequeue_encOut (q : Port) : (s.dequeue q).encOut = s.encOut := rfl
@[simp] theorem dequeue_rc (q : Port) : (s.dequeue q).rc = s.rc := rfl
@[simp] theorem dequeue_ports (q : Port) : (s.dequeue q).ports = s.ports := rfl
@[simp] theorem dequeue_tNow (q : Port) : (s.dequeue q).tNow = s.tNow := rfl
@[simp] theorem dequeue_timeHi (q : Port) : (s.dequeue q).timeHi = s.timeHi := rfl
@[simp] theorem dequeue_log (q : Port) : (s.dequeue q).log = s.log := rfl
@[simp] theorem dequeue_colours (q : Port) : (s.dequeue q).colours = s.colours := rfl
@[simp] theorem dequeue_cp (q : Port) : (s.dequeue q).cp = s.cp := rfl
@[simp] theorem dequeue_out (q : Port) : (s.dequeue q).out = s.out := rfl
@[simp] theorem dequeue_coproReady (q : Port) : (s.dequeue q).coproReady = s.coproReady := rfl
@[simp] theorem dequeue_mem (q : Port) : (s.dequeue q).mem = s.mem := rfl
@[simp] theorem dequeue_agenda (q : Port) : (s.dequeue q).agenda = s.agenda := rfl
@[simp] theorem dequeue_pick (q : Port) : (s.dequeue q).pick = s.pick := rfl
@[simp] theorem dequeue_freeIx (q : Port) : (s.dequeue q).freeIx = s.freeIx := rfl
@[simp] theorem dequeue_issuer (q : Port) : (s.dequeue q).issuer = s.issuer := rfl
@[simp] theorem dequeue_readData (q : Port) : (s.dequeue q).readData = s.readData := rfl
@[simp] theorem dequeue_ready (q : Port) : (s.dequeue q).ready = s.ready := rfl
@[simp] theorem dequeue_portExists (q : Port) (p' : Port) : (s.dequeue q).portExists p' = s.portExists p' := rfl
@[simp] theorem dequeue_port (q : Port) (p' : Port) : (s.dequeue q).port p' = s.port p' := rfl
@[simp] theorem dequeue_base (q : Port) (r' : Region) : (s.dequeue q).base r' = s.base r' := rfl
@[simp] theorem dequeue_cap (q : Port) (r' : Region) : (s.dequeue q).cap r' = s.cap r' := rfl
@[simp] theorem dequeue_loadByte (q : Port) (a' : Nat) : (s.dequeue q).loadByte a' = s.loadByte a' := rfl
@[simp] theorem dequeue_endAddr (q : Port) (r' : Region) : (s.dequeue q).endAddr r' = s.endAddr r' := rfl
@[simp] theorem dequeue_nextAddr (q : Port) (r' : Region) : (s.dequeue q).nextAddr r' = s.nextAddr r' := rfl
@[simp] theorem dequeue_usable (q : Port) (r' : Region) (g' : Nat) : (s.dequeue q).usable r' g' = s.usable r' g' := rfl
@[simp] theorem dequeue_validate (q : Port) (st' f' : Word) : (s.dequeue q).validate st' f' = s.validate st' f' := rfl
@[simp] theorem dequeue_isRunning (q : Port) : (s.dequeue q).isRunning = s.isRunning := rfl
@[simp] theorem dequeue_cfgValid (q : Port) : (s.dequeue q).cfgValid = s.cfgValid := rfl

/-! ### `freeToken` -/

@[simp] theorem freeToken_par : (s.freeToken).par = s.par := rfl
@[simp] theorem freeToken_cfg : (s.freeToken).cfg = s.cfg := rfl
@[simp] theorem freeToken_panel : (s.freeToken).panel = s.panel := rfl
@[simp] theorem freeToken_encOut : (s.freeToken).encOut = s.encOut := rfl
@[simp] theorem freeToken_rc : (s.freeToken).rc = s.rc := rfl
@[simp] theorem freeToken_ports : (s.freeToken).ports = s.ports := rfl
@[simp] theorem freeToken_tNow : (s.freeToken).tNow = s.tNow := rfl
@[simp] theorem freeToken_timeHi : (s.freeToken).timeHi = s.timeHi := rfl
@[simp] theorem freeToken_log : (s.freeToken).log = s.log := rfl
@[simp] theorem freeToken_colours : (s.freeToken).colours = s.colours := rfl
@[simp] theorem freeToken_cp : (s.freeToken).cp = s.cp := rfl
@[simp] theorem freeToken_out : (s.freeToken).out = s.out := rfl
@[simp] theorem freeToken_coproReady : (s.freeToken).coproReady = s.coproReady := rfl
@[simp] theorem freeToken_mem : (s.freeToken).mem = s.mem := rfl
@[simp] theorem freeToken_agenda : (s.freeToken).agenda = s.agenda := rfl
@[simp] theorem freeToken_pick : (s.freeToken).pick = s.pick := rfl
@[simp] theorem freeToken_freeIx : (s.freeToken).freeIx = s.freeIx := rfl
@[simp] theorem freeToken_issuer : (s.freeToken).issuer = s.issuer := rfl
@[simp] theorem freeToken_readData : (s.freeToken).readData = s.readData := rfl
@[simp] theorem freeToken_ready  : (s.freeToken).ready = s.ready := rfl
@[simp] theorem freeToken_portExists (p' : Port) : (s.freeToken).portExists p' = s.portExists p' := rfl
@[simp] theorem freeToken_port (p' : Port) : (s.freeToken).port p' = s.port p' := rfl
@[simp] theorem freeToken_base (r' : Region) : (s.freeToken).base r' = s.base r' := rfl
@[simp] theorem freeToken_cap (r' : Region) : (s.freeToken).cap r' = s.cap r' := rfl
@[simp] theorem freeToken_loadByte (a' : Nat) : (s.freeToken).loadByte a' = s.loadByte a' := rfl
@[simp] theorem freeToken_endAddr (r' : Region) : (s.freeToken).endAddr r' = s.endAddr r' := rfl
@[simp] theorem freeToken_nextAddr (r' : Region) : (s.freeToken).nextAddr r' = s.nextAddr r' := rfl
@[simp] theorem freeToken_usable (r' : Region) (g' : Nat) : (s.freeToken).usable r' g' = s.usable r' g' := rfl
@[simp] theorem freeToken_validate (st' f' : Word) : (s.freeToken).validate st' f' = s.validate st' f' := rfl
@[simp] theorem freeToken_isRunning  : (s.freeToken).isRunning = s.isRunning := rfl
@[simp] theorem freeToken_cfgValid  : (s.freeToken).cfgValid = s.cfgValid := rfl

/-! ### `enterFatal` -/

@[simp] theorem enterFatal_par (keep : Option Port) : (s.enterFatal keep).par = s.par := rfl
@[simp] theorem enterFatal_panel (keep : Option Port) : (s.enterFatal keep).panel = s.panel := rfl
@[simp] theorem enterFatal_encOut (keep : Option Port) : (s.enterFatal keep).encOut = s.encOut := rfl
@[simp] theorem enterFatal_rc (keep : Option Port) : (s.enterFatal keep).rc = s.rc := rfl
@[simp] theorem enterFatal_tNow (keep : Option Port) : (s.enterFatal keep).tNow = s.tNow := rfl
@[simp] theorem enterFatal_timeHi (keep : Option Port) : (s.enterFatal keep).timeHi = s.timeHi := rfl
@[simp] theorem enterFatal_log (keep : Option Port) : (s.enterFatal keep).log = s.log := rfl
@[simp] theorem enterFatal_colours (keep : Option Port) : (s.enterFatal keep).colours = s.colours := rfl
@[simp] theorem enterFatal_cp (keep : Option Port) : (s.enterFatal keep).cp = s.cp := rfl
@[simp] theorem enterFatal_out (keep : Option Port) : (s.enterFatal keep).out = s.out := rfl
@[simp] theorem enterFatal_coproReady (keep : Option Port) : (s.enterFatal keep).coproReady = s.coproReady := rfl
@[simp] theorem enterFatal_mem (keep : Option Port) : (s.enterFatal keep).mem = s.mem := rfl
@[simp] theorem enterFatal_agenda (keep : Option Port) : (s.enterFatal keep).agenda = s.agenda := rfl
@[simp] theorem enterFatal_pick (keep : Option Port) : (s.enterFatal keep).pick = s.pick := rfl
@[simp] theorem enterFatal_freeIx (keep : Option Port) : (s.enterFatal keep).freeIx = s.freeIx := rfl
@[simp] theorem enterFatal_issuer (keep : Option Port) : (s.enterFatal keep).issuer = s.issuer := rfl
@[simp] theorem enterFatal_readData (keep : Option Port) : (s.enterFatal keep).readData = s.readData := rfl
@[simp] theorem enterFatal_portExists (keep : Option Port) (p' : Port) : (s.enterFatal keep).portExists p' = s.portExists p' := rfl
@[simp] theorem enterFatal_base (keep : Option Port) (r' : Region) : (s.enterFatal keep).base r' = s.base r' := rfl
@[simp] theorem enterFatal_cap (keep : Option Port) (r' : Region) : (s.enterFatal keep).cap r' = s.cap r' := rfl
@[simp] theorem enterFatal_loadByte (keep : Option Port) (a' : Nat) : (s.enterFatal keep).loadByte a' = s.loadByte a' := rfl
@[simp] theorem enterFatal_endAddr (keep : Option Port) (r' : Region) : (s.enterFatal keep).endAddr r' = s.endAddr r' := rfl
@[simp] theorem enterFatal_nextAddr (keep : Option Port) (r' : Region) : (s.enterFatal keep).nextAddr r' = s.nextAddr r' := rfl
@[simp] theorem enterFatal_usable (keep : Option Port) (r' : Region) (g' : Nat) : (s.enterFatal keep).usable r' g' = s.usable r' g' := rfl
@[simp] theorem enterFatal_validate (keep : Option Port) (st' f' : Word) : (s.enterFatal keep).validate st' f' = s.validate st' f' := rfl
@[simp] theorem enterFatal_isRunning (keep : Option Port) : (s.enterFatal keep).isRunning = s.isRunning := rfl

/-! ### `storeBytes` -/

@[simp] theorem storeBytes_par (a : Nat) (bs : List Byte) : (s.storeBytes a bs).par = s.par := rfl
@[simp] theorem storeBytes_cfg (a : Nat) (bs : List Byte) : (s.storeBytes a bs).cfg = s.cfg := rfl
@[simp] theorem storeBytes_panel (a : Nat) (bs : List Byte) : (s.storeBytes a bs).panel = s.panel := rfl
@[simp] theorem storeBytes_encOut (a : Nat) (bs : List Byte) : (s.storeBytes a bs).encOut = s.encOut := rfl
@[simp] theorem storeBytes_rc (a : Nat) (bs : List Byte) : (s.storeBytes a bs).rc = s.rc := rfl
@[simp] theorem storeBytes_tk (a : Nat) (bs : List Byte) : (s.storeBytes a bs).tk = s.tk := rfl
@[simp] theorem storeBytes_ports (a : Nat) (bs : List Byte) : (s.storeBytes a bs).ports = s.ports := rfl
@[simp] theorem storeBytes_tNow (a : Nat) (bs : List Byte) : (s.storeBytes a bs).tNow = s.tNow := rfl
@[simp] theorem storeBytes_timeHi (a : Nat) (bs : List Byte) : (s.storeBytes a bs).timeHi = s.timeHi := rfl
@[simp] theorem storeBytes_log (a : Nat) (bs : List Byte) : (s.storeBytes a bs).log = s.log := rfl
@[simp] theorem storeBytes_colours (a : Nat) (bs : List Byte) : (s.storeBytes a bs).colours = s.colours := rfl
@[simp] theorem storeBytes_cp (a : Nat) (bs : List Byte) : (s.storeBytes a bs).cp = s.cp := rfl
@[simp] theorem storeBytes_out (a : Nat) (bs : List Byte) : (s.storeBytes a bs).out = s.out := rfl
@[simp] theorem storeBytes_coproReady (a : Nat) (bs : List Byte) : (s.storeBytes a bs).coproReady = s.coproReady := rfl
@[simp] theorem storeBytes_agenda (a : Nat) (bs : List Byte) : (s.storeBytes a bs).agenda = s.agenda := rfl
@[simp] theorem storeBytes_pick (a : Nat) (bs : List Byte) : (s.storeBytes a bs).pick = s.pick := rfl
@[simp] theorem storeBytes_freeIx (a : Nat) (bs : List Byte) : (s.storeBytes a bs).freeIx = s.freeIx := rfl
@[simp] theorem storeBytes_issuer (a : Nat) (bs : List Byte) : (s.storeBytes a bs).issuer = s.issuer := rfl
@[simp] theorem storeBytes_readData (a : Nat) (bs : List Byte) : (s.storeBytes a bs).readData = s.readData := rfl
@[simp] theorem storeBytes_ready (a : Nat) (bs : List Byte) : (s.storeBytes a bs).ready = s.ready := rfl
@[simp] theorem storeBytes_holds (a : Nat) (bs : List Byte) (p' : Port) : (s.storeBytes a bs).holds p' = s.holds p' := rfl
@[simp] theorem storeBytes_waiting (a : Nat) (bs : List Byte) (p' : Port) : (s.storeBytes a bs).waiting p' = s.waiting p' := rfl
@[simp] theorem storeBytes_portExists (a : Nat) (bs : List Byte) (p' : Port) : (s.storeBytes a bs).portExists p' = s.portExists p' := rfl
@[simp] theorem storeBytes_port (a : Nat) (bs : List Byte) (p' : Port) : (s.storeBytes a bs).port p' = s.port p' := rfl
@[simp] theorem storeBytes_base (a : Nat) (bs : List Byte) (r' : Region) : (s.storeBytes a bs).base r' = s.base r' := rfl
@[simp] theorem storeBytes_cap (a : Nat) (bs : List Byte) (r' : Region) : (s.storeBytes a bs).cap r' = s.cap r' := rfl
@[simp] theorem storeBytes_usable (a : Nat) (bs : List Byte) (r' : Region) (g' : Nat) : (s.storeBytes a bs).usable r' g' = s.usable r' g' := rfl
@[simp] theorem storeBytes_validate (a : Nat) (bs : List Byte) (st' f' : Word) : (s.storeBytes a bs).validate st' f' = s.validate st' f' := rfl
@[simp] theorem storeBytes_isRunning (a : Nat) (bs : List Byte) : (s.storeBytes a bs).isRunning = s.isRunning := rfl
@[simp] theorem storeBytes_cfgValid (a : Nat) (bs : List Byte) : (s.storeBytes a bs).cfgValid = s.cfgValid := rfl

/-! ### `memWrite` -/

@[simp] theorem memWrite_par (a n v : Nat) : (s.memWrite a n v).par = s.par := rfl
@[simp] theorem memWrite_cfg (a n v : Nat) : (s.memWrite a n v).cfg = s.cfg := rfl
@[simp] theorem memWrite_panel (a n v : Nat) : (s.memWrite a n v).panel = s.panel := rfl
@[simp] theorem memWrite_encOut (a n v : Nat) : (s.memWrite a n v).encOut = s.encOut := rfl
@[simp] theorem memWrite_rc (a n v : Nat) : (s.memWrite a n v).rc = s.rc := rfl
@[simp] theorem memWrite_tk (a n v : Nat) : (s.memWrite a n v).tk = s.tk := rfl
@[simp] theorem memWrite_ports (a n v : Nat) : (s.memWrite a n v).ports = s.ports := rfl
@[simp] theorem memWrite_tNow (a n v : Nat) : (s.memWrite a n v).tNow = s.tNow := rfl
@[simp] theorem memWrite_timeHi (a n v : Nat) : (s.memWrite a n v).timeHi = s.timeHi := rfl
@[simp] theorem memWrite_log (a n v : Nat) : (s.memWrite a n v).log = s.log := rfl
@[simp] theorem memWrite_colours (a n v : Nat) : (s.memWrite a n v).colours = s.colours := rfl
@[simp] theorem memWrite_cp (a n v : Nat) : (s.memWrite a n v).cp = s.cp := rfl
@[simp] theorem memWrite_out (a n v : Nat) : (s.memWrite a n v).out = s.out := rfl
@[simp] theorem memWrite_coproReady (a n v : Nat) : (s.memWrite a n v).coproReady = s.coproReady := rfl
@[simp] theorem memWrite_agenda (a n v : Nat) : (s.memWrite a n v).agenda = s.agenda := rfl
@[simp] theorem memWrite_pick (a n v : Nat) : (s.memWrite a n v).pick = s.pick := rfl
@[simp] theorem memWrite_freeIx (a n v : Nat) : (s.memWrite a n v).freeIx = s.freeIx := rfl
@[simp] theorem memWrite_issuer (a n v : Nat) : (s.memWrite a n v).issuer = s.issuer := rfl
@[simp] theorem memWrite_readData (a n v : Nat) : (s.memWrite a n v).readData = s.readData := rfl
@[simp] theorem memWrite_ready (a n v : Nat) : (s.memWrite a n v).ready = s.ready := rfl
@[simp] theorem memWrite_holds (a n v : Nat) (p' : Port) : (s.memWrite a n v).holds p' = s.holds p' := rfl
@[simp] theorem memWrite_waiting (a n v : Nat) (p' : Port) : (s.memWrite a n v).waiting p' = s.waiting p' := rfl
@[simp] theorem memWrite_portExists (a n v : Nat) (p' : Port) : (s.memWrite a n v).portExists p' = s.portExists p' := rfl
@[simp] theorem memWrite_port (a n v : Nat) (p' : Port) : (s.memWrite a n v).port p' = s.port p' := rfl
@[simp] theorem memWrite_base (a n v : Nat) (r' : Region) : (s.memWrite a n v).base r' = s.base r' := rfl
@[simp] theorem memWrite_cap (a n v : Nat) (r' : Region) : (s.memWrite a n v).cap r' = s.cap r' := rfl
@[simp] theorem memWrite_usable (a n v : Nat) (r' : Region) (g' : Nat) : (s.memWrite a n v).usable r' g' = s.usable r' g' := rfl
@[simp] theorem memWrite_validate (a n v : Nat) (st' f' : Word) : (s.memWrite a n v).validate st' f' = s.validate st' f' := rfl
@[simp] theorem memWrite_isRunning (a n v : Nat) : (s.memWrite a n v).isRunning = s.isRunning := rfl
@[simp] theorem memWrite_cfgValid (a n v : Nat) : (s.memWrite a n v).cfgValid = s.cfgValid := rfl

/-! ### `recordLast` -/

@[simp] theorem recordLast_par (q : Port) (r : Result) : (s.recordLast q r).par = s.par := rfl
@[simp] theorem recordLast_cfg (q : Port) (r : Result) : (s.recordLast q r).cfg = s.cfg := rfl
@[simp] theorem recordLast_panel (q : Port) (r : Result) : (s.recordLast q r).panel = s.panel := rfl
@[simp] theorem recordLast_encOut (q : Port) (r : Result) : (s.recordLast q r).encOut = s.encOut := rfl
@[simp] theorem recordLast_rc (q : Port) (r : Result) : (s.recordLast q r).rc = s.rc := rfl
@[simp] theorem recordLast_tk (q : Port) (r : Result) : (s.recordLast q r).tk = s.tk := rfl
@[simp] theorem recordLast_tNow (q : Port) (r : Result) : (s.recordLast q r).tNow = s.tNow := rfl
@[simp] theorem recordLast_timeHi (q : Port) (r : Result) : (s.recordLast q r).timeHi = s.timeHi := rfl
@[simp] theorem recordLast_log (q : Port) (r : Result) : (s.recordLast q r).log = s.log := rfl
@[simp] theorem recordLast_colours (q : Port) (r : Result) : (s.recordLast q r).colours = s.colours := rfl
@[simp] theorem recordLast_cp (q : Port) (r : Result) : (s.recordLast q r).cp = s.cp := rfl
@[simp] theorem recordLast_out (q : Port) (r : Result) : (s.recordLast q r).out = s.out := rfl
@[simp] theorem recordLast_coproReady (q : Port) (r : Result) : (s.recordLast q r).coproReady = s.coproReady := rfl
@[simp] theorem recordLast_mem (q : Port) (r : Result) : (s.recordLast q r).mem = s.mem := rfl
@[simp] theorem recordLast_agenda (q : Port) (r : Result) : (s.recordLast q r).agenda = s.agenda := rfl
@[simp] theorem recordLast_pick (q : Port) (r : Result) : (s.recordLast q r).pick = s.pick := rfl
@[simp] theorem recordLast_freeIx (q : Port) (r : Result) : (s.recordLast q r).freeIx = s.freeIx := rfl
@[simp] theorem recordLast_issuer (q : Port) (r : Result) : (s.recordLast q r).issuer = s.issuer := rfl
@[simp] theorem recordLast_readData (q : Port) (r : Result) : (s.recordLast q r).readData = s.readData := rfl
@[simp] theorem recordLast_ready (q : Port) (r : Result) : (s.recordLast q r).ready = s.ready := rfl
@[simp] theorem recordLast_holds (q : Port) (r : Result) (p' : Port) : (s.recordLast q r).holds p' = s.holds p' := rfl
@[simp] theorem recordLast_waiting (q : Port) (r : Result) (p' : Port) : (s.recordLast q r).waiting p' = s.waiting p' := rfl
@[simp] theorem recordLast_portExists (q : Port) (r : Result) (p' : Port) : (s.recordLast q r).portExists p' = s.portExists p' := rfl
@[simp] theorem recordLast_base (q : Port) (r : Result) (r' : Region) : (s.recordLast q r).base r' = s.base r' := rfl
@[simp] theorem recordLast_cap (q : Port) (r : Result) (r' : Region) : (s.recordLast q r).cap r' = s.cap r' := rfl
@[simp] theorem recordLast_loadByte (q : Port) (r : Result) (a' : Nat) : (s.recordLast q r).loadByte a' = s.loadByte a' := rfl
@[simp] theorem recordLast_endAddr (q : Port) (r : Result) (r' : Region) : (s.recordLast q r).endAddr r' = s.endAddr r' := rfl
@[simp] theorem recordLast_nextAddr (q : Port) (r : Result) (r' : Region) : (s.recordLast q r).nextAddr r' = s.nextAddr r' := rfl
@[simp] theorem recordLast_usable (q : Port) (r : Result) (r' : Region) (g' : Nat) : (s.recordLast q r).usable r' g' = s.usable r' g' := rfl
@[simp] theorem recordLast_validate (q : Port) (r : Result) (st' f' : Word) : (s.recordLast q r).validate st' f' = s.validate st' f' := rfl
@[simp] theorem recordLast_isRunning (q : Port) (r : Result) : (s.recordLast q r).isRunning = s.isRunning := rfl
@[simp] theorem recordLast_cfgValid (q : Port) (r : Result) : (s.recordLast q r).cfgValid = s.cfgValid := rfl

/-! ### `sleepUntil` -/

@[simp] theorem sleepUntil_par (q : Port) (p : Phase) (w : U64) : (s.sleepUntil q p w).par = s.par := rfl
@[simp] theorem sleepUntil_cfg (q : Port) (p : Phase) (w : U64) : (s.sleepUntil q p w).cfg = s.cfg := rfl
@[simp] theorem sleepUntil_panel (q : Port) (p : Phase) (w : U64) : (s.sleepUntil q p w).panel = s.panel := rfl
@[simp] theorem sleepUntil_encOut (q : Port) (p : Phase) (w : U64) : (s.sleepUntil q p w).encOut = s.encOut := rfl
@[simp] theorem sleepUntil_rc (q : Port) (p : Phase) (w : U64) : (s.sleepUntil q p w).rc = s.rc := rfl
@[simp] theorem sleepUntil_tk (q : Port) (p : Phase) (w : U64) : (s.sleepUntil q p w).tk = s.tk := rfl
@[simp] theorem sleepUntil_tNow (q : Port) (p : Phase) (w : U64) : (s.sleepUntil q p w).tNow = s.tNow := rfl
@[simp] theorem sleepUntil_timeHi (q : Port) (p : Phase) (w : U64) : (s.sleepUntil q p w).timeHi = s.timeHi := rfl
@[simp] theorem sleepUntil_log (q : Port) (p : Phase) (w : U64) : (s.sleepUntil q p w).log = s.log := rfl
@[simp] theorem sleepUntil_colours (q : Port) (p : Phase) (w : U64) : (s.sleepUntil q p w).colours = s.colours := rfl
@[simp] theorem sleepUntil_cp (q : Port) (p : Phase) (w : U64) : (s.sleepUntil q p w).cp = s.cp := rfl
@[simp] theorem sleepUntil_out (q : Port) (p : Phase) (w : U64) : (s.sleepUntil q p w).out = s.out := rfl
@[simp] theorem sleepUntil_coproReady (q : Port) (p : Phase) (w : U64) : (s.sleepUntil q p w).coproReady = s.coproReady := rfl
@[simp] theorem sleepUntil_mem (q : Port) (p : Phase) (w : U64) : (s.sleepUntil q p w).mem = s.mem := rfl
@[simp] theorem sleepUntil_agenda (q : Port) (p : Phase) (w : U64) : (s.sleepUntil q p w).agenda = s.agenda := rfl
@[simp] theorem sleepUntil_pick (q : Port) (p : Phase) (w : U64) : (s.sleepUntil q p w).pick = s.pick := rfl
@[simp] theorem sleepUntil_freeIx (q : Port) (p : Phase) (w : U64) : (s.sleepUntil q p w).freeIx = s.freeIx := rfl
@[simp] theorem sleepUntil_issuer (q : Port) (p : Phase) (w : U64) : (s.sleepUntil q p w).issuer = s.issuer := rfl
@[simp] theorem sleepUntil_readData (q : Port) (p : Phase) (w : U64) : (s.sleepUntil q p w).readData = s.readData := rfl
@[simp] theorem sleepUntil_ready (q : Port) (p : Phase) (w : U64) : (s.sleepUntil q p w).ready = s.ready := rfl
@[simp] theorem sleepUntil_holds (q : Port) (p : Phase) (w : U64) (p' : Port) : (s.sleepUntil q p w).holds p' = s.holds p' := rfl
@[simp] theorem sleepUntil_waiting (q : Port) (p : Phase) (w : U64) (p' : Port) : (s.sleepUntil q p w).waiting p' = s.waiting p' := rfl
@[simp] theorem sleepUntil_portExists (q : Port) (p : Phase) (w : U64) (p' : Port) : (s.sleepUntil q p w).portExists p' = s.portExists p' := rfl
@[simp] theorem sleepUntil_base (q : Port) (p : Phase) (w : U64) (r' : Region) : (s.sleepUntil q p w).base r' = s.base r' := rfl
@[simp] theorem sleepUntil_cap (q : Port) (p : Phase) (w : U64) (r' : Region) : (s.sleepUntil q p w).cap r' = s.cap r' := rfl
@[simp] theorem sleepUntil_loadByte (q : Port) (p : Phase) (w : U64) (a' : Nat) : (s.sleepUntil q p w).loadByte a' = s.loadByte a' := rfl
@[simp] theorem sleepUntil_endAddr (q : Port) (p : Phase) (w : U64) (r' : Region) : (s.sleepUntil q p w).endAddr r' = s.endAddr r' := rfl
@[simp] theorem sleepUntil_nextAddr (q : Port) (p : Phase) (w : U64) (r' : Region) : (s.sleepUntil q p w).nextAddr r' = s.nextAddr r' := rfl
@[simp] theorem sleepUntil_usable (q : Port) (p : Phase) (w : U64) (r' : Region) (g' : Nat) : (s.sleepUntil q p w).usable r' g' = s.usable r' g' := rfl
@[simp] theorem sleepUntil_validate (q : Port) (p : Phase) (w : U64) (st' f' : Word) : (s.sleepUntil q p w).validate st' f' = s.validate st' f' := rfl
@[simp] theorem sleepUntil_isRunning (q : Port) (p : Phase) (w : U64) : (s.sleepUntil q p w).isRunning = s.isRunning := rfl
@[simp] theorem sleepUntil_cfgValid (q : Port) (p : Phase) (w : U64) : (s.sleepUntil q p w).cfgValid = s.cfgValid := rfl

/-! ### `hang` -/

@[simp] theorem hang_par : (s.hang).par = s.par := rfl
@[simp] theorem hang_cfg : (s.hang).cfg = s.cfg := rfl
@[simp] theorem hang_panel : (s.hang).panel = s.panel := rfl
@[simp] theorem hang_encOut : (s.hang).encOut = s.encOut := rfl
@[simp] theorem hang_rc : (s.hang).rc = s.rc := rfl
@[simp] theorem hang_tk : (s.hang).tk = s.tk := rfl
@[simp] theorem hang_ports : (s.hang).ports = s.ports := rfl
@[simp] theorem hang_tNow : (s.hang).tNow = s.tNow := rfl
@[simp] theorem hang_timeHi : (s.hang).timeHi = s.timeHi := rfl
@[simp] theorem hang_log : (s.hang).log = s.log := rfl
@[simp] theorem hang_colours : (s.hang).colours = s.colours := rfl
@[simp] theorem hang_out : (s.hang).out = s.out := rfl
@[simp] theorem hang_coproReady : (s.hang).coproReady = s.coproReady := rfl
@[simp] theorem hang_mem : (s.hang).mem = s.mem := rfl
@[simp] theorem hang_agenda : (s.hang).agenda = s.agenda := rfl
@[simp] theorem hang_pick : (s.hang).pick = s.pick := rfl
@[simp] theorem hang_freeIx : (s.hang).freeIx = s.freeIx := rfl
@[simp] theorem hang_issuer : (s.hang).issuer = s.issuer := rfl
@[simp] theorem hang_readData : (s.hang).readData = s.readData := rfl
@[simp] theorem hang_ready  : (s.hang).ready = s.ready := rfl
@[simp] theorem hang_holds (p' : Port) : (s.hang).holds p' = s.holds p' := rfl
@[simp] theorem hang_waiting (p' : Port) : (s.hang).waiting p' = s.waiting p' := rfl
@[simp] theorem hang_portExists (p' : Port) : (s.hang).portExists p' = s.portExists p' := rfl
@[simp] theorem hang_port (p' : Port) : (s.hang).port p' = s.port p' := rfl
@[simp] theorem hang_base (r' : Region) : (s.hang).base r' = s.base r' := rfl
@[simp] theorem hang_cap (r' : Region) : (s.hang).cap r' = s.cap r' := rfl
@[simp] theorem hang_loadByte (a' : Nat) : (s.hang).loadByte a' = s.loadByte a' := rfl
@[simp] theorem hang_endAddr (r' : Region) : (s.hang).endAddr r' = s.endAddr r' := rfl
@[simp] theorem hang_nextAddr (r' : Region) : (s.hang).nextAddr r' = s.nextAddr r' := rfl
@[simp] theorem hang_usable (r' : Region) (g' : Nat) : (s.hang).usable r' g' = s.usable r' g' := rfl
@[simp] theorem hang_validate (st' f' : Word) : (s.hang).validate st' f' = s.validate st' f' := rfl
@[simp] theorem hang_cfgValid  : (s.hang).cfgValid = s.cfgValid := rfl

/-! ### The port written and the others -/

@[simp] theorem setPort_port_same (q : Port) (p : PortState) : (s.setPort q p).port q = p := by
  simp [State.setPort, State.port, Vector.get_eq_getElem]

@[simp] theorem setPort_port_ne {q q' : Port} (p : PortState) (h : q' ≠ q) :
    (s.setPort q p).port q' = s.port q' := by
  have h' : q.val ≠ q'.val := fun e => h (Fin.ext e.symm)
  simp [State.setPort, State.port, Vector.get_eq_getElem, Vector.getElem_set_ne _ _ h']

@[simp] theorem setBlocked_port_same (q : Port) (b : Bool) :
    (s.setBlocked q b).port q = { s.port q with blocked := b } := setPort_port_same ..
@[simp] theorem setBlocked_port_ne {q q' : Port} (b : Bool) (h : q' ≠ q) :
    (s.setBlocked q b).port q' = s.port q' := setPort_port_ne _ _ h
@[simp] theorem setSeq_port_same (q : Port) (x : Seq) :
    (s.setSeq q x).port q = { s.port q with seq := x } := setPort_port_same ..
@[simp] theorem setSeq_port_ne {q q' : Port} (x : Seq) (h : q' ≠ q) :
    (s.setSeq q x).port q' = s.port q' := setPort_port_ne _ _ h
@[simp] theorem setPhase_port_same (q : Port) (p : Phase) :
    (s.setPhase q p).port q = { s.port q with seq := { (s.port q).seq with phase := p } } := setPort_port_same ..
@[simp] theorem setPhase_port_ne {q q' : Port} (p : Phase) (h : q' ≠ q) :
    (s.setPhase q p).port q' = s.port q' := setPort_port_ne _ _ h
@[simp] theorem complete_port_same (q : Port) (r : Result) :
    (s.complete q r).port q = (s.port q).completed r := setPort_port_same ..
@[simp] theorem complete_port_ne {q q' : Port} (r : Result) (h : q' ≠ q) :
    (s.complete q r).port q' = s.port q' := setPort_port_ne _ _ h
@[simp] theorem beginCommand_port_same (q : Port) (op : Byte) :
    (s.beginCommand q op).port q = { s.port q with busy := true, opcode := op } := setPort_port_same ..
@[simp] theorem beginCommand_port_ne {q q' : Port} (op : Byte) (h : q' ≠ q) :
    (s.beginCommand q op).port q' = s.port q' := setPort_port_ne _ _ h
@[simp] theorem recordLast_port_same (q : Port) (r : Result) :
    (s.recordLast q r).port q = { s.port q with blocked := false, seq := { (s.port q).seq with last := r } } := setPort_port_same ..
@[simp] theorem recordLast_port_ne {q q' : Port} (r : Result) (h : q' ≠ q) :
    (s.recordLast q r).port q' = s.port q' := setPort_port_ne _ _ h
@[simp] theorem sleepUntil_port_same (q : Port) (p : Phase) (w : U64) :
    (s.sleepUntil q p w).port q = { s.port q with
      blocked := decide (s.tNow.toNat < w.toNat)
      seq := { (s.port q).seq with phase := p, wake := w } } := setPort_port_same ..
@[simp] theorem sleepUntil_port_ne {q q' : Port} (p : Phase) (w : U64) (h : q' ≠ q) :
    (s.sleepUntil q p w).port q' = s.port q' := setPort_port_ne _ _ h

/-- Writing a port twice leaves the second value. -/
@[simp] theorem setPort_setPort (q : Port) (p p' : PortState) : (s.setPort q p).setPort q p' = s.setPort q p' := by
  simp [State.setPort]

/-- Writing the value a port has changes nothing. -/
@[simp] theorem setPort_self (q : Port) : s.setPort q (s.port q) = s := by
  simp [State.setPort, State.port, Vector.get_eq_getElem]

@[simp] theorem beginCommand_issuer (q : Port) (op : Byte) : (s.beginCommand q op).issuer = q := rfl

/-- FATAL leaves the port it keeps and cuts off the others. -/
theorem enterFatal_port (keep : Option Port) (q : Port) :
    (s.enterFatal keep).port q = if keep = some q then s.port q else (s.port q).cutOff := by
  simp [State.enterFatal, State.port, Vector.get_eq_getElem]

@[simp] theorem enterFatal_tk (keep : Option Port) : (s.enterFatal keep).tk = ⟨.idle, 0, 0⟩ := rfl

@[simp] theorem enterFatal_fatal (keep : Option Port) : (s.enterFatal keep).cfg = { s.cfg with fatal := true } := rfl

@[simp] theorem setRc_rc (x : Rc) : (s.setRc x).rc = x := rfl
@[simp] theorem setTk_tk (x : Tk) : (s.setTk x).tk = x := rfl
@[simp] theorem setCp_cp (x : Cp) : (s.setCp x).cp = x := rfl

@[simp] theorem logEvent_log (q : Option Port) (kind : LogKind) (a b : Word) :
    (s.logEvent q kind a b).log = s.log ++ [⟨s.tNow, q, kind, a, b⟩] := rfl

/-! ### A completed port -/

@[simp] theorem completed_result (p : PortState) (r : Result) : (p.completed r).result = r := rfl
@[simp] theorem completed_busy (p : PortState) (r : Result) : (p.completed r).busy = false := rfl
@[simp] theorem completed_blocked (p : PortState) (r : Result) : (p.completed r).blocked = false := rfl
@[simp] theorem completed_phase (p : PortState) (r : Result) : (p.completed r).seq.phase = .none := rfl
@[simp] theorem completed_kind (p : PortState) (r : Result) : (p.completed r).seq.kind = .none := rfl
@[simp] theorem completed_queued (p : PortState) (r : Result) : (p.completed r).seq.queued = false := rfl

theorem cutOff_busy (p : PortState) : p.cutOff.busy = false := by
  unfold PortState.cutOff
  split
  · rfl
  · simp_all

end Sys2Proof.Machine
end

