-- ==== Sys2Proof/Laws/Token.lean ====
section
/-! SUPPORT. The token: the waiting set, the draw, a grant, a release. -/

namespace Sys2Proof.Machine

/-! ### The waiting set -/

theorem portMask_getElem (q p : Port) : (portMask q)[p.val] = decide (p = q) := by
  revert q p
  decide +kernel

@[simp] theorem waiting_enqueue (s : State) (q p : Port) :
    (s.enqueue q).waiting p = (s.waiting p || decide (p = q)) := by
  simp [State.waiting, State.enqueue, portMask_getElem]

@[simp] theorem waiting_dequeue (s : State) (q p : Port) :
    (s.dequeue q).waiting p = (s.waiting p && !decide (p = q)) := by
  simp [State.waiting, State.dequeue, portMask_getElem]

theorem mem_waiters (s : State) (w : Port) : w ∈ s.waiters ↔ s.waiting w = true := by
  simp [State.waiters]

/-- Whoever is drawn is a waiter (`42_token_arbiter.md` R155). -/
theorem drawWaiter_waiting {s : State} {w : Port} (h : s.drawWaiter = some w) : s.waiting w = true :=
  (mem_waiters s w).1 (List.mem_of_getElem? h)

/-- Nobody is drawn exactly when nobody waits. -/
theorem drawWaiter_eq_none_iff (s : State) : s.drawWaiter = none ↔ ∀ q, s.waiting q = false := by
  constructor
  · intro h q
    rw [State.drawWaiter, List.getElem?_eq_none_iff] at h
    by_contra hq
    have hm : q ∈ s.waiters := (mem_waiters s q).2 (by simpa using hq)
    have hpos := List.length_pos_of_mem hm
    have := Nat.mod_lt s.pick hpos
    omega
  · intro h
    have : s.waiters = [] := by
      apply List.eq_nil_iff_forall_not_mem.2
      intro q hq
      exact absurd ((mem_waiters s q).1 hq) (by simp [h q])
    simp [State.drawWaiter, this]

/-- A waiter means somebody is drawn. -/
theorem drawWaiter_exists {s : State} {q : Port} (h : s.waiting q = true) : ∃ w, s.drawWaiter = some w := by
  cases hd : s.drawWaiter with
  | some w => exact ⟨w, rfl⟩
  | none => exact absurd ((drawWaiter_eq_none_iff s).1 hd q) (by simp [h])

/-- Every waiter can be drawn (`42_token_arbiter.md` R155). -/
theorem drawWaiter_any {s : State} {q : Port} (h : s.waiting q = true) :
    ∃ n, State.drawWaiter { s with pick := n } = some q := by
  obtain ⟨n, hn⟩ := List.getElem?_of_mem ((mem_waiters s q).2 h)
  have hlt : n < s.waiters.length := (List.getElem?_eq_some_iff.1 hn).1
  refine ⟨n, ?_⟩
  show s.waiters[n % s.waiters.length]? = some q
  rw [Nat.mod_eq_of_lt hlt, hn]

/-! ### A grant -/

/-- What a port becomes when its ACQUIRE's hold is lifted (log 10). -/
def grantedPort (p : PortState) : PortState :=
  if p.seq.kind = .none then p.completed .ok else { p with blocked := false }

@[simp] theorem grantedPort_blocked (p : PortState) : (grantedPort p).blocked = false := by
  unfold grantedPort; split <;> rfl

/-- Lifting the hold of port w writes port w and nothing else. -/
theorem resumeGranted_eq (s : State) (w : Port) : s.resumeGranted w = s.setPort w (grantedPort (s.port w)) := by
  unfold State.resumeGranted grantedPort
  split <;> rfl

/-- A grant is the token's new value and the granted port's. -/
theorem grantTo_eq (s : State) (w : Port) :
    s.grantTo w =
      (s.setTk ⟨.held, w, s.tk.wait &&& ~~~(portMask w)⟩).setPort w (grantedPort (s.port w)) := by
  unfold State.grantTo
  rw [resumeGranted_eq]
  rfl

@[simp] theorem grantTo_tk (s : State) (w : Port) :
    (s.grantTo w).tk = ⟨.held, w, s.tk.wait &&& ~~~(portMask w)⟩ := by rw [grantTo_eq]; rfl

@[simp] theorem grantTo_waiting (s : State) (w p : Port) :
    (s.grantTo w).waiting p = (s.waiting p && !decide (p = w)) := by
  simp [State.waiting, portMask_getElem]

@[simp] theorem grantTo_holds (s : State) (w p : Port) : (s.grantTo w).holds p = decide (p = w) := by
  simp [State.holds, eq_comm]

@[simp] theorem grantTo_port_same (s : State) (w : Port) : (s.grantTo w).port w = grantedPort (s.port w) := by
  rw [grantTo_eq, setPort_port_same]

@[simp] theorem grantTo_port_ne (s : State) {w p : Port} (h : p ≠ w) : (s.grantTo w).port p = s.port p := by
  rw [grantTo_eq, setPort_port_ne _ _ h]
  rfl

/-- A grant touches nothing but the token and the granted port. -/
theorem grantTo_rest (s : State) (w : Port) :
    s.grantTo w = { s with tk := (s.grantTo w).tk, ports := (s.grantTo w).ports } := by
  rw [grantTo_eq]
  rfl

@[simp] theorem grantTo_par (s : State) (w : Port) : (s.grantTo w).par = s.par := by rw [grantTo_rest]
@[simp] theorem grantTo_cfg (s : State) (w : Port) : (s.grantTo w).cfg = s.cfg := by rw [grantTo_rest]
@[simp] theorem grantTo_panel (s : State) (w : Port) : (s.grantTo w).panel = s.panel := by rw [grantTo_rest]
@[simp] theorem grantTo_encOut (s : State) (w : Port) : (s.grantTo w).encOut = s.encOut := by rw [grantTo_rest]
@[simp] theorem grantTo_rc (s : State) (w : Port) : (s.grantTo w).rc = s.rc := by rw [grantTo_rest]
@[simp] theorem grantTo_tNow (s : State) (w : Port) : (s.grantTo w).tNow = s.tNow := by rw [grantTo_rest]
@[simp] theorem grantTo_timeHi (s : State) (w : Port) : (s.grantTo w).timeHi = s.timeHi := by rw [grantTo_rest]
@[simp] theorem grantTo_log (s : State) (w : Port) : (s.grantTo w).log = s.log := by rw [grantTo_rest]
@[simp] theorem grantTo_colours (s : State) (w : Port) : (s.grantTo w).colours = s.colours := by rw [grantTo_rest]
@[simp] theorem grantTo_cp (s : State) (w : Port) : (s.grantTo w).cp = s.cp := by rw [grantTo_rest]
@[simp] theorem grantTo_out (s : State) (w : Port) : (s.grantTo w).out = s.out := by rw [grantTo_rest]
@[simp] theorem grantTo_coproReady (s : State) (w : Port) : (s.grantTo w).coproReady = s.coproReady := by rw [grantTo_rest]
@[simp] theorem grantTo_mem (s : State) (w : Port) : (s.grantTo w).mem = s.mem := by rw [grantTo_rest]
@[simp] theorem grantTo_agenda (s : State) (w : Port) : (s.grantTo w).agenda = s.agenda := by rw [grantTo_rest]
@[simp] theorem grantTo_pick (s : State) (w : Port) : (s.grantTo w).pick = s.pick := by rw [grantTo_rest]
@[simp] theorem grantTo_freeIx (s : State) (w : Port) : (s.grantTo w).freeIx = s.freeIx := by rw [grantTo_rest]
@[simp] theorem grantTo_issuer (s : State) (w : Port) : (s.grantTo w).issuer = s.issuer := by rw [grantTo_rest]
@[simp] theorem grantTo_readData (s : State) (w : Port) : (s.grantTo w).readData = s.readData := by rw [grantTo_rest]
@[simp] theorem grantTo_ready (s : State) (w : Port) :
    (s.grantTo w).ready = s.ready := by rw [grantTo_rest]; rfl
@[simp] theorem grantTo_portExists (s : State) (w : Port) (p' : Port) :
    (s.grantTo w).portExists p' = s.portExists p' := by rw [grantTo_rest]; rfl
@[simp] theorem grantTo_base (s : State) (w : Port) (r' : Region) :
    (s.grantTo w).base r' = s.base r' := by rw [grantTo_rest]; rfl
@[simp] theorem grantTo_cap (s : State) (w : Port) (r' : Region) :
    (s.grantTo w).cap r' = s.cap r' := by rw [grantTo_rest]; rfl
@[simp] theorem grantTo_loadByte (s : State) (w : Port) (a' : Nat) :
    (s.grantTo w).loadByte a' = s.loadByte a' := by rw [grantTo_rest]; rfl
@[simp] theorem grantTo_usable (s : State) (w : Port) (r' : Region) (g' : Nat) :
    (s.grantTo w).usable r' g' = s.usable r' g' := by rw [grantTo_rest]; rfl
@[simp] theorem grantTo_validate (s : State) (w : Port) (st' f' : Word) :
    (s.grantTo w).validate st' f' = s.validate st' f' := by rw [grantTo_rest]; rfl
@[simp] theorem grantTo_isRunning (s : State) (w : Port) :
    (s.grantTo w).isRunning = s.isRunning := by rw [grantTo_rest]; rfl
@[simp] theorem grantTo_endAddr (s : State) (w : Port) (r' : Region) :
    (s.grantTo w).endAddr r' = s.endAddr r' := by rw [grantTo_rest]; rfl
@[simp] theorem grantTo_nextAddr (s : State) (w : Port) (r' : Region) :
    (s.grantTo w).nextAddr r' = s.nextAddr r' := by rw [grantTo_rest]; rfl
@[simp] theorem grantTo_cfgValid (s : State) (w : Port) :
    (s.grantTo w).cfgValid = s.cfgValid := by rw [grantTo_rest]; rfl

/-! ### TRY_HANDOFF and RELEASE -/

/-- Everything the TRY_HANDOFF effect can do (`42_token_arbiter.md` R153). -/
theorem handoffFor_cases (s : State) (q : Port) :
    (s.holds q = false ∧ s.handoffFor q = (s, .eNotHolder)) ∨
    (s.holds q = true ∧ (∀ p, s.waiting p = false) ∧ s.handoffFor q = (s, .stillHeld)) ∨
    (s.holds q = true ∧ ∃ w, s.waiting w = true ∧ s.drawWaiter = some w ∧
      s.handoffFor q = (s.grantTo w, .preempted)) := by
  unfold State.handoffFor
  cases hh : s.holds q with
  | false => exact .inl ⟨rfl, by simp⟩
  | true =>
    refine .inr ?_
    cases hd : s.drawWaiter with
    | none => exact .inl ⟨rfl, (drawWaiter_eq_none_iff s).1 hd, by simp⟩
    | some w => exact .inr ⟨rfl, w, drawWaiter_waiting hd, rfl, by simp⟩

/-- Everything the RELEASE effect can do (`42_token_arbiter.md` R154). -/
theorem releaseFor_cases (s : State) (q : Port) :
    (s.holds q = false ∧ s.releaseFor q = (s, .eNotHolder)) ∨
    (s.holds q = true ∧ s.releaseFor q = (s.freeToken, .ok)) := by
  unfold State.releaseFor
  cases s.holds q <;> simp

end Sys2Proof.Machine
end

