-- ==== Sys2Proof/Laws/Completion.lean ====
section
/-! SUPPORT. What the shared operations keep, in the terms of `Safety.lean`: a completion, a port write, a grant; which port a datagram goes to. -/

namespace Sys2Proof.Machine

theorem onlyCompletes (s : State) (q : Port) (r : Result) : OnlyCompletes q r s (s.complete q r) := by
  refine ⟨⟨rfl, rfl, rfl⟩, ⟨rfl, rfl, rfl, rfl, rfl, rfl, rfl, rfl⟩, ⟨rfl, rfl, rfl, fun _ => rfl⟩, rfl, rfl,
      rfl, ?_, ?_⟩
  · intro p hp; simp [hp]
  · simp [CompletesWith]

theorem portFrame_setPort (s : State) (q : Port) (p : PortState) : PortFrame q s (s.setPort q p) :=
  ⟨⟨rfl, rfl, rfl⟩, ⟨rfl, rfl, rfl, rfl, rfl, rfl, rfl, rfl⟩, rfl, fun x hx => by simp [hx]⟩

theorem keepsRing_setPort (s : State) (q : Port) (p : PortState) : KeepsRing s (s.setPort q p) := ⟨rfl, rfl,
    rfl, fun _ => rfl⟩

theorem keepsInputs_grantTo (s : State) (w : Port) : KeepsInputs s (s.grantTo w) := by constructor <;> simp

theorem keepsConfig_grantTo (s : State) (w : Port) : KeepsConfig s (s.grantTo w) := by constructor <;> simp

theorem keepsRing_grantTo (s : State) (w : Port) : KeepsRing s (s.grantTo w) := ⟨by simp, by simp, by simp,
    fun _ => by simp⟩

theorem portFrame_grantTo (s : State) (w : Port) : PortFrame w s (s.grantTo w) :=
  ⟨keepsConfig_grantTo s w, keepsInputs_grantTo s w, by simp, fun p hp => grantTo_port_ne s hp⟩

theorem grantEnds_of {w : Port} {s t : State} (h : t.port w = grantedPort (s.port w)) : GrantEnds w s t := by
  constructor <;> intro hk <;> simp [CompletesWith, h, grantedPort, hk]

theorem atPhase_step {s : State} {q : Port} {k : Kind} {p : Phase} (h : AtPhase s q k p) :
    portStep q s = match k with | .none => .next s | .showCmd => showStep q s | .playCmd => playStep q s | .stopCmd => stopStep q s := by
  unfold portStep
  rw [h.exist, h.busy, Bool.and_self, if_pos rfl, h.kind]
  cases k <;> rfl

theorem portFrame_of {q : Port} {s t : State} (hp : t.par = s.par := by rfl) (hc : t.cfg = s.cfg := by rfl)
    (hpa : t.panel = s.panel := by rfl)
   (h1 : t.tNow = s.tNow := by rfl) (h2 : t.timeHi = s.timeHi := by rfl) (h3 : t.colours = s.colours := by rfl) (h4 : t.coproReady = s.coproReady := by rfl)
   (h5 : t.agenda = s.agenda := by rfl) (h6 : t.pick = s.pick := by rfl) (h7 : t.freeIx = s.freeIx := by rfl) (h8 : t.readData = s.readData := by rfl) (h9 : t.encOut = s.encOut := by rfl)
   (h : ∀ p, p ≠ q → t.port p = s.port p) : PortFrame q s t := ⟨⟨hp, hc, hpa⟩, ⟨h1,h2,h3,h4,h5,h6,h7,h8⟩, h9, h⟩

theorem startXfer_ok {s : State} {store frame : Word} {v : Frame} (q : Port) (hi : s.rc.state = .idle)
    (hv : s.validate store frame = .ok v) :
    s.startXfer q frame store = .started ((s.setRc (s.rc.load q store v)).setBlocked q true) := by
  simp [State.startXfer, hv, hi]

theorem fitU64_toNat {n : Nat} (h : n < 2 ^ 64) : (fitU64 n).toNat = n := by
  simp [fitU64] at *; rw [if_pos h]; simp; omega

theorem freePort_eq {s : State} {q : Port} (he : s.portExists q = true) (hb : (s.port q).busy = false)
    (hl : ∀ p, p < q → (s.port p).busy = true) : s.freePort = some q := by
  unfold State.freePort
  rw [List.find?_eq_some_iff_getElem]
  refine ⟨by simp [he, hb], q.val, by simp, by simp, ?_⟩
  intro j hj
  have := hl ⟨j, by omega⟩ (Fin.lt_def.2 (by simpa using hj))
  simp [this]

theorem freePort_none {s : State} (h : ∀ q, s.portExists q = true → (s.port q).busy = true) :
    s.freePort = none := by
  unfold State.freePort
  rw [List.find?_eq_none]
  intro q _
  by_cases he : s.portExists q = true
  · simp [h q he]
  · simp [he]

end Sys2Proof.Machine
end

