-- ==== Sys2Proof/Laws/Memory.lean ====
section
/-! SUPPORT. Region memory: read after write, the canonical form, little-endian words. -/

namespace Sys2Proof.Machine

/-! ### One byte -/

theorem read_write_same (m : Memory) (a : Nat) (b : Byte) : Memory.read (Memory.write m a b) a = some b := by
  induction m with
  | nil => simp [Memory.write, Memory.read]
  | cons c m ih =>
    obtain ⟨k, c⟩ := c
    unfold Memory.write
    split
    · simp [Memory.read]
    · split
      · simp [Memory.read]
      · next h => simp [Memory.read, Ne.symm h, ih]

theorem read_write_ne (m : Memory) {a a' : Nat} (b : Byte) (h : a' ≠ a) :
    Memory.read (Memory.write m a b) a' = Memory.read m a' := by
  induction m with
  | nil => simp [Memory.write, Memory.read, Ne.symm h]
  | cons c m ih =>
    obtain ⟨k, c⟩ := c
    unfold Memory.write
    split
    · simp [Memory.read, Ne.symm h]
    · split
      · next _ hk => subst hk; simp [Memory.read, Ne.symm h]
      · simp [Memory.read, ih]

/-! ### The canonical form -/

/-- Every address of a memory is above `k`. -/
def Memory.above (k : Nat) (m : Memory) : Prop := ∀ c ∈ m, k < c.1

theorem wf_cons_iff (k : Nat) (c : Byte) (m : Memory) :
    Memory.wf ((k, c) :: m) = true ↔ Memory.above k m ∧ Memory.wf m = true := by
  induction m generalizing k c with
  | nil => simp [Memory.wf, Memory.above]
  | cons d m ih =>
    obtain ⟨l, d⟩ := d
    have h := ih l d
    simp only [Memory.wf, Bool.and_eq_true, decide_eq_true_eq, Memory.above, List.mem_cons, forall_eq_or_imp]
    rw [h]
    constructor
    · rintro ⟨hkl, ha, hm⟩
      exact ⟨⟨hkl, fun x hx => lt_trans hkl (ha x hx)⟩, ha, hm⟩
    · rintro ⟨⟨hkl, -⟩, ha, hm⟩
      exact ⟨hkl, ha, hm⟩

theorem mem_write_fst {m : Memory} {a : Nat} {b : Byte} {c : Host.Cell} (h : c ∈ Memory.write m a b) :
    c.1 = a ∨ c ∈ m := by
  induction m with
  | nil => simp_all [Memory.write]
  | cons d m ih =>
    obtain ⟨k, d⟩ := d
    unfold Memory.write at h
    split at h
    · rcases List.mem_cons.1 h with rfl | h
      · exact .inl rfl
      · exact .inr h
    · split at h
      · rcases List.mem_cons.1 h with rfl | h
        · exact .inl rfl
        · exact .inr (List.mem_cons_of_mem _ h)
      · rcases List.mem_cons.1 h with rfl | h
        · exact .inr List.mem_cons_self
        · exact (ih h).imp id (List.mem_cons_of_mem _)

/-- A write keeps the canonical form. -/
theorem write_wf {m : Memory} (a : Nat) (b : Byte) (h : Memory.wf m = true) :
    Memory.wf (Memory.write m a b) = true := by
  induction m with
  | nil => simp [Memory.write, Memory.wf]
  | cons c m ih =>
    obtain ⟨k, c⟩ := c
    obtain ⟨hk, hm⟩ := (wf_cons_iff k c m).1 h
    unfold Memory.write
    split
    · next hlt =>
      exact (wf_cons_iff a b _).2 ⟨by
        intro x hx
        rcases List.mem_cons.1 hx with rfl | hx
        · exact hlt
        · exact lt_trans hlt (hk x hx), h⟩
    · split
      · next heq => subst heq; exact (wf_cons_iff a b m).2 ⟨hk, hm⟩
      · next hnlt hne =>
        refine (wf_cons_iff k c _).2 ⟨fun x hx => ?_, ih hm⟩
        rcases mem_write_fst hx with hxa | hx
        · omega
        · exact hk x hx

/-- Writing bytes keeps the canonical form. -/
theorem writeBytes_wf {m : Memory} (a : Nat) (bs : List Byte) (h : Memory.wf m = true) :
    Memory.wf (Memory.writeBytes m a bs) = true := by
  induction bs generalizing m a with
  | nil => exact h
  | cons b bs ih => exact ih (a + 1) (write_wf a b h)

theorem storeBytes_wf {s : State} (a : Nat) (bs : List Byte) (h : Memory.wf s.mem = true) :
    Memory.wf (s.storeBytes a bs).mem = true := writeBytes_wf a bs h

theorem memWrite_wf {s : State} (a n v : Nat) (h : Memory.wf s.mem = true) :
    Memory.wf (s.memWrite a n v).mem = true := writeBytes_wf a _ h

/-! ### Several bytes -/

theorem read_writeBytes_outside (m : Memory) (a : Nat) (bs : List Byte) (x : Nat)
    (h : x < a ∨ a + bs.length ≤ x) : Memory.read (Memory.writeBytes m a bs) x = Memory.read m x := by
  induction bs generalizing m a with
  | nil => rfl
  | cons b bs ih =>
    simp only [List.length_cons] at h
    rw [Memory.writeBytes, ih _ _ (by omega), read_write_ne _ _ (by omega)]

theorem read_writeBytes_inside (m : Memory) (a : Nat) (bs : List Byte) (i : Nat) (h : i < bs.length) :
    Memory.read (Memory.writeBytes m a bs) (a + i) = some bs[i] := by
  induction bs generalizing m a i with
  | nil => simp at h
  | cons b bs ih =>
    rw [Memory.writeBytes]
    cases i with
    | zero =>
      rw [read_writeBytes_outside _ _ _ _ (by omega), Nat.add_zero, read_write_same]
      rfl
    | succ i =>
      have := ih (Memory.write m a b) (a + 1) i (by simpa using h)
      rw [show a + (i + 1) = a + 1 + i by omega, this]
      rfl

/-- Bytes outside those stored read as before. -/
theorem loadByte_storeBytes_outside (s : State) (a : Nat) (bs : List Byte) (x : Nat)
    (h : x < a ∨ a + bs.length ≤ x) : (s.storeBytes a bs).loadByte x = s.loadByte x := by
  simp only [State.loadByte, State.storeBytes, read_writeBytes_outside _ _ _ _ h]

/-- A stored byte reads as stored. -/
theorem loadByte_storeBytes_inside (s : State) (a : Nat) (bs : List Byte) (i : Nat) (h : i < bs.length) :
    (s.storeBytes a bs).loadByte (a + i) = bs[i] := by
  simp only [State.loadByte, State.storeBytes, read_writeBytes_inside _ _ _ _ h, Option.getD_some]

@[simp] theorem leBytes_length (n v : Nat) : (leBytes n v).length = n := by
  induction n generalizing v with
  | zero => rfl
  | succ n ih => simp [leBytes, ih]

theorem loadByte_memWrite_outside (s : State) (a n v x : Nat) (h : x < a ∨ a + n ≤ x) :
    (s.memWrite a n v).loadByte x = s.loadByte x :=
  loadByte_storeBytes_outside s a _ x (by simpa using h)

/-- The low bytes of a number, read back, are the number (`20_memory.md` R54). -/
theorem leNat_leBytes (n v : Nat) : leNat (leBytes n v) = v % 256 ^ n := by
  induction n generalizing v with
  | zero => simp [leBytes, leNat, Nat.mod_one]
  | succ n ih =>
    have h : v % 256 ^ (n + 1) = v % 256 + 256 * (v / 256 % 256 ^ n) := by
      rw [show (256 : Nat) ^ (n + 1) = 256 * 256 ^ n from Nat.pow_succ', Nat.mod_mul]
    rw [h, leBytes, leNat, ih, BitVec.toNat_ofNat]

theorem loadBytes_memWrite_same (s : State) (a n v : Nat) : (s.memWrite a n v).loadBytes a n = leBytes n v := by
  apply List.ext_getElem
  · simp [State.loadBytes]
  · intro i h1 h2
    simp only [State.loadBytes, List.getElem_map, List.getElem_range]
    exact loadByte_storeBytes_inside s a _ i h2

/-- Reading a word just written. -/
theorem memRead_memWrite_same (s : State) (a n v : Nat) (h : v < 256 ^ n) : (s.memWrite a n v).memRead a n = v := by
  rw [State.memRead, loadBytes_memWrite_same, leNat_leBytes, Nat.mod_eq_of_lt h]

/-- Two memories that agree on an interval give the same bytes there. -/
theorem loadBytes_congr {s t : State} {a n : Nat} (h : ∀ i, i < n → t.loadByte (a + i) = s.loadByte (a + i)) :
    t.loadBytes a n = s.loadBytes a n := by
  apply List.map_congr_left
  intro i hi
  exact h i (List.mem_range.1 hi)

theorem memRead_congr {s t : State} {a n : Nat} (h : ∀ i, i < n → t.loadByte (a + i) = s.loadByte (a + i)) :
    t.memRead a n = s.memRead a n := by
  rw [State.memRead, State.memRead, loadBytes_congr h]

theorem memRead_memWrite_outside (s : State) (a n v a' n' : Nat) (h : a' + n' ≤ a ∨ a + n ≤ a') :
    (s.memWrite a n v).memRead a' n' = s.memRead a' n' :=
  memRead_congr fun i hi => loadByte_memWrite_outside s a n v _ (by omega)

theorem memRead_storeBytes_outside (s : State) (a : Nat) (bs : List Byte) (a' n' : Nat)
    (h : a' + n' ≤ a ∨ a + bs.length ≤ a') : (s.storeBytes a bs).memRead a' n' = s.memRead a' n' :=
  memRead_congr fun i hi => loadByte_storeBytes_outside s a bs _ (by omega)

/-! ### The regions (`20_memory.md` R52) -/

/-- What legal parameters say of one region. -/
theorem region_of_paramsOk {s : State} (h : paramsOk s.par = true) (r : Region) :
    s.base r % 4 = 0 ∧ 8 ≤ s.cap r ∧ s.base r + s.cap r ≤ 2 ^ 32 ∧ s.base r ≠ 0 := by
  simp only [paramsOk, paramChecks, List.all_cons, List.all_nil, id, Bool.and_eq_true] at h
  obtain ⟨-, -, -, h0, h1, h2, -⟩ := h
  have key : ∀ x : RegionParam, regionOk x = true →
      x.base.toNat % 4 = 0 ∧ 8 ≤ x.cap.toNat ∧ x.base.toNat + x.cap.toNat ≤ 2 ^ 32 ∧ x.base.toNat ≠ 0 := by
    intro x hx
    simpa [regionOk, and_assoc] using hx
  fin_cases r
  · exact key _ h0
  · exact key _ h1
  · exact key _ h2

/-- Two different regions do not overlap. -/
theorem regions_apart {s : State} (h : paramsOk s.par = true) {r r' : Region} (hne : r ≠ r') :
    s.base r + s.cap r ≤ s.base r' ∨ s.base r' + s.cap r' ≤ s.base r := by
  simp only [paramsOk, paramChecks, List.all_cons, List.all_nil, id, Bool.and_eq_true] at h
  obtain ⟨-, -, -, -, -, -, h01, h02, h12, -⟩ := h
  have key : ∀ x y : RegionParam, regionsDisjoint x y = true →
      x.base.toNat + x.cap.toNat ≤ y.base.toNat ∨ y.base.toNat + y.cap.toNat ≤ x.base.toNat := by
    intro x y hx
    simpa [regionsDisjoint] using hx
  fin_cases r <;> fin_cases r' <;> first
    | exact absurd rfl hne
    | exact key _ _ h01
    | exact key _ _ h02
    | exact key _ _ h12
    | exact (key _ _ h01).symm
    | exact (key _ _ h02).symm
    | exact (key _ _ h12).symm

/-- The hardware's channel count is one of the six legal ones, and there are at most 32 ports. -/
theorem channels_of_paramsOk {p : Params} (h : paramsOk p = true) : p.hwChannels ∈ legalChannels := by
  simp only [paramsOk, paramChecks, List.all_cons, id, Bool.and_eq_true] at h
  simpa [List.contains_iff_mem] using h.1

theorem ports_of_paramsOk {p : Params} (h : paramsOk p = true) : 2 ≤ p.nreq ∧ p.nreq ≤ 32 := by
  simp only [paramsOk, paramChecks, List.all_cons, id, Bool.and_eq_true, decide_eq_true_eq] at h
  exact ⟨h.2.1, h.2.2.1⟩

/-- The hardware's group size: 1 to 6 bytes, and 8 channels each. -/
theorem group_of_paramsOk {p : Params} (h : paramsOk p = true) :
    1 ≤ p.hwChannels / 8 ∧ p.hwChannels / 8 ≤ 6 ∧ p.hwChannels = 8 * (p.hwChannels / 8) := by
  have h := channels_of_paramsOk h
  simp only [legalChannels, List.mem_cons, List.not_mem_nil, or_false] at h
  omega

/-- A store's offsets are u32 (log 25). -/
theorem store_of_paramsOk {p : Params} (h : paramsOk p = true) {f : Store} (hf : f ∈ p.stores) :
    f.bytes.length ≤ 2 ^ 32 := by
  simp only [paramsOk, paramChecks, List.all_cons, List.all_nil, id, Bool.and_eq_true, Bool.and_true] at h
  have h := h.2.2.2.2.2.2.2.2.2.2.2.2.2
  simpa using (List.all_eq_true.1 h) f hf

end Sys2Proof.Machine
end

