-- ==== Sys2Proof/Laws/Ring.lean ====
section
/-! SUPPORT. The ring controller: what validation found, how a region is filled, what SETUP writes. -/

namespace Sys2Proof.Machine

/-! ### Sizing -/

/-- The usable bytes of a region are whole LEDs (`41_ring_controller.md` R123). -/
theorem usableBytes_mod (cap g : Nat) : usableBytes cap g % (24 * g) = 0 := by
  unfold usableBytes
  rw [Nat.mul_assoc]
  exact Nat.mul_mod_left _ _

/-- They fit behind the header. -/
theorem usableBytes_le (cap g : Nat) : usableBytes cap g ≤ cap - 8 := by
  unfold usableBytes
  calc (cap - 8) / g / 24 * 24 * g ≤ (cap - 8) / g * g := Nat.mul_le_mul_right _ (Nat.div_mul_le_self _ _)
    _ ≤ cap - 8 := Nat.div_mul_le_self _ _

/-- A multiple of `k` that is positive is at least `k`. -/
theorem le_of_mod_eq_zero {a k : Nat} (h : a % k = 0) (hpos : 0 < a) : k ≤ a := Nat.le_of_dvd hpos (Nat.dvd_of_mod_eq_zero h)

/-! ### Validation -/

/-- What an accepted frame is (`41_ring_controller.md` R121): the store, its header, and the frame inside it. -/
theorem validate_ok {s : State} {store frame : Word} {v : Frame} (h : s.validate store frame = .ok v) :
    ∃ f, s.par.stores[store.toNat]? = some f ∧
      v.nc = s.par.hwChannels ∧ v.nc = fsWord f 0 ∧ v.nl = fsWord f 4 ∧ v.nl ≠ 0 ∧
      v.nc * v.nl * 3 ≤ 2 ^ 32 - 1 ∧
      f.bytes.length = headerSize f.variant + frameCount f * (v.nc * v.nl * 3) ∧
      frame.toNat < frameCount f ∧
      (∀ r, s.usable r (v.nc / 8) ≠ 0) ∧
      v.offset = headerSize f.variant + frame.toNat * (v.nc * v.nl * 3) := by
  unfold State.validate at h
  split at h
  · cases h
  · next f hf =>
    split_ifs at h with h1 h2 h3 h4 h5 h6
    cases h
    refine ⟨f, hf, not_not.1 h2, rfl, rfl, fun e => h3 (.inl e), by
      exact not_lt.1 (not_or.1 h3).2, not_not.1 h4, not_le.1 h5, ?_, rfl⟩
    intro r hr
    refine h6 (List.any_eq_true.2 ⟨r, List.mem_finRange r, by simpa using hr⟩)

/-- An accepted frame lies inside its store. -/
theorem validate_inStore {s : State} {store frame : Word} {v : Frame} (h : s.validate store frame = .ok v) :
    ∃ f, s.par.stores[store.toNat]? = some f ∧ v.offset + v.nc * v.nl * 3 ≤ f.bytes.length := by
  obtain ⟨f, hf, -, -, -, -, -, hlen, hfr, -, hoff⟩ := validate_ok h
  refine ⟨f, hf, ?_⟩
  rw [hlen, hoff]
  have : (frame.toNat + 1) * (v.nc * v.nl * 3) ≤ frameCount f * (v.nc * v.nl * 3) := Nat.mul_le_mul_right _ hfr
  rw [Nat.succ_mul] at this
  omega

/-- Everything the XFER effect can do (`41_ring_controller.md` R120). -/
theorem startXfer_cases (s : State) (q : Port) (frame store : Word) :
    (∃ e, s.validate store frame = .error e ∧
      s.startXfer q frame store = .failed e (s.setRc { s.rc with result := e, flags := Flags.clear })) ∨
    (∃ v, s.validate store frame = .ok v ∧ s.rc.state ≠ .idle ∧ s.startXfer q frame store = .reentry) ∨
    (∃ v, s.validate store frame = .ok v ∧ s.rc.state = .idle ∧
      s.startXfer q frame store = .started ((s.setRc (s.rc.load q store v)).setBlocked q true)) := by
  unfold State.startXfer
  cases hv : s.validate store frame with
  | error e => exact .inl ⟨e, rfl, rfl⟩
  | ok v =>
    refine .inr ?_
    by_cases hs : s.rc.state = .idle
    · exact .inr ⟨v, rfl, hs, by simp [hs]⟩
    · exact .inl ⟨v, rfl, hs, by simp [hs]⟩

/-! ### FillRegion (`41_ring_controller.md` R124) -/

/-- The bytes copied: that many, from that place of the running store. -/
theorem fillBytes_some {s : State} {r : Region} {bs : List Byte} (h : s.fillBytes r = some bs) :
    ∃ f, s.par.stores[s.rc.store.toNat]? = some f ∧ bs.length = s.fillCount r ∧
      bs = (f.bytes.drop (s.rc.src.toNat + s.rc.cursor.toNat)).take (s.fillCount r) := by
  unfold State.fillBytes at h
  split at h
  · cases h
  · next f hf =>
    unfold fsSlice at h
    split at h
    · next hlen => cases h; exact ⟨f, hf, hlen, rfl⟩
    · cases h

/-- FillRegion is defined when the rest of the payload lies inside the store. -/
theorem fillBytes_isSome {s : State} {r : Region} {f : Store} (hf : s.par.stores[s.rc.store.toNat]? = some f)
    (hin : s.rc.src.toNat + s.rc.total.toNat ≤ f.bytes.length) (hcur : s.rc.cursor.toNat ≤ s.rc.total.toNat) :
    ∃ bs, s.fillBytes r = some bs := by
  have hlen : ((f.bytes.drop (s.rc.src.toNat + s.rc.cursor.toNat)).take (s.fillCount r)).length = s.fillCount r := by
    have : s.fillCount r ≤ s.rc.total.toNat - s.rc.cursor.toNat := Nat.min_le_right _ _
    rw [List.length_take, List.length_drop]
    omega
  refine ⟨(f.bytes.drop (s.rc.src.toNat + s.rc.cursor.toNat)).take (s.fillCount r), ?_⟩
  unfold State.fillBytes fsSlice
  simp only [hf, hlen, if_true]

/-- FillRegion writes region memory and the cursor, nothing else. -/
theorem fillWith_eq (s : State) (r : Region) (bs : List Byte) :
    s.fillWith r bs =
      { s with
        mem := (s.fillWith r bs).mem
        rc := { s.rc with cursor := BitVec.ofNat 32 (s.rc.cursor.toNat + bs.length) } } := rfl

/-- Bytes outside the header word and the payload written read as before. -/
theorem fillWith_loadByte_outside (s : State) (r : Region) (bs : List Byte) (a : Nat)
    (h : a < s.base r ∨ s.base r + 8 + bs.length ≤ a ∨ (s.base r + 4 ≤ a ∧ a < s.base r + 8)) :
    (s.fillWith r bs).loadByte a = s.loadByte a := by
  show ((s.storeBytes (s.base r + 8) bs).memWrite (s.base r) 4 _).loadByte a = _
  rw [loadByte_memWrite_outside _ _ _ _ _ (by omega), loadByte_storeBytes_outside _ _ _ _ (by omega)]

@[simp] theorem fillWith_par (s : State) (r : Region) (bs : List Byte) : (s.fillWith r bs).par = s.par := by rw [fillWith_eq]
@[simp] theorem fillWith_cfg (s : State) (r : Region) (bs : List Byte) : (s.fillWith r bs).cfg = s.cfg := by rw [fillWith_eq]
@[simp] theorem fillWith_panel (s : State) (r : Region) (bs : List Byte) : (s.fillWith r bs).panel = s.panel := by rw [fillWith_eq]
@[simp] theorem fillWith_encOut (s : State) (r : Region) (bs : List Byte) : (s.fillWith r bs).encOut = s.encOut := by rw [fillWith_eq]
@[simp] theorem fillWith_tk (s : State) (r : Region) (bs : List Byte) : (s.fillWith r bs).tk = s.tk := by rw [fillWith_eq]
@[simp] theorem fillWith_ports (s : State) (r : Region) (bs : List Byte) : (s.fillWith r bs).ports = s.ports := by rw [fillWith_eq]
@[simp] theorem fillWith_tNow (s : State) (r : Region) (bs : List Byte) : (s.fillWith r bs).tNow = s.tNow := by rw [fillWith_eq]
@[simp] theorem fillWith_timeHi (s : State) (r : Region) (bs : List Byte) : (s.fillWith r bs).timeHi = s.timeHi := by rw [fillWith_eq]
@[simp] theorem fillWith_log (s : State) (r : Region) (bs : List Byte) : (s.fillWith r bs).log = s.log := by rw [fillWith_eq]
@[simp] theorem fillWith_colours (s : State) (r : Region) (bs : List Byte) : (s.fillWith r bs).colours = s.colours := by rw [fillWith_eq]
@[simp] theorem fillWith_cp (s : State) (r : Region) (bs : List Byte) : (s.fillWith r bs).cp = s.cp := by rw [fillWith_eq]
@[simp] theorem fillWith_out (s : State) (r : Region) (bs : List Byte) : (s.fillWith r bs).out = s.out := by rw [fillWith_eq]
@[simp] theorem fillWith_coproReady (s : State) (r : Region) (bs : List Byte) : (s.fillWith r bs).coproReady = s.coproReady := by rw [fillWith_eq]
@[simp] theorem fillWith_agenda (s : State) (r : Region) (bs : List Byte) : (s.fillWith r bs).agenda = s.agenda := by rw [fillWith_eq]
@[simp] theorem fillWith_pick (s : State) (r : Region) (bs : List Byte) : (s.fillWith r bs).pick = s.pick := by rw [fillWith_eq]
@[simp] theorem fillWith_freeIx (s : State) (r : Region) (bs : List Byte) : (s.fillWith r bs).freeIx = s.freeIx := by rw [fillWith_eq]
@[simp] theorem fillWith_issuer (s : State) (r : Region) (bs : List Byte) : (s.fillWith r bs).issuer = s.issuer := by rw [fillWith_eq]
@[simp] theorem fillWith_readData (s : State) (r : Region) (bs : List Byte) : (s.fillWith r bs).readData = s.readData := by rw [fillWith_eq]
@[simp] theorem fillWith_ready (s : State) (r : Region) (bs : List Byte) : (s.fillWith r bs).ready = s.ready := by rw [fillWith_eq]; rfl
@[simp] theorem fillWith_holds (s : State) (r : Region) (bs : List Byte) (p' : Port) : (s.fillWith r bs).holds p' = s.holds p' := by rw [fillWith_eq]; rfl
@[simp] theorem fillWith_waiting (s : State) (r : Region) (bs : List Byte) (p' : Port) : (s.fillWith r bs).waiting p' = s.waiting p' := by rw [fillWith_eq]; rfl
@[simp] theorem fillWith_portExists (s : State) (r : Region) (bs : List Byte) (p' : Port) : (s.fillWith r bs).portExists p' = s.portExists p' := by rw [fillWith_eq]; rfl
@[simp] theorem fillWith_port (s : State) (r : Region) (bs : List Byte) (p' : Port) : (s.fillWith r bs).port p' = s.port p' := by rw [fillWith_eq]; rfl
@[simp] theorem fillWith_base (s : State) (r : Region) (bs : List Byte) (r' : Region) : (s.fillWith r bs).base r' = s.base r' := by rw [fillWith_eq]; rfl
@[simp] theorem fillWith_cap (s : State) (r : Region) (bs : List Byte) (r' : Region) : (s.fillWith r bs).cap r' = s.cap r' := by rw [fillWith_eq]; rfl
@[simp] theorem fillWith_isRunning (s : State) (r : Region) (bs : List Byte) : (s.fillWith r bs).isRunning = s.isRunning := by rw [fillWith_eq]; rfl

/-- The payload bytes are copied unchanged, in order. -/
theorem fillWith_loadByte_payload (s : State) (r : Region) (bs : List Byte) (i : Nat) (h : i < bs.length) :
    (s.fillWith r bs).loadByte (s.base r + 8 + i) = bs[i] := by
  show ((s.storeBytes (s.base r + 8) bs).memWrite (s.base r) 4 _).loadByte _ = _
  rw [loadByte_memWrite_outside _ _ _ _ _ (by omega), loadByte_storeBytes_inside _ _ _ _ h]

/-- The `end_addr` written. -/
theorem fillWith_endAddr (s : State) (r : Region) (bs : List Byte)
    (h : s.base r + 8 + bs.length - s.rc.g.toNat < 2 ^ 32) :
    (s.fillWith r bs).endAddr r = s.base r + 8 + bs.length - s.rc.g.toNat := by
  show ((s.storeBytes (s.base r + 8) bs).memWrite (s.base r) 4 _).memRead (s.base r) 4 = _
  exact memRead_memWrite_same _ _ _ _ (by simpa using h)

/-! ### SETUP (`41_ring_controller.md` R126) -/

theorem setupRegion_eq (s : State) (r : Region) : s.setupRegion r = { s with mem := (s.setupRegion r).mem } := rfl

@[simp] theorem setupRegion_par (s : State) (r : Region) : (s.setupRegion r).par = s.par := by rw [setupRegion_eq]
@[simp] theorem setupRegion_cfg (s : State) (r : Region) : (s.setupRegion r).cfg = s.cfg := by rw [setupRegion_eq]
@[simp] theorem setupRegion_panel (s : State) (r : Region) : (s.setupRegion r).panel = s.panel := by rw [setupRegion_eq]
@[simp] theorem setupRegion_encOut (s : State) (r : Region) : (s.setupRegion r).encOut = s.encOut := by rw [setupRegion_eq]
@[simp] theorem setupRegion_rc (s : State) (r : Region) : (s.setupRegion r).rc = s.rc := by rw [setupRegion_eq]
@[simp] theorem setupRegion_tk (s : State) (r : Region) : (s.setupRegion r).tk = s.tk := by rw [setupRegion_eq]
@[simp] theorem setupRegion_ports (s : State) (r : Region) : (s.setupRegion r).ports = s.ports := by rw [setupRegion_eq]
@[simp] theorem setupRegion_tNow (s : State) (r : Region) : (s.setupRegion r).tNow = s.tNow := by rw [setupRegion_eq]
@[simp] theorem setupRegion_timeHi (s : State) (r : Region) : (s.setupRegion r).timeHi = s.timeHi := by rw [setupRegion_eq]
@[simp] theorem setupRegion_log (s : State) (r : Region) : (s.setupRegion r).log = s.log := by rw [setupRegion_eq]
@[simp] theorem setupRegion_colours (s : State) (r : Region) : (s.setupRegion r).colours = s.colours := by rw [setupRegion_eq]
@[simp] theorem setupRegion_cp (s : State) (r : Region) : (s.setupRegion r).cp = s.cp := by rw [setupRegion_eq]
@[simp] theorem setupRegion_out (s : State) (r : Region) : (s.setupRegion r).out = s.out := by rw [setupRegion_eq]
@[simp] theorem setupRegion_coproReady (s : State) (r : Region) : (s.setupRegion r).coproReady = s.coproReady := by rw [setupRegion_eq]
@[simp] theorem setupRegion_agenda (s : State) (r : Region) : (s.setupRegion r).agenda = s.agenda := by rw [setupRegion_eq]
@[simp] theorem setupRegion_pick (s : State) (r : Region) : (s.setupRegion r).pick = s.pick := by rw [setupRegion_eq]
@[simp] theorem setupRegion_freeIx (s : State) (r : Region) : (s.setupRegion r).freeIx = s.freeIx := by rw [setupRegion_eq]
@[simp] theorem setupRegion_issuer (s : State) (r : Region) : (s.setupRegion r).issuer = s.issuer := by rw [setupRegion_eq]
@[simp] theorem setupRegion_readData (s : State) (r : Region) : (s.setupRegion r).readData = s.readData := by rw [setupRegion_eq]
@[simp] theorem setupRegion_ready (s : State) (r : Region) : (s.setupRegion r).ready = s.ready := by rw [setupRegion_eq]; rfl
@[simp] theorem setupRegion_holds (s : State) (r : Region) (p' : Port) : (s.setupRegion r).holds p' = s.holds p' := by rw [setupRegion_eq]; rfl
@[simp] theorem setupRegion_waiting (s : State) (r : Region) (p' : Port) : (s.setupRegion r).waiting p' = s.waiting p' := by rw [setupRegion_eq]; rfl
@[simp] theorem setupRegion_portExists (s : State) (r : Region) (p' : Port) : (s.setupRegion r).portExists p' = s.portExists p' := by rw [setupRegion_eq]; rfl
@[simp] theorem setupRegion_port (s : State) (r : Region) (p' : Port) : (s.setupRegion r).port p' = s.port p' := by rw [setupRegion_eq]; rfl
@[simp] theorem setupRegion_base (s : State) (r : Region) (r' : Region) : (s.setupRegion r).base r' = s.base r' := by rw [setupRegion_eq]; rfl
@[simp] theorem setupRegion_cap (s : State) (r : Region) (r' : Region) : (s.setupRegion r).cap r' = s.cap r' := by rw [setupRegion_eq]; rfl
@[simp] theorem setupRegion_isRunning (s : State) (r : Region) : (s.setupRegion r).isRunning = s.isRunning := by rw [setupRegion_eq]; rfl

theorem setupRegion_loadByte_outside (s : State) (r : Region) (a : Nat) (h : a < s.base r ∨ s.base r + 8 ≤ a) :
    (s.setupRegion r).loadByte a = s.loadByte a := by
  unfold State.setupRegion
  rw [loadByte_memWrite_outside _ _ _ _ _ (by omega), loadByte_memWrite_outside _ _ _ _ _ (by omega)]

theorem setupRegion_endAddr (s : State) (r : Region) : (s.setupRegion r).endAddr r = 0 := by
  show ((s.memWrite (s.base r) 4 0).memWrite (s.base r + 4) 4 _).memRead (s.base r) 4 = 0
  rw [memRead_memWrite_outside _ _ _ _ _ _ (by omega), memRead_memWrite_same _ _ _ _ (by norm_num)]

theorem setupRegion_nextAddr (s : State) (r : Region) : (s.setupRegion r).nextAddr r = s.base (r + 1) := by
  show ((s.memWrite (s.base r) 4 0).memWrite (s.base r + 4) 4 _).memRead (s.base r + 4) 4 = _
  refine memRead_memWrite_same _ _ _ _ ?_
  have : s.base (r + 1) < 2 ^ 32 := (s.par.regions.get (r + 1)).base.isLt
  simpa using this

/-- SETUP is the three regions' headers and RC's next state. -/
theorem ringSetup_eq (s : State) :
    ringSetup s =
      (((s.setupRegion 0).setupRegion 1).setupRegion 2).setRc { s.rc with fillIdx := 0, state := .fill } := rfl

@[simp] theorem ringSetup_par (s : State) : (ringSetup s).par = s.par := by simp [ringSetup_eq]
@[simp] theorem ringSetup_cfg (s : State) : (ringSetup s).cfg = s.cfg := by simp [ringSetup_eq]
@[simp] theorem ringSetup_panel (s : State) : (ringSetup s).panel = s.panel := by simp [ringSetup_eq]
@[simp] theorem ringSetup_encOut (s : State) : (ringSetup s).encOut = s.encOut := by simp [ringSetup_eq]
@[simp] theorem ringSetup_tk (s : State) : (ringSetup s).tk = s.tk := by simp [ringSetup_eq]
@[simp] theorem ringSetup_ports (s : State) : (ringSetup s).ports = s.ports := by simp [ringSetup_eq]
@[simp] theorem ringSetup_tNow (s : State) : (ringSetup s).tNow = s.tNow := by simp [ringSetup_eq]
@[simp] theorem ringSetup_timeHi (s : State) : (ringSetup s).timeHi = s.timeHi := by simp [ringSetup_eq]
@[simp] theorem ringSetup_log (s : State) : (ringSetup s).log = s.log := by simp [ringSetup_eq]
@[simp] theorem ringSetup_colours (s : State) : (ringSetup s).colours = s.colours := by simp [ringSetup_eq]
@[simp] theorem ringSetup_cp (s : State) : (ringSetup s).cp = s.cp := by simp [ringSetup_eq]
@[simp] theorem ringSetup_out (s : State) : (ringSetup s).out = s.out := by simp [ringSetup_eq]
@[simp] theorem ringSetup_coproReady (s : State) : (ringSetup s).coproReady = s.coproReady := by simp [ringSetup_eq]
@[simp] theorem ringSetup_agenda (s : State) : (ringSetup s).agenda = s.agenda := by simp [ringSetup_eq]
@[simp] theorem ringSetup_pick (s : State) : (ringSetup s).pick = s.pick := by simp [ringSetup_eq]
@[simp] theorem ringSetup_freeIx (s : State) : (ringSetup s).freeIx = s.freeIx := by simp [ringSetup_eq]
@[simp] theorem ringSetup_issuer (s : State) : (ringSetup s).issuer = s.issuer := by simp [ringSetup_eq]
@[simp] theorem ringSetup_readData (s : State) : (ringSetup s).readData = s.readData := by simp [ringSetup_eq]
@[simp] theorem ringSetup_ready (s : State) : (ringSetup s).ready = s.ready := by simp [ringSetup_eq]
@[simp] theorem ringSetup_holds (s : State) (p' : Port) : (ringSetup s).holds p' = s.holds p' := by simp [ringSetup_eq]
@[simp] theorem ringSetup_waiting (s : State) (p' : Port) : (ringSetup s).waiting p' = s.waiting p' := by simp [ringSetup_eq]
@[simp] theorem ringSetup_portExists (s : State) (p' : Port) : (ringSetup s).portExists p' = s.portExists p' := by simp [ringSetup_eq]
@[simp] theorem ringSetup_port (s : State) (p' : Port) : (ringSetup s).port p' = s.port p' := by simp [ringSetup_eq]
@[simp] theorem ringSetup_base (s : State) (r' : Region) : (ringSetup s).base r' = s.base r' := by simp [ringSetup_eq]
@[simp] theorem ringSetup_cap (s : State) (r' : Region) : (ringSetup s).cap r' = s.cap r' := by simp [ringSetup_eq]
@[simp] theorem ringSetup_isRunning (s : State) : (ringSetup s).isRunning = s.isRunning := by simp [ringSetup_eq]
@[simp] theorem ringSetup_rc (s : State) : (ringSetup s).rc = { s.rc with fillIdx := 0, state := .fill } := by simp [ringSetup_eq]

/-! ### One step of RC -/

/-- Everything one step of RC can do (`41_ring_controller.md` R125-R132). -/
theorem ringStep_cases {s t : State} (h : ringStep s = .next t) :
    (s.rc.state = .idle ∧ t = s) ∨
    (s.rc.state = .setup ∧ t = ringSetup s) ∨
    (s.rc.state = .fill ∧ t = ringFillDone s) ∨
    (s.rc.state = .fill ∧ s.rc.cursor.toNat < s.rc.total.toNat ∧ ∃ r bs, fillTarget s.rc.fillIdx = some r ∧
      s.fillBytes r = some bs ∧
      t = (s.fillWith r bs).setRc { (s.fillWith r bs).rc with fillIdx := s.rc.fillIdx + 1 }) ∨
    (s.rc.state = .start ∧ t = ringStart s) ∨
    (s.rc.state = .drain ∧ (s.isRunning && s.underDeadline) = false ∧
      t = s.setRc { s.rc with state := .check }) ∨
    (s.rc.state = .drain ∧ (s.isRunning && s.underDeadline) = true ∧ s.rc.cursor.toNat < s.rc.total.toNat ∧
      s.endAddr s.rc.cur = 0 ∧ ∃ bs, s.fillBytes s.rc.cur = some bs ∧
      t = (s.fillWith s.rc.cur bs).setRc { (s.fillWith s.rc.cur bs).rc with cur := s.rc.cur + 1 }) ∨
    (s.rc.state = .drain ∧ (s.isRunning && s.underDeadline) = true ∧ t = ringSleepNow s) ∨
    (s.rc.state = .sleep ∧ s.tNow.toNat < s.rc.wake.toNat ∧ t = s) ∨
    (s.rc.state = .sleep ∧ s.rc.wake.toNat ≤ s.tNow.toNat ∧ t = s.setRc { s.rc with state := .drain }) ∨
    (s.rc.state = .check ∧ t = ringCheck s) := by
  unfold ringStep at h
  split at h <;> rename_i hst
  · cases h; exact .inl ⟨hst, rfl⟩
  · cases h; exact .inr (.inl ⟨hst, rfl⟩)
  · unfold ringFill at h
    split at h
    · cases h; exact .inr (.inr (.inl ⟨hst, rfl⟩))
    · next r hr =>
      split at h
      · next hc =>
        split at h
        · next s' hs' =>
          cases h
          obtain ⟨bs, hbs, rfl⟩ := Option.map_eq_some_iff.1 hs'
          exact .inr (.inr (.inr (.inl ⟨hst, hc, r, bs, hr, hbs, rfl⟩)))
        · cases h
      · cases h; exact .inr (.inr (.inl ⟨hst, rfl⟩))
  · cases h; exact .inr (.inr (.inr (.inr (.inl ⟨hst, rfl⟩))))
  · unfold ringDrain at h
    split at h
    · next hr =>
      cases h
      exact .inr (.inr (.inr (.inr (.inr (.inl ⟨hst, by simpa only [Bool.not_eq_true'] using hr, rfl⟩)))))
    · next hr =>
      have hr : (s.isRunning && s.underDeadline) = true := by simpa using hr
      split at h
      · next hc =>
        split at h
        · next s' hs' =>
          cases h
          obtain ⟨bs, hbs, rfl⟩ := Option.map_eq_some_iff.1 hs'
          exact .inr (.inr (.inr (.inr (.inr (.inr (.inl ⟨hst, hr, hc.1, hc.2, bs, hbs, rfl⟩))))))
        · cases h
      · cases h; exact .inr (.inr (.inr (.inr (.inr (.inr (.inr (.inl ⟨hst, hr, rfl⟩)))))))
  · unfold ringSleep at h
    cases h
    refine .inr (.inr (.inr (.inr (.inr (.inr (.inr (.inr ?_)))))))
    split
    · next hw => exact .inl ⟨hst, hw, rfl⟩
    · next hw => exact .inr (.inl ⟨hst, not_lt.1 hw, rfl⟩)
  · cases h
    exact .inr (.inr (.inr (.inr (.inr (.inr (.inr (.inr (.inr (.inr ⟨hst, rfl⟩)))))))))

/-- RC faults only in FILL and DRAIN, when the bytes to copy lie outside the store. -/
theorem ringStep_fault {s : State} {r : Fault} (h : ringStep s = .fault r) :
    r = .fsRange ∧ s.rc.state ≠ .idle ∧ ∃ r', s.fillBytes r' = none := by
  unfold ringStep at h
  split at h <;> rename_i hst <;> try cases h
  · unfold ringFill at h
    split at h
    · cases h
    · split at h
      · split at h
        · cases h
        · next hn => cases h; exact ⟨rfl, by simp [hst], _, Option.map_eq_none_iff.1 hn⟩
      · cases h
  · unfold ringDrain at h
    split at h
    · cases h
    · split at h
      · split at h
        · cases h
        · next hn => cases h; exact ⟨rfl, by simp [hst], _, Option.map_eq_none_iff.1 hn⟩
      · cases h

/-- RC never refuses. -/
theorem ringStep_not_refused (s : State) (x : Refusal) : ringStep s ≠ .refused x := by
  intro h
  unfold ringStep at h
  split at h <;> try cases h
  · unfold ringFill at h
    repeat' split at h
    all_goals cases h
  · unfold ringDrain at h
    repeat' split at h
    all_goals cases h

end Sys2Proof.Machine
end

