-- ==== Sys2Proof/Laws/Consumer.lean ====
section
/-! SUPPORT. The consumer: everything CONSUME can do; the headers SETUP writes (`41_ring_controller.md` R126,
    R138). -/

namespace Sys2Proof.Machine

theorem region_succ_ne (r : Region) : r + 1 ≠ r := by revert r; decide

/-- endAddr / nextAddr after setup of another region -/
theorem setupRegion_other {s : State} (hp : paramsOk s.par = true) {r r' : Region} (hne : r' ≠ r) :
    (s.setupRegion r).endAddr r' = s.endAddr r' ∧ (s.setupRegion r).nextAddr r' = s.nextAddr r' := by
  have h1 := regions_apart hp hne
  have h2 := (region_of_paramsOk hp r).2.1
  have h3 := (region_of_paramsOk hp r').2.1
  constructor
  · show (s.setupRegion r).memRead (s.base r') 4 = s.memRead (s.base r') 4
    exact memRead_congr fun i hi => setupRegion_loadByte_outside _ _ _ (by omega)
  · show (s.setupRegion r).memRead (s.base r' + 4) 4 = s.memRead (s.base r' + 4) 4
    exact memRead_congr fun i hi => setupRegion_loadByte_outside _ _ _ (by omega)

theorem ringSetup_headers {s : State} (hp : paramsOk s.par = true) (r : Region) :
    (ringSetup s).endAddr r = 0 ∧ (ringSetup s).nextAddr r = s.base (r + 1) := by
  rw [ringSetup_eq]
  rw [setRc_endAddr, setRc_nextAddr]
  have hp0 : paramsOk (s.setupRegion 0).par = true := by simpa using hp
  have hp1 : paramsOk ((s.setupRegion 0).setupRegion 1).par = true := by simpa using hp
  fin_cases r
  · show (((s.setupRegion 0).setupRegion 1).setupRegion 2).endAddr 0 = 0 ∧ (((s.setupRegion 0).setupRegion 1).setupRegion 2).nextAddr 0 = s.base 1
    obtain ⟨a, b⟩ := setupRegion_other hp1 (show (0 : Region) ≠ 2 by decide)
    obtain ⟨c, d⟩ := setupRegion_other hp0 (show (0 : Region) ≠ 1 by decide)
    rw [a, b, c, d]
    exact ⟨setupRegion_endAddr _ _, setupRegion_nextAddr _ _⟩
  · show (((s.setupRegion 0).setupRegion 1).setupRegion 2).endAddr 1 = 0 ∧ (((s.setupRegion 0).setupRegion 1).setupRegion 2).nextAddr 1 = s.base 2
    obtain ⟨a, b⟩ := setupRegion_other hp1 (show (1 : Region) ≠ 2 by decide)
    rw [a, b]
    exact ⟨setupRegion_endAddr _ _, by rw [setupRegion_nextAddr]; simp⟩
  · show (((s.setupRegion 0).setupRegion 1).setupRegion 2).endAddr 2 = 0 ∧ (((s.setupRegion 0).setupRegion 1).setupRegion 2).nextAddr 2 = s.base 0
    exact ⟨setupRegion_endAddr _ _, by rw [setupRegion_nextAddr]; simp⟩

theorem ringSetup_loadByte_outside {s : State} (a : Nat) (h : ∀ r, a < s.base r ∨ s.base r + 8 ≤ a) :
    (ringSetup s).loadByte a = s.loadByte a := by
  rw [ringSetup_eq, setRc_loadByte]
  rw [setupRegion_loadByte_outside _ _ _ (by simpa using h 2),
      setupRegion_loadByte_outside _ _ _ (by simpa using h 1), setupRegion_loadByte_outside _ _ _ (h 0)]

theorem fillWith_keeps (s : State) (r : Region) (bs : List Byte) : KeepsRequesters s (s.fillWith r bs) :=
  ⟨⟨by simp, by simp, by simp⟩, ⟨by simp, by simp, by simp, by simp, by simp, by simp, by simp, by simp⟩,
      by simp, by simp, by simp, by simp⟩

theorem deadline_lt (s : State) : s.deadline < 2 ^ 64 := by
  have h1 := s.rc.total.isLt
  have h2 := s.par.tBit.isLt
  have h3 := s.par.tReset.isLt
  unfold State.deadline
  have h4 : s.rc.total.toNat / s.rc.g.toNat ≤ s.rc.total.toNat := Nat.div_le_self _ _
  have h5 : s.rc.total.toNat / s.rc.g.toNat * s.par.tBit.toNat ≤ (2 ^ 32 - 1) * (2 ^ 32 - 1) := Nat.mul_le_mul (by omega) (by omega)
  omega

theorem regionOfBase_eq {s : State} (hp : paramsOk s.par = true) (r : Region) : s.regionOfBase (s.base r)
    = some r := by
  unfold State.regionOfBase
  cases h : (List.finRange 3).find? fun r' => decide (s.base r' = s.base r) with
  | none => 
    have := List.find?_eq_none.1 h r (List.mem_finRange r)
    simp at this
  | some r' =>
    have h1 : s.base r' = s.base r := by simpa using List.find?_some h
    by_contra hne
    have hne : r' ≠ r := fun e => hne (by rw [e])
    have := regions_apart hp hne
    have h2 := (region_of_paramsOk hp r).2.1
    have h3 := (region_of_paramsOk hp r').2.1
    omega

theorem regionOfBase_none {s : State} {a : Nat} (h : ∀ r, a ≠ s.base r) : s.regionOfBase a = none := by
  unfold State.regionOfBase
  rw [List.find?_eq_none]
  intro r _
  simpa using fun e => h r e.symm

/-- the state of consumeRegion before following next -/
theorem consumeRegion_next (s : State) (r : Region) :
   State.nextAddr (State.memWrite { s with out := s.out ++ s.regionGroups r } (s.base r) 4 0) r = s.nextAddr r := by
  show State.memRead (State.memWrite { s with out := s.out ++ s.regionGroups r } (s.base r) 4 0) (s.base r + 4) 4 = s.memRead (s.base r + 4) 4
  rw [memRead_memWrite_outside _ _ _ _ _ _ (by omega)]; rfl

theorem followNext_keeps (s : State) (r : Region) : KeepsRequesters s (s.followNext r) ∧
    (s.followNext r).rc = s.rc ∧ (s.followNext r).out = s.out ∧ (s.followNext r).mem = s.mem := by
  unfold State.followNext
  split <;> exact ⟨⟨⟨rfl, rfl, rfl⟩, ⟨rfl, rfl, rfl, rfl, rfl, rfl, rfl, rfl⟩, rfl, rfl, rfl, rfl⟩, rfl, rfl,
      rfl⟩

/-- What CONSUME of region c leaves (`41_ring_controller.md` R138). -/
structure Consumed (s t : State) (c : Region) : Prop where
  keeps : KeepsRequesters s t
  rc : t.rc = s.rc
  out : t.out = s.out ++ s.regionGroups c
  endAddr : t.endAddr c = 0
  outside : KeepsMemoryOutside (s.base c) 4 s t
  follows : ∀ r, s.nextAddr c = s.base r → t.cp = ⟨s.cp.mode, r⟩
  lost : (∀ r, s.nextAddr c ≠ s.base r) → t.cp = { s.cp with mode := .hung }

/-- Everything CONSUME of a region does. -/
theorem consumeRegion_consumed {s : State} (hp : paramsOk s.par = true) (c : Region) :
    Consumed s (s.consumeRegion c) c := by
  unfold State.consumeRegion
  set u := State.memWrite { s with out := s.out ++ s.regionGroups c } (s.base c) 4 0 with hu
  obtain ⟨k1, k2, k3, k4⟩ := followNext_keeps u c
  have hnext : u.nextAddr c = s.nextAddr c := consumeRegion_next s c
  have hmemb : ∀ a, (u.followNext c).loadByte a = u.loadByte a := by
    intro a; simp only [State.loadByte, k4]
  refine ⟨⟨⟨k1.config.par, k1.config.cfg, k1.config.panel⟩, ?_, k1.ports, k1.token, k1.encOut, k1.log⟩, k2,
      k3, ?_, ?_, ?_, ?_⟩
  · exact ⟨k1.inputs.tNow, k1.inputs.timeHi, k1.inputs.colours, k1.inputs.coproReady, k1.inputs.agenda,
      k1.inputs.pick, k1.inputs.freeIx, k1.inputs.readData⟩
  · show (u.followNext c).memRead ((u.followNext c).base c) 4 = 0
    have hb' : (u.followNext c).base c = s.base c := by unfold State.base; rw [k1.config.par]; rfl
    rw [hb', memRead_congr (s := u) (fun i _ => hmemb _)]
    exact memRead_memWrite_same _ _ _ _ (by norm_num)
  · intro a ha
    rw [hmemb, hu, loadByte_memWrite_outside _ _ _ _ _ ha]; rfl
  · intro r hr
    unfold State.followNext
    rw [hnext, hr]
    have : u.regionOfBase (s.base r) = some r := regionOfBase_eq (s := u) hp r
    rw [this]
    rfl
  · intro hr
    unfold State.followNext
    rw [hnext]
    have : u.regionOfBase (s.nextAddr c) = none := regionOfBase_none (s := u) hr
    rw [this]; rfl

/-- Everything CONSUME can do. -/
theorem cpConsume_cases {s : State} (hp : paramsOk s.par = true) :
    (¬ (s.cp.mode = .running ∧ s.endAddr s.cp.c ≠ 0) ∧ cpConsume s = s) ∨
    (s.cp.mode = .running ∧ s.endAddr s.cp.c ≠ 0 ∧ s.badEnd s.cp.c = true ∧ cpConsume s = s.hang) ∨
    (s.cp.mode = .running ∧ s.endAddr s.cp.c ≠ 0 ∧ s.badEnd s.cp.c = false ∧ Consumed s (cpConsume s) s.cp.c) := by
  by_cases hc : s.cp.mode = .running ∧ s.endAddr s.cp.c ≠ 0
  · cases hb : s.badEnd s.cp.c with
    | true => exact .inr (.inl ⟨hc.1, hc.2, rfl, by simp [cpConsume, hc.1, hc.2, hb]⟩)
    | false =>
      refine .inr (.inr ⟨hc.1, hc.2, rfl, ?_⟩)
      have : cpConsume s = s.consumeRegion s.cp.c := by simp [cpConsume, hc.1, hc.2, hb]
      rw [this]; exact consumeRegion_consumed hp _
  · exact .inl ⟨hc, by unfold cpConsume; rw [if_neg hc]⟩

end Sys2Proof.Machine
end

