-- ==== Sys2Proof/Laws/Decode.lean ====
section
/-! SUPPORT. The tokens of a datagram and its number tokens, read and written (`30_encoding.md` R90, R91). -/

namespace Sys2Proof

theorem tokensFrom_append (cur t : List Byte) (h : spaceByte ∉ t) (u : List Byte) :
    tokensFrom cur (t ++ u) = tokensFrom (cur ++ t) u := by
  induction t generalizing cur with
  | nil => simp
  | cons b t ih =>
    have hb : b ≠ spaceByte := fun e => h (by simp [e])
    have ht : spaceByte ∉ t := fun e => h (by simp [e])
    simp [tokensFrom, hb, ih _ ht]

theorem tokens_cons_space (t : List Byte) (h : spaceByte ∉ t) (hne : t ≠ []) (u : List Byte) :
    tokens (t ++ spaceByte :: u) = t :: tokens u := by
  simp [tokens, tokensFrom_append _ _ h, tokensFrom, flushToken, hne]

theorem tokens_single (t : List Byte) (h : spaceByte ∉ t) (hne : t ≠ []) : tokens t = [t] := by
  have := tokensFrom_append [] t h []
  simpa [tokens, tokensFrom, flushToken, hne] using this

/-- The text of tokens without its terminator splits into them again. -/
theorem tokens_datagramText (ts : List (List Byte)) (h : ∀ t ∈ ts, t ≠ [] ∧ spaceByte ∉ t) :
    tokens (datagramText ts).dropLast = ts := by
  induction ts with
  | nil => rfl
  | cons t ts ih =>
    obtain ⟨hne, hs⟩ := h t (by simp)
    cases ts with
    | nil => simp [datagramText, tokens_single t hs hne]
    | cons u us =>
      have hnil : datagramText (u :: us) ≠ [] := by
        cases us <;> simp [datagramText]
      rw [datagramText, List.dropLast_append_of_ne_nil (by simp), List.dropLast_cons_of_ne_nil hnil,
          tokens_cons_space t hs hne,
        ih (fun x hx => h x (List.mem_cons_of_mem _ hx))]
      simp

theorem datagramText_ne_nil (ts : List (List Byte)) : datagramText ts ≠ [] := by
  cases ts with
  | nil => simp [datagramText]
  | cons t ts => cases ts <;> simp [datagramText]

theorem digit_byte {n : Nat} (h : n < 10) : 0x30#8 ≤ BitVec.ofNat 8 (0x30 + n) ∧ BitVec.ofNat 8 (0x30 + n)
    ≤ 0x39#8 ∧
    (BitVec.ofNat 8 (0x30 + n)).toNat - 0x30 = n := by
  interval_cases n <;> decide

theorem decimalFrom_append (acc : Nat) (t u : List Byte) :
    decimalFrom acc (t ++ u) = (decimalFrom acc t).bind fun v => decimalFrom v u := by
  induction t generalizing acc with
  | nil => rfl
  | cons b t ih =>
    simp only [List.cons_append, decimalFrom]
    split
    · exact ih _
    · rfl

theorem decimalFrom_digits (fuel n : Nat) (h : n < 10 ^ fuel) : decimalFrom 0 (decimalDigits fuel n)
    = some n := by
  induction fuel generalizing n with
  | zero => simp [decimalDigits, decimalFrom] at *; omega
  | succ fuel ih =>
    unfold decimalDigits
    split
    · next hn =>
      obtain ⟨a, b, c⟩ := digit_byte hn
      simp only [decimalFrom, a, b, and_self, if_true, c]; simp
    · rw [decimalFrom_append, ih (n / 10) (by rw [pow_succ] at h; omega)]
      obtain ⟨a, b, c⟩ := digit_byte (Nat.mod_lt n (by norm_num : 10 > 0))
      simp only [Option.bind_some, decimalFrom, a, b, and_self, if_true, c]
      congr 1; omega

theorem decimalDigits_mem (fuel n : Nat) : ∀ b ∈ decimalDigits fuel n, 0x30#8 ≤ b ∧ b ≤ 0x39#8 := by
  induction fuel generalizing n with
  | zero => simp [decimalDigits]
  | succ fuel ih =>
    unfold decimalDigits
    split
    · next hn => intro b hb; obtain rfl := List.mem_singleton.1 hb; exact ⟨(digit_byte hn).1,
        (digit_byte hn).2.1⟩
    · intro b hb
      rcases List.mem_append.1 hb with hb | hb
      · exact ih _ b hb
      · obtain rfl := List.mem_singleton.1 hb
        have := digit_byte (Nat.mod_lt n (by norm_num : 10 > 0))
        exact ⟨this.1, this.2.1⟩

theorem numberText_token (w : Word) : numberText w ≠ [] ∧ spaceByte ∉ numberText w := by
  constructor
  · unfold numberText decimalDigits
    split <;> simp
  · intro h
    have := (decimalDigits_mem 10 w.toNat spaceByte h).1
    exact absurd this (by decide)

theorem numberToken_numberText (w : Word) : numberToken (numberText w) = some w := by
  have hlt : w.toNat < 10 ^ 10 := lt_trans w.isLt (by norm_num)
  have hne := (numberText_token w).1
  unfold numberToken
  rw [show decimalFrom 0 (numberText w) = some w.toNat from decimalFrom_digits 10 _ hlt]
  simp [hne, w.isLt]

end Sys2Proof
end

