-- ==== Sys2Proof/Laws/Encoder.lean ====
section
/-! SUPPORT. The encoder: the set bits of a payload, its length, and what `cfg_ok` says (`40_encoder.md` R107,
    `70_reset_and_hazards.md` R233). -/

namespace Sys2Proof.Machine

@[simp] theorem orBit_length (o : BitOrder) (buf : List Byte) (x : Nat) :
    (orBit o buf x).length = buf.length := by
  simp [orBit]

theorem foldl_orBit_length (o : BitOrder) (xs : List Nat) (buf : List Byte) :
    (xs.foldl (orBit o) buf).length = buf.length := by
  induction xs generalizing buf with
  | nil => rfl
  | cons x xs ih => simp [ih]

theorem payload_length (s : State) : s.payload.length = s.cfg.nc.toNat * s.cfg.nl.toNat * 3 := by
  simp [State.payload, foldl_orBit_length, payloadBytes]

/-- Testing a byte against one bit's weight reads that bit. -/
theorem testBit_shift : ∀ k : Fin 8, ∀ b : Byte, decide (b &&& 1#8 <<< k.val ≠ 0) = b.getLsbD k.val := by
  decide +kernel

theorem shift_getLsbD : ∀ j k : Fin 8, (1#8 <<< j.val).getLsbD k.val = decide (j.val = k.val) := by
  decide +kernel

theorem testBit_or (b : Byte) {j k : Nat} (hj : j < 8) (hk : k < 8) :
    decide ((b ||| 1#8 <<< j) &&& 1#8 <<< k ≠ 0) = (decide (b &&& 1#8 <<< k ≠ 0) || decide (j = k)) := by
  rw [testBit_shift ⟨k, hk⟩, testBit_shift ⟨k, hk⟩, BitVec.getLsbD_or]
  exact congrArg _ (shift_getLsbD ⟨j, hj⟩ ⟨k, hk⟩)

theorem bitWeight_and (o : BitOrder) {j k : Nat} (hj : j < 8) (hk : k < 8) (b : Byte) :
    decide ((b ||| bitWeight o j) &&& bitWeight o k ≠ 0) = (decide (b &&& bitWeight o k ≠ 0) || decide (j = k)) := by
  cases o
  · exact testBit_or b hj hk
  · unfold bitWeight
    rw [testBit_or b (by omega) (by omega)]
    congr 1
    apply decide_eq_decide.2
    omega

theorem bitSet_orBit (o : BitOrder) (buf : List Byte) (x y : Nat) (hx : x / 8 < buf.length) :
    bitSet o (orBit o buf x) y = (bitSet o buf y || decide (x = y)) := by
  unfold bitSet orBit
  by_cases hxy : x / 8 = y / 8
  · rw [← hxy]
    have hg : (buf.set (x / 8) (buf.getD (x / 8) 0 ||| bitWeight o (x % 8))).getD (x / 8) 0 = buf.getD (x / 8) 0 ||| bitWeight o (x % 8) := by
      rw [List.getD_eq_getElem?_getD, List.getElem?_set_self hx]; rfl
    rw [hg, bitWeight_and o (Nat.mod_lt _ (by norm_num)) (Nat.mod_lt _ (by norm_num))]
    congr 1
    apply decide_eq_decide.2
    omega
  · have hg : (buf.set (x / 8) (buf.getD (x / 8) 0 ||| bitWeight o (x % 8))).getD (y / 8) 0 = buf.getD (y / 8) 0 := by
      rw [List.getD_eq_getElem?_getD, List.getElem?_set_ne hxy, List.getD_eq_getElem?_getD]
    rw [hg]
    have : ¬ x = y := fun e => hxy (by rw [e])
    simp [this]

theorem bitSet_foldl (o : BitOrder) (xs : List Nat) (buf : List Byte) (h : ∀ x ∈ xs, x / 8 < buf.length)
    (y : Nat) :
    bitSet o (xs.foldl (orBit o) buf) y = (bitSet o buf y || decide (y ∈ xs)) := by
  induction xs generalizing buf with
  | nil => simp
  | cons x xs ih =>
    rw [List.foldl_cons, ih _ (by intro z hz; rw [orBit_length]; exact h z (by simp [hz])),
        bitSet_orBit _ _ _ _ (h x (by simp))]
    by_cases hxy : x = y
    · simp [hxy]
    · simp [hxy, Ne.symm hxy]

theorem bitSet_zero (o : BitOrder) (n y : Nat) : bitSet o (List.replicate n 0#8) y = false := by
  unfold bitSet
  have : (List.replicate n 0#8).getD (y / 8) 0 = 0 := by
    rw [List.getD_eq_getElem?_getD, List.getElem?_replicate]; split <;> rfl
  rw [this]; simp

theorem mem_validRows (s : State) (k : PanelIx) : k ∈ s.validRows ↔ k.val < s.cfg.np.toNat := by
  simp [State.validRows]

theorem validRows_nodup (s : State) : s.validRows.Nodup := (List.nodup_finRange 48).filter _

theorem cfgValid_iff (s : State) : s.cfgValid = true ↔
      s.cfg.nc.toNat ∈ [8, 16, 24, 32, 40, 48] ∧ 1 ≤ s.cfg.np.toNat ∧ s.cfg.np.toNat ≤ 48 ∧
      1 ≤ s.cfg.nl.toNat ∧ s.cfg.nl.toNat * s.cfg.nc.toNat * 3 ≤ 2 ^ 32 - 1 ∧
      (∀ k : PanelIx, k.val < s.cfg.np.toNat → (s.row k).ch.toNat < s.cfg.nc.toNat ∧
        (s.row k).nreal.toNat + (s.row k).nbuf.toNat ≤ s.cfg.nl.toNat) ∧
      ∀ k l : PanelIx, k.val < s.cfg.np.toNat → l.val < s.cfg.np.toNat → (s.row k).ch = (s.row l).ch → k = l := by
  have h1 : (s.validRows.all s.rowOk = true) ↔ ∀ k : PanelIx, k.val < s.cfg.np.toNat → (s.row k).ch.toNat < s.cfg.nc.toNat ∧
        (s.row k).nreal.toNat + (s.row k).nbuf.toNat ≤ s.cfg.nl.toNat := by
    rw [List.all_eq_true]
    simp only [mem_validRows, State.rowOk, Bool.and_eq_true, decide_eq_true_eq]
  have h2 : ((s.validRows.map fun k => (s.row k).ch).Nodup) ↔ 
      ∀ k l : PanelIx, k.val < s.cfg.np.toNat → l.val < s.cfg.np.toNat → (s.row k).ch = (s.row l).ch → k = l := by
    rw [List.nodup_map_iff_inj_on (validRows_nodup s)]
    simp only [mem_validRows]
    exact ⟨fun h k l hk hl => h k hk l hl, fun h k hk l hl => h k l hk hl⟩
  simp only [State.cfgValid, State.cfgChecks, List.all_cons, List.all_nil, id, Bool.and_eq_true,
      Bool.and_true, h1, decide_eq_true_eq, h2,
    List.contains_iff_mem]
  rfl

theorem mem_payloadBits (s : State) (x : Nat) : x ∈ s.payloadBits ↔ ∃ k : PanelIx, k.val < s.cfg.np.toNat ∧
    ∃ j, j < (s.row k).nreal.toNat ∧
    ∃ i, i < 24 ∧ slotBit s.par.slotOrder (packColour (s.colourAt k j)) i = true ∧ bitIndex s.cfg.nc.toNat (j + (s.row k).nbuf.toNat) i (s.row k).ch.toNat = x := by
  simp only [State.payloadBits, List.mem_flatMap, mem_validRows, List.mem_range, State.ledBits, List.mem_map,
      List.mem_filter]
  constructor
  · rintro ⟨k, hk, j, hj, i, ⟨hi, hs⟩, e⟩; exact ⟨k, hk, j, hj, i, hi, hs, e⟩
  · rintro ⟨k, hk, j, hj, i, hi, hs, e⟩; exact ⟨k, hk, j, hj, i, ⟨hi, hs⟩, e⟩

end Sys2Proof.Machine
end

