-- ==== Sys2Proof/Laws/Invariant.lean ====
section
/-! SUPPORT. The invariant of every reachable state: what each shared operation needs to keep it. -/

namespace Sys2Proof.Machine

/-- What of a port, the token and RC the invariant of one port reads. -/
theorem PortInv.congr {s t : State} {q : Port} (h : PortInv s q)
    (hb : (t.port q).blocked = (s.port q).blocked) (hbu : (t.port q).busy = (s.port q).busy)
    (hk : (t.port q).seq.kind = (s.port q).seq.kind) (hp : (t.port q).seq.phase = (s.port q).seq.phase)
    (hq : (t.port q).seq.queued = (s.port q).seq.queued)
    (he : t.portExists q = s.portExists q) (hw : t.waiting q = s.waiting q) (hh : t.holds q = s.holds q)
    (hr : s.rc.state ≠ .idle → s.rc.owner = q → t.rc.state ≠ .idle ∧ t.rc.owner = q) : PortInv t q := by
  obtain ⟨h1, h2, h3, h4, h5, h6, h7, h8, h9, h10⟩ := h
  have hpg : (t.port q).pastGrant = (s.port q).pastGrant := by simp only [PortState.pastGrant, hp, hq, hb]
  constructor
  · rw [hb, hbu]; exact h1
  · rw [hbu, he]; exact h2
  · rw [hbu, hk]; exact h3
  · rw [hk, hp]; exact h4
  · rw [hw, hb, hp]; exact h5
  · rw [hp, hb, hw, hq]; exact h6
  · rw [hq, hp]; exact h7
  · rw [hpg, hh]; exact h8
  · rw [hbu, hk, hw]
    intro a b
    exact (h9 a b).imp id (fun ⟨x, y⟩ => hr x y)
  · rw [hb, hp]; exact h10

/-- The invariant but for port q, which neither waits nor runs a transfer: q's registers may be written. -/
structure Loose (s : State) (q : Port) : Prop where
  memWf : Memory.wf s.mem = true
  lockedValid : s.cfg.locked = true → s.cfgValid = true
  others : ∀ p, p ≠ q → PortInv s p
  token : TokenInv s
  qExists : s.portExists q = true
  qNotWaiting : s.waiting q = false
  qNotOwner : s.rc.state ≠ .idle → s.rc.owner ≠ q
  ring : RingInv s
  quietPorts : s.ready = false → ∀ p, p ≠ q → (s.port p).busy = false
  quietRing : s.ready = false → s.rc.state = .idle
  quietToken : s.ready = false → s.tk.state = .idle

/-- What of a state the invariant of the running transfer reads. -/
theorem TransferInv.congr {s t : State} (h : TransferInv s) (hp : t.par = s.par) (hg : t.rc.g = s.rc.g)
   (ht : t.rc.total = s.rc.total) (hs : t.rc.store = s.rc.store) (hsrc : t.rc.src = s.rc.src) : TransferInv
       t := by
  obtain ⟨h1, h2, h3, h4⟩ := h
  have hu : ∀ r g, t.usable r g = s.usable r g := by intro r g; simp [State.usable, State.cap, hp]
  constructor
  · rw [hg, hp]; exact h1
  · rw [hg, ht]; exact h2
  · rw [hp, hs, hsrc, ht]; exact h3
  · intro r; rw [hu, hg]; exact h4 r

/-- What of a state the invariant of RC reads. -/
theorem RingInv.congr {s t : State} (h : RingInv s) (hrc : t.rc = s.rc) (htk : s.rc.state ≠ .idle →
    t.tk.state = s.tk.state ∧ t.tk.holder = s.tk.holder)
    (hpar : t.par = s.par)
    (hport : s.rc.state ≠ .idle → (t.port s.rc.owner).blocked = (s.port s.rc.owner).blocked ∧ (t.port
        s.rc.owner).seq.phase = (s.port s.rc.owner).seq.phase) : RingInv t := by
  obtain ⟨h1, h2, h3, h4, h5⟩ := h
  constructor
  · rw [hrc]; intro h
    obtain ⟨a, b⟩ := htk h
    have := h1 h
    simpa [State.holds, a, b] using this
  · rw [hrc]; intro h
    obtain ⟨a, b⟩ := hport h
    rw [a, b]; exact h2 h
  · rw [hrc]; exact h3
  · rw [hrc]; exact h4
  · rw [hrc]; intro h; exact (h5 h).congr hpar (by rw [hrc]) (by rw [hrc]) (by rw [hrc]) (by rw [hrc])

/-- Outside ACQ no ACQUIRE of a macro-command's own is under way. -/
theorem PortInv.unqueued {s : State} {q : Port} (h : PortInv s q) (hp : (s.port q).seq.phase ≠ .acq) :
    (s.port q).seq.queued = false := by
  by_contra hc
  exact hp (h.queuedAcq (by simpa using hc))

/-- An idle port. -/
theorem portInv_idle {s : State} {q : Port} (hb : (s.port q).busy = false) (hbl : (s.port q).blocked =
    false)
   (hk : (s.port q).seq.kind = .none) (hp : (s.port q).seq.phase = .none) (hq : (s.port q).seq.queued = false)
   (hw : s.waiting q = false) : PortInv s q := by
  constructor <;> simp_all [kindHasPhase, holderPhase, waitPhase, PortState.pastGrant]

/-- Completing port q's command. -/
theorem Loose.complete {s : State} {q : Port} (h : Loose s q) (r : Result) : (s.complete q r).Inv := by
  refine ⟨h.memWf, h.lockedValid, ?_, ?_, ?_, ?_⟩
  · intro p
    by_cases hpq : p = q
    · subst hpq
      exact portInv_idle (by simp) (by simp) (by simp) (by simp) (by simp) (by simpa using h.qNotWaiting)
    · exact (h.others p hpq).congr (by simp [hpq]) (by simp [hpq]) (by simp [hpq]) (by simp [hpq]) (by simp [hpq]) rfl rfl
        rfl (by simp; intros; simp_all)
  · exact ⟨h.token.1, h.token.2, h.token.3⟩
  · refine h.ring.congr rfl (fun _ => ⟨rfl, rfl⟩) rfl ?_
    intro hs
    have := h.qNotOwner hs
    simp [this]
  · refine ⟨?_, h.quietRing, h.quietToken⟩
    intro hr p
    by_cases hpq : p = q
    · subst hpq; simp
    · simpa [hpq] using h.quietPorts hr p hpq

/-- A port that neither waits nor runs a transfer. -/
theorem State.Inv.loose {s : State} {q : Port} (h : s.Inv) (he : s.portExists q = true) (hw : s.waiting q =
    false)
    (ho : s.rc.state ≠ .idle → s.rc.owner ≠ q) : Loose s q :=
  ⟨h.memWf, h.lockedValid, fun p _ => h.port p, h.token, he, hw, ho, h.ring, fun hr p _ => h.quiet.ports hr
      p,
   h.quiet.ring, h.quiet.token⟩

/-- Writing port q. -/
theorem Loose.setPort {s : State} {q : Port} (h : Loose s q) (p : PortState) : Loose (s.setPort q p) q := by
  refine ⟨h.memWf, h.lockedValid, ?_, ⟨h.token.1, h.token.2, h.token.3⟩, h.qExists, h.qNotWaiting,
      h.qNotOwner, ?_, ?_, h.quietRing, h.quietToken⟩
  · intro p hpq
    exact (h.others p hpq).congr (by simp [hpq]) (by simp [hpq]) (by simp [hpq]) (by simp [hpq]) (by simp [hpq]) rfl rfl
        rfl (by simp; intros; simp_all)
  · refine h.ring.congr rfl (fun _ => ⟨rfl, rfl⟩) rfl ?_
    intro hs
    have := h.qNotOwner hs
    simp [this]
  · intro hr p hpq
    simpa [hpq] using h.quietPorts hr p hpq

/-- Writing what the invariant does not read. -/
theorem Loose.same {s t : State} {q : Port} (h : Loose s q) (hpar : t.par = s.par) (hcfg : t.cfg = s.cfg)
   (hpanel : t.panel = s.panel) (hrc : t.rc = s.rc) (htk : t.tk = s.tk) (hports : t.ports = s.ports) (hmem
       : t.mem = s.mem) : Loose t q := by
  have hport : ∀ p, t.port p = s.port p := by intro p; simp [State.port, hports]
  have hw : ∀ p, t.waiting p = s.waiting p := by intro p; simp [State.waiting, htk]
  have hh : ∀ p, t.holds p = s.holds p := by intro p; simp [State.holds, htk]
  have he : ∀ p, t.portExists p = s.portExists p := by intro p; simp [State.portExists, hpar]
  have hr : t.ready = s.ready := by simp [State.ready, hcfg]
  have hv : t.cfgValid = s.cfgValid := by
    simp [State.cfgValid, State.cfgChecks, State.validRows, State.rowOk, State.row, hcfg, hpanel]
    rfl
  refine ⟨hmem ▸ h.memWf, ?_, ?_, ?_, ?_, ?_, ?_, ?_, ?_, ?_, ?_⟩
  · rw [hcfg, hv]; exact h.lockedValid
  · intro p hpq
    exact (h.others p hpq).congr (by rw [hport]) (by rw [hport]) (by rw [hport]) (by rw [hport]) (by rw [hport]) (he p) (hw
        p) (hh p) (by rw [hrc]; exact fun a b => ⟨a, b⟩)
  · constructor
    · rw [htk, hw]; exact h.token.1
    · rw [htk, he]; exact h.token.2
    · rw [htk]; exact h.token.3
  · rw [he]; exact h.qExists
  · rw [hw]; exact h.qNotWaiting
  · rw [hrc]; exact h.qNotOwner
  · exact h.ring.congr hrc (fun _ => by rw [htk]; exact ⟨rfl, rfl⟩) hpar (fun _ => by rw [hport]; exact
      ⟨rfl, rfl⟩)
  · rw [hr]; intro hr p hpq; rw [hport]; exact h.quietPorts hr p hpq
  · rw [hr, hrc]; exact h.quietRing
  · rw [hr, htk]; exact h.quietToken

/-- Writing what the invariant does not read. -/
theorem State.Inv.same {s t : State} (h : s.Inv) (hpar : t.par = s.par) (hcfg : t.cfg = s.cfg)
   (hpanel : t.panel = s.panel) (hrc : t.rc = s.rc) (htk : t.tk = s.tk) (hports : t.ports = s.ports) (hmem
       : Memory.wf t.mem = true) : t.Inv := by
  have hport : ∀ p, t.port p = s.port p := by intro p; simp [State.port, hports]
  have hw : ∀ p, t.waiting p = s.waiting p := by intro p; simp [State.waiting, htk]
  have hh : ∀ p, t.holds p = s.holds p := by intro p; simp [State.holds, htk]
  have he : ∀ p, t.portExists p = s.portExists p := by intro p; simp [State.portExists, hpar]
  have hr : t.ready = s.ready := by simp [State.ready, hcfg]
  have hv : t.cfgValid = s.cfgValid := by
    simp [State.cfgValid, State.cfgChecks, State.validRows, State.rowOk, State.row, hcfg, hpanel]
    rfl
  refine ⟨hmem, ?_, ?_, ?_, ?_, ?_⟩
  · rw [hcfg, hv]; exact h.lockedValid
  · intro p
    exact (h.port p).congr (by rw [hport]) (by rw [hport]) (by rw [hport]) (by rw [hport]) (by rw [hport]) (he p) (hw p)
        (hh p) (by rw [hrc]; exact fun a b => ⟨a, b⟩)
  · constructor
    · rw [htk, hw]; exact h.token.1
    · rw [htk, he]; exact h.token.2
    · rw [htk]; exact h.token.3
  · exact h.ring.congr hrc (fun _ => by rw [htk]; exact ⟨rfl, rfl⟩) hpar (fun _ => by rw [hport]; exact
      ⟨rfl, rfl⟩)
  · refine ⟨?_, ?_, ?_⟩
    · rw [hr]; intro hr p; rw [hport]; exact h.quiet.ports hr p
    · rw [hr, hrc]; exact h.quiet.ring
    · rw [hr, htk]; exact h.quiet.token

/-- Writing what the invariant does not read of a port. -/
theorem State.Inv.setPort {s : State} (h : s.Inv) {q : Port} {p : PortState}
    (hb : p.blocked = (s.port q).blocked) (hbu : p.busy = (s.port q).busy)
    (hk : p.seq.kind = (s.port q).seq.kind) (hp : p.seq.phase = (s.port q).seq.phase)
    (hq : p.seq.queued = (s.port q).seq.queued) : (s.setPort q p).Inv := by
  have key : ∀ x, ((s.setPort q p).port x).blocked = (s.port x).blocked ∧ ((s.setPort q p).port x).busy =
      (s.port x).busy
     ∧ ((s.setPort q p).port x).seq.kind = (s.port x).seq.kind ∧ ((s.setPort q p).port x).seq.phase =
         (s.port x).seq.phase ∧ ((s.setPort q p).port x).seq.queued = (s.port x).seq.queued := by
    intro x
    by_cases hx : x = q
    · subst hx; simp [*]
    · simp [hx]
  refine ⟨h.memWf, h.lockedValid, ?_, ⟨h.token.1, h.token.2, h.token.3⟩, ?_, ?_⟩
  · intro x
    obtain ⟨a, b, c, d, e⟩ := key x
    exact (h.port x).congr a b c d e rfl rfl rfl (fun a b => ⟨a, b⟩)
  · exact h.ring.congr rfl (fun _ => ⟨rfl, rfl⟩) rfl (fun _ => ⟨(key _).1, (key _).2.2.2.1⟩)
  · refine ⟨?_, h.quiet.ring, h.quiet.token⟩
    intro hr x
    rw [(key x).2.1]; exact h.quiet.ports hr x

/-- Port q is in order again. -/
theorem Loose.toInv {s : State} {q : Port} (h : Loose s q) (hq : PortInv s q) (hready : s.ready = true) :
    s.Inv := by
  refine ⟨h.memWf, h.lockedValid, ?_, h.token, h.ring, ?_⟩
  · intro p; by_cases hp : p = q
    · subst hp; exact hq
    · exact h.others p hp
  · refine ⟨?_, ?_, ?_⟩ <;> intro hr <;> simp_all

/-- Port q enters `TK.WAIT` (`42_token_arbiter.md` R151). -/
theorem Loose.enterWait {s : State} {q : Port} (h : Loose s q) (hready : s.ready = true) (hh : s.holds q =
    false)
    (hb : (s.port q).busy = true)
    (hk : kindHasPhase (s.port q).seq.kind (s.port q).seq.phase = true)
    (hp : (s.port q).seq.phase = .none ∨ (s.port q).seq.phase = .acq)
    (hqa : (s.port q).seq.queued = true ↔ (s.port q).seq.phase = .acq) : (s.enterWait q).Inv := by
  have hport : ∀ p, p ≠ q → (s.enterWait q).port p = s.port p := fun p hp => by simp [State.enterWait, hp]
  have hq : (s.enterWait q).port q = { s.port q with blocked := true } := by
    simp [State.enterWait]
  have hw : ∀ p, (s.enterWait q).waiting p = (s.waiting p || decide (p = q)) := fun p => by simp
      [State.enterWait]
  have hhold : ∀ p, (s.enterWait q).holds p = s.holds p := fun p => rfl
  refine ⟨h.memWf, h.lockedValid, ?_, ?_, ?_, ?_⟩
  · intro p
    by_cases hpq : p = q
    · subst hpq
      constructor
      · intro _; rw [hq]; exact hb
      · intro _; exact h.qExists
      · rw [hq]; intro hb'; simp_all
      · rw [hq]; exact hk
      · intro _; rw [hq]; exact ⟨rfl, hp⟩
      · rw [hq, hw]; intro ha _; exact ⟨by simp, hqa.2 ha⟩
      · rw [hq]; exact hqa.1
      · rw [hq]; rcases hp with hp | hp <;> simp [hp, holderPhase, PortState.pastGrant]
      · intro _ _; left; rw [hw]; simp
      · intro _; rw [hq]; rcases hp with hp | hp <;> simp [hp, waitPhase]
    · refine (h.others p hpq).congr (by rw [hport p hpq]) (by rw [hport p hpq]) (by rw [hport p hpq]) (by
        rw [hport p hpq]) (by rw [hport p hpq]) rfl ?_ rfl (fun a b => ⟨a, b⟩)
      rw [hw]; simp [hpq]
  · constructor
    · intro hs
      show (s.enterWait q).waiting s.tk.holder = false
      rw [hw]
      have h1 := h.token.1 hs
      have hs' : s.tk.state = .held := hs
      have : s.tk.holder ≠ q := by
        intro e; simp [State.holds, hs', e] at hh
      simp [h1, this]
    · exact h.token.2
    · exact h.token.3
  · refine h.ring.congr rfl (fun _ => ⟨rfl, rfl⟩) rfl ?_
    intro hs
    rw [hport _ (h.qNotOwner hs)]; exact ⟨rfl, rfl⟩
  · have hr : (s.enterWait q).ready = true := hready
    refine ⟨?_, ?_, ?_⟩ <;> intro hr' <;> simp_all

/-- The port a grant picks. -/
theorem PortInv.granted {s : State} {w : Port} (h : PortInv s w) (hw : s.waiting w = true) : PortInv
    (s.grantTo w) w := by
  have hbl := (h.waitHolds hw).1
  have hbu := h.blockedBusy hbl
  have hex := h.busyExists hbu
  by_cases hk : (s.port w).seq.kind = .none
  · exact portInv_idle (by simp [grantedPort, hk]) (by simp) (by simp [grantedPort, hk])
      (by simp [grantedPort, hk]) (by simp [grantedPort, hk]) (by simp)
  · have hg : (s.grantTo w).port w = { s.port w with blocked := false } := by simp [grantedPort, hk]
    constructor
    · simp
    · intro _; simpa using hex
    · simp [hg, hbu]
    · rw [hg]; exact h.kindPhase
    · simp
    · simp
    · rw [hg]; exact h.queuedAcq
    · intro _; simp
    · rw [hg]; intro _ hc; exact absurd hc hk
    · simp

/-- The ports a grant passes over, while nobody else holds the token. -/
theorem PortInv.passedOver {s : State} {p w : Port} (h : PortInv s p) (hpw : p ≠ w) (hno : s.holds p =
    false)
    (hidle : s.rc.state = .idle) : PortInv (s.grantTo w) p := by
  have hnh : (s.port p).pastGrant = false := by
    by_contra hc
    have := h.phaseHolds (by simpa using hc)
    simp [hno] at this
  constructor
  · simpa [hpw] using h.blockedBusy
  · intro hb
    rw [grantTo_portExists]
    exact h.busyExists (by simpa [hpw] using hb)
  · simpa [hpw] using h.idleKind
  · simpa [hpw] using h.kindPhase
  · simpa [hpw] using h.waitHolds
  · simpa [hpw] using h.acqWaits
  · simpa [hpw] using h.queuedAcq
  · simp [hpw, hnh]
  · have := h.plainHolds
    simpa [hpw, hidle] using this
  · simpa [hpw] using h.blockedWaits

/-- The token after a grant. -/
theorem TokenInv.granted {s : State} {w : Port} (h : PortInv s w) (hw : s.waiting w = true) : TokenInv
    (s.grantTo w) := by
  constructor
  · intro _; simp
  · intro _
    rw [grantTo_tk, grantTo_portExists]
    exact h.busyExists (h.blockedBusy (h.waitHolds hw).1)
  · simp

/-- A grant while RC is idle and no port but q can hold the token. -/
theorem Loose.grantTo {s : State} {q w : Port} (h : Loose s q) (hready : s.ready = true) (hw : s.waiting w
    = true)
    (hidle : s.rc.state = .idle) (hno : ∀ p, p ≠ q → s.holds p = false) : Loose (s.grantTo w) q := by
  have hwq : w ≠ q := by rintro rfl; simp [h.qNotWaiting] at hw
  have hwi := h.others w hwq
  refine ⟨?_, ?_, ?_, TokenInv.granted hwi hw, ?_, ?_, ?_, ?_, ?_, ?_, ?_⟩
  · simpa using h.memWf
  · simpa using h.lockedValid
  · intro p hpq
    by_cases hpw : p = w
    · subst hpw; exact hwi.granted hw
    · exact (h.others p hpq).passedOver hpw (hno p hpq) hidle
  · simpa using h.qExists
  · simp [h.qNotWaiting]
  · simpa using h.qNotOwner
  · exact h.ring.congr (by simp) (fun hs => absurd hidle hs) (by simp) (fun hs => absurd hidle hs)
  · simp [hready]
  · simp [hready]
  · simp [hready]

/-- RC is idle when the holder q is not running a transfer. -/
theorem Loose.idle_of_holds {s : State} {q : Port} (h : Loose s q) (hh : s.holds q = true) : s.rc.state =
    .idle := by
  by_contra hc
  have h1 := h.ring.ownerHolds hc
  have h2 := h.qNotOwner hc
  simp [State.holds] at h1 hh
  exact h2 (h1.2.symm.trans hh.2)

/-- There is one holder. -/
theorem Loose.no_other {s : State} {q : Port} (hh : s.holds q = true) : ∀ p, p ≠ q → s.holds p = false := by
  intro p hp
  simp [State.holds] at hh ⊢
  intro _ e
  exact hp (e.symm.trans hh.2)

/-- The TRY_HANDOFF effect for port q (`42_token_arbiter.md` R153). -/
theorem Loose.handoff {s : State} {q : Port} (h : Loose s q) (hready : s.ready = true) : Loose
    (s.handoffFor q).1 q := by
  rcases handoffFor_cases s q with ⟨_, e⟩ | ⟨_, _, e⟩ | ⟨hh, w, hw, _, e⟩
  · rw [e]; exact h
  · rw [e]; exact h
  · rw [e]; exact h.grantTo hready hw (h.idle_of_holds hh) (Loose.no_other hh)

/-- The token is idle (`42_token_arbiter.md` R154). -/
theorem Loose.freeToken {s : State} {q : Port} (h : Loose s q) (hh : s.holds q = true) : Loose s.freeToken
    q := by
  have hidle := h.idle_of_holds hh
  refine ⟨h.memWf, h.lockedValid, ?_, ?_, h.qExists, h.qNotWaiting, h.qNotOwner, ?_, h.quietPorts,
      h.quietRing, fun _ => rfl⟩
  · intro p hpq
    have hp := h.others p hpq
    have hnh : (s.port p).pastGrant = false := by
      by_contra hc
      have := hp.phaseHolds (by simpa using hc)
      simp [Loose.no_other hh p hpq] at this
    refine ⟨hp.blockedBusy, hp.busyExists, hp.idleKind, hp.kindPhase, hp.waitHolds, hp.acqWaits, hp.queuedAcq,
        ?_, hp.plainHolds, hp.blockedWaits⟩
    rw [show s.freeToken.port p = s.port p from rfl, hnh]
    simp
  · exact ⟨by simp [State.freeToken], by simp [State.freeToken], fun _ => rfl⟩
  · exact h.ring.congr rfl (fun hs => absurd hidle hs) rfl (fun hs => absurd hidle hs)

/-- The RELEASE effect for port q. -/
theorem Loose.release {s : State} {q : Port} (h : Loose s q) : Loose (s.releaseFor q).1 q := by
  rcases releaseFor_cases s q with ⟨_, e⟩ | ⟨hh, e⟩
  · rw [e]; exact h
  · rw [e]; exact h.freeToken hh

/-- RC's result and flags are written. -/
theorem Loose.rcResult {s : State} {q : Port} (h : Loose s q) (r : Result) (f : Flags) :
    Loose (s.setRc { s.rc with result := r, flags := f }) q := by
  refine ⟨h.memWf, h.lockedValid, fun p hp => ⟨(h.others p hp).1, (h.others p hp).2, (h.others p hp).3,
      (h.others p hp).4, (h.others p hp).5, (h.others p hp).6, (h.others p hp).7, (h.others p hp).8,
      (h.others p hp).9, (h.others p hp).10⟩, ⟨h.token.1, h.token.2, h.token.3⟩, h.qExists, h.qNotWaiting, h.qNotOwner, ?_,
      h.quietPorts, h.quietRing, h.quietToken⟩
  exact ⟨h.ring.1, h.ring.2, h.ring.3, h.ring.4, fun hs => ⟨(h.ring.5 hs).1, (h.ring.5 hs).2, (h.ring.5
      hs).3, (h.ring.5 hs).4⟩⟩

/-- What RC loads of a validated frame fits its registers. -/
theorem offset_lt {s : State} (hpar : paramsOk s.par = true) {store frame : Word} {v : Frame} (h :
    s.validate store frame = .ok v) :
    v.offset < 2 ^ 32 ∧ v.nc * v.nl * 3 < 2 ^ 32 ∧ v.nc / 8 < 16 := by
  obtain ⟨f, hf, hoff⟩ := validate_inStore h
  obtain ⟨_, hf', hnc, _, _, hnl, hle, _⟩ := validate_ok h
  have hlen := store_of_paramsOk hpar (List.mem_of_getElem? hf)
  obtain ⟨g1, g2, g3⟩ := group_of_paramsOk hpar
  have hpos : 0 < v.nc * v.nl * 3 := by
    have h1 : 0 < v.nc := by omega
    have h2 : 0 < v.nl := Nat.pos_of_ne_zero hnl
    positivity
  refine ⟨by omega, by omega, by rw [hnc]; omega⟩

/-- The loaded registers, as numbers. -/
theorem load_toNat {s : State} (hpar : paramsOk s.par = true) {store frame : Word} {v : Frame}
    (h : s.validate store frame = .ok v) (q : Port) :
    (s.rc.load q store v).g.toNat = s.par.hwChannels / 8 ∧
      (s.rc.load q store v).total.toNat = v.nc * v.nl * 3 ∧ (s.rc.load q store v).src.toNat = v.offset := by
  obtain ⟨o1, o2, o3⟩ := offset_lt hpar h
  obtain ⟨_, _, hnc, _⟩ := validate_ok h
  refine ⟨?_, ?_, ?_⟩
  · show (BitVec.ofNat 4 (v.nc / 8)).toNat = _
    rw [BitVec.toNat_ofNat, Nat.mod_eq_of_lt (by norm_num; exact o3), hnc]
  · show (BitVec.ofNat 32 (v.nc * v.nl * 3)).toNat = _
    rw [BitVec.toNat_ofNat, Nat.mod_eq_of_lt o2]
  · show (BitVec.ofNat 32 v.offset).toNat = _
    rw [BitVec.toNat_ofNat, Nat.mod_eq_of_lt o1]

/-- Port q's transfer starts (`41_ring_controller.md` R120). -/
theorem Loose.started {s : State} {q : Port} (h : Loose s q) (hpar : paramsOk s.par = true) (hready :
    s.ready = true) (hh : s.holds q = true)
    {frame store : Word} {v : Frame} (hv : s.validate store frame = .ok v)
    (hb : (s.port q).busy = true)
    (hk : kindHasPhase (s.port q).seq.kind (s.port q).seq.phase = true)
    (hp : (s.port q).seq.phase = .none ∨ (s.port q).seq.phase = .xfer)
    (hqa : (s.port q).seq.queued = true → (s.port q).seq.phase = .acq) :
    ((s.setRc (s.rc.load q store v)).setBlocked q true).Inv := by
  have hidle := h.idle_of_holds hh
  obtain ⟨hg, htot, hsrc⟩ := load_toNat hpar hv q
  obtain ⟨f, hf, hin⟩ := validate_inStore hv
  obtain ⟨_, _, hnc, _, _, hnl, _, _, _, hus, _⟩ := validate_ok hv
  obtain ⟨g1, g2, g3⟩ := group_of_paramsOk hpar
  have hport : ∀ p, p ≠ q → ((s.setRc (s.rc.load q store v)).setBlocked q true).port p = s.port p := fun p
      hp => by simp [hp]
  have hq : ((s.setRc (s.rc.load q store v)).setBlocked q true).port q = { s.port q with blocked := true }
      := by simp
  have how : (s.rc.load q store v).owner = q := rfl
  have hst : (s.rc.load q store v).state = .setup := rfl
  have hcu : (s.rc.load q store v).cursor = 0 := rfl
  refine ⟨h.memWf, h.lockedValid, ?_, ⟨h.token.1, h.token.2, h.token.3⟩, ?_, ?_⟩
  · intro p
    by_cases hpq : p = q
    · subst hpq
      constructor
      · intro _; rw [hq]; exact hb
      · intro _; exact h.qExists
      · rw [hq]; intro hb'; exact absurd (hb.symm.trans hb') (by decide)
      · rw [hq]; exact hk
      · simp [h.qNotWaiting]
      · rw [hq]; rcases hp with hp | hp <;> simp [hp]
      · rw [hq]; exact hqa
      · intro _; exact hh
      · intro _ _; right; simp [how, hst]
      · intro _; rw [hq]; rcases hp with hp | hp <;> simp [hp, waitPhase]
    · refine (h.others p hpq).congr (by rw [hport p hpq]) (by rw [hport p hpq]) (by rw [hport p hpq]) (by
        rw [hport p hpq]) (by rw [hport p hpq]) rfl rfl rfl (fun a b => absurd hidle a)
  · constructor
    · intro _; exact hh
    · intro _
      rw [setBlocked_rc, setRc_rc, how, hq]
      exact ⟨rfl, hp⟩
    · simp [hcu]
    · simp [hcu]
    · intro _
      constructor
      · exact hg
      · show (s.rc.load q store v).total.toNat % (24 * (s.rc.load q store v).g.toNat) = 0
        rw [htot, hg, hnc]
        have : 24 * (s.par.hwChannels / 8) = s.par.hwChannels * 3 := by omega
        rw [this, Nat.mul_right_comm]
        exact Nat.mul_mod_right _ _
      · refine ⟨f, hf, ?_⟩
        show (s.rc.load q store v).src.toNat + (s.rc.load q store v).total.toNat ≤ _
        rw [htot, hsrc]; exact hin
      · intro r
        show s.usable r (s.rc.load q store v).g.toNat ≠ 0
        rw [hg, ← hnc]; exact hus r
  · refine ⟨?_, ?_, ?_⟩ <;> intro hr' <;> exact absurd (hready.symm.trans hr') (by decide)

/-- Writing the configuration, as long as a locked one is valid. -/
theorem State.Inv.same' {s t : State} (h : s.Inv) (hpar : t.par = s.par) (hready : t.ready = s.ready)
   (hlv : t.cfg.locked = true → t.cfgValid = true) (hrc : t.rc = s.rc) (htk : t.tk = s.tk) (hports :
       t.ports = s.ports)
   (hmem : Memory.wf t.mem = true) : t.Inv := by
  have hport : ∀ p, t.port p = s.port p := by intro p; simp [State.port, hports]
  have hw : ∀ p, t.waiting p = s.waiting p := by intro p; simp [State.waiting, htk]
  have hh : ∀ p, t.holds p = s.holds p := by intro p; simp [State.holds, htk]
  have he : ∀ p, t.portExists p = s.portExists p := by intro p; simp [State.portExists, hpar]
  refine ⟨hmem, hlv, ?_, ?_, ?_, ?_⟩
  · intro p
    exact (h.port p).congr (by rw [hport]) (by rw [hport]) (by rw [hport]) (by rw [hport]) (by rw [hport]) (he p) (hw p)
        (hh p) (by rw [hrc]; exact fun a b => ⟨a, b⟩)
  · constructor
    · rw [htk, hw]; exact h.token.1
    · rw [htk, he]; exact h.token.2
    · rw [htk]; exact h.token.3
  · exact h.ring.congr hrc (fun _ => by rw [htk]; exact ⟨rfl, rfl⟩) hpar (fun _ => by rw [hport]; exact
      ⟨rfl, rfl⟩)
  · refine ⟨?_, ?_, ?_⟩
    · rw [hready]; intro hr p; rw [hport]; exact h.quiet.ports hr p
    · rw [hready, hrc]; exact h.quiet.ring
    · rw [hready, htk]; exact h.quiet.token

/-- What the invariant says of a port that runs no command. -/
theorem State.Inv.idlePort {s : State} (h : s.Inv) {q : Port} (hb : (s.port q).busy = false) :
    (s.port q).blocked = false ∧ (s.port q).seq.kind = .none ∧ (s.port q).seq.phase = .none ∧
      (s.port q).seq.queued = false ∧ s.waiting q = false ∧
    (s.rc.state ≠ .idle → s.rc.owner ≠ q) := by
  have hp := h.port q
  have hbl : (s.port q).blocked = false := by
    by_contra hc
    have := hp.blockedBusy (by simpa using hc)
    simp [hb] at this
  have hk := hp.idleKind hb
  have hph : (s.port q).seq.phase = .none := by simpa [hk, kindHasPhase] using hp.kindPhase
  refine ⟨hbl, hk, hph, hp.unqueued (by simp [hph]), ?_, ?_⟩
  · by_contra hc
    have := (hp.waitHolds (by simpa using hc)).1
    simp [hbl] at this
  · rintro hs rfl
    have := (h.ring.ownerBlocked hs).1
    simp [hbl] at this

/-- A macro-command's port takes another phase. -/
theorem Loose.install {s : State} {q : Port} {p : PortState} (h : Loose s q) (hready : s.ready = true)
    (hbusy : p.busy = true)
   (hk : p.seq.kind ≠ .none) (hkp : kindHasPhase p.seq.kind p.seq.phase = true)
   (hh : holderPhase p.seq.phase = true → s.holds q = true) (hacq : p.seq.phase = .acq → p.blocked = false)
   (hq : p.seq.queued = false) (hw : p.blocked = true → waitPhase p.seq.phase = true) :
   (s.setPort q p).Inv := by
  refine (h.setPort p).toInv ?_ hready
  constructor
  · intro _; simpa using hbusy
  · intro _; exact h.qExists
  · simp [hbusy]
  · simpa using hkp
  · simp [h.qNotWaiting]
  · intro ha hb
    simp only [setPort_port_same] at ha hb
    simp [hacq ha] at hb
  · simp [hq]
  · intro hp; exact hh (by simpa [PortState.pastGrant, hq] using hp)
  · intro _ hk'; exact absurd (by simpa using hk') hk
  · intro hb; simpa using hw (by simpa using hb)

/-! ### FATAL (`60_exceptions.md` R214) -/

theorem PortInv.cutOff_idle {s : State} {q : Port} (h : PortInv s q) :
   (s.port q).cutOff.busy = false ∧ (s.port q).cutOff.blocked = false ∧ (s.port q).cutOff.seq.kind = .none
       ∧ (s.port q).cutOff.seq.phase = .none ∧ (s.port q).cutOff.seq.queued = false := by
  unfold PortState.cutOff
  split
  · exact ⟨rfl, rfl, rfl, rfl, rfl⟩
  · next hb =>
    have hb : (s.port q).busy = false := by simpa using hb
    have hk := h.idleKind hb
    have hph : (s.port q).seq.phase = .none := by simpa [hk, kindHasPhase] using h.kindPhase
    refine ⟨hb, ?_, hk, hph, h.unqueued (by simp [hph])⟩
    by_contra hc
    have := h.blockedBusy (by simpa using hc)
    simp [hb] at this

theorem Loose.enterFatal {s : State} {q : Port} (h : Loose s q) (hidle : s.rc.state = .idle) :
    Loose (s.enterFatal (some q)) q := by
  have hport : ∀ p, p ≠ q → (s.enterFatal (some q)).port p = (s.port p).cutOff := by
    intro p hp; rw [enterFatal_port]; simp [Ne.symm hp]
  have hw : ∀ p, (s.enterFatal (some q)).waiting p = false := by intro p; simp [State.waiting]
  refine ⟨h.memWf, h.lockedValid, ?_, ?_, h.qExists, hw q, h.qNotOwner, ?_, ?_, fun _ => hidle, fun _ =>
      rfl⟩
  · intro p hp
    obtain ⟨a, b, c, d, e⟩ := (h.others p hp).cutOff_idle
    exact portInv_idle (by rw [hport p hp, a]) (by rw [hport p hp, b]) (by rw [hport p hp, c])
      (by rw [hport p hp, d]) (by rw [hport p hp, e]) (hw p)
  · exact ⟨by simp, by simp, by simp⟩
  · exact h.ring.congr rfl (fun hs => absurd hidle hs) rfl (fun hs => absurd hidle hs)
  · intro _ p hp
    rw [hport p hp]; exact cutOff_busy _

theorem State.Inv.enterFatal {s : State} (h : s.Inv) (hidle : s.rc.state = .idle) :
    (s.enterFatal none).Inv := by
  have hport : ∀ p, (s.enterFatal none).port p = (s.port p).cutOff := by
    intro p; rw [enterFatal_port]; simp
  have hw : ∀ p, (s.enterFatal none).waiting p = false := by intro p; simp [State.waiting]
  refine ⟨h.memWf, h.lockedValid, ?_, ?_, ?_, ?_, fun _ => hidle, fun _ => rfl⟩
  · intro p
    obtain ⟨a, b, c, d, e⟩ := (h.port p).cutOff_idle
    exact portInv_idle (by rw [hport p, a]) (by rw [hport p, b]) (by rw [hport p, c]) (by rw [hport p, d])
      (by rw [hport p, e]) (hw p)
  · exact ⟨by simp, by simp, by simp⟩
  · exact h.ring.congr rfl (fun hs => absurd hidle hs) rfl (fun hs => absurd hidle hs)
  · intro _ p
    rw [hport p]; exact cutOff_busy _

/-! ### Register writes -/

theorem whenOpen_inv {s s' : State} (h : s.Inv) (hpar : s'.par = s.par) (hl : s'.cfg.locked = s.cfg.locked)
    (hf : s'.cfg.fatal = s.cfg.fatal)
   (hrc : s'.rc = s.rc) (htk : s'.tk = s.tk) (hports : s'.ports = s.ports) (hmem : s'.mem = s.mem) :
       (s.whenOpen s').Inv := by
  unfold State.whenOpen
  split
  · next ho =>
    have ho : s.cfg.locked = false := by simp [State.configOpen] at ho; exact ho.1
    refine h.same' hpar (by simp [State.ready, hl, hf]) ?_ hrc htk hports (hmem ▸ h.memWf)
    simp [hl, ho]
  · exact h

theorem lockStep_inv {s : State} (h : s.Inv) (ho : s.configOpen = true) : (lockStep s).Inv := by
  have ho1 : s.cfg.locked = false ∧ s.cfg.fatal = false := by simpa [State.configOpen] using ho
  have hr : s.ready = false := by simp [State.ready, ho1.1]
  unfold lockStep
  split
  · next hv =>
    have hv : s.cfgValid = true ∧ s.coproReady = true := by simpa using hv
    refine ⟨h.memWf, fun _ => hv.1, ?_, ?_, ?_, ?_⟩
    · intro p
      exact (h.port p).congr rfl rfl rfl rfl rfl rfl rfl rfl (fun a b => ⟨a, b⟩)
    · exact ⟨h.token.1, h.token.2, h.token.3⟩
    · exact h.ring.congr rfl (fun _ => ⟨rfl, rfl⟩) rfl (fun _ => ⟨rfl, rfl⟩)
    · refine ⟨?_, ?_, ?_⟩ <;> intro hx <;> simp [State.ready, ho1.2] at hx
  · refine State.Inv.enterFatal ?_ (h.quiet.ring hr)
    refine h.same' rfl rfl ?_ rfl rfl rfl h.memWf
    intro hl; exact absurd (ho1.1.symm.trans hl) (by decide)

theorem writeReg_inv {s : State} (h : s.Inv) (v : Word) (r : Reg) : (s.writeReg v r).Inv := by
  cases r <;> first
    | exact h
    | exact whenOpen_inv h rfl rfl rfl rfl rfl rfl rfl
    | exact h.setPort rfl rfl rfl rfl rfl
    | skip
  show (writeCfgCtrl v s).Inv
  unfold writeCfgCtrl
  split
  · next hc => exact lockStep_inv h (by simp at hc; exact hc.2)
  · exact h

end Sys2Proof.Machine
end

