-- ==== Sys2Proof/Laws/InvariantSteps.lean ====
section
/-! SUPPORT. The invariant through each kind of action: commands, datagrams, phases, GRANT, RC and CP. -/

namespace Sys2Proof.Machine

/-- An outcome whose next state is in order. -/
def NextInv (o : Host.Outcome State Fault Refusal) : Prop := ∀ t, o = .next t → t.Inv

theorem NextInv.next {t : State} (h : t.Inv) : NextInv (.next t) := by rintro _ ⟨⟩; exact h
theorem NextInv.fault {f : Fault} : NextInv (.fault f) := by rintro _ ⟨⟩
theorem NextInv.refused {f : Refusal} : NextInv (.refused f) := by rintro _ ⟨⟩

/-- A port that has just accepted a command (`30_encoding.md` R81). -/
structure Accepted (s : State) (q : Port) : Prop where
  loose : Loose s q
  issuer : s.issuer = q
  busy : (s.port q).busy = true
  unblocked : (s.port q).blocked = false
  kind : (s.port q).seq.kind = .none
  phase : (s.port q).seq.phase = .none
  unqueued : (s.port q).seq.queued = false

theorem State.Inv.accepted {s : State} (h : s.Inv) {q : Port} (he : s.portExists q = true) (hb : (s.port
    q).busy = false) (op : Byte) :
   Accepted (s.beginCommand q op) q := by
  obtain ⟨h1, h2, h3, h4, h5, h6⟩ := h.idlePort hb
  have hl := (h.loose he h5 h6).setPort { s.port q with busy := true, opcode := op }
  exact ⟨hl.same rfl rfl rfl rfl rfl rfl rfl, rfl, by simp, by simp [h1], by simp [h2], by simp [h3], by simp [h4]⟩

theorem Accepted.beginShow {s : State} {q : Port} (h : Accepted s q) (hr : s.ready = true) : (s.beginShow
    q).Inv :=
  h.loose.install hr h.busy (by simp [Seq.forShow]) (by simp [Seq.forShow, kindHasPhase]) (by simp
      [Seq.forShow, holderPhase]) (by simp [Seq.forShow]) h.unqueued (fun hb => absurd (h.unblocked.symm.trans hb) (by
      decide))
theorem Accepted.beginPlay {s : State} {q : Port} (h : Accepted s q) (hr : s.ready = true) : (s.beginPlay
    q).Inv :=
  h.loose.install hr h.busy (by simp [Seq.forPlay]) (by simp [Seq.forPlay, kindHasPhase]) (by simp
      [Seq.forPlay, holderPhase]) (by simp [Seq.forPlay]) h.unqueued (fun hb => absurd (h.unblocked.symm.trans hb) (by
      decide))
theorem Accepted.beginStop {s : State} {q : Port} (h : Accepted s q) (hr : s.ready = true) : (s.beginStop
    q).Inv :=
  h.loose.install hr h.busy (by simp [Seq.forStop]) (by simp [Seq.forStop, kindHasPhase]) (by simp
      [Seq.forStop, holderPhase]) (fun _ => h.unblocked) h.unqueued (fun hb => absurd (h.unblocked.symm.trans hb) (by
      decide))

theorem Accepted.exec {s : State} {q : Port} (h : Accepted s q) (hpar : paramsOk s.par = true) {i : Instr}
    (hi : i ∈ opcodeTable.map Prod.snd) : NextInv (exec i s) := by
  have ha := h
  obtain ⟨hl, rfl, hb, hub, hk, hp, hq⟩ := h
  have hkp : kindHasPhase (s.port s.issuer).seq.kind (s.port s.issuer).seq.phase = true := by simp [hk, hp,
      kindHasPhase]
  simp only [opcodeTable, List.map, List.mem_cons, List.not_mem_nil, or_false] at hi
  rcases hi with rfl | rfl | rfl | rfl | rfl | rfl | rfl | rfl <;> simp only [Machine.exec]
  · unfold execEncodeFrame
    split
    · refine .next (Loose.complete (s := { s with encOut := s.payload }) ?_ _)
      exact hl.same rfl rfl rfl rfl rfl rfl rfl
    · exact .next (hl.complete _)
  · unfold execXfer
    split
    · exact .next (hl.complete _)
    · next hr =>
      have hr : s.ready = true := by simpa using hr
      split
      · exact .next (hl.complete _)
      · next hh =>
        have hh : s.holds s.issuer = true := by simpa using hh
        unfold State.xferFor
        rcases startXfer_cases s s.issuer (s.operands s.issuer).frame (s.operands s.issuer).store with ⟨e,
            _, he⟩ | ⟨v, _, _, he⟩ | ⟨v, hv, _, he⟩ <;> rw [he]
        · exact .next ((hl.rcResult _ _).complete _)
        · exact .fault
        · exact .next (hl.started hpar hr hh hv hb hkp (.inl hp) (by simp [hq]))
  · unfold execAcquire
    split
    · next hr =>
      refine .next ?_
      unfold State.acquireFor
      split
      · exact hl.complete _
      · next hh =>
        have hh : s.holds s.issuer = false := by simp [State.reentrant] at hh; exact hh.1
        exact hl.enterWait hr hh hb hkp (.inl hp) (by simp [hq, hp])
    · exact .next (hl.complete _)
  · unfold execTryHandoff
    split
    · next hr => exact .next ((hl.handoff hr).complete _)
    · exact .next (hl.complete _)
  · unfold execRelease
    split
    · next hr => exact .next (hl.release.complete _)
    · exact .next (hl.complete _)
  · unfold execShowFrame
    split
    · next hr => exact .next (ha.beginShow hr)
    · exact .next (hl.complete _)
  · unfold execPlayFrames
    split
    · next hr => exact .next (ha.beginPlay hr)
    · exact .next (hl.complete _)
  · unfold execStopPlayback
    split
    · next hr => exact .next (ha.beginStop hr)
    · exact .next (hl.complete _)

theorem decodeWord_mem {w : Word} {i : Instr} (h : decodeWord w = .ok i) : i ∈ opcodeTable.map Prod.snd :=
    by
  unfold decodeWord at h
  split at h
  · cases h
  · split at h
    · next i' hl =>
      cases h
      have := List.lookup_eq_some_iff.1 hl
      obtain ⟨l1, l2, h1, _⟩ := this
      rw [h1]; simp
    · cases h

theorem issueWord_inv {s : State} (h : s.Inv) (hpar : paramsOk s.par = true) {q : Port} (he : s.portExists
    q = true) (w : Word) :
   NextInv (issueWord q w s) := by
  unfold issueWord
  split
  · exact .next (h.setPort rfl rfl rfl rfl rfl)
  · next hb =>
    have ha := h.accepted he (by simpa using hb) (opcodeField w)
    split
    · next i hd => exact ha.exec hpar (decodeWord_mem hd)
    · exact .next (ha.loose.complete _)

theorem blockReg_ne_cmd (o : Nat) (q : Port) : blockReg o ≠ .cmd q := by
  unfold blockReg; split <;> simp

theorem panelReg_ne_cmd (k : PanelIx) (o : Nat) (q : Port) : panelReg k o ≠ .cmd q := by
  unfold panelReg; split <;> simp

theorem portReg_cmd {q q' : Port} {o : Nat} (h : portReg q o = .cmd q') : q = q' := by
  unfold portReg at h; split at h <;> simp_all

theorem regAt_cmd {nreq off : Nat} (hn : nreq ≤ 32) {q : Port} (h : regAt nreq off = .cmd q) : q.val < nreq
    := by
  unfold regAt at h
  split at h
  · exact absurd h (blockReg_ne_cmd _ _)
  · split at h
    · exact absurd h (panelReg_ne_cmd _ _ _)
    · split at h
      · split at h
        · next hlt =>
          rw [← portReg_cmd h]
          simp only [Fin.val_ofNat]
          rw [Nat.mod_eq_of_lt (by omega)]; exact hlt
        · cases h
      · cases h

theorem registerWrite_inv {s : State} (h : s.Inv) (hpar : paramsOk s.par = true) (off size : Nat) (v :
    Word) :
   NextInv (registerWrite off size v s) := by
  unfold registerWrite
  split
  · split
    · unfold writeEffect
      split
      · next q hq =>
        refine issueWord_inv h hpar ?_ v
        have := regAt_cmd (ports_of_paramsOk hpar).2 hq
        simpa [State.portExists] using this
      · exact .next (writeReg_inv h v _)
    · exact .refused
  · exact .refused

theorem registerRead_inv {s : State} (h : s.Inv) (off size : Nat) : NextInv (registerRead off size s) := by
  have hl : ∀ r, (s.latchTime r).par = s.par ∧ (s.latchTime r).cfg = s.cfg ∧ (s.latchTime r).panel =
      s.panel ∧
    (s.latchTime r).rc = s.rc ∧ (s.latchTime r).tk = s.tk ∧ (s.latchTime r).ports = s.ports ∧ (s.latchTime
        r).mem = s.mem := by
    intro r; cases r <;> exact ⟨rfl, rfl, rfl, rfl, rfl, rfl, rfl⟩
  unfold registerRead
  split
  · split
    · obtain ⟨a, b, c, d, e, f, g⟩ := hl (regAt s.par.nreq off)
      exact .next (h.same a b c d e f (by show Memory.wf (s.latchTime _).mem = true; rw [g]; exact h.memWf))
    · exact .refused
  · split
    · exact .next (h.same rfl rfl rfl rfl rfl rfl h.memWf)
    · exact .refused

/-! ### Datagrams -/

theorem freePort_some {s : State} {q : Port} (h : s.freePort = some q) : s.portExists q = true ∧ (s.port
    q).busy = false := by
  have := List.find?_some h
  simpa using this

theorem log_inv {s : State} (h : s.Inv) (l : List LogEvent) : State.Inv { s with log := l } := h.same rfl
    rfl rfl rfl rfl rfl h.memWf

theorem execShowDatagram_inv {s : State} (h : s.Inv) (p : List Byte) (f : Word) : NextInv (execShowDatagram
    p f s) := by
  unfold execShowDatagram
  split
  · exact .next h
  · next hr =>
    have hr : s.ready = true := by simpa using hr
    split
    · exact .next (log_inv h _)
    · split
      · exact .next (log_inv h _)
      · next store _ _ q hq =>
        obtain ⟨he, hb⟩ := freePort_some hq
        have h' : (s.writeShowArgs q f store).Inv := h.setPort rfl rfl rfl rfl rfl
        exact .next ((h'.accepted he (by simpa [State.writeShowArgs] using hb) _).beginShow hr)

theorem execPlayDatagram_inv {s : State} (h : s.Inv) (p : List Byte) (a b c : Word) : NextInv
    (execPlayDatagram p a b c s) := by
  unfold execPlayDatagram
  split
  · exact .next h
  · next hr =>
    have hr : s.ready = true := by simpa using hr
    split
    · exact .next (log_inv h _)
    · split
      · exact .next (log_inv h _)
      · next store _ _ q hq =>
        obtain ⟨he, hb⟩ := freePort_some hq
        have h' : (s.writePlayArgs q a store b c).Inv := h.setPort rfl rfl rfl rfl rfl
        exact .next ((h'.accepted he (by simpa [State.writePlayArgs] using hb) _).beginPlay hr)

theorem execStopDatagram_inv {s : State} (h : s.Inv) : NextInv (execStopDatagram s) := by
  unfold execStopDatagram
  split
  · exact .next h
  · next hr =>
    have hr : s.ready = true := by simpa using hr
    split
    · exact .next (log_inv h _)
    · next q hq =>
      obtain ⟨he, hb⟩ := freePort_some hq
      exact .next ((State.Inv.accepted h he hb _).beginStop hr)

theorem recognise_form {ts : List (List Byte)} {i : Instr} (h : recognise ts = some i) :
   (∃ p f, i = .showDatagram p f) ∨ (∃ p a b c, i = .playDatagram p a b c) ∨ i = .stopDatagram := by
  unfold recognise at h
  split at h
  · unfold recogniseStop at h; split at h <;> simp_all
  · unfold recogniseShow at h
    split at h
    · obtain ⟨f, _, rfl⟩ := Option.map_eq_some_iff.1 h; exact .inl ⟨_, _, rfl⟩
    · cases h
  · unfold recognisePlay at h
    split at h
    · split at h
      · cases h; exact .inr (.inl ⟨_, _, _, _, rfl⟩)
      · cases h
    · cases h
  · cases h

theorem deliverDatagram_inv {s : State} (h : s.Inv) (d : List Byte) : NextInv (deliverDatagram d s) := by
  unfold deliverDatagram
  split
  · exact .next h
  · split
    · next i hd =>
      unfold decodeDatagram at hd
      split at hd
      · cases hd
      · split at hd
        · next i' hi =>
          cases hd
          rcases recognise_form hi with ⟨p, f, rfl⟩ | ⟨p, a, b, c, rfl⟩ | rfl
          · exact execShowDatagram_inv h _ _
          · exact execPlayDatagram_inv h _ _ _ _
          · exact execStopDatagram_inv h
        · cases hd
    · exact .next (log_inv h _)

/-- A port whose macro-command takes a phase step. -/
structure Running (s : State) (q : Port) : Prop where
  loose : Loose s q
  ready : s.ready = true
  busy : (s.port q).busy = true
  kind : (s.port q).seq.kind ≠ .none
  kindPhase : kindHasPhase (s.port q).seq.kind (s.port q).seq.phase = true
  holds : (s.port q).pastGrant = true → s.holds q = true
  queuedAcq : (s.port q).seq.queued = true → (s.port q).seq.phase = .acq
  waits : (s.port q).blocked = true → waitPhase (s.port q).seq.phase = true

/-- Outside ACQ no ACQUIRE of its own is under way. -/
theorem Running.unqueued {s : State} {q : Port} (h : Running s q) (hp : (s.port q).seq.phase ≠ .acq) :
    (s.port q).seq.queued = false := by
  by_contra hc
  exact hp (h.queuedAcq (by simpa using hc))

/-- In the phases after ACQ it holds the token. -/
theorem Running.holder {s : State} {q : Port} (h : Running s q) (hp : holderPhase (s.port q).seq.phase = true) :
    s.holds q = true :=
  h.holds (by simp [PortState.pastGrant, hp])

theorem State.Inv.running {s : State} (h : s.Inv) {q : Port} (hb : (s.port q).busy = true) (hk : (s.port
    q).seq.kind ≠ .none)
   (hacq : (s.port q).seq.phase = .acq → (s.port q).blocked = false)
   (hx : (s.port q).seq.phase = .xfer → (s.port q).blocked = true → s.rc.state = .idle) : Running s q := by
  have hp := h.port q
  have hr : s.ready = true := by
    by_contra hc
    have := h.quiet.ports (by simpa using hc) q
    simp [hb] at this
  have hne : (s.port q).seq.phase ≠ .none := by
    intro e
    have := hp.kindPhase
    rw [e] at this
    revert this hk
    cases (s.port q).seq.kind <;> simp [kindHasPhase]
  have hw : s.waiting q = false := by
    by_contra hc
    obtain ⟨a, b⟩ := hp.waitHolds (by simpa using hc)
    rcases b with b | b
    · exact hne b
    · simp [hacq b] at a
  have ho : s.rc.state ≠ .idle → s.rc.owner ≠ q := by
    rintro hs rfl
    obtain ⟨a, b⟩ := h.ring.ownerBlocked hs
    rcases b with b | b
    · exact hne b
    · exact hs (hx b a)
  exact ⟨h.loose (hp.busyExists hb) hw ho, hr, hb, hk, hp.kindPhase, hp.phaseHolds,
    hp.queuedAcq, hp.blockedWaits⟩

/-- It goes to another phase. -/
theorem Running.goto {s : State} {q : Port} (h : Running s q) {p : PortState} (hb : p.busy = true) (hk :
    p.seq.kind = (s.port q).seq.kind)
   (hkp : kindHasPhase (s.port q).seq.kind p.seq.phase = true)
   (hh : holderPhase p.seq.phase = true → s.holds q = true) (hacq : p.seq.phase = .acq → p.blocked = false)
   (hq : p.seq.queued = false) (hw : p.blocked = true → waitPhase p.seq.phase = true) : (s.setPort q p).Inv :=
  h.loose.install h.ready hb (hk ▸ h.kind) (hk ▸ hkp) hh hacq hq hw

theorem Running.same {s t : State} {q : Port} (h : Running s q) (hpar : t.par = s.par) (hcfg : t.cfg =
    s.cfg)
   (hpanel : t.panel = s.panel) (hrc : t.rc = s.rc) (htk : t.tk = s.tk) (hports : t.ports = s.ports) (hmem
       : t.mem = s.mem) : Running t q := by
  have hport : t.port q = s.port q := by simp [State.port, hports]
  refine ⟨h.loose.same hpar hcfg hpanel hrc htk hports hmem, by simpa [State.ready, hcfg] using h.ready, ?_, ?_, ?_,
    ?_, ?_, ?_⟩ <;> rw [hport]
  · exact h.busy
  · exact h.kind
  · exact h.kindPhase
  · simpa [State.holds, htk] using h.holds
  · exact h.queuedAcq
  · exact h.waits

theorem Running.setPort {s : State} {q : Port} (h : Running s q) {p : PortState} (hb : p.busy = true) (hk :
    p.seq.kind = (s.port q).seq.kind)
   (hp : p.seq.phase = (s.port q).seq.phase) (hq : p.seq.queued = false)
   (hbl : p.blocked = false) : Running (s.setPort q p) q :=
  ⟨h.loose.setPort p, h.ready, by simpa using hb, by simpa [hk] using h.kind, by simpa [hk, hp] using h.kindPhase,
    by simpa [PortState.pastGrant, hq, hp] using h.holder, by simp [hq], by simp [hbl]⟩

theorem Running.rcResult {s : State} {q : Port} (h : Running s q) (r : Result) (f : Flags) :
   Running (s.setRc { s.rc with result := r, flags := f }) q :=
  ⟨h.loose.rcResult r f, h.ready, h.busy, h.kind, h.kindPhase, h.holds, h.queuedAcq, h.waits⟩

theorem Running.toAcq {s : State} {q : Port} (h : Running s q) (hp : (s.port q).seq.phase = .validate)
   (hkp : kindHasPhase (s.port q).seq.kind .acq = true) : (s.setPhase q .acq).Inv := by
  refine h.goto h.busy rfl hkp (by simp [holderPhase]) (fun _ => ?_) (h.unqueued (by simp [hp])) (by simp [waitPhase])
  by_contra hc
  have := h.waits (by simpa using hc)
  simp [hp, waitPhase] at this

theorem Running.invalid {s : State} {q : Port} (h : Running s q) (e : Result) : (s.invalidCommand q e).Inv
    :=
  (h.same (t := s.logEvent (some q) .cmdInvalid e.word 0) rfl rfl rfl rfl rfl rfl rfl).loose.complete e

/-- The phase after ACQ is one of its kind's. -/
theorem kindHasPhase_afterAcq (k : Kind) : kindHasPhase k k.afterAcq = true := by cases k <;> decide

theorem afterAcq_ne_acq (k : Kind) : k.afterAcq ≠ .acq := by cases k <;> decide

theorem Running.acq {s : State} {q : Port} (h : Running s q) (hp : (s.port q).seq.phase = .acq)
    (hbl : (s.port q).blocked = false) : (acqPhase q s).Inv := by
  unfold acqPhase
  rw [hbl, if_neg (by decide)]
  split
  · next hq =>
    exact h.goto h.busy rfl (kindHasPhase_afterAcq _) (fun _ => h.holds (by simp [PortState.pastGrant, hq, hbl]))
      (fun e => absurd e (afterAcq_ne_acq _)) rfl (by simp [hbl])
  · split
    · exact h.loose.complete _
    · next hh =>
      have hh : s.holds q = false := by simp [State.reentrant] at hh; exact hh.1
      exact (h.loose.setPort _).enterWait h.ready hh (by simpa using h.busy) (by simpa using h.kindPhase)
        (.inr (by simpa using hp)) (by simp [hp])

theorem acqPhase_inv {s : State} (h : s.Inv) {q : Port} (hb : (s.port q).busy = true) (hk : (s.port
    q).seq.kind ≠ .none)
   (hp : (s.port q).seq.phase = .acq) : (acqPhase q s).Inv := by
  by_cases hbl : (s.port q).blocked = true
  · unfold acqPhase; rw [if_pos hbl]; exact h
  · have hbl : (s.port q).blocked = false := by simpa using hbl
    exact (h.running hb hk (fun _ => hbl) (by simp [hp])).acq hp hbl

theorem Running.poll {s : State} {q : Port} (h : Running s q) (hp : (s.port q).seq.phase = .poll) :
    (pollPhase q s).Inv := by
  unfold pollPhase
  rcases handoffFor_cases s q with ⟨hh, e⟩ | ⟨hh, _, e⟩ | ⟨hh, w, hw, _, e⟩ <;> rw [e] <;> simp only
  · exact h.loose.complete _
  · refine h.goto h.busy rfl ?_ (fun _ => hh) (by simp) (h.unqueued (by simp [hp])) (by simp [waitPhase])
    have := h.kindPhase
    rw [hp] at this
    revert this
    cases (s.port q).seq.kind <;> simp [kindHasPhase]
  · exact (h.loose.grantTo h.ready hw (h.loose.idle_of_holds hh) (Loose.no_other hh)).complete _

theorem sleepUntil_inv {s : State} {q : Port} (h : Running s q) {p : Phase} (w : U64) (hkp : kindHasPhase
    (s.port q).seq.kind p = true)
   (hh : s.holds q = true) (hw : waitPhase p = true) (hne : p ≠ .acq) (hq : (s.port q).seq.queued = false) :
   (s.sleepUntil q p w).Inv :=
  h.goto h.busy rfl hkp (fun _ => hh) (fun e => absurd e hne) hq (fun _ => hw)

theorem wakePhase_inv {s : State} (h : s.Inv) {q : Port} (hb : (s.port q).busy = true) (hk : (s.port
    q).seq.kind ≠ .none)
   (hp : (s.port q).seq.phase = .backoff ∨ (s.port q).seq.phase = .pace) (hkp : kindHasPhase (s.port
       q).seq.kind .poll = true) : (wakePhase q s).Inv := by
  unfold wakePhase
  split
  · exact h
  · have hrun := h.running hb hk (by rcases hp with hp | hp <;> simp [hp]) (by rcases hp with hp | hp <;>
      simp [hp])
    have hh : s.holds q = true := hrun.holder (by rcases hp with hp | hp <;> simp [hp, holderPhase])
    have : (s.setPhase q .poll).setBlocked q false = s.setPort q { s.port q with blocked := false, seq := {
        (s.port q).seq with phase := .poll } } := by
      simp [State.setBlocked, State.setPhase, State.setSeq]
    rw [this]
    exact hrun.goto hrun.busy rfl hkp (fun _ => hh) (by simp)
      (hrun.unqueued (by rcases hp with hp | hp <;> simp [hp])) (by simp)

theorem fatalTransfer_inv {s : State} {q : Port} (h : Running s q) (hh : s.holds q = true) (r : Result) :
    (s.fatalTransfer q r).Inv := by
  have h1 := h.same (t := s.logEvent (some q) .fatal r.word 0) rfl rfl rfl rfl rfl rfl rfl
  exact (h1.loose.enterFatal (h.loose.idle_of_holds hh)).complete r

theorem Running.recordLast {s : State} {q : Port} (h : Running s q) (hq : (s.port q).seq.queued = false)
    (r : Result) : Running (s.recordLast q r) q :=
  h.setPort h.busy rfl rfl hq rfl

theorem Running.log {s : State} {q : Port} (h : Running s q) (l : Option Port) (k : LogKind) (a b : Word) :
    Running (s.logEvent l k a b) q :=
  h.same rfl rfl rfl rfl rfl rfl rfl

theorem showXferDone_inv {s : State} {q : Port} (h : Running s q) (hh : s.holds q = true) (hk : (s.port
    q).seq.kind = .showCmd) (hq : (s.port q).seq.queued = false) (r : Result) :
   (showXferDone q r s).Inv := by
  have h1 := h.recordLast hq r
  unfold showXferDone
  split
  · refine (h1.log _ _ _ _).goto ?_ ?_ ?_ (fun _ => hh) (by simp) (by simpa using hq) (by simp)
    · simpa using h.busy
    · simp
    · simp [hk, kindHasPhase]
  · have h2 := h1.log (some q) .showFail (s.port q).seq.idx r.word
    unfold showRetry
    split
    · exact fatalTransfer_inv h2 hh r
    · exact sleepUntil_inv h2 _ (by simp [hk, kindHasPhase]) hh (by decide) (by decide)
        (by simpa using hq)

theorem playXferDone_inv {s : State} {q : Port} (h : Running s q) (hh : s.holds q = true) (hk : (s.port
    q).seq.kind = .playCmd) (hq : (s.port q).seq.queued = false) (r : Result) :
   (playXferDone q r s).Inv := by
  have h2 := (h.recordLast hq r).log (some q) .playFrame (s.port q).seq.idx r.word
  have hpace : (playPace q ((s.recordLast q r).logEvent (some q) .playFrame (s.port q).seq.idx r.word)).Inv
      :=
    sleepUntil_inv h2 _ (by simp [hk, kindHasPhase]) hh (by decide) (by decide) (by simpa using hq)
  unfold playXferDone
  simp only
  split
  · split
    · exact h2.goto h2.busy rfl (by simp [hk, kindHasPhase]) (fun _ => hh) (by simp) (by simpa using hq) (by simp)
    · exact hpace
  · unfold playFailed
    split
    · exact fatalTransfer_inv h2 hh r
    · exact hpace

theorem showStep_inv {s : State} (h : s.Inv) (hpar : paramsOk s.par = true) {q : Port} (hb : (s.port
    q).busy = true) (hk : (s.port q).seq.kind = .showCmd) :
   NextInv (showStep q s) := by
  have hk' : (s.port q).seq.kind ≠ .none := by simp [hk]
  unfold showStep
  split <;> rename_i hp
  · have hrun := h.running hb hk' (by simp [hp]) (by simp [hp])
    refine .next ?_
    unfold showValidate
    split
    · exact hrun.invalid _
    · exact hrun.toAcq hp (by simp [hk, kindHasPhase])
  · exact .next (acqPhase_inv h hb hk' hp)
  · exact .next ((h.running hb hk' (by simp [hp]) (by simp [hp])).poll hp)
  · unfold showXfer
    have hh : s.holds q = true := (h.port q).phaseHolds (by simp [hp, holderPhase, PortState.pastGrant])
    have hq : (s.port q).seq.queued = false := (h.port q).unqueued (by simp [hp])
    split
    · next hbl =>
      split
      · next hidle =>
        exact .next (showXferDone_inv (h.running hb hk' (by simp [hp]) (fun _ _ => hidle)) hh hk hq _)
      · exact .next h
    · next hbl =>
      have hrun := h.running hb hk' (by simp [hp]) (fun _ hc => absurd hc hbl)
      rcases startXfer_cases s q (s.port q).seq.idx (s.port q).seq.store with ⟨e, _, he⟩ | ⟨v, _, _, he⟩ |
          ⟨v, hv, _, he⟩ <;> rw [he]
      · exact .next (showXferDone_inv (hrun.rcResult e Flags.clear) hh hk hq _)
      · exact .fault
      · exact .next (hrun.loose.started hpar hrun.ready hh hv hb hrun.kindPhase (.inr hp) hrun.queuedAcq)
  · exact .next (wakePhase_inv h hb hk' (.inl hp) (by simp [hk, kindHasPhase]))
  · exact .next ((h.running hb hk' (by simp [hp]) (by simp [hp])).loose.release.complete _)
  all_goals exact .next h

theorem playStep_inv {s : State} (h : s.Inv) (hpar : paramsOk s.par = true) {q : Port} (hb : (s.port
    q).busy = true) (hk : (s.port q).seq.kind = .playCmd) :
   NextInv (playStep q s) := by
  have hk' : (s.port q).seq.kind ≠ .none := by simp [hk]
  unfold playStep
  split <;> rename_i hp
  · have hrun := h.running hb hk' (by simp [hp]) (by simp [hp])
    refine .next ?_
    unfold playValidate
    split
    · exact hrun.invalid _
    · split
      · exact hrun.invalid _
      · exact hrun.toAcq hp (by simp [hk, kindHasPhase])
  · exact .next (acqPhase_inv h hb hk' hp)
  · have hrun := h.running hb hk' (by simp [hp]) (by simp [hp])
    have hh : s.holds q = true := hrun.holder (by simp [hp, holderPhase])
    refine .next (hrun.goto hrun.busy rfl (by simp [hk, kindHasPhase]) (fun _ => hh) (by simp)
      (hrun.unqueued (by simp [hp])) (fun hc => ?_))
    have := hrun.waits hc
    simp [hp, waitPhase] at this
  · exact .next ((h.running hb hk' (by simp [hp]) (by simp [hp])).poll hp)
  · unfold playXfer
    have hh : s.holds q = true := (h.port q).phaseHolds (by simp [hp, holderPhase, PortState.pastGrant])
    have hq : (s.port q).seq.queued = false := (h.port q).unqueued (by simp [hp])
    split
    · next hbl =>
      split
      · next hidle =>
        exact .next (playXferDone_inv (h.running hb hk' (by simp [hp]) (fun _ _ => hidle)) hh hk hq _)
      · exact .next h
    · next hbl =>
      have hrun := h.running hb hk' (by simp [hp]) (fun _ hc => absurd hc hbl)
      have hrun' : Running (s.choosePlayIndex q) q := hrun.setPort hb rfl rfl hq (by simpa using hbl)
      have hk1 : ((s.choosePlayIndex q).port q).seq.kind = .playCmd := by simp [State.choosePlayIndex, hk]
      have hp1 : ((s.choosePlayIndex q).port q).seq.phase = .xfer := by simp [State.choosePlayIndex, hp]
      have hq1 : ((s.choosePlayIndex q).port q).seq.queued = false := by simp [State.choosePlayIndex, hq]
      have hb1 : ((s.choosePlayIndex q).port q).busy = true := by simp [State.choosePlayIndex, hb]
      have hh1 : (s.choosePlayIndex q).holds q = true := hh
      simp only
      rcases startXfer_cases (s.choosePlayIndex q) q ((s.choosePlayIndex q).port q).seq.idx
          ((s.choosePlayIndex q).port q).seq.store with ⟨e, _, he⟩ | ⟨v, _, _, he⟩ | ⟨v, hv, _, he⟩ <;> rw
          [he]
      · exact .next (playXferDone_inv (hrun'.rcResult e Flags.clear) hh hk1 hq1 _)
      · exact .fault
      · exact .next (hrun'.loose.started hpar hrun.ready hh1 hv hb1 hrun'.kindPhase (.inr hp1)
        hrun'.queuedAcq)
  · exact .next (wakePhase_inv h hb hk' (.inr hp) (by simp [hk, kindHasPhase]))
  · have hrun := h.running hb hk' (by simp [hp]) (by simp [hp])
    refine .next ?_
    unfold playRelease
    split
    · refine Loose.complete (s := (s.releaseFor q).1.logEvent (some q) .playDone (s.port q).seq.upto 0) ?_ _
      exact hrun.loose.release.same rfl rfl rfl rfl rfl rfl rfl
    · exact hrun.loose.release.complete _
  all_goals exact .next h

theorem stopStep_inv {s : State} (h : s.Inv) {q : Port} (hb : (s.port q).busy = true) (hk : (s.port
    q).seq.kind = .stopCmd) :
   NextInv (stopStep q s) := by
  have hk' : (s.port q).seq.kind ≠ .none := by simp [hk]
  unfold stopStep
  split <;> rename_i hp
  · exact .next (acqPhase_inv h hb hk' hp)
  · exact .next ((h.running hb hk' (by simp [hp]) (by simp [hp])).loose.release.complete _)
  all_goals exact .next h

theorem portStep_inv {s : State} (h : s.Inv) (hpar : paramsOk s.par = true) (q : Port) : NextInv (portStep
    q s) := by
  unfold portStep
  split
  · next hc =>
    have hb : (s.port q).busy = true := by simp at hc; exact hc.2
    split <;> rename_i hk
    · exact .next h
    · exact showStep_inv h hpar hb hk
    · exact playStep_inv h hpar hb hk
    · exact stopStep_inv h hb hk
  · exact .next h

/-! ### GRANT -/

theorem State.Inv.waiting_ready {s : State} (h : s.Inv) {w : Port} (hw : s.waiting w = true) : s.ready =
    true := by
  by_contra hc
  have := h.quiet.ports (by simpa using hc) w
  rw [(h.port w).blockedBusy ((h.port w).waitHolds hw).1] at this
  cases this

theorem grantStep_inv {s : State} (h : s.Inv) : (grantStep s).Inv := by
  unfold grantStep
  split
  · exact h
  · next hidle =>
    split
    · next w hd =>
      have hw := drawWaiter_waiting hd
      have hready := h.waiting_ready hw
      have hno : ∀ p, s.holds p = false := by intro p; simp [State.holds, hidle]
      have hrc : s.rc.state = .idle := by
        by_contra hc
        have := h.ring.ownerHolds hc
        simp [hno] at this
      refine ⟨by simpa using h.memWf, by simpa using h.lockedValid, ?_, TokenInv.granted (h.port w) hw, ?_,
          ?_⟩
      · intro p
        by_cases hpw : p = w
        · subst hpw; exact (h.port p).granted hw
        · exact (h.port p).passedOver hpw (hno p) hrc
      · exact h.ring.congr (by simp) (fun hs => absurd hrc hs) (by simp) (fun hs => absurd hrc hs)
      · exact ⟨by simp [hready], by simp [hready], by simp [hready]⟩
    · exact h

/-! ### RC -/


/-- RC moves on inside a transfer. -/
theorem State.Inv.advance {s t : State} (h : s.Inv) (hs : s.rc.state ≠ .idle)
   (hpar : t.par = s.par) (hcfg : t.cfg = s.cfg) (hpanel : t.panel = s.panel) (htk : t.tk = s.tk) (hports :
       t.ports = s.ports)
   (hmem : Memory.wf t.mem = true)
   (hst : t.rc.state ≠ .idle) (how : t.rc.owner = s.rc.owner) (hg : t.rc.g = s.rc.g) (htot : t.rc.total =
       s.rc.total)
   (hsto : t.rc.store = s.rc.store) (hsrc : t.rc.src = s.rc.src)
   (hle : t.rc.cursor.toNat ≤ t.rc.total.toNat) (hw : t.rc.cursor.toNat % (24 * t.rc.g.toNat) = 0) : t.Inv
       := by
  have hport : ∀ p, t.port p = s.port p := by intro p; simp [State.port, hports]
  have hw' : ∀ p, t.waiting p = s.waiting p := by intro p; simp [State.waiting, htk]
  have hh : ∀ p, t.holds p = s.holds p := by intro p; simp [State.holds, htk]
  have he : ∀ p, t.portExists p = s.portExists p := by intro p; simp [State.portExists, hpar]
  have hr : t.ready = s.ready := by simp [State.ready, hcfg]
  have hv : t.cfgValid = s.cfgValid := by
    simp [State.cfgValid, State.cfgChecks, State.validRows, State.rowOk, State.row, hcfg, hpanel]
    rfl
  refine ⟨hmem, ?_, ?_, ?_, ?_, ?_⟩
  · rw [hcfg, hv]; exact h.lockedValid
  · intro p
    exact (h.port p).congr (by rw [hport]) (by rw [hport]) (by rw [hport]) (by rw [hport]) (by rw [hport]) (he p) (hw' p)
        (hh p) (by rw [how]; exact fun a b => ⟨hst, b⟩)
  · constructor
    · rw [htk, hw']; exact h.token.1
    · rw [htk, he]; exact h.token.2
    · rw [htk]; exact h.token.3
  · constructor
    · intro _; rw [how, hh]; exact h.ring.ownerHolds hs
    · intro _; rw [how, hport]; exact h.ring.ownerBlocked hs
    · exact hle
    · intro _; exact hw
    · intro _; exact (h.ring.transfer hs).congr hpar hg htot hsto hsrc
  · refine ⟨?_, ?_, ?_⟩
    · rw [hr]; intro hr p; rw [hport]; exact h.quiet.ports hr p
    · rw [hr]; intro hr; exact absurd (h.quiet.ring hr) hs
    · rw [hr, htk]; exact h.quiet.token

theorem State.Inv.transfer_pos {s : State} (h : s.Inv) (hpar : paramsOk s.par = true) (hs : s.rc.state ≠
    .idle) : 0 < s.rc.g.toNat := by
  have := (h.ring.transfer hs).group
  have := group_of_paramsOk hpar
  omega

/-- How many bytes a fill writes (`41_ring_controller.md` R124, R144). -/
theorem fillCount_facts {s : State} (h : s.Inv) (hpar : paramsOk s.par = true) (hs : s.rc.state ≠ .idle) (r
    : Region)
   (hc : s.rc.cursor.toNat < s.rc.total.toNat) :
   s.fillCount r % (24 * s.rc.g.toNat) = 0 ∧ 24 * s.rc.g.toNat ≤ s.fillCount r ∧ s.rc.cursor.toNat +
       s.fillCount r ≤ s.rc.total.toNat
     ∧ s.fillCount r ≤ s.cap r - 8 := by
  have hg := h.transfer_pos hpar hs
  have ht := h.ring.transfer hs
  have hcw := h.ring.cursorWhole hg
  have h1 : (s.rc.total.toNat - s.rc.cursor.toNat) % (24 * s.rc.g.toNat) = 0 :=
    Nat.mod_eq_zero_of_dvd (Nat.dvd_sub (Nat.dvd_of_mod_eq_zero ht.wholeLeds) (Nat.dvd_of_mod_eq_zero hcw))
  have h2 : s.usable r s.rc.g.toNat % (24 * s.rc.g.toNat) = 0 := usableBytes_mod _ _
  have hmod : s.fillCount r % (24 * s.rc.g.toNat) = 0 := by
    unfold State.fillCount
    rcases Nat.le_total (s.usable r s.rc.g.toNat) (s.rc.total.toNat - s.rc.cursor.toNat) with hle | hle
    · rw [Nat.min_eq_left hle]; exact h2
    · rw [Nat.min_eq_right hle]; exact h1
  have hpos : 0 < s.fillCount r := by
    have := Nat.pos_of_ne_zero (ht.usable r)
    unfold State.fillCount
    omega
  refine ⟨hmod, le_of_mod_eq_zero hmod hpos, ?_, ?_⟩
  · have : s.fillCount r ≤ s.rc.total.toNat - s.rc.cursor.toNat := Nat.min_le_right _ _
    omega
  · exact (Nat.min_le_left _ _).trans (usableBytes_le _ _)

/-- The cursor after a fill. -/
theorem fill_cursor {s : State} (h : s.Inv) (hpar : paramsOk s.par = true) (hs : s.rc.state ≠ .idle) {r :
    Region} {bs : List Byte}
   (hc : s.rc.cursor.toNat < s.rc.total.toNat) (hb : s.fillBytes r = some bs) :
   (s.fillWith r bs).rc.cursor.toNat = s.rc.cursor.toNat + s.fillCount r := by
  obtain ⟨_, _, hlen, _⟩ := fillBytes_some hb
  obtain ⟨_, _, h3, _⟩ := fillCount_facts h hpar hs r hc
  have := s.rc.total.isLt
  show (BitVec.ofNat 32 (s.rc.cursor.toNat + bs.length)).toNat = _
  rw [hlen, BitVec.toNat_ofNat, Nat.mod_eq_of_lt (by omega)]

theorem fill_inv {s : State} (h : s.Inv) (hpar : paramsOk s.par = true) (hs : s.rc.state ≠ .idle) {r :
    Region} {bs : List Byte}
   (hc : s.rc.cursor.toNat < s.rc.total.toNat) (hb : s.fillBytes r = some bs) (x : Rc)
   (hx : x.state ≠ .idle) (hxo : x.owner = s.rc.owner) (hxg : x.g = s.rc.g) (hxt : x.total = s.rc.total)
       (hxs : x.store = s.rc.store)
   (hxr : x.src = s.rc.src) (hxc : x.cursor = (s.fillWith r bs).rc.cursor) :
   ((s.fillWith r bs).setRc x).Inv := by
  have hcur := fill_cursor h hpar hs hc hb
  obtain ⟨h1, h2, h3, _⟩ := fillCount_facts h hpar hs r hc
  have hg := h.transfer_pos hpar hs
  refine h.advance hs rfl rfl rfl rfl rfl ?_ hx hxo hxg hxt hxs hxr ?_ ?_
  · exact memWrite_wf _ _ _ (storeBytes_wf _ _ h.memWf)
  · show x.cursor.toNat ≤ x.total.toNat
    rw [hxc, hxt, hcur]; exact h3
  · show x.cursor.toNat % (24 * x.g.toNat) = 0
    rw [hxc, hxg, hcur]
    exact Nat.mod_eq_zero_of_dvd (Nat.dvd_add (Nat.dvd_of_mod_eq_zero (h.ring.cursorWhole hg))
        (Nat.dvd_of_mod_eq_zero h1))

theorem advance_rc {s : State} (h : s.Inv) (hpar : paramsOk s.par = true) (hs : s.rc.state ≠ .idle) (x : Rc)
   (hx : x.state ≠ .idle) (hxo : x.owner = s.rc.owner) (hxg : x.g = s.rc.g) (hxt : x.total = s.rc.total)
       (hxs : x.store = s.rc.store)
   (hxr : x.src = s.rc.src) (hxc : x.cursor = s.rc.cursor) : (s.setRc x).Inv := by
  refine h.advance hs rfl rfl rfl rfl rfl h.memWf hx hxo hxg hxt hxs hxr ?_ ?_
  · show x.cursor.toNat ≤ x.total.toNat
    rw [hxc, hxt]; exact h.ring.cursorLe
  · show x.cursor.toNat % (24 * x.g.toNat) = 0
    rw [hxc, hxg]; exact h.ring.cursorWhole (h.transfer_pos hpar hs)

theorem setupRegion_wf {s : State} (r : Region) (h : Memory.wf s.mem = true) : Memory.wf (s.setupRegion
    r).mem = true :=
  memWrite_wf _ _ _ (memWrite_wf _ _ _ h)

theorem ringCheck_inv {s : State} (h : s.Inv) (hs : s.rc.state = .check) : (ringCheck s).Inv := by
  have hne : s.rc.state ≠ .idle := by simp [hs]
  obtain ⟨hbl, hph⟩ := h.ring.ownerBlocked hne
  have hh := h.ring.ownerHolds hne
  set t := s.setRc { s.rc with flags := s.completionFlags, result := s.completionFlags.result, state :=
      .idle } with ht
  have hq := h.port s.rc.owner
  have hw : s.waiting s.rc.owner = false := by
    have := h.token.1
    simp [State.holds] at hh
    rw [← hh.2]; exact this hh.1
  have hbu := hq.blockedBusy hbl
  -- the other ports do not care
  have hl : Loose t s.rc.owner := by
    refine ⟨h.memWf, h.lockedValid, ?_, ⟨h.token.1, h.token.2, h.token.3⟩, hq.busyExists hbu, hw, by simp
        [ht], ?_, ?_, fun _ => rfl, h.quiet.token⟩
    · intro p hp
      obtain ⟨a1, a2, a3, a4, a5, a6, a7, a8, a9, a10⟩ := h.port p
      refine ⟨a1, a2, a3, a4, a5, a6, a7, a8, ?_, a10⟩
      intro b k
      rcases a9 b k with a | ⟨_, a⟩
      · exact .inl a
      · exact absurd a.symm hp
    · exact ⟨by simp [ht], by simp [ht], h.ring.cursorLe, h.ring.cursorWhole, by simp [ht]⟩
    · intro hr p _; exact h.quiet.ports hr p
  show (State.finishOwner t).Inv
  unfold State.finishOwner
  have how : t.rc.owner = s.rc.owner := rfl
  rw [how]
  have hready : t.ready = true := by
    by_contra hc
    have := h.quiet.ports (by simpa [ht] using hc) s.rc.owner
    simp [hbu] at this
  have hrest : (s.port s.rc.owner).seq.kind ≠ .none → t.Inv := by
    intro hk
    refine hl.toInv ?_ hready
    obtain ⟨a1, a2, a3, a4, a5, a6, a7, a8, a9, a10⟩ := hq
    exact ⟨a1, a2, a3, a4, a5, a6, a7, a8, fun _ k => absurd k hk, a10⟩
  split <;> rename_i hk
  · exact hl.complete _
  all_goals exact hrest (by rw [show (s.port s.rc.owner).seq.kind = _ from hk]; decide)

theorem ringStep_inv {s : State} (h : s.Inv) (hpar : paramsOk s.par = true) : NextInv (ringStep s) := by
  intro t ht
  rcases ringStep_cases ht with ⟨_, rfl⟩ | ⟨hs, rfl⟩ | ⟨hs, rfl⟩ | ⟨hs, hc, r, bs, _, hb, rfl⟩ | ⟨hs, rfl⟩
      | ⟨hs, _, rfl⟩ |
    ⟨hs, _, hc, _, bs, hb, rfl⟩ | ⟨hs, _, rfl⟩ | ⟨_, _, rfl⟩ | ⟨hs, _, rfl⟩ | ⟨hs, rfl⟩
  · exact h
  · have hne : s.rc.state ≠ .idle := by simp [hs]
    have hcur := h.ring.cursorWhole (h.transfer_pos hpar hne)
    refine h.advance hne (by simp) (by simp) (by simp) (by simp) (by simp) ?_ (by simp) (by simp) (by simp)
      (by simp) (by simp) (by simp) (by simpa using h.ring.cursorLe) (by simpa using hcur)
    rw [ringSetup_eq, setRc_mem]
    exact setupRegion_wf _ (setupRegion_wf _ (setupRegion_wf _ h.memWf))
  · exact advance_rc h hpar (by simp [hs]) _ (by simp) rfl rfl rfl rfl rfl rfl
  · exact fill_inv h hpar (by simp [hs]) hc hb _ (by show s.rc.state ≠ _; simp [hs]) rfl rfl rfl rfl rfl rfl
  · have h1 := advance_rc h hpar (by simp [hs])
      { s.rc with t0 := s.tNow, deadline := BitVec.ofNat 64 s.deadline, state := .drain } (by simp) rfl rfl
          rfl rfl rfl rfl
    exact h1.same rfl rfl rfl rfl rfl rfl h.memWf
  · exact advance_rc h hpar (by simp [hs]) _ (by simp) rfl rfl rfl rfl rfl rfl
  · exact fill_inv h hpar (by simp [hs]) hc hb _ (by show s.rc.state ≠ _; simp [hs]) rfl rfl rfl rfl rfl rfl
  · exact advance_rc h hpar (by simp [hs]) _ (by simp) rfl rfl rfl rfl rfl rfl
  · exact h
  · exact advance_rc h hpar (by simp [hs]) _ (by simp) rfl rfl rfl rfl rfl rfl
  · exact ringCheck_inv h hs

/-! ### CP -/

theorem setCp_inv {s : State} (h : s.Inv) (x : Cp) : (s.setCp x).Inv := h.same rfl rfl rfl rfl rfl rfl
    h.memWf

theorem cpConsume_inv {s : State} (h : s.Inv) : (cpConsume s).Inv := by
  unfold cpConsume
  split
  · split
    · exact setCp_inv h _
    · unfold State.consumeRegion State.followNext
      have h1 : State.Inv { s with out := s.out ++ s.regionGroups s.cp.c } := h.same rfl rfl rfl rfl rfl
          rfl h.memWf
      have h2 : State.Inv (State.memWrite { s with out := s.out ++ s.regionGroups s.cp.c } (s.base s.cp.c)
          4 0) :=
        h1.same rfl rfl rfl rfl rfl rfl (memWrite_wf _ _ _ h.memWf)
      split
      · exact setCp_inv h2 _
      · exact setCp_inv h2 _
  · exact h

/-- RC never meets the end of a store (`60_exceptions.md` R213). -/
theorem ringStep_noFault {s : State} (h : s.Inv) (f : Fault) : ringStep s ≠ .fault f := by
  intro hf
  obtain ⟨rfl, hne, r, hn⟩ := ringStep_fault hf
  obtain ⟨fs, hfs, hin⟩ := (h.ring.transfer hne).inStore
  obtain ⟨bs, hbs⟩ := fillBytes_isSome (r := r) hfs hin h.ring.cursorLe
  rw [hn] at hbs
  cases hbs

/-! ### Taking the next event -/

theorem takeEvent_par (s : State) : s.takeEvent.par = s.par := by
  unfold State.takeEvent
  split <;> rfl

theorem takeEvent_inv {s : State} (h : s.Inv) : s.takeEvent.Inv := by
  unfold State.takeEvent
  split <;> exact h.same rfl rfl rfl rfl rfl rfl h.memWf

end Sys2Proof.Machine
end

