-- ==== Sys2Proof/Laws/Frames.lean ====
section
/-! SUPPORT. What the actions of every agent but RC, CP and the outside world leave as it is: region memory, the
consumer, all of RC but what a command writes; and how the token, the configuration, the log and time move. -/

namespace Sys2Proof.Machine

/-- What no action undoes (`10_state.md` R25, R35, R36, `70_reset_and_hazards.md` R240, R241). -/
structure OneWay (s t : State) : Prop where
  par : t.par = s.par
  locked : s.cfg.locked = true →
    t.panel = s.panel ∧ t.cfg.nc = s.cfg.nc ∧ t.cfg.nl = s.cfg.nl ∧ t.cfg.np = s.cfg.np ∧ t.cfg.locked = true
  cfgErr : s.cfg.cfgErr = true → t.cfg.cfgErr = true
  hwErr : s.cfg.hwErr = true → t.cfg.hwErr = true
  fatal : s.cfg.fatal = true → t.cfg.fatal = true
  copro : s.coproReady = true → t.coproReady = true
  log : s.log <+: t.log
  time : s.tNow.toNat ≤ t.tNow.toNat

/-- The configuration, the inputs and time are as before; the log may have grown. -/
theorem OneWay.keep {s t : State} (par : t.par = s.par) (cfg : t.cfg = s.cfg) (panel : t.panel = s.panel)
    (copro : t.coproReady = s.coproReady) (time : t.tNow = s.tNow) (log : s.log <+: t.log) : OneWay s t :=
  ⟨par, fun h => ⟨panel, by rw [cfg], by rw [cfg], by rw [cfg], by rw [cfg]; exact h⟩, fun h => by rw [cfg]; exact h,
    fun h => by rw [cfg]; exact h, fun h => by rw [cfg]; exact h, fun h => by rw [copro]; exact h, log, by rw [time]⟩

theorem OneWay.refl (s : State) : OneWay s s := .keep rfl rfl rfl rfl rfl List.prefix_rfl

theorem OneWay.trans {s t u : State} (h : OneWay s t) (h' : OneWay t u) : OneWay s u := by
  refine ⟨h'.par.trans h.par, fun hl => ?_, fun x => h'.cfgErr (h.cfgErr x), fun x => h'.hwErr (h.hwErr x),
    fun x => h'.fatal (h.fatal x), fun x => h'.copro (h.copro x), h.log.trans h'.log, h.time.trans h'.time⟩
  obtain ⟨a, b, c, d, e⟩ := h.locked hl
  obtain ⟨a', b', c', d', e'⟩ := h'.locked e
  exact ⟨a'.trans a, b'.trans b, c'.trans c, d'.trans d, e'⟩

/-- How the token moves in one action (`42_token_arbiter.md` R151-R154, `60_exceptions.md` R214). -/
def TokenMove (s t : State) : Prop :=
  t.tk = s.tk ∨ (∃ q, s.holds q = false ∧ s.waiting q = false ∧ t.tk = (s.enqueue q).tk) ∨
    (∃ w, s.waiting w = true ∧ t.tk = (s.grantTo w).tk) ∨ (∃ q, s.holds q = true ∧ t.tk = s.freeToken.tk) ∨
    (t.cfg.fatal = true ∧ t.tk = ⟨.idle, 0, 0⟩)

theorem TokenMove.congr {s s' t : State} (e : s'.tk = s.tk) (h : TokenMove s' t) : TokenMove s t := by
  unfold TokenMove at *
  simpa only [State.holds, State.waiting, grantTo_tk, State.enqueue, State.freeToken, setTk_tk, e] using h

/-- The ring, its memory, the token and the configuration are as before; the log may have grown. -/
structure RingSame (s t : State) : Prop where
  par : t.par = s.par
  mem : t.mem = s.mem
  cp  : t.cp = s.cp
  out : t.out = s.out
  rc  : t.rc = s.rc
  tk  : t.tk = s.tk
  cfg : t.cfg = s.cfg
  panel : t.panel = s.panel
  copro : t.coproReady = s.coproReady
  time : t.tNow = s.tNow
  log : s.log <+: t.log

/-- The ring's memory and the consumer are as before; RC too, but that a validation error has written its result,
or an idle RC has been loaded; the token has moved at most once. -/
structure RingFrame (s t : State) : Prop where
  mem : t.mem = s.mem
  cp  : t.cp = s.cp
  out : t.out = s.out
  rc  : t.rc = s.rc ∨ (∃ e f, t.rc = { s.rc with result := e, flags := f }) ∨
    (s.rc.state = .idle ∧ ∃ q st v, t.rc = s.rc.load q st v)
  token : TokenMove s t
  oneWay : OneWay s t

theorem RingFrame.par {s t : State} (h : RingFrame s t) : t.par = s.par := h.oneWay.par

theorem RingSame.oneWay {s t : State} (h : RingSame s t) : OneWay s t :=
  .keep h.par h.cfg h.panel h.copro h.time h.log

theorem RingSame.refl (s : State) : RingSame s s :=
  ⟨rfl, rfl, rfl, rfl, rfl, rfl, rfl, rfl, rfl, rfl, List.prefix_rfl⟩

theorem RingSame.frame {s t : State} (h : RingSame s t) : RingFrame s t :=
  ⟨h.mem, h.cp, h.out, .inl h.rc, .inl h.tk, h.oneWay⟩

theorem RingSame.trans {s t u : State} (h : RingSame s t) (h' : RingSame t u) : RingSame s u :=
  ⟨h'.par.trans h.par, h'.mem.trans h.mem, h'.cp.trans h.cp, h'.out.trans h.out, h'.rc.trans h.rc,
    h'.tk.trans h.tk, h'.cfg.trans h.cfg, h'.panel.trans h.panel, h'.copro.trans h.copro, h'.time.trans h.time,
    h.log.trans h'.log⟩

theorem RingSame.transFrame {s t u : State} (h : RingSame s t) (h' : RingFrame t u) : RingFrame s u := by
  obtain ⟨b, c, d, e, k, w⟩ := h'
  refine ⟨b.trans h.mem, c.trans h.cp, d.trans h.out, ?_, k.congr h.tk, h.oneWay.trans w⟩
  rwa [h.rc] at e

theorem RingFrame.transSame {s t u : State} (h : RingFrame s t) (h' : RingSame t u) : RingFrame s u := by
  obtain ⟨b, c, d, e, k, w⟩ := h
  refine ⟨h'.mem.trans b, h'.cp.trans c, h'.out.trans d, ?_, ?_, w.trans h'.oneWay⟩
  · rw [h'.rc]; exact e
  · unfold TokenMove at *
    rw [h'.tk, h'.cfg]; exact k

/-! ### The shared operations -/

/-- Every field of the ring, the token and the configuration is as before, by definition. -/
theorem RingSame.log_prefix {s t : State} (par : t.par = s.par) (mem : t.mem = s.mem) (cp : t.cp = s.cp)
    (out : t.out = s.out) (rc : t.rc = s.rc) (tk : t.tk = s.tk) (cfg : t.cfg = s.cfg) (panel : t.panel = s.panel)
    (copro : t.coproReady = s.coproReady) (time : t.tNow = s.tNow) (es : List LogEvent) (log : t.log = s.log ++ es) :
    RingSame s t :=
  ⟨par, mem, cp, out, rc, tk, cfg, panel, copro, time, by rw [log]; exact List.prefix_append _ _⟩

theorem ringSame_setPort (s : State) (q : Port) (p : PortState) : RingSame s (s.setPort q p) :=
  ⟨rfl, rfl, rfl, rfl, rfl, rfl, rfl, rfl, rfl, rfl, List.prefix_rfl⟩

theorem ringSame_complete (s : State) (q : Port) (r : Result) : RingSame s (s.complete q r) := ringSame_setPort ..

theorem ringSame_logEvent (s : State) (q : Option Port) (k : LogKind) (a b : Word) :
    RingSame s (s.logEvent q k a b) :=
  .log_prefix rfl rfl rfl rfl rfl rfl rfl rfl rfl rfl _ rfl

theorem ringSame_beginCommand (s : State) (q : Port) (op : Byte) : RingSame s (s.beginCommand q op) :=
  ⟨rfl, rfl, rfl, rfl, rfl, rfl, rfl, rfl, rfl, rfl, List.prefix_rfl⟩

theorem frame_grantTo (s : State) {w : Port} (hw : s.waiting w = true) : RingFrame s (s.grantTo w) :=
  ⟨by simp, by simp, by simp, .inl (by simp), .inr (.inr (.inl ⟨w, hw, rfl⟩)),
    .keep (by simp) (by simp) (by simp) (by simp) (by simp) (by simp)⟩

theorem frame_handoff (s : State) (q : Port) : RingFrame s (s.handoffFor q).1 := by
  rcases handoffFor_cases s q with ⟨_, e⟩ | ⟨_, _, e⟩ | ⟨_, w, hw, _, e⟩ <;> rw [e]
  · exact (RingSame.refl s).frame
  · exact (RingSame.refl s).frame
  · exact frame_grantTo s hw

theorem frame_release (s : State) (q : Port) : RingFrame s (s.releaseFor q).1 := by
  rcases releaseFor_cases s q with ⟨_, e⟩ | ⟨hh, e⟩ <;> rw [e]
  · exact (RingSame.refl s).frame
  · exact ⟨rfl, rfl, rfl, .inl rfl, .inr (.inr (.inr (.inl ⟨q, hh, rfl⟩))),
      .keep rfl rfl rfl rfl rfl List.prefix_rfl⟩

theorem frame_enterWait (s : State) {q : Port} (h : s.reentrant q = false) : RingFrame s (s.enterWait q) := by
  simp [State.reentrant] at h
  exact ⟨rfl, rfl, rfl, .inl rfl, .inr (.inl ⟨q, h.1, h.2, rfl⟩), .keep rfl rfl rfl rfl rfl List.prefix_rfl⟩

theorem frame_enterFatal (s : State) (k : Option Port) : RingFrame s (s.enterFatal k) :=
  ⟨rfl, rfl, rfl, .inl rfl, .inr (.inr (.inr (.inr ⟨rfl, rfl⟩))),
    ⟨rfl, fun h => ⟨rfl, rfl, rfl, rfl, h⟩, id, id, fun _ => rfl, id, List.prefix_rfl, le_rfl⟩⟩

theorem frame_failed (s : State) (e : Result) (f : Flags) :
    RingFrame s (s.setRc { s.rc with result := e, flags := f }) :=
  ⟨rfl, rfl, rfl, .inr (.inl ⟨e, f, rfl⟩), .inl rfl, .keep rfl rfl rfl rfl rfl List.prefix_rfl⟩

theorem frame_started (s : State) (hidle : s.rc.state = .idle) (q : Port) (st : Word) (v : Frame) :
    RingFrame s ((s.setRc (s.rc.load q st v)).setBlocked q true) :=
  ⟨rfl, rfl, rfl, .inr (.inr ⟨hidle, q, st, v, rfl⟩), .inl rfl, .keep rfl rfl rfl rfl rfl List.prefix_rfl⟩

/-! ### Commands -/

/-- Whatever next state an outcome gives, the frame holds of it. -/
def NextFrame (s : State) (o : Host.Outcome State Fault Refusal) : Prop := ∀ t, o = .next t → RingFrame s t

theorem NextFrame.next {s t : State} (h : RingFrame s t) : NextFrame s (.next t) := by rintro _ ⟨⟩; exact h

theorem NextFrame.same {s t : State} (h : RingSame s t) : NextFrame s (.next t) := .next h.frame

theorem NextFrame.fault {s : State} {f : Fault} : NextFrame s (.fault f) := by rintro _ ⟨⟩

theorem NextFrame.refused {s : State} {f : Refusal} : NextFrame s (.refused f) := by rintro _ ⟨⟩

theorem exec_frame (i : Instr) (s : State) : NextFrame s (exec i s) := by
  cases i <;> simp only [exec]
  · unfold execEncodeFrame
    split
    · exact .same ⟨rfl, rfl, rfl, rfl, rfl, rfl, rfl, rfl, rfl, rfl, List.prefix_rfl⟩
    · exact .same (ringSame_complete ..)
  · unfold execXfer
    split
    · exact .same (ringSame_complete ..)
    · split
      · exact .same (ringSame_complete ..)
      · unfold State.xferFor
        rcases startXfer_cases s s.issuer (s.operands s.issuer).frame (s.operands s.issuer).store with
          ⟨e, _, he⟩ | ⟨v, _, _, he⟩ | ⟨v, hv, hi, he⟩ <;> rw [he]
        · exact .next ((frame_failed s e Flags.clear).transSame (ringSame_complete ..))
        · exact .fault
        · exact .next (frame_started s hi _ _ _)
  · unfold execAcquire State.acquireFor
    split
    · split
      · exact .same (ringSame_complete ..)
      · next h => exact .next (frame_enterWait s (by simpa using h))
    · exact .same (ringSame_complete ..)
  · unfold execTryHandoff
    split
    · exact .next ((frame_handoff ..).transSame (ringSame_complete ..))
    · exact .same (ringSame_complete ..)
  · unfold execRelease
    split
    · exact .next ((frame_release ..).transSame (ringSame_complete ..))
    · exact .same (ringSame_complete ..)
  · unfold execShowFrame; split
    exacts [.same (ringSame_setPort ..), .same (ringSame_complete ..)]
  · unfold execPlayFrames; split
    exacts [.same (ringSame_setPort ..), .same (ringSame_complete ..)]
  · unfold execStopPlayback; split
    exacts [.same (ringSame_setPort ..), .same (ringSame_complete ..)]
  · unfold execShowDatagram
    split
    · exact .same (.refl s)
    · split
      · exact .same (ringSame_logEvent ..)
      · split
        · exact .same (ringSame_logEvent ..)
        · exact .same (((ringSame_setPort ..).trans (ringSame_beginCommand ..)).trans (ringSame_setPort ..))
  · unfold execPlayDatagram
    split
    · exact .same (.refl s)
    · split
      · exact .same (ringSame_logEvent ..)
      · split
        · exact .same (ringSame_logEvent ..)
        · exact .same (((ringSame_setPort ..).trans (ringSame_beginCommand ..)).trans (ringSame_setPort ..))
  · unfold execStopDatagram
    split
    · exact .same (.refl s)
    · split
      · exact .same (ringSame_logEvent ..)
      · exact .same ((ringSame_beginCommand ..).trans (ringSame_setPort ..))

/-! ### Registers and datagrams -/

theorem frame_lockStep (s : State) (hc : s.configOpen = true) : RingFrame s (lockStep s) := by
  simp [State.configOpen] at hc
  unfold lockStep
  split
  · exact ⟨rfl, rfl, rfl, .inl rfl, .inl rfl,
      ⟨rfl, fun h => by simp [hc.1] at h, id, id, id, id, List.prefix_rfl, le_rfl⟩⟩
  · exact ⟨rfl, rfl, rfl, .inl rfl, .inr (.inr (.inr (.inr ⟨rfl, rfl⟩))),
      ⟨rfl, fun h => by simp [hc.1] at h, fun h => by simp [State.enterFatal, h],
        fun h => by simp [State.enterFatal, h], fun _ => rfl, id, List.prefix_rfl, le_rfl⟩⟩

theorem frame_whenOpen {s t : State} (mem : t.mem = s.mem) (cp : t.cp = s.cp) (out : t.out = s.out) (rc : t.rc = s.rc)
    (tk : t.tk = s.tk) (par : t.par = s.par) (e : t.cfg.cfgErr = s.cfg.cfgErr) (e' : t.cfg.hwErr = s.cfg.hwErr)
    (e'' : t.cfg.fatal = s.cfg.fatal) (copro : t.coproReady = s.coproReady) (log : t.log = s.log)
    (time : t.tNow = s.tNow) : RingFrame s (s.whenOpen t) := by
  unfold State.whenOpen
  split
  · next hc =>
    simp [State.configOpen] at hc
    exact ⟨mem, cp, out, .inl rc, .inl tk,
      ⟨par, fun h => by simp [hc.1] at h, by rw [e]; exact id, by rw [e']; exact id, by rw [e'']; exact id,
        by rw [copro]; exact id, by rw [log], by rw [time]⟩⟩
  · exact (RingSame.refl s).frame

theorem frame_writeReg (s : State) (v : Word) (r : Reg) : RingFrame s (s.writeReg v r) := by
  cases r <;> first
    | exact (RingSame.refl s).frame
    | exact (ringSame_setPort ..).frame
    | exact frame_whenOpen rfl rfl rfl rfl rfl rfl rfl rfl rfl rfl rfl rfl
    | skip
  simp only [State.writeReg, writeCfgCtrl]
  split
  · next h => exact frame_lockStep s (by simpa using (Bool.and_eq_true_iff.1 h).2)
  · exact (RingSame.refl s).frame

theorem registerWrite_frame (off size : Nat) (v : Word) (s : State) : NextFrame s (registerWrite off size v s) := by
  unfold registerWrite
  split
  · split
    · unfold writeEffect
      split
      · next q _ =>
        unfold issueWord
        split
        · exact .same (ringSame_setPort ..)
        · split
          · intro t ht
            exact (ringSame_beginCommand s q (opcodeField v)).transFrame (exec_frame _ _ t ht)
          · exact .same ((ringSame_beginCommand ..).trans (ringSame_complete ..))
      · exact .next (frame_writeReg ..)
    · exact .refused
  · exact .refused

theorem registerRead_frame (off size : Nat) (s : State) : NextFrame s (registerRead off size s) := by
  have h : ∀ (r : Reg) (w : Word), RingSame s { s.latchTime r with readData := w } := by
    intro r w
    cases r <;> exact ⟨rfl, rfl, rfl, rfl, rfl, rfl, rfl, rfl, rfl, rfl, List.prefix_rfl⟩
  unfold registerRead
  split
  · split
    · exact .same (h _ _)
    · exact .refused
  · split
    · exact .same ⟨rfl, rfl, rfl, rfl, rfl, rfl, rfl, rfl, rfl, rfl, List.prefix_rfl⟩
    · exact .refused

theorem deliverDatagram_frame (d : List Byte) (s : State) : NextFrame s (deliverDatagram d s) := by
  unfold deliverDatagram
  split
  · exact .same (.refl s)
  · split
    · exact exec_frame _ _
    · exact .same (ringSame_logEvent ..)

/-! ### The phases of the macro-commands -/

theorem frame_acqPhase (q : Port) (s : State) : RingFrame s (acqPhase q s) := by
  unfold acqPhase
  split
  · exact (RingSame.refl s).frame
  · split
    · exact (ringSame_setPort ..).frame
    · split
      · exact (ringSame_complete ..).frame
      · next h =>
        simp [State.reentrant] at h
        exact ⟨rfl, rfl, rfl, .inl rfl, .inr (.inl ⟨q, h.1, h.2, rfl⟩), .keep rfl rfl rfl rfl rfl List.prefix_rfl⟩

theorem frame_pollPhase (q : Port) (s : State) : RingFrame s (pollPhase q s) := by
  unfold pollPhase
  split
  · exact (frame_handoff s q).transSame (ringSame_setPort ..)
  · exact (frame_handoff s q).transSame (ringSame_complete ..)

theorem ringSame_wakePhase (q : Port) (s : State) : RingSame s (wakePhase q s) := by
  unfold wakePhase
  split
  · exact .refl s
  · exact (ringSame_setPort ..).trans (ringSame_setPort ..)

theorem frame_fatalTransfer (s : State) (q : Port) (r : Result) : RingFrame s (s.fatalTransfer q r) :=
  (ringSame_logEvent ..).transFrame ((frame_enterFatal ..).transSame (ringSame_complete ..))

theorem frame_showXferDone (q : Port) (r : Result) (s : State) : RingFrame s (showXferDone q r s) := by
  unfold showXferDone showRetry
  split
  · exact (((ringSame_setPort ..).trans (ringSame_logEvent ..)).trans (ringSame_setPort ..)).frame
  · split
    · exact ((ringSame_setPort ..).trans (ringSame_logEvent ..)).transFrame (frame_fatalTransfer ..)
    · exact (((ringSame_setPort ..).trans (ringSame_logEvent ..)).trans (ringSame_setPort ..)).frame

theorem frame_playXferDone (q : Port) (r : Result) (s : State) : RingFrame s (playXferDone q r s) := by
  unfold playXferDone playFailed
  simp only
  split
  · split
    · exact (((ringSame_setPort ..).trans (ringSame_logEvent ..)).trans (ringSame_setPort ..)).frame
    · exact (((ringSame_setPort ..).trans (ringSame_logEvent ..)).trans (ringSame_setPort ..)).frame
  · split
    · exact ((ringSame_setPort ..).trans (ringSame_logEvent ..)).transFrame (frame_fatalTransfer ..)
    · exact (((ringSame_setPort ..).trans (ringSame_logEvent ..)).trans (ringSame_setPort ..)).frame

/-- The handling of a transfer's end leaves RC as it is. -/
theorem showXferDone_rc (q : Port) (r : Result) (s : State) : (showXferDone q r s).rc = s.rc := by
  unfold showXferDone showRetry
  repeat' split
  all_goals rfl

theorem playXferDone_rc (q : Port) (r : Result) (s : State) : (playXferDone q r s).rc = s.rc := by
  unfold playXferDone playFailed
  simp only
  repeat' split
  all_goals rfl

/-- A validation error, then whatever handles it without touching RC. -/
theorem RingFrame.afterFailed {s u : State} {e : Result} {f : Flags}
    (h : RingFrame (s.setRc { s.rc with result := e, flags := f }) u) (hrc : u.rc = { s.rc with result := e, flags := f }) :
    RingFrame s u :=
  ⟨h.mem, h.cp, h.out, .inr (.inl ⟨e, f, hrc⟩), h.token.congr (setRc_tk ..), (frame_failed s e f).oneWay.trans h.oneWay⟩

theorem ringSame_invalid (s : State) (q : Port) (e : Result) : RingSame s (s.invalidCommand q e) :=
  (ringSame_logEvent ..).trans (ringSame_complete ..)

theorem showStep_frame (q : Port) (s : State) : NextFrame s (showStep q s) := by
  unfold showStep
  split
  · unfold showValidate
    split
    exacts [.same (ringSame_invalid ..), .same (ringSame_setPort ..)]
  · exact .next (frame_acqPhase q s)
  · exact .next (frame_pollPhase q s)
  · unfold showXfer
    split
    · split
      · exact .next (frame_showXferDone ..)
      · exact .same (.refl s)
    · rcases startXfer_cases s q (s.port q).seq.idx (s.port q).seq.store with
        ⟨e, _, he⟩ | ⟨v, _, _, he⟩ | ⟨v, hv, hi, he⟩ <;> rw [he]
      · exact .next ((frame_showXferDone q e _).afterFailed (showXferDone_rc ..))
      · exact .fault
      · exact .next (frame_started s hi _ _ _)
  · exact .same (ringSame_wakePhase q s)
  · exact .next ((frame_release s q).transSame (ringSame_complete ..))
  all_goals exact .same (.refl s)

theorem playStep_frame (q : Port) (s : State) : NextFrame s (playStep q s) := by
  unfold playStep
  split
  · unfold playValidate
    split
    · exact .same (ringSame_invalid ..)
    · split
      exacts [.same (ringSame_invalid ..), .same (ringSame_setPort ..)]
  · exact .next (frame_acqPhase q s)
  · exact .same (ringSame_setPort ..)
  · exact .next (frame_pollPhase q s)
  · unfold playXfer
    split
    · split
      · exact .next (frame_playXferDone ..)
      · exact .same (.refl s)
    · simp only
      have h0 : RingSame s (s.choosePlayIndex q) := ringSame_setPort ..
      rcases startXfer_cases (s.choosePlayIndex q) q ((s.choosePlayIndex q).port q).seq.idx
          ((s.choosePlayIndex q).port q).seq.store with
        ⟨e, _, he⟩ | ⟨v, _, _, he⟩ | ⟨v, hv, hi, he⟩ <;> rw [he]
      · exact .next (h0.transFrame ((frame_playXferDone q e _).afterFailed (playXferDone_rc ..)))
      · exact .fault
      · exact .next (h0.transFrame (frame_started _ hi _ _ _))
  · exact .same (ringSame_wakePhase q s)
  · unfold playRelease
    split
    · exact .next ((frame_release s q).transSame ((ringSame_logEvent ..).trans (ringSame_complete ..)))
    · exact .next ((frame_release s q).transSame (ringSame_complete ..))
  all_goals exact .same (.refl s)

theorem stopStep_frame (q : Port) (s : State) : NextFrame s (stopStep q s) := by
  unfold stopStep
  split
  · exact .next (frame_acqPhase q s)
  · exact .next ((frame_release s q).transSame (ringSame_complete ..))
  all_goals exact .same (.refl s)

theorem portStep_frame (q : Port) (s : State) : NextFrame s (portStep q s) := by
  unfold portStep
  split
  · split
    exacts [.same (.refl s), showStep_frame q s, playStep_frame q s, stopStep_frame q s]
  · exact .same (.refl s)

theorem frame_grantStep (s : State) : RingFrame s (grantStep s) := by
  unfold grantStep
  split
  · exact (RingSame.refl s).frame
  · split
    · next w hw => exact frame_grantTo s (drawWaiter_waiting hw)
    · exact (RingSame.refl s).frame

/-! ### Every action -/

/-- The actions of RC, of CP and of an agent outside BTFE that writes region memory. -/
def ringAction : Action → Bool
  | .ringStep => true
  | .cpConsume => true
  | .cpLatch => true
  | .cpStop => true
  | .cpHang => true
  | .outsideWrite _ _ => true
  | .regWrite _ _ _ => false
  | .regRead _ _ => false
  | .datagram _ => false
  | .portStep _ => false
  | .grant => false
  | .tick _ => false
  | .coproLoad => false
  | .sampleColours _ => false

theorem tickStep_frame (d : Nat) (s : State) : NextFrame s (tickStep d s) := by
  unfold tickStep
  split
  · exact .same (.refl s)
  · split
    · next h =>
      refine .next ⟨rfl, rfl, rfl, .inl rfl, .inl rfl,
        ⟨rfl, fun h => ⟨rfl, rfl, rfl, rfl, h⟩, id, id, id, id, List.prefix_rfl, ?_⟩⟩
      simp
      omega
    · exact .fault

/-- Every other action's frame. -/
theorem runAction_frame {a : Action} (h : ringAction a = false) (s : State) : NextFrame s (runAction a s) := by
  cases a <;> cases h
  · exact registerWrite_frame _ _ _ _
  · exact registerRead_frame _ _ _
  · exact deliverDatagram_frame _ _
  · exact portStep_frame _ _
  · exact .next (frame_grantStep s)
  · exact tickStep_frame _ s
  · exact .next ⟨rfl, rfl, rfl, .inl rfl, .inl rfl,
      ⟨rfl, fun h => ⟨rfl, rfl, rfl, rfl, h⟩, id, id, id, fun _ => rfl, List.prefix_rfl, le_rfl⟩⟩
  · exact .same ⟨rfl, rfl, rfl, rfl, rfl, rfl, rfl, rfl, rfl, rfl, List.prefix_rfl⟩

/-- The actions of RC, CP and the outside world leave the token, the configuration, the log and time alone. -/
structure UnitFrame (s t : State) : Prop where
  tk : t.tk = s.tk
  par : t.par = s.par
  cfg : t.cfg = s.cfg
  panel : t.panel = s.panel
  copro : t.coproReady = s.coproReady
  time : t.tNow = s.tNow
  log : t.log = s.log

theorem UnitFrame.oneWay {s t : State} (h : UnitFrame s t) : OneWay s t :=
  .keep h.par h.cfg h.panel h.copro h.time (by rw [h.log])

theorem UnitFrame.refl (s : State) : UnitFrame s s := ⟨rfl, rfl, rfl, rfl, rfl, rfl, rfl⟩

theorem ringCheck_unit (s : State) : UnitFrame s (ringCheck s) := by
  unfold ringCheck State.finishOwner
  split <;> exact ⟨rfl, rfl, rfl, rfl, rfl, rfl, rfl⟩

theorem ringStep_unit {s t : State} (h : ringStep s = .next t) : UnitFrame s t := by
  rcases ringStep_cases h with ⟨_, rfl⟩ | ⟨_, rfl⟩ | ⟨_, rfl⟩ | ⟨_, _, r, bs, _, _, rfl⟩ | ⟨_, rfl⟩ | ⟨_, _, rfl⟩ |
    ⟨_, _, _, _, bs, _, rfl⟩ | ⟨_, _, rfl⟩ | ⟨_, _, rfl⟩ | ⟨_, _, rfl⟩ | ⟨_, rfl⟩
  · exact .refl _
  · constructor <;> simp
  · exact ⟨rfl, rfl, rfl, rfl, rfl, rfl, rfl⟩
  · constructor <;> simp
  · exact ⟨rfl, rfl, rfl, rfl, rfl, rfl, rfl⟩
  · exact ⟨rfl, rfl, rfl, rfl, rfl, rfl, rfl⟩
  · constructor <;> simp
  · exact ⟨rfl, rfl, rfl, rfl, rfl, rfl, rfl⟩
  · exact .refl _
  · exact ⟨rfl, rfl, rfl, rfl, rfl, rfl, rfl⟩
  · exact ringCheck_unit s

theorem cpConsume_unit (s : State) : UnitFrame s (cpConsume s) := by
  unfold cpConsume State.consumeRegion State.followNext
  repeat' split
  all_goals exact ⟨rfl, rfl, rfl, rfl, rfl, rfl, rfl⟩

theorem runAction_unit {a : Action} (h : ringAction a = true) {s t : State} (ht : runAction a s = .next t) :
    UnitFrame s t := by
  cases a <;> cases h
  · exact ringStep_unit ht
  · cases ht; exact cpConsume_unit s
  · cases ht; unfold cpLatch; split <;> exact ⟨rfl, rfl, rfl, rfl, rfl, rfl, rfl⟩
  · cases ht; unfold cpStop; split <;> exact ⟨rfl, rfl, rfl, rfl, rfl, rfl, rfl⟩
  · cases ht; unfold cpHang; split <;> exact ⟨rfl, rfl, rfl, rfl, rfl, rfl, rfl⟩
  · cases ht; unfold outsideWriteStep; split <;> exact ⟨rfl, rfl, rfl, rfl, rfl, rfl, rfl⟩

theorem ringSame_takeEvent (s : State) : RingSame s s.takeEvent := by
  unfold State.takeEvent
  split <;> exact ⟨rfl, rfl, rfl, rfl, rfl, rfl, rfl, rfl, rfl, rfl, List.prefix_rfl⟩

/-- A step that gives a next state ran its event's action on a machine with legal parameters. -/
theorem step_runAction {s t : State} (h : step s = .next t) :
    paramsOk s.par = true ∧ runAction s.nextEvent.act s.takeEvent = .next t := by
  unfold step at h
  split at h
  · next hp => exact ⟨hp, h⟩
  · cases h

end Sys2Proof.Machine
end

