-- ==== Sys2Proof/Laws/Headers.lean ====
section
/-! SUPPORT. The headers of the regions through the steps of RC and CP (`41_ring_controller.md` R142,
    `10_state.md` R43). -/

namespace Sys2Proof.Machine

theorem endAddr_congr {s t : State} {r : Region} (hp : t.par = s.par)
   (h : ∀ i < 8,
       t.loadByte (s.base r + i) = s.loadByte (s.base r + i)) : t.endAddr r = s.endAddr r ∧ t.nextAddr r = s.nextAddr r := by
  have hb : t.base r = s.base r := by simp [State.base, hp]
  unfold State.endAddr State.nextAddr
  rw [hb]
  constructor
  · exact memRead_congr fun i hi => h i (by omega)
  · refine memRead_congr fun i hi => ?_
    rw [Nat.add_assoc]; exact h _ (by omega)

theorem badEnd_congr {s t : State} {r : Region} (hp : t.par = s.par) (he : t.endAddr r = s.endAddr r) :
    t.badEnd r = s.badEnd r := by
  have h1 : t.base r = s.base r := by simp [State.base, hp]
  have h2 : t.cap r = s.cap r := by simp [State.cap, hp]
  have h3 : t.consumerGroup = s.consumerGroup := by simp [State.consumerGroup, hp]
  unfold State.badEnd
  rw [he, h1, h2, h3]

theorem badEnd_false {s : State} {r : Region} : s.badEnd r = false ↔ s.base r + 8 ≤ s.endAddr r ∧
    s.endAddr r + s.consumerGroup ≤ s.base r + s.cap r ∧ (s.endAddr r - s.base r - 8) % s.consumerGroup = 0 := by
  simp [State.badEnd, and_assoc]

/-- a region all of whose bytes read as before -/
def Untouched (s t : State) (r : Region) : Prop := ∀ a, s.base r ≤ a → a < s.base r + s.cap r →
    t.loadByte a = s.loadByte a

theorem Untouched.addrs {s t : State} {r : Region} (hpar : paramsOk s.par = true) (hp : t.par = s.par)
    (h : Untouched s t r) :
   t.endAddr r = s.endAddr r ∧ t.nextAddr r = s.nextAddr r := by
  have := (region_of_paramsOk hpar r).2.1
  exact endAddr_congr hp fun i hi => h _ (by omega) (by omega)

theorem Untouched.pending {s t : State} {r : Region} (hpar : paramsOk s.par = true) (hp : t.par = s.par)
    (h : Untouched s t r)
   (hb : s.endAddr r = 0 ∨ s.badEnd r = false) : t.pendingBytes r = s.pendingBytes r := by
  obtain ⟨he, _⟩ := h.addrs hpar hp
  have hbase : t.base r = s.base r := by simp [State.base, hp]
  have hcg : t.consumerGroup = s.consumerGroup := by simp [State.consumerGroup, hp]
  unfold State.pendingBytes
  rw [he, hbase, hcg]
  split
  · rfl
  · next hne =>
    rcases hb with hb | hb
    · exact absurd hb hne
    · obtain ⟨h1, h2, _⟩ := badEnd_false.1 hb
      exact loadBytes_congr fun i hi => h _ (by omega) (by omega)

theorem headersOk_region {s t : State} (hpar : paramsOk s.par = true) (hp : t.par = s.par)
    {r : Region} (h : Untouched s t r)
   (hs : (s.endAddr r = 0 ∨ s.badEnd r = false) ∧ s.nextAddr r = s.base (r + 1)) :
   (t.endAddr r = 0 ∨ t.badEnd r = false) ∧ t.nextAddr r = t.base (r + 1) := by
  obtain ⟨he, hn⟩ := h.addrs hpar hp
  rw [he, hn, badEnd_congr hp he]
  have hbase : t.base (r + 1) = s.base (r + 1) := by simp [State.base, hp]
  rw [hbase]; exact hs

theorem HeadersOk.same {s t : State} (h : s.HeadersOk) (hp : t.par = s.par) (hm : t.mem = s.mem) :
    t.HeadersOk := by
  intro r
  have he : ∀ r, t.endAddr r = s.endAddr r ∧ t.nextAddr r = s.nextAddr r := fun r => endAddr_congr hp fun i _ => by simp [State.loadByte, hm]
  rw [(he r).1, (he r).2, badEnd_congr hp (he r).1]
  have hbase : t.base (r + 1) = s.base (r + 1) := by simp [State.base, hp]
  rw [hbase]; exact h r

/-- what a fill leaves -/
structure Filled (s t : State) (r : Region) (n : Nat) : Prop where
  par : t.par = s.par
  others : ∀ r', r' ≠ r → Untouched s t r'
  endAddr : t.endAddr r = s.base r + 8 + n - s.rc.g.toNat
  nextAddr : t.nextAddr r = s.nextAddr r
  good : t.badEnd r = false
  nonzero : t.endAddr r ≠ 0

theorem fill_filled {s : State} (hI : s.Inv) (hp : paramsOk s.par = true) (hne : s.rc.state ≠ .idle)
    {r : Region} {bs : List Byte}
   (hc : s.rc.cursor.toNat < s.rc.total.toNat) (hb : s.fillBytes r = some bs) : Filled s (s.fillWith r bs) r (s.fillCount r) := by
  obtain ⟨h1, h2, h3, h4⟩ := fillCount_facts hI hp hne r hc
  obtain ⟨_, _, hlen, _⟩ := fillBytes_some hb
  obtain ⟨_, hcap, hend, hb0⟩ := region_of_paramsOk hp r
  have hg := hI.transfer_pos hp hne
  have hgc : (s.fillWith r bs).consumerGroup = s.rc.g.toNat := by
    have := (hI.ring.transfer hne).group
    simp [State.consumerGroup, this]
  have he : (s.fillWith r bs).endAddr r = s.base r + 8 + s.fillCount r - s.rc.g.toNat := by
    rw [fillWith_endAddr _ _ _ (by omega), hlen]
  refine ⟨by simp, ?_, he, ?_, ?_, by rw [he]; omega⟩
  · intro r' hr' a ha1 ha2
    have := regions_apart hp hr'
    exact fillWith_loadByte_outside _ _ _ _ (by rw [hlen]; omega)
  · show (s.fillWith r bs).memRead (s.base r + 4) 4 = s.memRead (s.base r + 4) 4
    exact memRead_congr fun i hi => fillWith_loadByte_outside _ _ _ _ (by omega)
  · rw [badEnd_false, he, hgc]
    simp only [fillWith_base, fillWith_cap]
    refine ⟨by omega, by omega, ?_⟩
    rw [show s.base r + 8 + s.fillCount r - s.rc.g.toNat - s.base r - 8 = s.fillCount r - s.rc.g.toNat by omega]
    have hd : s.rc.g.toNat ∣ s.fillCount r := dvd_trans (Dvd.intro_left 24 rfl) (Nat.dvd_of_mod_eq_zero h1)
    exact Nat.mod_eq_zero_of_dvd (Nat.dvd_sub hd (dvd_refl _))

theorem Filled.headers {s t : State} {r : Region} {n : Nat} (h : Filled s t r n) (hp : paramsOk s.par = true)
    (hs : s.HeadersOk) : t.HeadersOk := by
  intro r'
  by_cases hr : r' = r
  · subst hr
    refine ⟨.inr h.good, ?_⟩
    rw [h.nextAddr, (hs r').2]
    simp [State.base, h.par]
  · exact headersOk_region hp h.par (h.others r' hr) (hs r')

theorem HeadersOk.ends {s : State} (hp : paramsOk s.par = true) (h : s.HeadersOk) : s.EndsOk := by
  intro r
  rcases (h r).1 with h0 | hb
  · exact .inl h0
  · obtain ⟨a, b, _⟩ := badEnd_false.1 hb
    have := (group_of_paramsOk hp).1
    refine .inr ⟨a, ?_⟩
    unfold State.consumerGroup at b; omega

theorem consume_untouched {s : State} (hp : paramsOk s.par = true) (r : Region) (hr : r ≠ s.cp.c) :
    Untouched s (cpConsume s) r := by
  intro a h1 h2
  rcases cpConsume_cases hp with ⟨_, e⟩ | ⟨_, _, _, e⟩ | ⟨_, _, _, hd⟩
  · rw [e]
  · rw [e]; rfl
  · have := regions_apart hp hr
    have h3 := (region_of_paramsOk hp s.cp.c).2.1
    exact hd.outside a (by omega)

theorem consume_headers {s : State} (hp : paramsOk s.par = true) (h : s.HeadersOk) :
    (cpConsume s).HeadersOk := by
  rcases cpConsume_cases hp with ⟨_, e⟩ | ⟨_, hne, hb, _⟩ | ⟨_, _, _, hd⟩
  · rw [e]; exact h
  · exact absurd hb (by rw [(h s.cp.c).1.resolve_left hne]; simp)
  · intro r
    by_cases hr : r = s.cp.c
    · subst hr
      refine ⟨.inl hd.endAddr, ?_⟩
      have hn : (cpConsume s).nextAddr s.cp.c = s.nextAddr s.cp.c := by
        have hbase : (cpConsume s).base s.cp.c = s.base s.cp.c := by simp [State.base, hd.keeps.config.par]
        unfold State.nextAddr
        rw [hbase]
        exact memRead_congr fun i hi => hd.outside _ (by omega)
      rw [hn, (h s.cp.c).2]; simp [State.base, hd.keeps.config.par]
    · exact headersOk_region hp hd.keeps.config.par (consume_untouched hp r hr) (h r)

theorem ringStep_headers {s t : State} (hI : s.Inv) (hp : paramsOk s.par = true) (h : s.HeadersOk)
    (ht : ringStep s = .next t) : t.HeadersOk := by
  rcases ringStep_cases ht with ⟨_, rfl⟩ | ⟨hs, rfl⟩ | ⟨hs, rfl⟩ | ⟨hs, hc, r, bs, _, hb, rfl⟩ | ⟨hs,
      rfl⟩ | ⟨hs, _, rfl⟩ |
    ⟨hs, _, hc, _, bs, hb, rfl⟩ | ⟨hs, _, rfl⟩ | ⟨_, _, rfl⟩ | ⟨hs, _, rfl⟩ | ⟨hs, rfl⟩
  · exact h
  · intro r
    obtain ⟨a, b⟩ := ringSetup_headers hp r
    exact ⟨.inl a, by rw [b]; simp⟩
  · exact HeadersOk.same h rfl rfl
  · exact HeadersOk.same ((fill_filled hI hp (by simp [hs]) hc hb).headers hp h) rfl rfl
  · exact HeadersOk.same h rfl rfl
  · exact HeadersOk.same h rfl rfl
  · exact HeadersOk.same ((fill_filled hI hp (by simp [hs]) hc hb).headers hp h) rfl rfl
  · exact HeadersOk.same h rfl rfl
  · exact h
  · exact HeadersOk.same h rfl rfl
  · have : KeepsMemory s (ringCheck s) ∧ (ringCheck s).par = s.par := by
      unfold ringCheck State.finishOwner; split <;> exact ⟨fun _ => rfl, rfl⟩
    intro r
    have he := endAddr_congr (r := r) this.2 (fun i _ => this.1 _)
    rw [he.1, he.2, badEnd_congr this.2 he.1]
    have hbase : (ringCheck s).base (r + 1) = s.base (r + 1) := by simp [State.base, this.2]
    rw [hbase]; exact h r

end Sys2Proof.Machine
end

