-- ==== Sys2Proof/Laws/PerInstr.lean ====
section
/-! SUPPORT. The families of statements made per instruction: `EncodedForm`, the form of an instruction's encoding
(`30_encoding.md` R80, R83, R90). -/

namespace Sys2Proof.Laws.EncodedForm

/-- A command word has `RSV = 0` and its row's opcode (R80, R83); a datagram is not empty and ends in the
terminator 0x0A (R90, log 26). -/
def Statement (i : Instr) : Prop :=
  match encode i with
  | .word w => reservedField w = 0#24 ∧ opcodeTable.lookup (opcodeField w) = some i
  | .datagram d => d.getLast? = some 0x0A#8

theorem last_datagramText (ts : List (List Byte)) : (datagramText ts).getLast? = some 0x0A#8 := by
  induction ts with
  | nil => rfl
  | cons t ts ih =>
    cases ts with
    | nil => simp [datagramText]
    | cons u us => simp [datagramText, List.getLast?_append, List.getLast?_cons, ih]

theorem encodeFrame : Statement .encodeFrame := ⟨by decide, by decide⟩
theorem xfer : Statement .xfer := ⟨by decide, by decide⟩
theorem acquire : Statement .acquire := ⟨by decide, by decide⟩
theorem tryHandoff : Statement .tryHandoff := ⟨by decide, by decide⟩
theorem release : Statement .release := ⟨by decide, by decide⟩
theorem showFrame : Statement .showFrame := ⟨by decide, by decide⟩
theorem playFrames : Statement .playFrames := ⟨by decide, by decide⟩
theorem stopPlayback : Statement .stopPlayback := ⟨by decide, by decide⟩
theorem showDatagram (path : List Byte) (frame : Word) : Statement (.showDatagram path frame) :=
  last_datagramText _
theorem playDatagram (path : List Byte) (first last fps : Word) : Statement (.playDatagram path first last fps) :=
  last_datagramText _
theorem stopDatagram : Statement .stopDatagram := last_datagramText _

end Sys2Proof.Laws.EncodedForm
end

