-- ==== Sys2Proof/Laws/Registers.lean ====
section
/-! SUPPORT. The register map at a command register, the panel rows, and the fields of a packed register (`10_state.md` R40). -/

namespace Sys2Proof.Machine

theorem regAt_cmdOffset (nreq : Nat) (q : Port) (h : q.val < nreq) : regAt nreq (cmdOffset q) = .cmd q := by
  have hq := q.isLt
  unfold regAt cmdOffset
  rw [if_neg (by omega), if_neg (by omega), if_pos (by omega)]
  have e1 : (0x400 + 32 * q.val - 0x400) / 32 = q.val := by omega
  have e2 : (0x400 + 32 * q.val - 0x400) % 32 = 0 := by omega
  rw [e1, e2, if_pos h]
  have : Fin.ofNat 32 q.val = q := by ext; simp
  rw [this]; rfl

theorem cmdOffset_in (s : State) (q : Port) : cmdOffset q + 4 ≤ s.registerEnd := by
  have := q.isLt
  unfold State.registerEnd cmdOffset
  omega

theorem nat_bit (n : Nat) (lo len : Nat) :
    ((BitVec.ofNat 32 n).extractLsb' lo len).toNat = n % 2 ^ 32 / 2 ^ lo % 2 ^ len := by
  simp [BitVec.extractLsb'_toNat, Nat.shiftRight_eq_div_pow]

theorem nat_lsb (n i : Nat) : (BitVec.ofNat 32 n).getLsbD i = decide (n % 2 ^ 32 / 2 ^ i % 2 = 1) := by
  unfold BitVec.getLsbD
  rw [Nat.testBit_eq_decide_div_mod_eq]; simp

theorem row_setRow (s : State) (k : PanelIx) (x : PanelRow) : (s.setRow k x).row k = x := by
  simp [State.row, State.setRow, Vector.get_eq_getElem]

theorem reset_port (q : Port) : State.reset.port q = PortState.reset := by simp [State.port, State.reset,
    Vector.get]

end Sys2Proof.Machine
end

