-- ==== Sys2Proof/Laws/Schedule.lean ====
section
/-! SUPPORT. The agents R6 assumes fairness of: an agent is enabled exactly where its step changes the state. -/

namespace Sys2Proof.Machine

/-- Two states that differ in something read from them are two next states. -/
theorem next_ne {α : Type} (f : State → α) {s t : State} (h : f t ≠ f s) :
    (Host.Outcome.next t : Host.Outcome State Fault Refusal) ≠ .next s :=
  fun e => h (by cases e; rfl)

theorem ringEnabled_iff (s : State) : s.ringEnabled = true ↔ ringStep s ≠ .next s := by
  cases h : s.rc.state <;> simp only [State.ringEnabled, ringStep, h]
  · simp
  · exact iff_of_true trivial (next_ne (·.rc.state) (by simp [ringSetup, h]))
  · refine iff_of_true trivial ?_
    have hd : (Host.Outcome.next (ringFillDone s) : Host.Outcome State Fault Refusal) ≠ .next s :=
      next_ne (·.rc.state) (by simp [ringFillDone, h])
    unfold ringFill
    split
    · exact hd
    · split
      · split
        · next s' hs =>
          refine next_ne (·.rc.fillIdx) ?_
          obtain ⟨bs, _, rfl⟩ : ∃ bs, s.fillBytes _ = some bs ∧ s.fillWith _ bs = s' := by
            simpa [State.fillRegion] using hs
          show (s.fillWith _ bs).rc.fillIdx + 1 ≠ _
          rw [show (s.fillWith _ bs).rc.fillIdx = s.rc.fillIdx by simp [State.fillWith]]
          intro e
          bv_omega
        · simp
      · exact hd
  · exact iff_of_true trivial (next_ne (·.rc.state) (by simp [ringStart, h]))
  · refine iff_of_true trivial ?_
    unfold ringDrain
    split
    · exact next_ne (·.rc.state) (by simp [h])
    · split
      · split
        · next s' hs =>
          refine next_ne (·.rc.cur) ?_
          obtain ⟨bs, _, rfl⟩ : ∃ bs, s.fillBytes _ = some bs ∧ s.fillWith _ bs = s' := by
            simpa [State.fillRegion] using hs
          show (s.fillWith _ bs).rc.cur + 1 ≠ _
          rw [show (s.fillWith _ bs).rc.cur = s.rc.cur by simp [State.fillWith]]
          generalize s.rc.cur = c
          revert c
          decide
        · simp
      · exact next_ne (·.rc.state) (by simp [ringSleepNow, h])
  · unfold ringSleep
    split
    · next hw => simp; omega
    · next hw => exact iff_of_true (by simp; omega) (next_ne (·.rc.state) (by simp [h]))
  · refine iff_of_true trivial (next_ne (·.rc.state) ?_)
    unfold ringCheck State.finishOwner
    split <;> simp [h]

theorem grantEnabled_iff (s : State) : s.grantEnabled = true ↔ runAction .grant s ≠ .next s := by
  simp only [State.grantEnabled, runAction, grantStep]
  cases h : s.tk.state
  · cases hd : s.drawWaiter with
    | none =>
      have : s.waiters = [] := by
        rcases Nat.eq_zero_or_pos s.waiters.length with h0 | h0
        · exact List.length_eq_zero_iff.1 h0
        · exact absurd hd (by simp [State.drawWaiter, Nat.mod_lt _ h0])
      simp [this]
    | some w =>
      refine iff_of_true ?_ (next_ne (·.tk.state) (by simp [h]))
      have : s.waiters ≠ [] := by rintro e; simp [State.drawWaiter, e] at hd
      simpa using this
  · simp

/-! ### A port's own step -/

/-- What shows that port q moved: its phase, or whether it holds. -/
def portMark (q : Port) (s : State) : Phase × Bool := ((s.port q).seq.phase, (s.port q).blocked)

theorem mark_ne {q : Port} {s t : State} (h : portMark q t ≠ portMark q s) :
    (Host.Outcome.next t : Host.Outcome State Fault Refusal) ≠ .next s :=
  next_ne (portMark q) h

theorem complete_mark (s : State) (q : Port) (r : Result) : portMark q (s.complete q r) = (.none, false) := by
  simp [portMark, PortState.completed]

theorem setPhase_mark (s : State) (q : Port) (p : Phase) : ((s.setPhase q p).port q).seq.phase = p := by simp

/-- ACQ moves exactly where it does not hold already. -/
theorem acqPhase_moves {q : Port} {s : State} (hp : (s.port q).seq.phase = .acq) :
    Host.Outcome.next (acqPhase q s) ≠ (.next s : Host.Outcome State Fault Refusal) ↔ (s.port q).blocked = false := by
  unfold acqPhase
  cases hb : (s.port q).blocked
  · refine iff_of_true ?_ rfl
    simp only [Bool.false_eq_true, if_false]
    split
    · refine next_ne (fun t => (t.port q).seq.phase) ?_
      simp only [setSeq_port_same, hp]
      cases (s.port q).seq.kind <;> decide
    · split
      · exact mark_ne (by rw [complete_mark]; simp [portMark, hp])
      · exact mark_ne (q := q) (by simp [portMark, State.enterWait, hb])
  · simp

theorem pollPhase_moves {q : Port} {s : State} (hp : (s.port q).seq.phase = .poll) :
    Host.Outcome.next (pollPhase q s) ≠ (.next s : Host.Outcome State Fault Refusal) := by
  unfold pollPhase
  split
  · exact next_ne (fun t => (t.port q).seq.phase) (by simp [hp])
  · exact mark_ne (by rw [complete_mark]; simp [portMark, hp])

theorem wakePhase_moves {q : Port} {s : State} (hp : (s.port q).seq.phase ≠ .poll) :
    Host.Outcome.next (wakePhase q s) ≠ (.next s : Host.Outcome State Fault Refusal) ↔
      (s.port q).seq.wake.toNat ≤ s.tNow.toNat := by
  unfold wakePhase
  split
  · next h => simp; omega
  · next h => exact iff_of_true (next_ne (fun t => (t.port q).seq.phase) (by simp [Ne.symm hp])) (by omega)

theorem fatalTransfer_phase (s : State) (q : Port) (r : Result) : ((s.fatalTransfer q r).port q).seq.phase = .none := by
  simp [State.fatalTransfer, PortState.completed]

theorem showXferDone_moves {q : Port} {s s' : State} (r : Result) (hp : (s.port q).seq.phase = .xfer) :
    Host.Outcome.next (showXferDone q r s') ≠ (.next s : Host.Outcome State Fault Refusal) := by
  refine next_ne (fun t => (t.port q).seq.phase) ?_
  unfold showXferDone showRetry
  repeat' split
  · simp [hp]
  · rw [fatalTransfer_phase]; simp [hp]
  · simp [hp]

theorem playXferDone_moves {q : Port} {s s' : State} (r : Result) (hp : (s.port q).seq.phase = .xfer) :
    Host.Outcome.next (playXferDone q r s') ≠ (.next s : Host.Outcome State Fault Refusal) := by
  refine next_ne (fun t => (t.port q).seq.phase) ?_
  unfold playXferDone playFailed playPace
  simp only
  repeat' split
  · simp [hp]
  · simp [hp]
  · rw [fatalTransfer_phase]; simp [hp]
  · simp [hp]

theorem started_moves {q : Port} {s s' : State} (hb : (s.port q).blocked = false) :
    Host.Outcome.next (s'.setBlocked q true) ≠ (.next s : Host.Outcome State Fault Refusal) :=
  next_ne (fun t => (t.port q).blocked) (by simp [hb])

theorem showXfer_moves {q : Port} {s : State} (hp : (s.port q).seq.phase = .xfer) :
    showXfer q s ≠ .next s ↔ (s.port q).blocked = false ∨ s.rc.state = .idle := by
  unfold showXfer
  cases hb : (s.port q).blocked
  · refine iff_of_true ?_ (.inl rfl)
    simp only [Bool.false_eq_true, if_false]
    rcases startXfer_cases s q (s.port q).seq.idx (s.port q).seq.store with ⟨e, _, he⟩ | ⟨_, _, _, he⟩ | ⟨v, _, _, he⟩ <;>
      rw [he]
    · exact showXferDone_moves e hp
    · simp
    · exact started_moves hb
  · cases hr : s.rc.state <;> simp [showXferDone_moves _ hp]

theorem playXfer_moves {q : Port} {s : State} (hp : (s.port q).seq.phase = .xfer) :
    playXfer q s ≠ .next s ↔ (s.port q).blocked = false ∨ s.rc.state = .idle := by
  unfold playXfer
  cases hb : (s.port q).blocked
  · refine iff_of_true ?_ (.inl rfl)
    simp only [Bool.false_eq_true, if_false]
    rcases startXfer_cases (s.choosePlayIndex q) q ((s.choosePlayIndex q).port q).seq.idx
      ((s.choosePlayIndex q).port q).seq.store with ⟨e, _, he⟩ | ⟨_, _, _, he⟩ | ⟨v, _, _, he⟩ <;> rw [he]
    · exact playXferDone_moves e hp
    · simp
    · exact started_moves hb
  · cases hr : s.rc.state <;> simp [playXferDone_moves _ hp]

/-- A phase step that ends in a completion. -/
theorem complete_moves {q : Port} {s s' : State} (r : Result) (hp : (s.port q).seq.phase ≠ .none) :
    Host.Outcome.next (s'.complete q r) ≠ (.next s : Host.Outcome State Fault Refusal) :=
  mark_ne (by rw [complete_mark]; simp [portMark, Ne.symm hp])

theorem showStep_moves (q : Port) (s : State) :
    showStep q s ≠ .next s ↔ kindHasPhase .showCmd (s.port q).seq.phase = true ∧ s.phaseOpen q = true := by
  cases hp : (s.port q).seq.phase <;> simp only [showStep, State.phaseOpen, hp, kindHasPhase]
  · simp
  · refine iff_of_true ?_ (by decide)
    unfold showValidate
    split
    · exact complete_moves _ (by simp [hp])
    · exact next_ne (fun t => (t.port q).seq.phase) (by simp [hp])
  · simp [acqPhase_moves hp]
  · simp
  · exact iff_of_true (pollPhase_moves hp) (by decide)
  · simp [showXfer_moves hp]
  · simp [wakePhase_moves (q := q) (s := s) (by simp [hp])]
  · simp
  · exact iff_of_true (complete_moves _ (by simp [hp])) (by decide)

theorem playStep_moves (q : Port) (s : State) :
    playStep q s ≠ .next s ↔ kindHasPhase .playCmd (s.port q).seq.phase = true ∧ s.phaseOpen q = true := by
  cases hp : (s.port q).seq.phase <;> simp only [playStep, State.phaseOpen, hp, kindHasPhase]
  · simp
  · refine iff_of_true ?_ (by decide)
    unfold playValidate
    repeat' split
    · exact complete_moves _ (by simp [hp])
    · exact complete_moves _ (by simp [hp])
    · exact next_ne (fun t => (t.port q).seq.phase) (by simp [hp])
  · simp [acqPhase_moves hp]
  · exact iff_of_true (next_ne (fun t => (t.port q).seq.phase) (by simp [playClock, hp])) (by decide)
  · exact iff_of_true (pollPhase_moves hp) (by decide)
  · simp [playXfer_moves hp]
  · simp
  · simp [wakePhase_moves (q := q) (s := s) (by simp [hp])]
  · refine iff_of_true ?_ (by decide)
    unfold playRelease
    split <;> exact complete_moves _ (by simp [hp])

theorem stopStep_moves (q : Port) (s : State) :
    stopStep q s ≠ .next s ↔ kindHasPhase .stopCmd (s.port q).seq.phase = true ∧ s.phaseOpen q = true := by
  cases hp : (s.port q).seq.phase <;> simp only [stopStep, State.phaseOpen, hp, kindHasPhase]
  case acq => simp [acqPhase_moves hp]
  case release => exact iff_of_true (complete_moves _ (by simp [hp])) (by decide)
  all_goals simp

theorem portEnabled_iff (s : State) (q : Port) : s.portEnabled q = true ↔ portStep q s ≠ .next s := by
  unfold State.portEnabled portStep
  cases hx : s.portExists q && (s.port q).busy
  · simp
  · cases hk : (s.port q).seq.kind
    · simp
    · simp [showStep_moves]
    · simp [playStep_moves]
    · simp [stopStep_moves]

/-- An agent is enabled exactly where its own step changes the state or stops. -/
theorem enabled_iff (a : FairAgent) (s : State) : a.enabled s = true ↔ runAction a.action s ≠ .next s := by
  cases a
  · exact ringEnabled_iff s
  · exact grantEnabled_iff s
  · exact portEnabled_iff s _

end Sys2Proof.Machine
end

