-- ==== Sys2Proof/Laws/Streaming.lean ====
section
/-! SUPPORT. What has been clocked out and what waits in the regions, through the steps of a transfer (`41_ring_controller.md` R141). -/

namespace Sys2Proof.Machine

theorem pendingFrom_congr {s t : State} (r : Region) (n : Nat) (h : ∀ j < n,
    t.pendingBytes (r + Fin.ofNat 3 j) = s.pendingBytes (r + Fin.ofNat 3 j)) :
    t.pendingFrom r n = s.pendingFrom r n := by
  induction n generalizing r with
  | zero => rfl
  | succ n ih =>
    have h0 := h 0 (by omega)
    have e0 : r + Fin.ofNat 3 0 = r := by simp
    rw [e0] at h0
    simp only [State.pendingFrom, h0]
    congr 1
    refine ih (r + 1) fun j hj => ?_
    have := h (j + 1) (by omega)
    have e : r + 1 + Fin.ofNat 3 j = r + Fin.ofNat 3 (j + 1) := by
      have : (Fin.ofNat 3 (j + 1)) = 1 + Fin.ofNat 3 j := by
        ext; simp [Fin.val_add]; omega
      rw [this, add_assoc]
    rw [e]; exact this

theorem pendingFrom_snoc (s : State) (r : Region) (n : Nat) :
    s.pendingFrom r (n + 1) = s.pendingFrom r n ++ s.pendingBytes (r + Fin.ofNat 3 n) := by
  induction n generalizing r with
  | zero =>
    simp [State.pendingFrom]
  | succ n ih =>
    rw [State.pendingFrom, ih (r + 1), State.pendingFrom, List.append_assoc]
    have e : r + 1 + Fin.ofNat 3 n = r + Fin.ofNat 3 (n + 1) := by
      have : (Fin.ofNat 3 (n + 1)) = 1 + Fin.ofNat 3 n := by
        ext; simp [Fin.val_add]; omega
      rw [this, add_assoc]
    rw [e]

/-- the bytes a fill adds -/
theorem fill_pending {s : State} (hI : s.Inv) (hp : paramsOk s.par = true) (hne : s.rc.state ≠ .idle)
    {r : Region} {bs : List Byte}
   (hc : s.rc.cursor.toNat < s.rc.total.toNat) (hb : s.fillBytes r = some bs) : (s.fillWith r bs).pendingBytes r = bs := by
  obtain ⟨h1, h2, h3, h4⟩ := fillCount_facts hI hp hne r hc
  obtain ⟨_, _, hlen, _⟩ := fillBytes_some hb
  have hf := fill_filled hI hp hne hc hb
  have hg := hI.transfer_pos hp hne
  have hgc : (s.fillWith r bs).consumerGroup = s.rc.g.toNat := by
    have := (hI.ring.transfer hne).group
    simp [State.consumerGroup, this]
  unfold State.pendingBytes
  rw [if_neg hf.nonzero, hf.endAddr, hgc]
  simp only [fillWith_base]
  rw [show s.base r + 8 + s.fillCount r - s.rc.g.toNat + s.rc.g.toNat - (s.base r + 8) = bs.length by omega]
  apply List.ext_getElem
  · simp [State.loadBytes]
  · intro i h1 h2
    simp only [State.loadBytes, List.getElem_map, List.getElem_range]
    exact fillWith_loadByte_payload s r bs i h2

theorem take_fill {s : State} (hI : s.Inv) (hp : paramsOk s.par = true) (hne : s.rc.state ≠ .idle)
    {r : Region} {bs : List Byte}
   (hc : s.rc.cursor.toNat < s.rc.total.toNat) (hb : s.fillBytes r = some bs) :
   s.transferBytes.take (s.rc.cursor.toNat + s.fillCount r) = s.transferBytes.take s.rc.cursor.toNat ++ bs := by
  obtain ⟨h1, h2, h3, h4⟩ := fillCount_facts hI hp hne r hc
  obtain ⟨f, hf, hlen, hval⟩ := fillBytes_some hb
  have : s.transferBytes = (f.bytes.drop s.rc.src.toNat).take s.rc.total.toNat := by simp [State.transferBytes, hf]
  rw [this, List.take_take, List.take_take, Nat.min_eq_left (by omega), Nat.min_eq_left (by omega),
      List.take_add]
  congr 1
  rw [hval, List.drop_drop]

theorem flatten_groups (s : State) (a n g : Nat) :
    ((List.range n).map fun m => s.loadBytes (a + m * g) g).flatten = s.loadBytes a (n * g) := by
  induction n with
  | zero => simp [State.loadBytes]
  | succ n ih =>
    rw [List.range_succ, List.map_append, List.flatten_append, ih]
    simp only [List.map_cons, List.map_nil, List.flatten_cons, List.flatten_nil, List.append_nil]
    unfold State.loadBytes
    rw [show (n + 1) * g = n * g + g by ring, List.range_add, List.map_append, List.map_map]
    congr 1
    apply List.map_congr_left
    intro i _
    simp [Nat.add_assoc]

theorem groups_pending {s : State} {r : Region} (hg : 0 < s.consumerGroup) (hne : s.endAddr r ≠ 0)
    (hb : s.badEnd r = false) :
    (s.regionGroups r).flatten = s.pendingBytes r := by
  obtain ⟨h1, h2, h3⟩ := badEnd_false.1 hb
  unfold State.regionGroups State.pendingBytes
  rw [flatten_groups, if_neg hne]
  congr 1
  unfold State.groupCount
  have := Nat.div_mul_cancel (Nat.dvd_of_mod_eq_zero h3)
  rw [Nat.add_mul, this]; omega

theorem fullFrom_same {s t : State} (hp : t.par = s.par) (hm : t.mem = s.mem)
    {r : Region} {n : Nat} (h : s.fullFrom r n) : t.fullFrom r n := by
  have he : ∀ r, t.endAddr r = s.endAddr r ∧ t.nextAddr r = s.nextAddr r := fun r => endAddr_congr hp fun i _ => by simp [State.loadByte, hm]
  refine ⟨h.1, fun j hj => ?_⟩
  rw [(he _).1]; exact h.2 j hj

theorem pendingFrom_same {s t : State} (hp : t.par = s.par) (hm : t.mem = s.mem) (r : Region) (n : Nat) :
    t.pendingFrom r n = s.pendingFrom r n := by
  refine pendingFrom_congr r n fun j _ => ?_
  have he : ∀ r, t.endAddr r = s.endAddr r ∧ t.nextAddr r = s.nextAddr r := fun r => endAddr_congr hp fun i _ => by simp [State.loadByte, hm]
  unfold State.pendingBytes
  rw [(he _).1]
  have h1 : ∀ r, t.base r = s.base r := by intro r; simp [State.base, hp]
  have h2 : t.consumerGroup = s.consumerGroup := by simp [State.consumerGroup, hp]
  rw [h1, h2]
  split
  · rfl
  · exact loadBytes_congr fun i _ => by simp [State.loadByte, hm]

theorem transferBytes_same {s t : State} (hp : t.par = s.par) (h1 : t.rc.store = s.rc.store)
    (h2 : t.rc.src = s.rc.src) (h3 : t.rc.total = s.rc.total) :
   t.transferBytes = s.transferBytes := by simp [State.transferBytes, hp, h1, h2, h3]

/-- everything but the stage is as before -/
theorem Streaming.same {s t : State} (h : Streaming s) (hp : t.par = s.par) (hm : t.mem = s.mem)
    (hcp : t.cp = s.cp) (hout : t.out = s.out)
   (hst : t.rc.state = s.rc.state) (h1 : t.rc.store = s.rc.store) (h2 : t.rc.src = s.rc.src) (h3 : t.rc.total = s.rc.total)
   (h4 : t.rc.cursor = s.rc.cursor) (h5 : t.rc.fillIdx = s.rc.fillIdx) (h6 : t.rc.cur = s.rc.cur) : Streaming t := by
  have ht := transferBytes_same hp h1 h2 h3
  have hcg : t.consumerGroup = s.consumerGroup := by simp [State.consumerGroup, hp]
  have haf : t.afterStart = s.afterStart := by simp [State.afterStart, hst]
  constructor
  · rw [hst, hcp]; exact h.quiet
  · rw [hst, h4]; exact h.starting
  · rw [hst]; intro hx; exact HeadersOk.same (h.headers hx) hp hm
  · rw [hst, h5, ht, h4, pendingFrom_same hp hm]; intro hx; exact ⟨fullFrom_same hp hm (h.filling hx).1,
      (h.filling hx).2⟩
  · rw [hst]; intro hx
    obtain ⟨n, a, b, c⟩ := h.filled hx
    exact ⟨n, fullFrom_same hp hm a, by rw [h6, b], by rw [pendingFrom_same hp hm, ht, h4, c]⟩
  · rw [haf]; intro hx
    obtain ⟨n, a, b, c⟩ := h.draining hx
    exact ⟨n, by rw [hcp]; exact fullFrom_same hp hm a, by rw [hcp, h6, b], by rw [hcp, hout,
        pendingFrom_same hp hm, ht, h4, c]⟩
  · rw [haf, hout, hcg]; exact h.groups

/-- the queue after a fill of the region behind it -/
theorem fill_queue {s : State} (hI : s.Inv) (hp : paramsOk s.par = true) (hne : s.rc.state ≠ .idle)
    (hh : s.HeadersOk) {c : Region} {n : Nat} {bs : List Byte}
   (hn : n < 3) (hfull : s.fullFrom c n)
   (hc : s.rc.cursor.toNat < s.rc.total.toNat) (hb : s.fillBytes (c + Fin.ofNat 3 n) = some bs) :
   (s.fillWith (c + Fin.ofNat 3 n) bs).fullFrom c (n + 1) ∧ (s.fillWith (c + Fin.ofNat 3 n) bs).pendingFrom c (n + 1) = s.pendingFrom c n ++ bs := by
  have hf := fill_filled hI hp hne hc hb
  have hinj : ∀ j < 3, ∀ k < 3, c + Fin.ofNat 3 j = c + Fin.ofNat 3 k → j = k := by
    intro j hj k hk e
    have := congrArg Fin.val (add_left_cancel e)
    simp at this; omega
  have hend : ∀ j < 3, j ≠ n → (s.fillWith (c + Fin.ofNat 3 n) bs).endAddr (c + Fin.ofNat 3 j) = s.endAddr (c + Fin.ofNat 3 j) := by
    intro j hj hjn
    exact ((hf.others _ (fun e => hjn (hinj j hj n hn e))).addrs hp hf.par).1
  constructor
  · refine ⟨by omega, fun j hj => ?_⟩
    by_cases hjn : j = n
    · subst hjn; exact ⟨fun _ => by omega, fun _ => hf.nonzero⟩
    · rw [hend j hj hjn, hfull.2 j hj]; omega
  · rw [pendingFrom_snoc, fill_pending hI hp hne hc hb]
    congr 1
    refine pendingFrom_congr c n fun j hj => ?_
    exact (hf.others _ (fun e => by have := hinj j (by omega) n hn e; omega)).pending hp hf.par (hh _).1

/-- after SETUP no region is full -/
theorem setup_empty {s : State} (hp : paramsOk s.par = true) : (ringSetup s).fullFrom 0 0 :=
  ⟨by omega, fun j _ => by simp [(ringSetup_headers hp _).1]⟩

theorem Streaming.ofFill {u t : State} {n : Nat} (hp : t.par = u.par) (hm : t.mem = u.mem)
    (h1 : t.rc.store = u.rc.store) (h2 : t.rc.src = u.rc.src) (h3 : t.rc.total = u.rc.total) (h4 : t.rc.cursor = u.rc.cursor)
    (hst : t.rc.state = .fill) (hq : t.cp.mode ≠ .running) (hH : t.HeadersOk)
    (hn : t.rc.fillIdx.toNat = n) (a : u.fullFrom 0 n) (b : u.pendingFrom 0 n = u.transferBytes.take u.rc.cursor.toNat) : Streaming t := by
  subst hn
  refine ⟨fun _ => hq, fun hx => ?_, fun _ => hH, fun _ => ⟨fullFrom_same hp hm a, ?_⟩, fun hx => ?_,
      fun hx => ?_, fun hx => ?_⟩
  · rw [hst] at hx; cases hx
  · rw [pendingFrom_same hp hm, transferBytes_same hp h1 h2 h3, h4]; exact b
  · rw [hst] at hx; cases hx
  · rw [State.afterStart, hst] at hx; simp at hx
  · rw [State.afterStart, hst] at hx; simp at hx

theorem Streaming.ofDrain {u t : State} {n : Nat} (hp : t.par = u.par) (hm : t.mem = u.mem)
    (h1 : t.rc.store = u.rc.store) (h2 : t.rc.src = u.rc.src) (h3 : t.rc.total = u.rc.total) (h4 : t.rc.cursor = u.rc.cursor)
    (hcp : t.cp = u.cp) (hout : t.out = u.out)
    (hst : t.rc.state ∈ [RcState.drain, .sleep, .check]) (hH : t.HeadersOk)
    (a : u.fullFrom u.cp.c n) (b : t.rc.cur = u.cp.c + Fin.ofNat 3 n)
    (c : u.out.flatten ++ u.pendingFrom u.cp.c n = u.transferBytes.take u.rc.cursor.toNat)
    (hg : ∀ g ∈ u.out, g.length = u.consumerGroup) : Streaming t := by
  have hne : t.rc.state ≠ .setup ∧ t.rc.state ≠ .fill ∧ t.rc.state ≠ .start := by
    refine ⟨?_, ?_, ?_⟩ <;> intro e <;> rw [e] at hst <;> simp at hst
  refine ⟨fun hx => ?_, fun hx => absurd hx hne.1, fun _ => hH, fun hx => absurd hx hne.2.1,
      fun hx => absurd hx hne.2.2, fun _ => ⟨n, ?_, ?_, ?_⟩, fun _ => ?_⟩
  · simp [hne] at hx
  · rw [hcp]; exact fullFrom_same hp hm a
  · rw [hcp]; exact b
  · rw [hcp, hout, pendingFrom_same hp hm, transferBytes_same hp h1 h2 h3, h4]; exact c
  · rw [hout]
    have : t.consumerGroup = u.consumerGroup := by simp [State.consumerGroup, hp]
    rw [this]; exact hg

theorem ringStep_streaming {s t : State} (hI : s.Inv) (hp : paramsOk s.par = true) (h : Streaming s)
    (ht : ringStep s = .next t)
   (hne : s.rc.state ≠ .idle) (hnt : t.rc.state ≠ .idle) : Streaming t := by
  have hhead : s.rc.state ≠ .setup → t.HeadersOk := fun hs => ringStep_headers hI hp (h.headers hs) ht
  rcases ringStep_cases ht with ⟨hs, _⟩ | ⟨hs, rfl⟩ | ⟨hs, rfl⟩ | ⟨hs, hc, r, bs, hr, hb, rfl⟩ | ⟨hs,
      rfl⟩ | ⟨hs, _, rfl⟩ |
    ⟨hs, _, hc, he, bs, hb, rfl⟩ | ⟨hs, _, rfl⟩ | ⟨hs, _, rfl⟩ | ⟨hs, _, rfl⟩ | ⟨hs, rfl⟩
  · exact absurd hs hne
  · -- SETUP
    have hst : (ringSetup s).rc.state = .fill := by simp
    have hcur : (ringSetup s).rc.cursor = 0 := by simp [h.starting hs]
    refine ⟨?_, by simp, fun _ => ?_, fun _ => ?_, by simp, by simp [State.afterStart],
        by simp [State.afterStart]⟩
    · intro _; rw [ringSetup_cp]; exact h.quiet (by simp [hs])
    · intro r
      obtain ⟨a, b⟩ := ringSetup_headers hp r
      exact ⟨.inl a, by rw [b]; simp⟩
    · have : (ringSetup s).rc.fillIdx.toNat = 0 := by simp
      rw [this, hcur]
      exact ⟨setup_empty hp, by simp [State.pendingFrom]⟩
  · -- FILL done
    obtain ⟨a, b⟩ := h.filling hs
    refine ⟨fun _ => h.quiet (by simp [hs]), by simp [ringFillDone], fun _ => hhead (by simp [hs]),
        by simp [ringFillDone], fun _ => ?_, by simp [ringFillDone, State.afterStart], by simp [ringFillDone,
            State.afterStart]⟩
    exact ⟨s.rc.fillIdx.toNat, fullFrom_same (s := s) rfl rfl a, rfl,
        (pendingFrom_same (s := s) (t := ringFillDone s) rfl rfl _ _).trans b⟩
  · -- FILL
    obtain ⟨a, b⟩ := h.filling hs
    have hlt : s.rc.fillIdx.toNat < 3 := by
      unfold fillTarget at hr
      split at hr
      · assumption
      · cases hr
    have hreg : r = 0 + Fin.ofNat 3 s.rc.fillIdx.toNat := by
      unfold fillTarget at hr
      rw [dif_pos hlt] at hr
      cases hr
      ext; simp [Nat.mod_eq_of_lt hlt]
    subst hreg
    obtain ⟨q1, q2⟩ := fill_queue hI hp hne (h.headers (by simp [hs])) hlt a hc hb
    have hcur := fill_cursor hI hp hne hc hb
    have hfi : (s.rc.fillIdx + 1).toNat = s.rc.fillIdx.toNat + 1 := by
      rw [BitVec.toNat_add]; simp; omega
    have hst : ((s.fillWith (0 + Fin.ofNat 3 s.rc.fillIdx.toNat) bs).setRc { (s.fillWith (0 + Fin.ofNat 3 s.rc.fillIdx.toNat) bs).rc with fillIdx := s.rc.fillIdx + 1 }).rc.state = .fill := by
      rw [setRc_rc]; exact hs
    refine Streaming.ofFill (u := s.fillWith (0 + Fin.ofNat 3 s.rc.fillIdx.toNat) bs) (n := s.rc.fillIdx.toNat + 1) rfl rfl rfl rfl rfl rfl hst ?_ (hhead (by simp [hs])) ?_ q1 ?_
    · rw [setRc_cp, fillWith_cp]; exact h.quiet (by simp [hs])
    · rw [setRc_rc]; exact hfi
    · rw [q2, b, hcur, ← take_fill hI hp hne hc hb]
      exact congrArg (List.take _) (transferBytes_same (s := s) rfl rfl rfl rfl).symm
  · -- START
    obtain ⟨n, a, b, c⟩ := h.filled hs
    refine ⟨?_, by simp [ringStart], fun _ => hhead (by simp [hs]), by simp [ringStart], by simp [ringStart],
        fun _ => ?_, fun _ => ?_⟩
    · simp [ringStart]
    · refine ⟨n, fullFrom_same (s := s) rfl rfl a, ?_, ?_⟩
      · show s.rc.cur = 0 + Fin.ofNat 3 n
        rw [b]; simp
      · show [].flatten ++ (ringStart s).pendingFrom 0 n = _
        rw [pendingFrom_same (s := s) (t := ringStart s) rfl rfl, c]; rfl
    · intro g hg; cases hg
  · -- DRAIN to CHECK
    obtain ⟨n, a, b, c⟩ := h.draining (by simp [State.afterStart, hs])
    exact Streaming.ofDrain (u := s) rfl rfl rfl rfl rfl rfl rfl rfl (by simp) (hhead (by simp [hs])) a b c (h.groups (by simp [State.afterStart, hs]))
  · -- DRAIN refill
    obtain ⟨n, a, b, c⟩ := h.draining (by simp [State.afterStart, hs])
    have hn : n < 3 := by
      by_contra hcon
      have h3 : n = 3 := by have := a.1; omega
      subst h3
      have h0 := (a.2 0 (by omega)).2 (by omega)
      have e : s.rc.cur = s.cp.c + Fin.ofNat 3 0 := by rw [b]; congr 1
      rw [← e] at h0; exact h0 he
    rw [b] at hb
    obtain ⟨q1, q2⟩ := fill_queue hI hp hne (h.headers (by simp [hs])) hn a hc hb
    have hcur := fill_cursor hI hp hne hc hb
    rw [b] at hhead ⊢
    have hst : ((s.fillWith (s.cp.c + Fin.ofNat 3 n) bs).setRc { (s.fillWith (s.cp.c + Fin.ofNat 3 n) bs).rc with cur := s.cp.c + Fin.ofNat 3 n + 1 }).rc.state = .drain := by
      rw [setRc_rc]; exact hs
    refine Streaming.ofDrain (u := s.fillWith (s.cp.c + Fin.ofNat 3 n) bs) (n := n + 1) rfl rfl rfl rfl rfl rfl rfl rfl (by rw [hst]; simp) (hhead (by simp [hs])) q1 ?_ ?_ ?_
    · show s.cp.c + Fin.ofNat 3 n + 1 = s.cp.c + _
      have : (Fin.ofNat 3 (n + 1)) = Fin.ofNat 3 n + 1 := by ext; simp [Fin.val_add]
      rw [this, add_assoc]
    · show s.out.flatten ++ (s.fillWith (s.cp.c + Fin.ofNat 3 n) bs).pendingFrom s.cp.c (n + 1) = _
      rw [q2, ← List.append_assoc, c, ← take_fill hI hp hne hc hb, hcur]
      exact congrArg (List.take _) (transferBytes_same (s := s) rfl rfl rfl rfl).symm
    · have := h.groups (by simp [State.afterStart, hs])
      exact this
  · -- sleep
    obtain ⟨n, a, b, c⟩ := h.draining (by simp [State.afterStart, hs])
    exact Streaming.ofDrain (u := s) rfl rfl rfl rfl rfl rfl rfl rfl (by simp [ringSleepNow]) (hhead (by simp [hs])) a b c (h.groups (by simp [State.afterStart, hs]))
  · exact h
  · obtain ⟨n, a, b, c⟩ := h.draining (by simp [State.afterStart, hs])
    exact Streaming.ofDrain (u := s) rfl rfl rfl rfl rfl rfl rfl rfl (by simp) (hhead (by simp [hs])) a b c (h.groups (by simp [State.afterStart, hs]))
  · exfalso; apply hnt
    unfold ringCheck State.finishOwner; split <;> rfl

theorem cpConsume_streaming {s : State} (hp : paramsOk s.par = true) (h : Streaming s)
    (hne : s.rc.state ≠ .idle) : Streaming (cpConsume s) := by
  by_cases hc : s.cp.mode = .running ∧ s.endAddr s.cp.c ≠ 0
  · have haf : s.afterStart = true := by
      have := h.quiet
      cases hs : s.rc.state <;> simp_all [State.afterStart]
    have hns : s.rc.state ≠ .setup := by
      intro hs; rw [State.afterStart, hs] at haf; simp at haf
    have hH := h.headers hns
    have hg : 0 < s.consumerGroup := (group_of_paramsOk hp).1
    have hb : s.badEnd s.cp.c = false := (hH s.cp.c).1.resolve_left hc.2
    have hx : cpConsume s = s.consumeRegion s.cp.c := by simp [cpConsume, hc.1, hc.2, hb]
    have hd : Consumed s (cpConsume s) s.cp.c := by rw [hx]; exact consumeRegion_consumed hp _
    obtain ⟨hk, hrc, hout, h0, _, hnx, _⟩ := hd
    have hcp : (cpConsume s).cp = ⟨.running, s.cp.c + 1⟩ := by rw [hnx _ (hH s.cp.c).2, hc.1]
    obtain ⟨n, a, b, c⟩ := h.draining haf
    have hn0 : 0 < n := by
      have := (a.2 0 (by omega)).1 (by simpa using hc.2)
      omega
    obtain ⟨m, rfl⟩ : ∃ m, n = m + 1 := ⟨n - 1, by omega⟩
    have hstep : ∀ j, s.cp.c + 1 + Fin.ofNat 3 j = s.cp.c + Fin.ofNat 3 (j + 1) := by
      intro j
      have : (Fin.ofNat 3 (j + 1)) = 1 + Fin.ofNat 3 j := by ext; simp [Fin.val_add]; omega
      rw [this, add_assoc]
    have hadd : ∀ j < 2, s.cp.c + Fin.ofNat 3 (j + 1) ≠ s.cp.c := by
      intro j hj e
      have e' : s.cp.c + Fin.ofNat 3 (j + 1) = s.cp.c + 0 := by rw [e, add_zero]
      have := congrArg Fin.val (add_left_cancel e')
      simp at this; omega
    have hunt : ∀ j < 2, Untouched s (cpConsume s) (s.cp.c + Fin.ofNat 3 (j + 1)) := fun j hj => consume_untouched hp _ (hadd j hj)
    have hst : (cpConsume s).rc.state = s.rc.state := by rw [hrc]
    have haf' : (cpConsume s).afterStart = true := by simpa [State.afterStart, hst] using haf
    refine ⟨?_, ?_, fun _ => consume_headers hp hH, ?_, ?_, fun _ => ⟨m, ?_, ?_, ?_⟩, fun _ => ?_⟩
    · intro hx; rw [hst] at hx; exact absurd hc.1 (h.quiet hx)
    · intro hx; rw [hst] at hx; exact absurd hx hns
    · intro hx; rw [hst] at hx; rw [State.afterStart, hx] at haf; simp at haf
    · intro hx; rw [hst] at hx; rw [State.afterStart, hx] at haf; simp at haf
    · rw [hcp]
      have hm := a.1
      refine ⟨by omega, fun j hj => ?_⟩
      show (cpConsume s).endAddr (s.cp.c + 1 + Fin.ofNat 3 j) ≠ 0 ↔ j < m
      rw [hstep]
      by_cases hj2 : j < 2
      · rw [((hunt j hj2).addrs hp hk.config.par).1, a.2 (j + 1) (by omega)]; omega
      · have : j = 2 := by omega
        subst this
        have e : s.cp.c + Fin.ofNat 3 (2 + 1) = s.cp.c := by
          have : (Fin.ofNat 3 (2 + 1)) = 0 := rfl
          rw [this, add_zero]
        rw [e, h0]; simp; omega
    · rw [hrc, hcp, b, hstep]
    · rw [hout, hcp, hrc]
      show (s.out ++ s.regionGroups s.cp.c).flatten ++ (cpConsume s).pendingFrom (s.cp.c + 1) m = _
      rw [transferBytes_same (s := s) hk.config.par (by rw [hrc]) (by rw [hrc]) (by rw [hrc])]
      rw [← c, List.flatten_append, groups_pending hg hc.2 hb, State.pendingFrom, List.append_assoc]
      congr 2
      refine pendingFrom_congr _ m fun j hj => ?_
      rw [hstep]
      have hm := a.1
      exact (hunt j (by omega)).pending hp hk.config.par (hH _).1
    · rw [hout]
      intro g hg'
      have hcg : (cpConsume s).consumerGroup = s.consumerGroup := by simp [State.consumerGroup, hk.config.par]
      rw [hcg]
      rcases List.mem_append.1 hg' with hg' | hg'
      · exact h.groups haf g hg'
      · simp only [State.regionGroups, List.mem_map] at hg'
        obtain ⟨m', _, rfl⟩ := hg'
        simp [State.loadBytes]
  · unfold cpConsume; rw [if_neg hc]; exact h

theorem Streaming.newMode {s t : State} {m : CpMode} (h : Streaming s) (hm : m ≠ .running)
    (hp : t.par = s.par) (hmem : t.mem = s.mem)
    (hcp : t.cp = { s.cp with mode := m }) (hout : t.out = s.out) (hrc : t.rc = s.rc) : Streaming t := by
  have ht := transferBytes_same hp (by rw [hrc]) (by rw [hrc]) (by rw [hrc])
  have hcg : t.consumerGroup = s.consumerGroup := by simp [State.consumerGroup, hp]
  have haf : t.afterStart = s.afterStart := by simp [State.afterStart, hrc]
  constructor
  · intro _; rw [hcp]; exact hm
  · rw [hrc]; exact h.starting
  · rw [hrc]; intro hx; exact HeadersOk.same (h.headers hx) hp hmem
  · rw [hrc, ht, pendingFrom_same hp hmem]; intro hx; exact ⟨fullFrom_same hp hmem (h.filling hx).1,
      (h.filling hx).2⟩
  · rw [hrc]; intro hx
    obtain ⟨n, a, b, c⟩ := h.filled hx
    exact ⟨n, fullFrom_same hp hmem a, b, by rw [pendingFrom_same hp hmem, ht, c]⟩
  · rw [haf]; intro hx
    obtain ⟨n, a, b, c⟩ := h.draining hx
    exact ⟨n, by rw [hcp]; exact fullFrom_same hp hmem a, by rw [hcp, hrc, b], by rw [hcp, hout,
        pendingFrom_same hp hmem, ht, hrc, c]⟩
  · rw [haf, hout, hcg]; exact h.groups

theorem Streaming.setMode {s : State} (h : Streaming s) (m : CpMode) (hm : m ≠ .running) :
    Streaming (s.setCp { s.cp with mode := m }) :=
  h.newMode hm rfl rfl rfl rfl rfl

end Sys2Proof.Machine
end

