-- ==== Sys2Proof/Machine/Boot.lean ====
section
/-! DEFINITION. The host's boot order as actions (`70_reset_and_hazards.md` R231): load the coprocessor, write the
configuration, lock. The pin configuration of step 1 is outside BTFE. -/

namespace Sys2Proof.Machine

/-- A 32-bit register write. -/
def write32 (off : Nat) (v : Word) : Action := .regWrite off 4 v

/-- Writing row k of the panel table (`10_state.md` R40). -/
def rowWrites (k : Nat) (r : PanelRow) : List Action :=
  [write32 (panelOffset k) (r.ch.setWidth 32), write32 (panelOffset k + 4) r.nreal,
   write32 (panelOffset k + 8) r.nbuf]

/-- Writing rows from k upwards. -/
def panelWrites : Nat → List PanelRow → List Action
  | _, [] => []
  | k, r :: rs => rowWrites k r ++ panelWrites (k + 1) rs

/-- Step 3 of R231: `CFG.NC`, `CFG.NL`, `CFG.NP` and the panel rows, with the counts of `40_encoder.md` R105
and R106. DESIGN CHOICE: the channel count is always the smallest, whatever `P_HW_CHANNELS` is; R105 leaves to the
host when it must match a different one (log 40). -/
def configurationWrites (rows : List PanelRow) : List Action :=
  [write32 0x000 (BitVec.ofNat 32 (hostChannelCount rows)), write32 0x004 (BitVec.ofNat 32 (hostLedCount rows)),
   write32 0x008 (BitVec.ofNat 32 rows.length)] ++ panelWrites 0 rows

/-- The boot of R231, steps 2 to 4. -/
def bootActions (rows : List PanelRow) : List Action :=
  .coproLoad :: configurationWrites rows ++ [write32 0x01C 1#32]

/-- Actions put at the end of the agenda, each with draw 0. -/
def State.schedule (s : State) (as : List Action) : State :=
  { s with agenda := s.agenda ++ as.map fun a => ⟨0, a⟩ }

end Sys2Proof.Machine
end

