-- ==== Sys2Proof/Machine/Assembler.lean ====
section
/-! DEFINITION. The spec's assembler syntax for test programs and what a statement expands to (`30_encoding.md`
R87). It is text beside the machine: nothing in `step` reads it. -/

namespace Sys2Proof.Machine

/-- A statement of R87. -/
inductive AsmStatement
  /-- `MNEMONIC qN, a0, ...`: the opcode, the port and the listed operands. -/
  | command (op : Byte) (q : Port) (args : List Word)
  /-- `WAIT qN`: holds until `Q[N].BUSY = 0`; issues nothing. -/
  | wait (q : Port)
  /-- `DGRAM "text"`: the environment delivers the bytes. -/
  | dgram (text : List Byte)
  deriving DecidableEq, Repr

/-- Writing the listed operands to `ARG0` onwards. -/
def argWrites (q : Port) : Nat → List Word → List Action
  | _, [] => []
  | n, a :: as => write32 (argOffset q n) a :: argWrites q (n + 1) as

/-- What a statement expands to: the argument writes, then the command word (R87). -/
def asmActions : AsmStatement → List Action
  | .command op q args => argWrites q 0 args ++ [write32 (cmdOffset q) (opcodeWord op)]
  | .wait _ => []
  | .dgram text => [.datagram text]

/-- A statement may go ahead: `WAIT qN` holds until the port is idle. -/
def asmEnabled (s : State) : AsmStatement → Bool
  | .command _ _ _ => true
  | .wait q => !(s.port q).busy
  | .dgram _ => true

/-! ### Reading a line of text -/

/-- Characters as bytes. -/
def asciiBytes (cs : List Char) : List Byte := cs.map fun c => BitVec.ofNat 8 c.toNat

/-- The mnemonics and their opcodes (R83). -/
def asmMnemonics : List (List Byte × Byte) :=
  [(asciiBytes ['E', 'N', 'C', 'O', 'D', 'E'], 0x01#8),
   (asciiBytes ['X', 'F', 'E', 'R'], 0x10#8),
   (asciiBytes ['A', 'C', 'Q', 'U', 'I', 'R', 'E'], 0x20#8),
   (asciiBytes ['T', 'R', 'Y', '_', 'H', 'A', 'N', 'D', 'O', 'F', 'F'], 0x21#8),
   (asciiBytes ['R', 'E', 'L', 'E', 'A', 'S', 'E'], 0x22#8),
   (asciiBytes ['S', 'H', 'O', 'W'], 0x30#8),
   (asciiBytes ['P', 'L', 'A', 'Y'], 0x31#8),
   (asciiBytes ['S', 'T', 'O', 'P'], 0x32#8)]

/-- The word `WAIT`. -/
def kwWait : List Byte := asciiBytes ['W', 'A', 'I', 'T']

/-- The word `DGRAM`. -/
def kwDgram : List Byte := asciiBytes ['D', 'G', 'R', 'A', 'M']

/-- A comment starts at `;` (R87). -/
def stripComment (l : List Byte) : List Byte := l.takeWhile fun b => b ≠ 0x3B#8

/-- Commas separate operands as spaces do (log 36). -/
def commasToSpaces (l : List Byte) : List Byte := l.map fun b => if b = 0x2C#8 then spaceByte else b

/-- The value of a hexadecimal digit. -/
def hexDigit (b : Byte) : Option Nat :=
  if 0x30#8 ≤ b ∧ b ≤ 0x39#8 then some (b.toNat - 0x30)
  else if 0x41#8 ≤ b ∧ b ≤ 0x46#8 then some (b.toNat - 0x37)
  else if 0x61#8 ≤ b ∧ b ≤ 0x66#8 then some (b.toNat - 0x57)
  else none

/-- The value of hexadecimal digits after a value already read. -/
def hexFrom (acc : Nat) : List Byte → Option Nat
  | [] => some acc
  | b :: bs => (hexDigit b).bind fun d => hexFrom (acc * 16 + d) bs

/-- A u32 operand: decimal or `0x` hexadecimal (R87). -/
def asmNumber (t : List Byte) : Option Word :=
  match t with
  | 0x30#8 :: 0x78#8 :: d :: ds =>
    match hexFrom 0 (d :: ds) with
    | some n => if n < 2 ^ 32 then some (BitVec.ofNat 32 n) else none
    | none => none
  | _ => numberToken t

/-- A port name `qN` (R87). -/
def asmPort (t : List Byte) : Option Port :=
  match t with
  | 0x71#8 :: ds =>
    match numberToken ds with
    | some n => if h : n.toNat < 32 then some ⟨n.toNat, h⟩ else none
    | none => none
  | _ => none

/-- The operands of a statement: each a number. -/
def asmArgs : List (List Byte) → Option (List Word)
  | [] => some []
  | t :: ts =>
    match asmNumber t, asmArgs ts with
    | some a, some as => some (a :: as)
    | _, _ => none

/-- A command statement from its tokens: at most four operands. -/
def asmCommand (m p : List Byte) (as : List (List Byte)) : Option AsmStatement :=
  match asmMnemonics.lookup m, asmPort p, asmArgs as with
  | some op, some q, some args => if args.length ≤ 4 then some (.command op q args) else none
  | _, _, _ => none

/-- The bytes of a quoted text up to its closing quote; `\n`, `\r` and `\0` are single bytes
(`95_test_vectors.md` section 7). -/
def quoted : List Byte → Option (List Byte)
  | [] => none
  | 0x22#8 :: _ => some []
  | 0x5C#8 :: 0x6E#8 :: bs => (quoted bs).map (0x0A#8 :: ·)
  | 0x5C#8 :: 0x72#8 :: bs => (quoted bs).map (0x0D#8 :: ·)
  | 0x5C#8 :: 0x30#8 :: bs => (quoted bs).map (0x00#8 :: ·)
  | b :: bs => (quoted bs).map (b :: ·)

/-- A line after its comment is cut off, by tokens. -/
def asmTokens : List (List Byte) → Option AsmStatement
  | m :: p :: as => if m = kwWait ∧ as = [] then (asmPort p).map .wait else asmCommand m p as
  | _ => none

/-- One line of R87: `DGRAM "text"`, `WAIT qN` or a command. -/
def asmLine (l : List Byte) : Option AsmStatement :=
  if l.take 7 = kwDgram ++ [spaceByte, 0x22#8] then (quoted (l.drop 7)).map .dgram
  else asmTokens (tokens (commasToSpaces (stripComment l)))

end Sys2Proof.Machine
end

