-- ==== Sys2Proof/Tests/Slice0.lean ====
section
/-! SUPPORT. Tests with results from `spec/95_test_vectors.md` or worked by hand from the rules, and for every
obligation with hypotheses a state and operands that meet them. -/

set_option Elab.async false

namespace Sys2Proof.Tests

open Sys2Proof.Machine

/-! ### Small states -/

/-- Bytes of an ASCII text. -/
def ascii (cs : List Char) : List Byte := cs.map fun c => BitVec.ofNat 8 c.toNat

/-- V-ENC-1, locked: 8 channels, 3 LEDs, one row `3/2/1`, LED 0 red, LED 1 blue. -/
def configured : State :=
  { State.reset with
    cfg := ⟨8#32, 3#32, 1#32, true, false, false, false⟩
    panel := State.reset.panel.set 0 ⟨3#6, 2#32, 1#32⟩
    coproReady := true
    colours := [[⟨255#8, 0#8, 0#8⟩, ⟨0#8, 0#8, 255#8⟩]] }

/-- A busy port that runs `op`. -/
def busy (op : Byte) (blocked : Bool) (x : Seq) : PortState :=
  { PortState.reset with busy := true, blocked := blocked, opcode := op, seq := x }

/-- A macro-command's context at a phase. -/
def ctx (k : Kind) (p : Phase) : Seq := { Seq.reset with kind := k, phase := p, fps := 30#32, upto := 4#32 }

/-- Port q holds the token and issues. -/
def holding (q : Port) : State := { configured with tk := ⟨.held, q, 0⟩, issuer := q }

/-- Port 2 waits in a plain ACQUIRE. -/
def portTwoWaits (s : State) : State := { s.setPort 2 (busy 0x20#8 true Seq.reset) with tk := { s.tk with wait := 4#32 } }

/-- Port 0 runs a macro-command with a context and holds the token. -/
def inContext (x : Seq) (blocked : Bool) : State := (holding 0).setPort 0 (busy 0x30#8 blocked x)

/-- Port 0 runs a macro-command at a phase and holds the token. -/
def inPhase (k : Kind) (p : Phase) (blocked : Bool) : State := inContext (ctx k p) blocked

/-- RC in a state of the transfer of the one frame of `Config.exampleStore`. -/
def transfer (st : RcState) (cursor : Word) : Rc :=
  { Rc.reset with state := st, src := 8#32, total := 72#32, cursor := cursor, g := 1#4 }

/-- Port 0's XFER runs that transfer. -/
def running (rc : Rc) : State := { (holding 0).setPort 0 (busy 0x10#8 true Seq.reset) with rc := rc }

/-- A machine with one other store. -/
def withStore (f : Store) : State := { configured with par := { Config.resetParams with stores := [f] } }

/-- A machine with other region capacities. -/
def withCaps (cap : Word) : State :=
  { configured with
    par := { Config.resetParams with regions := #v[⟨0x10000#32, cap⟩, ⟨0x10040#32, cap⟩, ⟨0x10080#32, cap⟩] } }

/-- A four-byte header word. -/
def w32 (n : Nat) : List Byte := leBytes 4 n

/-- The next state of an outcome satisfies p. -/
def nextSat (o : Host.Outcome State Fault Refusal) (p : State → Bool) : Bool :=
  match o with
  | .next t => p t
  | .fault _ => false
  | .refused _ => false

/-! ### Well-formedness: the ill-formed terms the check refuses -/

/-- R90: a path is one token, so it is not empty. -/
theorem test_wf_refuses_empty_path : (Instr.showDatagram [] 3#32).wf = false ∧ (Instr.playDatagram [] 0#32 1#32 2#32).wf = false := by
  decide

/-- R90: a path holds no space. -/
theorem test_wf_refuses_space_in_path :
    (Instr.showDatagram [0x61#8, 0x20#8, 0x62#8] 3#32).wf = false ∧
      (Instr.playDatagram [0x20#8] 0#32 1#32 2#32).wf = false := by
  decide

theorem test_wf_accepts : ([Instr.stopDatagram, .showDatagram [0x61#8] 3#32] ++ commandWords).all Instr.wf = true := by
  decide

/-! ### Decoding: words and texts written out from R83 and R92 -/

theorem test_decode_encode : decodeWord 0b00000000000000000000000000000001#32 = .ok .encodeFrame := by decide
theorem test_decode_xfer : decodeWord 0b00000000000000000000000000010000#32 = .ok .xfer := by decide
theorem test_decode_acquire : decodeWord 0b00000000000000000000000000100000#32 = .ok .acquire := by decide
theorem test_decode_tryHandoff : decodeWord 0b00000000000000000000000000100001#32 = .ok .tryHandoff := by decide
theorem test_decode_release : decodeWord 0b00000000000000000000000000100010#32 = .ok .release := by decide
theorem test_decode_show : decodeWord 0b00000000000000000000000000110000#32 = .ok .showFrame := by decide
theorem test_decode_play : decodeWord 0b00000000000000000000000000110001#32 = .ok .playFrames := by decide
theorem test_decode_stop : decodeWord 0b00000000000000000000000000110010#32 = .ok .stopPlayback := by decide

/-- V-EXC-1: the words `0x00000002`, `0x00000120`, `0x00000101`, `0xFFFFFFFF`. -/
theorem test_decode_illegal :
    decodeWord 0x00000002#32 = .error .unknownOpcode ∧ decodeWord 0x00000120#32 = .error .reservedBits ∧
      decodeWord 0x00000101#32 = .error .reservedBits ∧ decodeWord 0xFFFFFFFF#32 = .error .reservedBits := by
  decide

/-- Section 7: `show  a.dat   3\0`, `show a.dat 007\n`, `show a.dat 4294967295\n`. -/
theorem test_decode_showDatagram :
    decodeDatagram (ascii ['s', 'h', 'o', 'w', ' ', ' ', 'a', '.', 'd', 'a', 't', ' ', ' ', ' ', '3'] ++ [0#8])
        = .ok (.showDatagram Config.examplePath 3#32) ∧
    decodeDatagram (ascii ['s', 'h', 'o', 'w', ' ', 'a', '.', 'd', 'a', 't', ' ', '0', '0', '7', '\n'])
        = .ok (.showDatagram Config.examplePath 7#32) ∧
    decodeDatagram (ascii ['s', 'h', 'o', 'w', ' ', 'a', ' ', '4', '2', '9', '4', '9', '6', '7', '2', '9', '5', '\n'])
        = .ok (.showDatagram [0x61#8] 0xFFFFFFFF#32) := by
  decide

/-- Section 7: `play a.dat 10 to 10 @ 30 fps\n`. -/
theorem test_decode_playDatagram :
    decodeDatagram (ascii ['p', 'l', 'a', 'y', ' ', 'a', '.', 'd', 'a', 't', ' ', '1', '0', ' ', 't', 'o', ' ', '1', '0',
      ' ', '@', ' ', '3', '0', ' ', 'f', 'p', 's', '\n']) = .ok (.playDatagram Config.examplePath 10#32 10#32 30#32) := by
  decide

/-- Section 7: `stop\n`; `stop`, `stop\n\n`, `stop now\n`, no byte and `\n` are unrecognised. -/
theorem test_decode_stopDatagram :
    decodeDatagram (ascii ['s', 't', 'o', 'p', '\n']) = .ok .stopDatagram ∧
    decodeDatagram (ascii ['s', 't', 'o', 'p']) = .error .unrecognised ∧
    decodeDatagram (ascii ['s', 't', 'o', 'p', '\n', '\n']) = .error .unrecognised ∧
    decodeDatagram (ascii ['s', 't', 'o', 'p', ' ', 'n', 'o', 'w', '\n']) = .error .unrecognised ∧
    decodeDatagram [] = .error .unrecognised ∧ decodeDatagram [0x0A#8] = .error .unrecognised := by
  decide

/-- Section 7: `show a 4294967296\n`, `show a -1\n`, `show a\n`, `Show a 3\n`, `play a 1 to 5 @ 2.5 fps\n`,
`play a 1 to 5 @ 30\n` are unrecognised. -/
theorem test_decode_unrecognised :
    ([['s', 'h', 'o', 'w', ' ', 'a', ' ', '4', '2', '9', '4', '9', '6', '7', '2', '9', '6', '\n'],
      ['s', 'h', 'o', 'w', ' ', 'a', ' ', '-', '1', '\n'], ['s', 'h', 'o', 'w', ' ', 'a', '\n'],
      ['S', 'h', 'o', 'w', ' ', 'a', ' ', '3', '\n'],
      ['p', 'l', 'a', 'y', ' ', 'a', ' ', '1', ' ', 't', 'o', ' ', '5', ' ', '@', ' ', '2', '.', '5', ' ', 'f', 'p', 's', '\n'],
      ['p', 'l', 'a', 'y', ' ', 'a', ' ', '1', ' ', 't', 'o', ' ', '5', ' ', '@', ' ', '3', '0', '\n']].all
        fun cs => decide (decodeDatagram (ascii cs) = .error .unrecognised)) = true := by
  decide +kernel

/-- The opcode table's numbering: bit 0 is the least significant bit of the first byte. -/
theorem test_decodeTableWord :
    decodeTableWord 32 0x22 = some .release ∧ decodeTableWord 40 0x0A706F7473 = some .stopDatagram ∧
      decodeTableWord 32 0x122 = none := by
  decide

/-- A placed word, and a placed datagram, is what the next step runs. -/
theorem test_withFetchWord :
    nextSat (step (State.reset.withFetchWord 32 0x21)) (fun t => decide ((t.port 0).result = .eNotReady)) = true ∧
      nextSat (step (State.reset.withFetchWord 40 0x0A706F7473)) (fun t => decide ((t.port 0).opcode = 0x32#8)) = true := by
  decide +kernel

/-! ### ENCODE (section 2) -/

/-- A payload of `n` zero bytes but for a value at some offsets. -/
def bytesAt (n : Nat) (v : Byte) (at' : List Nat) : List Byte :=
  (List.range n).map fun i => if i ∈ at' then v else 0#8

/-- V-ENC-1: bytes 32-39 and 64-71 are `0x08`. -/
theorem test_encode_venc1 :
    nextSat (exec .encodeFrame configured) (fun t => decide
      (t.encOut = bytesAt 72 0x08#8 [32, 33, 34, 35, 36, 37, 38, 39, 64, 65, 66, 67, 68, 69, 70, 71])) = true := by
  decide +kernel

/-- V-ENC-1 with `PACKED` and `MSB0`: bytes 32-39 and 48-55 are `0x10`. -/
theorem test_encode_other_orders :
    nextSat (exec .encodeFrame
        { configured with par := { Config.resetParams with slotOrder := .packed, bitOrder := .msb0 } })
      (fun t => decide
        (t.encOut = bytesAt 72 0x10#8 [32, 33, 34, 35, 36, 37, 38, 39, 48, 49, 50, 51, 52, 53, 54, 55])) = true := by
  decide +kernel

/-- V-ENC-3: 16 channels, rows `9/1/1` and `0/2/0`. -/
theorem test_encode_venc3 :
    State.payload
      { configured with
        cfg := ⟨16#32, 2#32, 2#32, true, false, false, false⟩
        panel := (State.reset.panel.set 0 ⟨9#6, 1#32, 1#32⟩).set 1 ⟨0#6, 2#32, 0#32⟩
        colours := [[⟨255#8, 255#8, 255#8⟩], [⟨1#8, 0#8, 0#8⟩, ⟨0#8, 0#8, 0#8⟩]] } =
      (List.range 96).map fun i => if i = 30 then 1#8 else if 48 ≤ i ∧ i % 2 = 1 then 2#8 else 0#8 := by
  decide +kernel

/-- V-ENC-7: 24 channels, row `23/1/0`, the red MSB: byte 26 is `0x80`. -/
theorem test_encode_venc7 :
    State.payload
      { configured with
        cfg := ⟨24#32, 1#32, 1#32, true, false, false, false⟩
        panel := State.reset.panel.set 0 ⟨23#6, 1#32, 0#32⟩
        colours := [[⟨0x80#8, 0#8, 0#8⟩]] } = bytesAt 72 0x80#8 [26] := by
  decide +kernel

/-- V-ENC-9: the smallest legal channel count; R106: the LED count. -/
theorem test_host_counts :
    ([0, 3, 7, 8, 15, 16, 47].map fun c => hostChannelCount [⟨BitVec.ofNat 6 c, 1#32, 0#32⟩])
        = [8, 8, 8, 16, 16, 24, 48] ∧
      hostLedCount [⟨3#6, 2#32, 1#32⟩, ⟨6#6, 1#32, 0#32⟩] = 3 := by
  decide

/-! ### Memory, stores and sizes (section 3) -/

/-- V-MEM-1: the MULTI store of 156 bytes, its frame 1 at `12 + 72`. -/
theorem test_validate_offset :
    State.validate (withStore ⟨.multi, w32 8 ++ w32 3 ++ w32 2 ++ List.replicate 144 0#8⟩) 0#32 1#32
      = .ok ⟨8, 3, 84⟩ := by
  decide +kernel

/-- V-MEM-2: the header `37 00 01 00 40 00 01 00`. -/
theorem test_header_bytes :
    ((State.reset.memWrite 0x10000 4 0x10037).memWrite 0x10004 4 0x10040).loadBytes 0x10000 8
      = [0x37#8, 0x00#8, 0x01#8, 0x00#8, 0x40#8, 0x00#8, 0x01#8, 0x00#8] := by
  decide +kernel

/-- V-MEM-3. -/
theorem test_usable_bytes :
    [usableBytes 56 1, usableBytes 31 1, usableBytes 32 1, usableBytes 100 2, usableBytes 128 5, usableBytes 151 6,
      usableBytes 152 6, usableBytes 8192 6] = [48, 0, 24, 48, 120, 0, 144, 8064] := by
  decide

/-- Reset memory, and memory written in any order, is in its canonical form. -/
theorem test_memory_wf :
    Memory.wf State.reset.mem = true ∧ Memory.wf (Memory.write (Memory.write [(7, 1#8)] 9 2#8) 3 4#8) = true ∧
      Memory.wf [(3, 0#8), (3, 1#8)] = false := by
  decide

/-! ### XFER and the ring (section 4) -/

/-- V-RC-1: the deadlines. -/
theorem test_deadlines :
    ([(72, 1), (168, 1), (48, 2), (96, 2), (43200, 6)].map fun x =>
        State.deadline { configured with rc := { Rc.reset with total := BitVec.ofNat 32 x.1, g := BitVec.ofNat 4 x.2 } })
      = [140000, 260000, 80000, 110000, 9050000] := by
  decide +kernel

/-- XFER of the reset store: `{nc 8, nl 3, offset 8}`. -/
theorem test_xfer_starts :
    nextSat (exec .xfer (holding 0)) (fun t => decide
      (t.rc = transfer .setup 0#32 ∧ (t.port 0).blocked = true)) = true := by
  decide +kernel

/-- V-RC-10: port 1 does not hold the token and names a missing store: `E_NOT_HOLDER`. -/
theorem test_xfer_not_holder :
    nextSat (exec .xfer { (holding 0).setPort 1 { PortState.reset with arg1 := 5#32 } with issuer := 1 })
      (fun t => decide ((t.port 1).result = .eNotHolder ∧ t.rc = Rc.reset)) = true := by
  decide +kernel

/-- V-MEM-2, V-RC-2: the first FILL step writes region A. -/
theorem test_fill_region :
    nextSat (ringStep { running (transfer .fill 0#32) with mem := (ringSetup (running (transfer .setup 0#32))).mem })
      (fun t => decide (t.endAddr 0 = 0x10037 ∧ t.nextAddr 0 = 0x10040 ∧ t.nextAddr 2 = 0x10000 ∧
        t.rc.cursor = 48#32 ∧ t.rc.fillIdx = 1#2)) = true := by
  decide +kernel

/-- R133: two conditions at once give `E_UNDERRUN` before `E_UNCONSUMED` (V-RC-7), `E_TIMEOUT` before both. -/
theorem test_flags_result :
    [Flags.result ⟨true, false, true⟩, Flags.result ⟨true, true, true⟩, Flags.result ⟨false, false, true⟩,
      Flags.result ⟨false, false, false⟩] = [.eUnderrun, .eTimeout, .eUnconsumed, .ok] := by
  decide

/-- V-RC-8: at `T_NOW - RC.T0 = 110000` the deadline of 110000 is reached; at 109999 it is not. -/
theorem test_deadline_exact :
    State.underDeadline { configured with tNow := 110000#64, rc := { Rc.reset with deadline := 110000#64 } } = false ∧
      State.underDeadline { configured with tNow := 109999#64, rc := { Rc.reset with deadline := 110000#64 } } = true := by
  decide +kernel

/-- P3: `RC_STATUS = 0x00071100` after the timeout. -/
theorem test_rcStatus :
    State.rcStatus { configured with rc := { Rc.reset with flags := ⟨true, true, true⟩, result := .eTimeout } }
      = 0x00071100#32 := by
  decide +kernel

/-! ### The token (section 5) -/

/-- Step 1: ACQUIRE by port 0 enters the set. -/
theorem test_acquire_waits :
    nextSat (exec .acquire configured) (fun t => decide
      (t.tkStatus = 0#32 ∧ t.tkWait = 1#32 ∧ (t.port 0).blocked = true)) = true := by
  decide +kernel

/-- Step 9: ACQUIRE by the holder. -/
theorem test_acquire_reentry :
    nextSat (exec .acquire (holding 2)) (fun t => decide ((t.port 2).result = .eReentry ∧ t.tk = (holding 2).tk)) = true := by
  decide +kernel

/-- Step 2: GRANT. -/
theorem test_grant :
    (grantStep (portTwoWaits configured)).tkStatus = 0x201#32 ∧ (grantStep (portTwoWaits configured)).tkWait = 0#32 ∧
      ((grantStep (portTwoWaits configured)).port 2).result = .ok ∧
      ((grantStep (portTwoWaits configured)).port 2).busy = false := by
  decide +kernel

/-- Step 6: TRY_HANDOFF with port 2 waiting. -/
theorem test_tryHandoff_preempted :
    nextSat (exec .tryHandoff (portTwoWaits (holding 0))) (fun t => decide
      (t.tkStatus = 0x201#32 ∧ (t.port 0).result = .preempted ∧ (t.port 2).result = .ok ∧ t.tkWait = 0#32)) = true := by
  decide +kernel

/-- Step 3: TRY_HANDOFF with nobody waiting. -/
theorem test_tryHandoff_stillHeld :
    nextSat (exec .tryHandoff (holding 0)) (fun t => decide
      (t.tkStatus = 1#32 ∧ (t.port 0).result = .stillHeld)) = true := by
  decide +kernel

/-- Step 11: RELEASE by the holder. -/
theorem test_release :
    nextSat (exec .release (portTwoWaits (holding 1))) (fun t => decide
      (t.tkStatus = 0#32 ∧ t.tkWait = 4#32 ∧ (t.port 1).result = .ok)) = true := by
  decide +kernel

/-- Steps 7 and 14: RELEASE by a port that does not hold the token. -/
theorem test_release_not_holder :
    nextSat (exec .release { holding 2 with issuer := 0 }) (fun t => decide
      (t.tkStatus = 0x201#32 ∧ (t.port 0).result = .eNotHolder)) = true := by
  decide +kernel

/-! ### SHOW, PLAY and STOP (section 6) -/

/-- SHOW's issue and V-SEQ-1: frame 11 of a store of one frame is `E_RANGE`, logged as `0x21`. -/
theorem test_show_begins :
    nextSat (exec .showFrame (configured.setPort 0 { PortState.reset with arg0 := 11#32 })) (fun t => decide
      ((t.port 0).seq.kind = .showCmd ∧ (t.port 0).seq.phase = .validate ∧ (t.port 0).seq.idx = 11#32)) = true := by
  decide +kernel

theorem test_show_invalid_frame :
    (showValidate 0 (configured.setPort 0 (busy 0x30#8 false { ctx .showCmd .validate with idx := 11#32 }))).log
      = [⟨0#64, some 0, .cmdInvalid, 0x21#32, 0#32⟩] := by
  decide +kernel

theorem test_play_begins :
    nextSat (exec .playFrames
        (configured.setPort 0 { PortState.reset with arg0 := 1#32, arg1 := 0#32, arg2 := 4#32, arg3 := 30#32 }))
      (fun t => decide ((t.port 0).seq = { Seq.reset with
        kind := .playCmd, phase := .validate, first := 1#32, upto := 4#32, fps := 30#32 })) = true := by
  decide +kernel

/-- V-SEQ-5: PlayIndex and NextDeadline at 30 fps. -/
theorem test_play_schedule :
    ([0, 33333334, 66666667, 100000000, 133333334].map (playIndex (ctx .playCmd .poll))) = [0, 1, 2, 3, 4] ∧
      ([0, 1, 2, 3].map (nextDeadline (ctx .playCmd .poll))) = [33333334, 66666667, 100000000, 133333334] := by
  decide

/-- V-SEQ-3, P4 step 1: a granted SHOW stays in ACQ with its hold lifted (R152, R212); its own next step goes to POLL. -/
theorem test_granted_show_goes_to_poll :
    let s := grantStep ((portTwoWaits configured).setSeq 2 { ctx .showCmd .acq with queued := true })
    s.holds 2 = true ∧ (s.port 2).busy = true ∧ (s.port 2).blocked = false ∧ (s.port 2).seq.phase = .acq ∧
      nextSat (portStep 2 s) (fun t => decide ((t.port 2).seq.phase = .poll ∧ t.tk = s.tk)) = true := by
  decide +kernel

/-- V-SEQ-9: STOP begins in ACQ. -/
theorem test_stop_begins :
    nextSat (exec .stopPlayback configured) (fun t => decide
      ((t.port 0).seq.kind = .stopCmd ∧ (t.port 0).seq.phase = .acq)) = true := by
  decide +kernel

/-- V-SEQ-8: a failed transfer in STANDALONE mode: `CFG.CTRL = 0x9`, the waiting port ends with `E_NOT_READY`. -/
theorem test_standalone_fatal :
    nextSat (portStep 0
        { portTwoWaits (inPhase .showCmd .xfer true) with
          par := { Config.resetParams with mode := .standalone }
          rc := { Rc.reset with result := .eTimeout } })
      (fun t => decide (t.cfgCtrl = 9#32 ∧ (t.port 2).result = .eNotReady ∧ (t.port 0).result = .eTimeout ∧
        t.tkWait = 0#32)) = true := by
  decide +kernel

/-! ### Datagrams (sections 6 and 7) -/

/-- P5: the operands of a dispatched PLAY. -/
theorem test_playDatagram_dispatch :
    nextSat (exec (.playDatagram Config.examplePath 10#32 10#32 30#32) configured) (fun t => decide
      ((t.port 0).arg0 = 10#32 ∧ (t.port 0).arg1 = 0#32 ∧ (t.port 0).arg2 = 10#32 ∧ (t.port 0).arg3 = 30#32 ∧
        (t.port 0).opcode = 0x31#8 ∧ (t.port 0).busy = true)) = true := by
  decide +kernel

/-- R181: with port 0 busy, SHOW goes to port 1. -/
theorem test_showDatagram_dispatch :
    nextSat (exec (.showDatagram Config.examplePath 3#32) (running (transfer .fill 0#32))) (fun t => decide
      ((t.port 1).arg0 = 3#32 ∧ (t.port 1).opcode = 0x30#8 ∧ (t.port 1).busy = true)) = true := by
  decide +kernel

/-- P6: a path that is MISSING. -/
theorem test_showDatagram_missing :
    nextSat (exec (.showDatagram [0x63#8] 0#32) configured) (fun t => decide
      (t.log = [⟨0#64, none, .ioError, 0#32, 0#32⟩])) = true := by
  decide +kernel

theorem test_stopDatagram_dispatch :
    nextSat (exec .stopDatagram configured) (fun t => decide
      ((t.port 0).opcode = 0x32#8 ∧ (t.port 0).seq.phase = .acq)) = true := by
  decide +kernel

/-- P6: `stop` without a terminator is logged with its length. -/
theorem test_unrecognised_logged :
    nextSat (deliverDatagram (ascii ['s', 't', 'o', 'p']) configured) (fun t => decide
      (t.log = [⟨0#64, none, .dgramUnrecognized, 4#32, 0#32⟩])) = true := by
  decide +kernel

/-! ### Registers, errors and the lock (section 8) -/

/-- V-EXC-1: an illegal word, not locked and locked. -/
theorem test_illegal_word :
    nextSat (issueWord 0 0xFFFFFFFF#32 State.reset) (fun t => decide ((t.port 0).result = .eNotReady)) = true ∧
      nextSat (issueWord 0 0x120#32 configured) (fun t => decide ((t.port 0).result = .eIllegal)) = true := by
  decide +kernel

/-- V-EXC-2: `PORT_STATUS = 0x00002007`. -/
theorem test_busy_port :
    nextSat (issueWord 2 0x32#32 (portTwoWaits configured)) (fun t => decide
      ((t.port 2).status = 0x00002007#32)) = true := by
  decide +kernel

/-- V-REG-2: a write of `0xFFFFFFC3` to `PANEL[0].CH` before the lock reads back as `0x03`. -/
theorem test_panel_channel :
    nextSat (registerWrite 0x100 4 0xFFFFFFC3#32 State.reset) (fun t => decide
      (t.readReg (.panelCh 0) = 3#32)) = true := by
  decide +kernel

/-- V-REG-2: a 16-bit read at offset `0x002` is refused; after the lock a write of `CFG.NC` is ignored. -/
theorem test_register_access :
    registerRead 0x002 2 State.reset = .refused .registerAccess ∧
      nextSat (registerWrite 0 4 16#32 configured) (fun t => decide (t.cfg.nc = 8#32)) = true := by
  exact ⟨rfl, by decide +kernel⟩

/-- V-REG-3: reading `TIME_LO` latches `TIME_HI`. -/
theorem test_time_latch :
    nextSat (registerRead 0x060 4 { State.reset with tNow := 0x0000000123456789#64 }) (fun t => decide
      (t.readData = 0x23456789#32 ∧ t.timeHi = 1#32)) = true := by
  decide +kernel

/-- The register map of R40, offset by offset. -/
theorem test_register_map :
    ([0x000, 0x004, 0x008, 0x00C, 0x010, 0x014, 0x018, 0x01C, 0x020, 0x024, 0x028, 0x02C, 0x030, 0x034, 0x038, 0x03C,
        0x040, 0x044, 0x048, 0x04C, 0x050, 0x054, 0x058, 0x05C, 0x060, 0x064, 0x068].map (regAt 4)) =
      [.cfgNc, .cfgNl, .cfgNp, .hwChannels, .timBit, .timReset, .timPoll, .cfgCtrl, .regionBase 0, .regionCap 0,
        .regionBase 1, .regionCap 1, .regionBase 2, .regionCap 2, .encLen, .reserved, .rcStatus, .rcCursor, .rcTotal,
        .rcStore, .rcDeadlineLo, .rcDeadlineHi, .tkStatus, .tkWait, .timeLo, .timeHi, .reserved] ∧
      ([0x100, 0x104, 0x108, 0x10C, 0x3F0, 0x3FC].map (regAt 4)) =
        [.panelCh 0, .panelNreal 0, .panelNbuf 0, .reserved, .panelCh 47, .reserved] ∧
      ([0x400, 0x404, 0x408, 0x40C, 0x410, 0x414, 0x418, 0x41C, 0x460, 0x480, 0x800].map (regAt 4)) =
        [.cmd 0, .arg0 0, .arg1 0, .arg2 0, .arg3 0, .result 0, .portStatus 0, .reserved, .cmd 3, .reserved,
          .encOut 0] := by
  decide +kernel

/-- V-LOCK: a valid configuration locks; a duplicate channel is `0xA`; no coprocessor is `0xC`; both are `0xE`. -/
theorem test_lock :
    (lockStep { configured with cfg := ⟨8#32, 3#32, 1#32, false, false, false, false⟩ }).cfgCtrl = 0x1#32 ∧
      (lockStep { configured with cfg := ⟨8#32, 3#32, 2#32, false, false, false, false⟩,
                                  panel := (configured.panel).set 1 ⟨3#6, 1#32, 0#32⟩ }).cfgCtrl = 0xA#32 ∧
      (lockStep { configured with cfg := ⟨8#32, 3#32, 1#32, false, false, false, false⟩,
                                  coproReady := false }).cfgCtrl = 0xC#32 ∧
      (lockStep { configured with cfg := ⟨8#32, 0#32, 1#32, false, false, false, false⟩,
                                  coproReady := false }).cfgCtrl = 0xE#32 := by
  decide +kernel

/-- A negative check of each condition of R7 and R52: one bad parameter is enough. -/
theorem test_bad_params :
    paramsOk Config.resetParams = true ∧ paramsOk { Config.resetParams with hwChannels := 12 } = false ∧
      paramsOk { Config.resetParams with nreq := 33 } = false ∧ paramsOk { Config.resetParams with tBit := 0 } = false ∧
      paramsOk { Config.resetParams with tPoll := 9999 } = false ∧
      paramsOk { Config.resetParams with stores := [] } = false ∧
      paramsOk { Config.resetParams with regions := #v[⟨0x10000, 0x38⟩, ⟨0x10030, 0x38⟩, ⟨0x10080, 0x38⟩] } = false := by
  decide +kernel

/-- R87: a statement of the assembler syntax and the writes it expands to. -/
theorem test_assembler :
    (asmLine (ascii ['X', 'F', 'E', 'R', ' ', 'q', '0', ',', ' ', '1', ',', ' ', '0', 'x', 'A', ' ', ';', ' ', 'x'])).map
        asmActions
      = some [.regWrite 0x404 4 1#32, .regWrite 0x408 4 10#32, .regWrite 0x400 4 0x10#32] := by
  decide +kernel

/-- R231: the boot of P1's row 0. -/
theorem test_boot :
    bootActions [⟨3#6, 2#32, 1#32⟩] =
      [.coproLoad, .regWrite 0 4 8#32, .regWrite 4 4 3#32, .regWrite 8 4 1#32, .regWrite 0x100 4 3#32,
        .regWrite 0x104 4 2#32, .regWrite 0x108 4 1#32, .regWrite 0x01C 4 1#32] := by
  decide

/-! ### Witnesses: the invariant on small states -/

/-- An outcome whose next state satisfies P has a next state that does. -/
theorem next_sat {o : Host.Outcome State Fault Refusal} {P : State → Prop} [DecidablePred P]
    (h : nextSat o (fun t => decide (P t)) = true) : ∃ t, o = .next t ∧ P t := by
  cases o with
  | next t => exact ⟨t, rfl, of_decide_eq_true h⟩
  | fault f => cases h
  | refused r => cases h

/-- One port's part of the invariant, field by field. -/
def portChecks (s : State) (q : Port) : Bool :=
  [decide ((s.port q).blocked = true → (s.port q).busy = true),
   decide ((s.port q).busy = true → s.portExists q = true),
   decide ((s.port q).busy = false → (s.port q).seq.kind = .none),
   kindHasPhase (s.port q).seq.kind (s.port q).seq.phase,
   decide (s.waiting q = true → (s.port q).blocked = true ∧
     ((s.port q).seq.phase = .none ∨ (s.port q).seq.phase = .acq)),
   decide ((s.port q).seq.phase = .acq → (s.port q).blocked = true →
     s.waiting q = true ∧ (s.port q).seq.queued = true),
   decide ((s.port q).seq.queued = true → (s.port q).seq.phase = .acq),
   decide ((s.port q).pastGrant = true → s.holds q = true),
   decide ((s.port q).busy = true → (s.port q).seq.kind = .none →
     s.waiting q = true ∨ (s.rc.state ≠ .idle ∧ s.rc.owner = q)),
   decide ((s.port q).blocked = true → waitPhase (s.port q).seq.phase = true)].all id

/-- The running transfer's part of the invariant. -/
def transferChecks (s : State) : Bool :=
  [decide (s.rc.g.toNat = s.par.hwChannels / 8), decide (s.rc.total.toNat % (24 * s.rc.g.toNat) = 0),
   (s.par.stores[s.rc.store.toNat]?).any fun f => decide (s.rc.src.toNat + s.rc.total.toNat ≤ f.bytes.length),
   decide (∀ r, s.usable r s.rc.g.toNat ≠ 0)].all id

/-- The invariant of a locked machine as one computation. -/
def invChecks (s : State) : Bool :=
  [Memory.wf s.mem, s.ready, s.cfgValid, (List.finRange 32).all (portChecks s),
   decide (s.tk.state = .held → s.waiting s.tk.holder = false),
   decide (s.tk.state = .held → s.portExists s.tk.holder = true), decide (s.tk.state = .idle → s.tk.holder = 0),
   decide (s.rc.state ≠ .idle → s.holds s.rc.owner = true),
   decide (s.rc.state ≠ .idle → (s.port s.rc.owner).blocked = true ∧
     ((s.port s.rc.owner).seq.phase = .none ∨ (s.port s.rc.owner).seq.phase = .xfer)),
   decide (s.rc.cursor.toNat ≤ s.rc.total.toNat),
   decide (0 < s.rc.g.toNat → s.rc.cursor.toNat % (24 * s.rc.g.toNat) = 0),
   decide (s.rc.state = .idle) || transferChecks s].all id

theorem portInv_of {s : State} {q : Port} (h : portChecks s q = true) : PortInv s q := by
  simp only [portChecks, List.all_cons, List.all_nil, id, Bool.and_true, Bool.and_eq_true, decide_eq_true_eq] at h
  obtain ⟨a, b, c, d, e, f, g, i, j, k⟩ := h
  exact ⟨a, b, c, d, e, f, g, i, j, k⟩

theorem transferInv_of {s : State} (h : transferChecks s = true) : TransferInv s := by
  simp only [transferChecks, List.all_cons, List.all_nil, id, Bool.and_true, Bool.and_eq_true, decide_eq_true_eq] at h
  obtain ⟨a, b, c, d⟩ := h
  obtain ⟨f, hf, hl⟩ := (Option.any_eq_true _ _).1 c
  exact ⟨a, b, ⟨f, hf, by simpa using hl⟩, d⟩

theorem inv_of {s : State} (h : invChecks s = true) : s.Inv := by
  simp only [invChecks, List.all_cons, List.all_nil, id, Bool.and_true, Bool.and_eq_true, decide_eq_true_eq,
    Bool.or_eq_true] at h
  obtain ⟨h1, h2, h3, h4, t1, t2, t3, r1, r2, r3, r4, r5⟩ := h
  refine ⟨h1, fun _ => h3, fun q => portInv_of ?_, ⟨t1, t2, t3⟩, ⟨r1, r2, r3, r4, fun hn => ?_⟩, ⟨?_, ?_, ?_⟩⟩
  · exact List.all_eq_true.1 h4 q (List.mem_finRange q)
  · exact transferInv_of (r5.resolve_left hn)
  all_goals exact fun hr => absurd h2 (by simp [hr])

/-- The state after RC's step. -/
def advance (s : State) : State :=
  match ringStep s with
  | .next t => t
  | .fault _ => s
  | .refused _ => s

/-- The transfer of the example frame after SETUP: RC is in FILL. -/
def filling : State := advance (running (transfer .setup 0#32))

/-- Regions A and B are full and hold all of the payload: RC is in START. -/
def starting : State := advance (advance (advance filling))

/-- RC is in DRAIN and the consumer RUNNING at the full region A. -/
def draining : State := advance starting

/-- The consumer has clocked out all of the payload and stopped: RC is in CHECK. -/
def drained : State := advance (cpStop (cpLatch (cpConsume (cpConsume draining))))

/-- RC is in DRAIN at an empty region with 24 bytes left, the consumer RUNNING. -/
def refilling : State :=
  { filling with rc := { transfer .drain 48#32 with deadline := 1000#64 }, cp := ⟨.running, 0⟩ }

/-- A state whose next event is an action. -/
def doing (s : State) (a : Action) : State := { s with agenda := [⟨0, a⟩] }

/-- Every existing port is busy. -/
def crowded : State :=
  { configured with
    ports := Vector.replicate 32 (busy 0x20#8 true Seq.reset), tk := ⟨.idle, 0, 0xF#32⟩ }

/-- The states the witnesses below start from are states the invariant allows. -/
theorem witness_states_inv :
    configured.Inv ∧ (running (transfer .setup 0#32)).Inv ∧ filling.Inv ∧ starting.Inv ∧ draining.Inv ∧
      drained.Inv ∧ refilling.Inv ∧ (portTwoWaits (holding 0)).Inv := by
  refine ⟨inv_of ?_, inv_of ?_, inv_of ?_, inv_of ?_, inv_of ?_, inv_of ?_, inv_of ?_, inv_of ?_⟩ <;> decide +kernel

/-! ### Witnesses: infinite runs -/

/-- The state after one step of an action. -/
def afterAction (s : State) (a : Action) : State :=
  match step (doing s a) with
  | .next t => t
  | .fault _ => s
  | .refused _ => s

/-- The schedule of a list of actions, then of time standing still for ever. -/
def schedule (as : List Action) : Schedule := fun n => ⟨0, as[n]?.getD (.tick 0)⟩

/-- The run along a list of actions, then resting. -/
def runOf (s : State) : List Action → Nat → State
  | [], _ => s
  | _ :: _, 0 => s
  | a :: as, n + 1 => runOf (afterAction s a) as n

/-- Every step of the run is a next state, and the last state rests. -/
def runChecks (s : State) : List Action → Bool
  | [] => nextSat (step (doing s (.tick 0))) fun t => decide (t = s)
  | a :: as => nextSat (step (doing s a)) (fun _ => true) && runChecks (afterAction s a) as

theorem afterAction_next {s : State} {a : Action} (h : nextSat (step (doing s a)) (fun _ => true) = true) :
    step (doing s a) = .next (afterAction s a) := by
  unfold afterAction
  cases he : step (doing s a) with
  | next t => rfl
  | fault f => rw [he] at h; cases h
  | refused x => rw [he] at h; cases h

theorem runOf_isRun (s : State) (as : List Action) (h : runChecks s as = true) : IsRun (schedule as) (runOf s as) := by
  induction as generalizing s with
  | nil =>
    intro n
    cases he : step (doing s (.tick 0)) with
    | next t =>
      have ht : t = s := by rw [runChecks, he] at h; exact of_decide_eq_true h
      exact ht ▸ he
    | fault f => rw [runChecks, he] at h; cases h
    | refused x => rw [runChecks, he] at h; cases h
  | cons a as ih =>
    obtain ⟨h1, h2⟩ := Bool.and_eq_true_iff.1 h
    intro n
    cases n with
    | zero => cases as <;> exact afterAction_next h1
    | succ n => exact ih _ h2 n

theorem runOf_end (s : State) (as : List Action) (n : Nat) (h : as.length ≤ n) : runOf s as n = runOf s as as.length := by
  induction as generalizing s n with
  | nil => rfl
  | cons a as ih =>
    cases n with
    | zero => cases h
    | succ n => exact ih _ n (Nat.le_of_succ_le_succ h)

/-- No agent that fairness is assumed of has an enabled step. -/
def restful (s : State) : Bool :=
  !s.ringEnabled && !s.grantEnabled && (List.finRange 32).all fun q => !s.portEnabled q

theorem restful_enabled {s : State} (h : restful s = true) (a : FairAgent) : a.enabled s = false := by
  simp only [restful, Bool.and_eq_true, Bool.not_eq_true', List.all_eq_true] at h
  cases a with
  | rc => exact h.1.1
  | grant => exact h.1.2
  | port q => exact h.2 q (List.mem_finRange q)

/-- A run that comes to rest at the end of time is fair. -/
theorem runOf_fair (s : State) (as : List Action) (ht : 2 ^ 64 - 1 ≤ (runOf s as as.length).tNow.toNat)
    (hr : restful (runOf s as as.length) = true) : Fair (schedule as) (runOf s as) where
  time := fun b hb => ⟨as.length, by omega⟩
  agents := fun a n h => by
    have := h (n + as.length) (Nat.le_add_right ..)
    rw [runOf_end s as _ (Nat.le_add_left ..), restful_enabled hr a] at this
    cases this

/-- The consumer hangs in DRAIN, time passes, RC goes to CHECK and to IDLE. -/
def hungTransfer : List Action := [.cpHang, .tick (2 ^ 64 - 1), .ringStep, .ringStep]

/-- Time passes, then the token goes to the one waiter. -/
def lateGrant : List Action := [.tick (2 ^ 64 - 1), .grant]

/-! ### Witnesses: encoding, decoding and steps -/

theorem witness_DecodeEncodeRoundTrip : (Instr.playDatagram Config.examplePath 0#32 0xFFFFFFFF#32 30#32).wf = true := by
  decide

theorem witness_CommandWordsDecodeUniquely : encode .xfer = .word 0x10#32 := by decide

theorem witness_NumberTokens :
    numberToken [0x2D#8] = none ∧ numberToken (ascii ['4', '2', '9', '4', '9', '6', '7', '2', '9', '6']) = none ∧
      numberToken (ascii ['4', '2', '9', '4', '9', '6', '7', '2', '9', '5']) = some 0xFFFFFFFF#32 := by
  decide

/-- A text that is `stop` before its terminator, one that is none, two adjacent spaces, and a token; `Show a 3`,
`show a` and `stop` without a terminator are no command. -/
theorem witness_Tokenising :
    recognise (tokens kwStop) = some .stopDatagram ∧ recognise (tokens (kwStop ++ [0x0A#8])) = none ∧
      tokens ([0x61#8] ++ spaceByte :: spaceByte :: [0x62#8]) = [[0x61#8], [0x62#8]] ∧
      [0x61#8] ∈ tokens [0x20#8, 0x61#8] ∧ ([0x61#8] : List Byte) ≠ [] ∧ spaceByte ∉ [0x61#8] ∧
      (∀ cs ∈ [['S', 'h', 'o', 'w', ' ', 'a', ' ', '3', '\n'], ['s', 'h', 'o', 'w', ' ', 'a', '\n'],
        ['s', 't', 'o', 'p']], decodeDatagram (ascii cs) = .error .unrecognised) := by
  decide +kernel

theorem witness_StepRunsDecoded_word :
    paramsOk configured.par = true ∧ configured.portExists 3 = true ∧ (configured.port 3).busy = false ∧
      (doing configured (.regWrite (cmdOffset 3) 4 0x22#32)).agenda = ⟨0, .regWrite (cmdOffset 3) 4 0x22#32⟩ :: [] ∧
      decodeWord 0x22#32 = .ok .release := by
  decide +kernel

theorem witness_StepRunsDecoded_datagram :
    paramsOk configured.par = true ∧
      decodeDatagram [0x73#8, 0x74#8, 0x6F#8, 0x70#8, 0x0A#8] = .ok .stopDatagram ∧
      configured.ready = true ∧ State.reset.ready = false ∧ paramsOk State.reset.par = true := by
  decide +kernel

/-- An agenda with one event, and none. -/
theorem witness_StepRunsDecoded_action :
    (doing configured (.portStep 2)).agenda = ⟨0, .portStep 2⟩ :: [] ∧ paramsOk (doing configured (.portStep 2)).par = true ∧
      configured.agenda = [] := by
  decide +kernel

theorem witness_TickAndModelFaults :
    (configured.tNow.toNat + 1 < 2 ^ 64 ∧ 1 ≤ 1) ∧
      (2 ^ 64 ≤ ({ configured with tNow := 0xFFFFFFFFFFFFFFFF#64 } : State).tNow.toNat + 1) ∧
      paramsOk { Config.resetParams with nreq := 1 } = false ∧
      configured.colours[(0 : PanelIx).val]? = some [⟨255#8, 0#8, 0#8⟩, ⟨0#8, 0#8, 255#8⟩] := by
  decide +kernel

theorem witness_WordsThatRunNothing :
    ((portTwoWaits configured).port 2).busy = true ∧ (configured.port 0).busy = false ∧
      decodeWord 0x120#32 = .error .reservedBits := by
  decide +kernel

theorem witness_CommandsNeedReady : Instr.xfer ∈ commandWords ∧ State.reset.ready = false := by decide +kernel

/-! ### Witnesses: ENCODE and memory -/

theorem witness_EncodeCompletes : configured.ready = true := by decide +kernel

theorem witness_EncodedBits :
    configured.cfgValid = true ∧ configured.ready = true ∧ (∃ t, exec .encodeFrame configured = .next t ∧ True) ∧
      (0 < configured.cfg.nl.toNat ∧ 0 < 24 ∧ 0 < configured.cfg.nc.toNat) ∧
      2 < configured.cfg.nl.toNat ∧ 23 < 24 ∧ 7 < configured.cfg.nc.toNat := by
  exact ⟨by decide +kernel, by decide +kernel, next_sat (by decide +kernel), by decide +kernel⟩

theorem witness_ColourSlots : (0 : Nat) < 8 ∧ (7 : Nat) < 8 := by decide

theorem witness_BitPlaces :
    (8 % 8 = 0 ∧ (2 : Nat) < 3 ∧ 23 < 24 ∧ 7 < 8) ∧ 48 % 8 = 0 ∧ bitIndex 48 0 23 47 = bitIndex 48 0 23 47 := by
  decide

theorem witness_MemoryWords : 0xFFFFFFFF < 2 ^ 32 ∧ 3 < 4 ∧ (7 < 8 ∨ 8 + 4 ≤ 7) ∧ (12 < 8 ∨ 8 + 4 ≤ 12) := by decide

/-- A header word of the one store of a machine, its bytes least significant first (R93). -/
def headerWord (s : State) (off : Nat) : Nat :=
  match s.par.stores with
  | f :: _ =>
    (f.bytes.getD off 0).toNat + (f.bytes.getD (off + 1) 0).toNat * 2 ^ 8 + (f.bytes.getD (off + 2) 0).toNat * 2 ^ 16
      + (f.bytes.getD (off + 3) 0).toNat * 2 ^ 24
  | [] => 0

/-- The length of the one store of a machine. -/
def storeLength (s : State) : Nat := (s.par.stores.map fun f => f.bytes.length).sum

/-- Each branch of VALIDATE, in its order: no such store, a short header, other channels, no LED, too large a
payload, a wrong length, a frame past the last, regions too small, and a valid frame; then a MULTI store. -/
theorem witness_ValidateInOrder :
    configured.par.stores[1]? = none ∧
    storeLength (withStore ⟨.multi, w32 8 ++ w32 3 ++ [0#8, 0#8, 0#8]⟩) < 12 ∧
    headerWord (withStore ⟨.single, w32 16 ++ w32 3⟩) 0 ≠ configured.par.hwChannels ∧
    (headerWord (withStore ⟨.single, w32 8 ++ w32 0⟩) 0 = configured.par.hwChannels ∧
      headerWord (withStore ⟨.single, w32 8 ++ w32 0⟩) 4 = 0) ∧
    2 ^ 32 - 1 < 8 * headerWord (withStore ⟨.single, w32 8 ++ w32 178956971⟩) 4 * 3 ∧
    storeLength (withStore ⟨.single, w32 8 ++ w32 3⟩) ≠ 8 + 1 * (8 * 3 * 3) ∧
    (headerWord configured 0 = 8 ∧ headerWord configured 4 = 3 ∧ storeLength configured = 8 + 1 * (8 * 3 * 3) ∧
      1 ≤ (1#32).toNat ∧ (0#32).toNat < 1) ∧
    ((withCaps 31#32).cap 0 - 8) / (8 / 8) / 24 * 24 * (8 / 8) = 0 ∧
    (∀ r, (configured.cap r - 8) / (8 / 8) / 24 * 24 * (8 / 8) ≠ 0) ∧
    (headerWord (withStore ⟨.multi, w32 8 ++ w32 3 ++ w32 2 ++ List.replicate 144 0#8⟩) 8 = 2 ∧
      storeLength (withStore ⟨.multi, w32 8 ++ w32 3 ++ w32 2 ++ List.replicate 144 0#8⟩) = 12 + 2 * (8 * 3 * 3)) := by
  decide +kernel

/-! ### Witnesses: XFER and the ring controller -/

theorem witness_XferStarts :
    paramsOk (holding 0).par = true ∧ (holding 0).ready = true ∧ (holding 0).holds (holding 0).issuer = true ∧
      (holding 0).rc.state = .idle ∧
      (holding 0).validate ((holding 0).port 0).arg1 ((holding 0).port 0).arg0 = .ok ⟨8, 3, 8⟩ := by
  decide +kernel

theorem witness_XferRejected :
    (configured.ready = true ∧ configured.holds configured.issuer = false) ∧
    ((holding 0).holds 0 = true ∧ (holding 0).validate 0#32 1#32 = .error .eRange) ∧
    (filling.holds filling.issuer = true ∧ filling.rc.state ≠ .idle ∧
      filling.validate (filling.port 0).arg1 (filling.port 0).arg0 = .ok ⟨8, 3, 8⟩) := by
  decide +kernel

theorem witness_SetupStep :
    paramsOk (running (transfer .setup 0#32)).par = true ∧ (running (transfer .setup 0#32)).rc.state = .setup := by
  decide +kernel

theorem witness_FillRegionStep :
    filling.Inv ∧ paramsOk filling.par = true ∧ filling.rc.state ≠ .idle ∧
      filling.rc.cursor.toNat < filling.rc.total.toNat := by
  exact ⟨inv_of (by decide +kernel), by decide +kernel⟩

/-- FILL at its first region, after the third, and with nothing left. -/
theorem witness_FillStep :
    (filling.rc.state = .fill ∧ filling.rc.fillIdx.toNat = (0 : Region).val ∧
      filling.rc.cursor.toNat < filling.rc.total.toNat ∧ (filling.fillRegion 0).isSome = true) ∧
    ((running { transfer .fill 48#32 with fillIdx := 3 }).rc.state = .fill ∧
      (running { transfer .fill 48#32 with fillIdx := 3 }).rc.fillIdx.toNat = 3) ∧
    (running (transfer .fill 72#32)).rc.total.toNat ≤ (running (transfer .fill 72#32)).rc.cursor.toNat := by
  decide +kernel

theorem witness_StartStep : starting.rc.state = .start := by decide +kernel

/-- DRAIN with the consumer stopped, at the deadline, with a region to refill, and with nothing to do. -/
theorem witness_DrainStep :
    (running (transfer .drain 48#32)).cp.mode = .stopped ∧
    (refilling.rc.state = .drain ∧
      refilling.rc.deadline.toNat ≤ ({ refilling with tNow := 1000#64 } : State).tNow.toNat - refilling.rc.t0.toNat) ∧
    (refilling.cp.mode ≠ .stopped ∧
      ({ refilling with tNow := 999#64 } : State).tNow.toNat - refilling.rc.t0.toNat < refilling.rc.deadline.toNat ∧
      refilling.rc.cursor.toNat < refilling.rc.total.toNat ∧ refilling.memRead (refilling.base refilling.rc.cur) 4 = 0 ∧
      (refilling.fillRegion refilling.rc.cur).isSome = true) ∧
    (draining.cp.mode ≠ .stopped ∧ draining.rc.state = .drain ∧
      draining.tNow.toNat - draining.rc.t0.toNat < draining.rc.deadline.toNat ∧
      draining.rc.total.toNat ≤ draining.rc.cursor.toNat) := by
  decide +kernel

theorem witness_SleepStep :
    (running { transfer .sleep 48#32 with wake := 1#64 }).rc.state = .sleep ∧
      (running { transfer .sleep 48#32 with wake := 1#64 }).tNow.toNat < (1#64 : U64).toNat ∧
      (running { transfer .sleep 48#32 with wake := 0#64 }).rc.wake.toNat ≤ configured.tNow.toNat := by
  decide +kernel

theorem witness_CheckStep :
    drained.rc.state = .check ∧ (drained.port drained.rc.owner).seq.kind = .none ∧
      ({ inPhase .showCmd .xfer true with rc := transfer .check 72#32 } : State).rc.state = .check ∧
      ((inPhase .showCmd .xfer true).port 0).seq.kind ≠ .none := by
  decide +kernel

/-- One LED more of 8 channels. -/
theorem witness_DeadlineGrows :
    paramsOk configured.par = true ∧ (transfer .start 24#32).g ≠ 0 ∧
      ({ transfer .start 0#32 with total := 24#32 } : Rc).total.toNat = 24 * (transfer .start 0#32).g.toNat * 1 ∧
      ({ transfer .start 0#32 with total := 48#32 } : Rc).total.toNat = 24 * (transfer .start 0#32).g.toNat * 2 ∧
      1 < 2 := by
  decide +kernel

/-- DRAIN with a region to refill, with nothing to do, and at the deadline; and the run of a hung consumer. -/
theorem witness_DrainProgress :
    ((refilling.Inv ∧ draining.Inv) ∧ paramsOk refilling.par = true ∧ refilling.rc.state = .drain ∧
      draining.rc.state = .drain ∧ (transfer .drain 48#32).deadline.toNat ≤ configured.tNow.toNat - 0) ∧
    IsRun (schedule hungTransfer) (runOf draining hungTransfer) ∧
      Fair (schedule hungTransfer) (runOf draining hungTransfer) ∧ (runOf draining hungTransfer 0).Inv ∧
      (runOf draining hungTransfer 0).rc.state ≠ .idle ∧
      ∀ m, (runOf draining hungTransfer m).rc.t0.toNat + (runOf draining hungTransfer m).rc.deadline.toNat < 2 ^ 64 := by
  refine ⟨⟨⟨inv_of (by decide +kernel), inv_of (by decide +kernel)⟩, by decide +kernel⟩,
    runOf_isRun _ _ (by decide +kernel), runOf_fair _ _ (by decide +kernel) (by decide +kernel),
    inv_of (by decide +kernel), by decide +kernel, fun m => ?_⟩
  have small : ∀ k < 5, (runOf draining hungTransfer k).rc.t0.toNat
      + (runOf draining hungTransfer k).rc.deadline.toNat < 2 ^ 64 := by decide +kernel
  have hl : hungTransfer.length = 4 := rfl
  rcases Nat.lt_or_ge m 5 with h | h
  · exact small m h
  · rw [runOf_end _ _ m (by omega), hl]
    exact small 4 (by decide)

/-! ### Witnesses: the consumer and the transfer -/

/-- RUNNING at region A of a machine with an `end_addr` and a `next_addr` in its header. -/
def atHeader (hw e nx : Nat) : State :=
  (({ configured with par := { Config.resetParams with hwChannels := hw }, cp := ⟨.running, 0⟩ }).memWrite
    0x10000 4 e).memWrite 0x10004 4 nx

/-- With groups of two bytes: an `end_addr` one byte before the payload, one byte too far and on no group boundary;
the first and the last good one; a `next_addr` that is a base, and one that is none. -/
theorem witness_ConsumeStep :
    (paramsOk (atHeader 16 0x10008 0x10040).par = true ∧ (atHeader 16 0x10008 0x10040).base 0 = 0x10000 ∧
      (atHeader 16 0x10008 0x10040).cap 0 = 56 ∧ 16 / 8 = 2) ∧
    ((atHeader 16 0x10007 0x10040).memRead 0x10000 4 = 0x10007 ∧ 0x10007 < 0x10000 + 8) ∧
    ((atHeader 16 0x10037 0x10040).memRead 0x10000 4 = 0x10037 ∧ 0x10000 + 56 < 0x10037 + 2) ∧
    ((atHeader 16 0x10009 0x10040).memRead 0x10000 4 = 0x10009 ∧ (0x10009 - 0x10000 - 8) % 2 ≠ 0) ∧
    ((atHeader 16 0x10008 0x10040).memRead 0x10000 4 = 0x10008 ∧ 0x10000 + 8 ≤ 0x10008 ∧
      (0x10008 - 0x10000 - 8) % 2 = 0 ∧ (atHeader 16 0x10008 0x10040).memRead 0x10004 4 = draining.base 1) ∧
    ((atHeader 16 0x10036 1).memRead 0x10000 4 = 0x10036 ∧ 0x10036 + 2 ≤ 0x10000 + 56 ∧
      (0x10036 - 0x10000 - 8) % 2 = 0 ∧ ∀ r, (atHeader 16 0x10036 1).memRead 0x10004 4 ≠ configured.base r) := by
  decide +kernel

theorem witness_ConsumerStops :
    (refilling.cp.mode = .running ∧ refilling.memRead (refilling.base refilling.cp.c) 4 = 0) ∧
      (draining.cp.mode = .running ∧ draining.memRead (draining.base draining.cp.c) 4 ≠ 0) ∧
      (cpLatch refilling).cp.mode = .latch ∧ (cpHang refilling).cp.mode = .hung ∧ configured.cp.mode = .stopped := by
  decide +kernel

theorem doing_event {s : State} {a : Action} (h : ∀ x b, a ≠ .outsideWrite x b) :
    ∀ x b, (doing s a).nextEvent.act ≠ .outsideWrite x b := h

theorem headersOk_doing {s : State} (a : Action) (h : s.HeadersOk) : (doing s a).HeadersOk := h

theorem draining_headers : draining.HeadersOk := by unfold State.HeadersOk; decide +kernel

theorem witness_HeadersStayGood :
    ((doing draining .cpConsume).Inv ∧ (doing draining .cpConsume).HeadersOk ∧
      (∀ a b, (doing draining .cpConsume).nextEvent.act ≠ .outsideWrite a b) ∧
      ∃ t, step (doing draining .cpConsume) = .next t ∧ True) ∧
    (∃ t, ringStep (running (transfer .setup 0#32)) = .next t ∧ True) ∧ draining.cp.mode = .running := by
  exact ⟨⟨inv_of (by decide +kernel), headersOk_doing _ draining_headers, doing_event fun _ _ => nofun,
    next_sat (by decide +kernel)⟩, next_sat (by decide +kernel), by decide +kernel⟩

/-- The transfer in DRAIN: both full regions hold the whole payload. -/
theorem draining_streaming : Streaming (doing draining .cpConsume) where
  quiet := by decide +kernel
  starting := by decide +kernel
  headers := fun _ => headersOk_doing _ draining_headers
  filling := fun h => absurd h (by decide +kernel)
  filled := fun h => absurd h (by decide +kernel)
  draining := fun _ => ⟨2, by unfold State.fullFrom; decide +kernel, by decide +kernel, by decide +kernel⟩
  groups := by decide +kernel

/-- The transfer in CHECK: the whole payload has been clocked out. -/
theorem drained_streaming : Streaming drained where
  quiet := by decide +kernel
  starting := by decide +kernel
  headers := fun _ => by unfold State.HeadersOk; decide +kernel
  filling := fun h => absurd h (by decide +kernel)
  filled := fun h => absurd h (by decide +kernel)
  draining := fun _ => ⟨0, by unfold State.fullFrom; decide +kernel, by decide +kernel, by decide +kernel⟩
  groups := by decide +kernel

theorem witness_StreamingKept :
    (doing draining .cpConsume).Inv ∧ Streaming (doing draining .cpConsume) ∧
      (doing draining .cpConsume).rc.state ≠ .idle ∧
      (∀ a b, (doing draining .cpConsume).nextEvent.act ≠ .outsideWrite a b) ∧
      ∃ t, step (doing draining .cpConsume) = .next t ∧ t.rc.state ≠ .idle := by
  exact ⟨inv_of (by decide +kernel), draining_streaming, by decide +kernel,
    doing_event fun _ _ => nofun, next_sat (by decide +kernel)⟩

/-- An XFER that starts a transfer, and one that ends with OK. -/
theorem witness_StreamedPayload :
    ((holding 0).rc.state = .idle ∧ (holding 0).cp.mode ≠ .running ∧
      ∃ t, runAction (.regWrite 0x400 4 0x10#32) (holding 0) = .next t ∧ t.rc.state = .setup) ∧
    drained.Inv ∧ Streaming drained ∧ drained.rc.state = .check ∧ ∃ t, ringStep drained = .next t ∧ t.rc.result = .ok := by
  exact ⟨⟨by decide +kernel, by decide +kernel, next_sat (by decide +kernel)⟩, inv_of (by decide +kernel),
    drained_streaming, by decide +kernel, next_sat (by decide +kernel)⟩

/-! ### Witnesses: the token -/

theorem witness_AcquireWaits :
    (configured.ready = true ∧ configured.holds configured.issuer = false ∧ configured.waiting configured.issuer = false) ∧
      (holding 2).holds (holding 2).issuer = true ∧ (portTwoWaits configured).waiting 2 = true := by
  decide +kernel

/-- Port 2 waits in a plain ACQUIRE, then in the ACQ phase of each macro-command; and a fair run. -/
theorem witness_GrantStep :
    ((portTwoWaits configured).tk.state = .idle ∧ (portTwoWaits configured).waiting 2 = true ∧
      ((portTwoWaits configured).port 2).seq.kind = .none) ∧
    (∀ k, (((portTwoWaits configured).setSeq 2 (ctx k .acq)).port 2).seq.kind = k) ∧
    ((holding 0).tk.state = .held ∧ ∀ q, configured.waiting q = false) ∧
    IsRun (schedule lateGrant) (runOf (portTwoWaits configured) lateGrant) ∧
      Fair (schedule lateGrant) (runOf (portTwoWaits configured) lateGrant) := by
  exact ⟨by decide +kernel, fun k => by cases k <;> decide +kernel, by decide +kernel,
    runOf_isRun _ _ (by decide +kernel), runOf_fair _ _ (by decide +kernel) (by decide +kernel)⟩

theorem witness_TryHandoffCompletes :
    ((holding 0).ready = true ∧ (holding 0).holds 0 = true ∧ (holding 0).issuer = 0 ∧
      (portTwoWaits (holding 0)).waiting 0 = false ∧ (portTwoWaits (holding 0)).waiting 2 = true ∧
      (portTwoWaits (holding 0)).holds 0 = true) ∧ ∀ p, (holding 0).waiting p = false := by
  decide +kernel

theorem witness_ReleaseCompletes :
    ((holding 1).ready = true ∧ (holding 1).holds (holding 1).issuer = true) ∧
      configured.ready = true ∧ configured.holds configured.issuer = false := by
  decide +kernel

/-- A grant makes a waiter the holder; a failed transfer in STANDALONE mode empties `TK.WAIT`. -/
theorem witness_TokenMovesToWaiters :
    (∃ t, step (doing (portTwoWaits configured) .grant) = .next t ∧
      t.holds 2 = true ∧ (portTwoWaits configured).holds 2 = false) ∧
    ∃ t, step (doing
        { portTwoWaits (inPhase .showCmd .xfer true) with
          par := { Config.resetParams with mode := .standalone }, rc := { Rc.reset with result := .eTimeout } }
        (.portStep 0)) = .next t ∧ t.waiting 2 = false ∧ t.holds 2 = false ∧ t.cfg.fatal = true := by
  exact ⟨next_sat (by decide +kernel), next_sat (by decide +kernel)⟩

theorem witness_NoPreemptionMidTransfer :
    (doing draining .grant).Inv ∧ (doing draining .grant).rc.state ≠ .idle ∧
      ∃ t, step (doing draining .grant) = .next t ∧ True := by
  exact ⟨inv_of (by decide +kernel), by decide +kernel, next_sat (by decide +kernel)⟩

/-! ### Witnesses: SHOW, PLAY and STOP -/

theorem inContext_at (x : Seq) (b : Bool) : AtPhase (inContext x b) 0 x.kind x.phase := ⟨rfl, rfl, rfl, rfl⟩

/-- A port of `inPhase` is at its phase. -/
theorem inPhase_at (k : Kind) (p : Phase) (b : Bool) : AtPhase (inPhase k p b) 0 k p :=
  ⟨rfl, rfl, rfl, rfl⟩

theorem witness_MacroBegins : configured.ready = true := by decide +kernel

/-- Port 0 in VALIDATE: a valid SHOW and one of frame 1 of a store of one frame; a valid PLAY, one of a frame past
the last, one with no speed and one with an empty range. -/
theorem witness_MacroValidates :
    (AtPhase (inPhase .showCmd .validate false) 0 .showCmd .validate ∧
      State.validate (inPhase .showCmd .validate false) 0#32 0#32 = .ok ⟨8, 3, 8⟩) ∧
    (AtPhase (inContext { ctx .showCmd .validate with idx := 1#32 } false) 0 .showCmd .validate ∧
      State.validate (inContext { ctx .showCmd .validate with idx := 1#32 } false) 0#32 1#32 = .error .eRange) ∧
    (AtPhase (inContext { ctx .playCmd .validate with upto := 0#32 } false) 0 .playCmd .validate ∧
      (30#32 : Word) ≠ 0 ∧ (0#32 : Word).toNat ≤ (0#32 : Word).toNat ∧
      State.validate (inContext { ctx .playCmd .validate with upto := 0#32 } false) 0#32 0#32 = .ok ⟨8, 3, 8⟩) ∧
    (AtPhase (inPhase .playCmd .validate false) 0 .playCmd .validate ∧
      State.validate (inPhase .playCmd .validate false) 0#32 4#32 = .error .eRange) ∧
    (AtPhase (inContext { ctx .playCmd .validate with fps := 0#32 } false) 0 .playCmd .validate ∧
      ((inContext { ctx .playCmd .validate with fps := 0#32 } false).port 0).seq.fps = 0) ∧
    (AtPhase (inContext { ctx .playCmd .validate with first := 5#32 } false) 0 .playCmd .validate ∧
      ((inContext { ctx .playCmd .validate with first := 5#32 } false).port 0).seq.upto.toNat
        < ((inContext { ctx .playCmd .validate with first := 5#32 } false).port 0).seq.first.toNat) := by
  exact ⟨⟨inPhase_at .., by decide +kernel⟩, ⟨inContext_at .., by decide +kernel⟩,
    ⟨inContext_at .., by decide +kernel⟩, ⟨inPhase_at .., by decide +kernel⟩, ⟨inContext_at .., by decide +kernel⟩,
    inContext_at .., by decide +kernel⟩

/-- Port 0 in ACQ, holding there, holding the token already, free to wait, and granted. -/
theorem witness_MacroAcquires :
    (∀ k b, k ≠ .none → AtPhase (inPhase k .acq b) 0 k .acq ∧ ((inPhase k .acq b).port 0).blocked = b ∧
      ((inPhase k .acq b).port 0).seq.queued = false) ∧
    (∀ k, AtPhase (inContext { ctx k .acq with queued := true } false) 0 k .acq ∧
      ((inContext { ctx k .acq with queued := true } false).port 0).blocked = false ∧
      ((inContext { ctx k .acq with queued := true } false).port 0).seq.queued = true) ∧
    (inPhase .stopCmd .acq false).holds 0 = true ∧
    (AtPhase { inPhase .stopCmd .acq false with tk := ⟨.idle, 0, 0⟩ } 0 .stopCmd .acq ∧
      ({ inPhase .stopCmd .acq false with tk := ⟨.idle, 0, 0⟩ } : State).holds 0 = false ∧
      ({ inPhase .stopCmd .acq false with tk := ⟨.idle, 0, 0⟩ } : State).waiting 0 = false) := by
  exact ⟨fun k b _ => ⟨inPhase_at .., rfl, rfl⟩, fun k => ⟨inContext_at .., rfl, rfl⟩, by decide +kernel,
    ⟨rfl, rfl, rfl, rfl⟩, by decide +kernel⟩

theorem witness_MacroPolls :
    AtPhase (portTwoWaits (inPhase .showCmd .poll false)) 0 .showCmd .poll ∧
      AtPhase (inPhase .playCmd .poll false) 0 .playCmd .poll ∧
      (portTwoWaits (inPhase .showCmd .poll false)).holds 0 = true ∧
      (portTwoWaits (inPhase .showCmd .poll false)).waiting 0 = false ∧
      (portTwoWaits (inPhase .showCmd .poll false)).waiting 2 = true ∧
      (inPhase .playCmd .poll false).holds 0 = true ∧ ∀ p, (inPhase .playCmd .poll false).waiting p = false := by
  exact ⟨⟨rfl, rfl, rfl, rfl⟩, inPhase_at .., by decide +kernel⟩

theorem witness_MacroStartsTransfer :
    (AtPhase (inPhase .showCmd .xfer false) 0 .showCmd .xfer ∧ AtPhase (inPhase .playCmd .xfer false) 0 .playCmd .xfer) ∧
    (((inPhase .showCmd .xfer false).port 0).blocked = false ∧ (inPhase .showCmd .xfer false).rc.state = .idle ∧
      (inPhase .showCmd .xfer false).validate 0#32 0#32 = .ok ⟨8, 3, 8⟩ ∧
      playIndex ((inPhase .playCmd .xfer false).port 0).seq 0 = 0) ∧
    (AtPhase { inPhase .playCmd .xfer true with rc := transfer .drain 48#32 } 0 .playCmd .xfer ∧
      ((inPhase .playCmd .xfer true).port 0).blocked = true ∧ (transfer .drain 48#32).state ≠ .idle) := by
  exact ⟨⟨inPhase_at .., inPhase_at ..⟩, by decide +kernel, ⟨rfl, rfl, rfl, rfl⟩, by decide +kernel⟩

/-- A transfer that succeeded, and one that failed in SERVER mode. -/
theorem witness_ShowTransferEnds :
    AtPhase (inPhase .showCmd .xfer true) 0 .showCmd .xfer ∧
    (((inPhase .showCmd .xfer true).port 0).blocked = true ∧ (inPhase .showCmd .xfer true).rc.state = .idle ∧
      (inPhase .showCmd .xfer true).rc.result = .ok) ∧
    (AtPhase { inPhase .showCmd .xfer true with rc := { Rc.reset with result := .eTimeout } } 0 .showCmd .xfer ∧
      Result.eTimeout ≠ .ok ∧ (inPhase .showCmd .xfer true).par.mode = .server) := by
  exact ⟨inPhase_at .., by decide +kernel, ⟨rfl, rfl, rfl, rfl⟩, by decide +kernel⟩

/-- The last frame, an earlier frame, and a failed one in SERVER mode. -/
theorem witness_PlayTransferEnds :
    (AtPhase (inContext { ctx .playCmd .xfer with idx := 4#32 } true) 0 .playCmd .xfer ∧
      ((inContext { ctx .playCmd .xfer with idx := 4#32 } true).port 0).blocked = true ∧
      (inContext { ctx .playCmd .xfer with idx := 4#32 } true).rc.state = .idle ∧
      (inContext { ctx .playCmd .xfer with idx := 4#32 } true).rc.result = .ok ∧
      ((inContext { ctx .playCmd .xfer with idx := 4#32 } true).port 0).seq.idx
        = ((inContext { ctx .playCmd .xfer with idx := 4#32 } true).port 0).seq.upto) ∧
    (AtPhase (inPhase .playCmd .xfer true) 0 .playCmd .xfer ∧
      ((inPhase .playCmd .xfer true).port 0).seq.idx ≠ ((inPhase .playCmd .xfer true).port 0).seq.upto) ∧
    (AtPhase { inPhase .playCmd .xfer true with rc := { Rc.reset with result := .eTimeout } } 0 .playCmd .xfer ∧
      Result.eTimeout ≠ .ok ∧ (inPhase .playCmd .xfer true).par.mode = .server) := by
  exact ⟨⟨inContext_at .., by decide +kernel⟩, ⟨inPhase_at .., by decide +kernel⟩, ⟨rfl, rfl, rfl, rfl⟩,
    by decide +kernel⟩

theorem witness_StandaloneFailureIsFatal :
    ∀ k, AtPhase
        { portTwoWaits (inPhase k .xfer true) with
          par := { Config.resetParams with mode := .standalone }, rc := { Rc.reset with result := .eTimeout } }
        0 k .xfer ∧ ((portTwoWaits (inPhase k .xfer true)).port 0).blocked = true ∧ Rc.reset.state = .idle ∧
        Result.eTimeout ≠ .ok :=
  fun _ => ⟨⟨rfl, rfl, rfl, rfl⟩, rfl, rfl, by decide⟩

/-- CLOCK, and for each wait a time still to come and one that is now. -/
theorem witness_ClockAndWaits :
    AtPhase (inPhase .playCmd .clock false) 0 .playCmd .clock ∧
    ∀ k p, AtPhase (inPhase k p true) 0 k p ∧
      ((inPhase k p true).port 0).seq.wake.toNat ≤ (inPhase k p true).tNow.toNat ∧
      AtPhase (inContext { ctx k p with wake := 1#64 } true) 0 k p ∧
      (inContext { ctx k p with wake := 1#64 } true).tNow.toNat
        < ((inContext { ctx k p with wake := 1#64 } true).port 0).seq.wake.toNat :=
  ⟨inPhase_at .., fun _ _ => ⟨inPhase_at .., Nat.le_refl 0, inContext_at .., Nat.zero_lt_one⟩⟩

theorem witness_MacroReleases :
    ∀ k, AtPhase (inPhase k .release false) 0 k .release ∧ (inPhase k .release false).holds 0 = true :=
  fun _ => ⟨inPhase_at .., rfl⟩

/-- Frame 0 at 30 fps one nanosecond before its deadline and at it, and the deadline of the last frame. -/
theorem witness_PlayOrder :
    (ctx .playCmd .poll).fps ≠ 0 ∧ (ctx .playCmd .poll).first.toNat ≤ 0 ∧
      (0 - (ctx .playCmd .poll).first.toNat + 1) * 10 ^ 9 ≤ 33333334 * (ctx .playCmd .poll).fps.toNat ∧
      33333333 < nextDeadline (ctx .playCmd .poll) 0 ∧ nextDeadline (ctx .playCmd .poll) 0 ≤ 33333334 ∧
      nextDeadline (ctx .playCmd .poll) 4 ≤ 166666667 ∧ 33333334 ≤ 166666667 ∧
      (ctx .playCmd .poll).first.toNat ≤ (ctx .playCmd .poll).upto.toNat ∧
      configured.validate 0#32 0#32 = .ok ⟨8, 3, 8⟩ := by
  decide +kernel

/-! ### Witnesses: datagrams, registers, the lock and whole-machine rules -/

/-- Port 0 is the lowest idle port; with port 0 busy it is port 1. -/
theorem witness_DatagramsDispatch :
    (configured.ready = true ∧ configured.par.resolve.lookup Config.examplePath = some 0#32 ∧
      configured.portExists 0 = true ∧ (configured.port 0).busy = false ∧
      ∀ p, p < 0 → (configured.port p).busy = true) ∧
    (filling.ready = true ∧ filling.portExists 1 = true ∧ (filling.port 1).busy = false ∧
      ∀ p, p < 1 → (filling.port p).busy = true) := by
  decide +kernel

theorem witness_DatagramsNotDispatched :
    (configured.ready = true ∧ decodeDatagram (ascii ['s', 't', 'o', 'p']) = .error .unrecognised ∧ 4 < 2 ^ 32) ∧
      State.reset.ready = false ∧ configured.par.resolve.lookup [0x63#8] = none ∧
      (crowded.ready = true ∧ crowded.par.resolve.lookup Config.examplePath = some 0#32 ∧
        ∀ q, crowded.portExists q = true → (crowded.port q).busy = true) := by
  decide +kernel

/-- The edges of each clause: the reserved offsets of the block, the last port and the first that does not exist, the
first and last bytes of `ENC_OUT`, an access of two bytes at `0x002`, a byte past `ENC_LEN`, a word past the end. -/
theorem witness_RegisterReads :
    (∀ off ∈ [0x068, 0x0FC], off % 4 = 0 ∧ 0x068 ≤ off ∧ off < 0x100) ∧
    ((3 : Port).val < configured.par.nreq ∧
      ∀ off ∈ [0x480, 0x7FC], off % 4 = 0 ∧ 0x400 + 32 * configured.par.nreq ≤ off ∧ off < 0x800) ∧
    ({ configured with encOut := [0x08#8] } : State).encOut[0]? = some 0x08#8 ∧
    (∀ n ∈ [0, 0x7FC], n % 4 = 0 ∧ 0x800 + n + 4 ≤ max 0x1000 (0x800 + configured.encOut.length)) ∧
    (¬((2 : Nat) = 4 ∧ 0x002 % 4 = 0) ∧ ¬((2 : Nat) = 1 ∧ 0x800 ≤ 0x002 ∧ 0x002 < 0x800 + 1)) ∧
    (¬((1 : Nat) = 4 ∧ 0x801 % 4 = 0) ∧ ¬((1 : Nat) = 1 ∧ 0x800 ≤ 0x801 ∧ 0x801 < 0x800 + 1)) ∧
    (0x1000 % 4 = 0 ∧ max 0x1000 (0x800 + configured.encOut.length) < 0x1000 + 4) := by
  decide +kernel

/-- Read-only and reserved offsets of each kind, a locked machine, a fatal one that is unlocked, an existing port, and
a machine whose configuration is open. -/
theorem witness_RegisterWrites :
    (∀ off ∈ [0x00C, 0x018, 0x020, 0x0FC, 0x10C, 0x3FC, 0x414, 0x41C, 0x480, 0x7FC, 0x800, 0xFFC],
      off % 4 = 0 ∧ off + 4 ≤ max 0x1000 (0x800 + configured.encOut.length) ∧
        (off ∈ [0x00C, 0x010, 0x014, 0x018] ∨ (0x020 ≤ off ∧ off < 0x100) ∨
          (0x100 ≤ off ∧ off < 0x400 ∧ off % 16 = 0xC) ∨
          (0x400 ≤ off ∧ off < 0x800 ∧ (configured.par.nreq ≤ (off - 0x400) / 32 ∨ 0x14 ≤ off % 32)) ∨
          0x800 ≤ off)) ∧
    (configured.cfg.locked = true ∧ (State.enterFatal State.reset none).cfg.fatal = true ∧
      (State.enterFatal State.reset none).cfg.locked = false ∧
      ∀ off ∈ [0x000, 0x01C, 0x100, 0x3FC], off % 4 = 0 ∧
        (off ∈ [0x000, 0x004, 0x008, 0x01C] ∨ (0x100 ≤ off ∧ off < 0x400))) ∧
    ((3 : Port).val < configured.par.nreq ∧ 3 < 4) ∧
    State.reset.cfg.locked = false ∧ State.reset.cfg.fatal = false := by
  decide +kernel

/-- Writes that are ignored, a valid configuration with a coprocessor, and one that fails both checks. -/
theorem witness_LockValidates :
    ((0xFFFFFFFE#32).getLsbD 0 = false ∧ configured.cfg.locked = true ∧
      (State.enterFatal State.reset none).cfg.fatal = true) ∧
    (State.reset.cfg.locked = false ∧ State.reset.cfg.fatal = false ∧ (1#32).getLsbD 0 = true) ∧
    (State.cfgValid { configured with cfg := { configured.cfg with locked := false } } = true ∧
      configured.coproReady = true) ∧ State.reset.cfgValid = false ∧ State.reset.coproReady = false := by
  decide +kernel

theorem witness_InvariantKept :
    (doing (portTwoWaits configured) .grant).Inv ∧ ∃ t, step (doing (portTwoWaits configured) .grant) = .next t ∧ True := by
  exact ⟨inv_of (by decide +kernel), next_sat (by decide +kernel)⟩

/-- The fault is the wrap of time. -/
theorem witness_NoModelFault :
    (doing { configured with tNow := 0xFFFFFFFFFFFFFFFF#64 } (.tick 1)).Inv ∧
      step (doing { configured with tNow := 0xFFFFFFFFFFFFFFFF#64 } (.tick 1)) = .fault .timeWrap := by
  exact ⟨inv_of (by decide +kernel), rfl⟩

theorem witness_OneWayState :
    ∃ t, step (doing { configured with cfg := { configured.cfg with cfgErr := true, hwErr := true, fatal := true } }
      (.tick 1)) = .next t ∧ t.cfg.locked = true ∧ t.coproReady = true := by
  exact next_sat (by decide +kernel)

/-- A port's step, which writes no memory, and the consumer's, which does. -/
theorem witness_OnlyRingWritesRegions :
    (doing draining (.portStep 0)).Inv ∧ (∃ t, step (doing draining (.portStep 0)) = .next t ∧ True) ∧
      (doing draining (.portStep 0)).nextEvent.act = .portStep 0 ∧
      ∃ t, step (doing draining .cpConsume) = .next t ∧ t.endAddr 0 = 0 ∧ draining.endAddr 0 ≠ 0 := by
  exact ⟨inv_of (by decide +kernel), next_sat (by decide +kernel), rfl, next_sat (by decide +kernel)⟩

end Sys2Proof.Tests
end

section
/-! PROOFS. A step and the instruction its event decodes to, the environment's actions, and the legal parameters
(`00_scope.md` R5-R7). -/

namespace Sys2Proof.Machine

/-! ### The event of a step (R6) -/

theorem step_of_agenda_cons {s : State} {e : Event} {rest : List Event} (hp : paramsOk s.par = true)
    (ha : s.agenda = e :: rest) : step s = runAction e.act { s with agenda := rest, pick := e.pick } := by
  simp only [step, hp, if_true, runNext, State.nextEvent, State.takeEvent, ha]

theorem step_of_agenda_nil {s : State} (hp : paramsOk s.par = true) (ha : s.agenda = []) :
    step s = runAction (Config.freeEvent s.freeIx).act
      { s with freeIx := s.freeIx + 1, pick := (Config.freeEvent s.freeIx).pick } := by
  simp only [step, hp, if_true, runNext, State.nextEvent, State.takeEvent, ha]

theorem step_of_illegal_params {s : State} (hp : paramsOk s.par = false) : step s = .fault .badParam := by
  simp only [step, hp, Bool.false_eq_true, if_false]

/-! ### Issuing a command word (`30_encoding.md` R81) -/

theorem wordAccess_cmdOffset (q : Port) : wordAccess (cmdOffset q) 4 = true := by
  have hmod : cmdOffset q % 4 = 0 := by unfold cmdOffset; omega
  simp [wordAccess, hmod]

/-- A 32-bit write of an existing port's `CMD` issues the word. -/
theorem registerWrite_cmdOffset {s : State} {q : Port} (he : s.portExists q = true) (w : Word) :
    registerWrite (cmdOffset q) 4 w s = issueWord q w s := by
  have hreg : regAt s.par.nreq (cmdOffset q) = .cmd q := regAt_cmdOffset _ q (by simpa [State.portExists] using he)
  rw [registerWrite, if_pos (wordAccess_cmdOffset q), if_pos (cmdOffset_in s q), hreg, writeEffect]

theorem issueWord_legal {s : State} {q : Port} {w : Word} {i : Instr} (hb : (s.port q).busy = false)
    (hd : decodeWord w = .ok i) : issueWord q w s = exec i (s.beginCommand q (opcodeField w)) := by
  simp only [issueWord, hb, hd, Bool.false_eq_true, if_false]

/-! ### Delivering a datagram (`43_command_sequencer.md` R180) -/

theorem deliverDatagram_not_ready {s : State} (d : List Byte) (hr : s.ready = false) :
    deliverDatagram d s = .next s := by
  simp [deliverDatagram, hr]

theorem deliverDatagram_recognised {s : State} {d : List Byte} {i : Instr} (hr : s.ready = true)
    (hd : decodeDatagram d = .ok i) : deliverDatagram d s = exec i s := by
  simp [deliverDatagram, hr, hd]

/-! ### The environment's actions -/

/-- An outside write is a write of its byte inside the regions and nothing outside them (log 20). -/
theorem outsideWriteStep_eq (a : Nat) (b : Byte) (s : State) :
    outsideWriteStep a b s = { s with mem := if s.inRegions a then Memory.write s.mem a b else s.mem } := by
  unfold outsideWriteStep
  split <;> rfl

theorem tickStep_fits {s : State} {d : Nat} (hd : 1 ≤ d) (h : s.tNow.toNat + d < 2 ^ 64) :
    tickStep d s = .next { s with tNow := BitVec.ofNat 64 (s.tNow.toNat + d) } := by
  rw [tickStep, if_neg (by omega), if_pos h]

theorem tickStep_wraps {s : State} {d : Nat} (hd : 1 ≤ d) (h : 2 ^ 64 ≤ s.tNow.toNat + d) :
    tickStep d s = .fault .timeWrap := by
  rw [tickStep, if_neg (by omega), if_neg (by omega)]

/-- A colour the input port lists is the one an encoder reads (R38, log 9). -/
theorem colourAt_listed {s : State} {k : PanelIx} {j : Nat} {row : List Colour} {c : Colour}
    (hrow : s.colours[k.val]? = some row) (hc : row[j]? = some c) : s.colourAt k j = c := by
  simp [State.colourAt, hrow, hc]

/-! ### Legal parameters (R7, `20_memory.md` R52) -/

theorem regionOk_iff (x : RegionParam) : regionOk x = true ↔
    x.base.toNat % 4 = 0 ∧ 8 ≤ x.cap.toNat ∧ x.base.toNat + x.cap.toNat ≤ 2 ^ 32 ∧ x.base ≠ 0 := by
  have hzero : x.base.toNat ≠ 0 ↔ x.base ≠ 0 := not_congr (BitVec.toNat_eq (y := 0)).symm
  simp only [regionOk, Bool.and_eq_true, decide_eq_true_eq, hzero, and_assoc]

theorem regionsDisjoint_comm (x y : RegionParam) : regionsDisjoint x y = regionsDisjoint y x := Bool.or_comm ..

/-- Two regions that hold a byte each are disjoint when no address is in both: the later base is no address of the
earlier region. -/
theorem regionsDisjoint_iff {x y : RegionParam} (hx : 8 ≤ x.cap.toNat) (hy : 8 ≤ y.cap.toNat) :
    regionsDisjoint x y = true ↔ ∀ a : Nat, x.base.toNat ≤ a → a < x.base.toNat + x.cap.toNat →
      ¬ (y.base.toNat ≤ a ∧ a < y.base.toNat + y.cap.toNat) := by
  simp only [regionsDisjoint, Bool.or_eq_true, decide_eq_true_eq]
  constructor
  · intro h a ha ha'
    omega
  · intro h
    have hmax := h (max x.base.toNat y.base.toNat)
    omega

/-- A symmetric relation holds between any two of the three regions when it holds of the three rising pairs. -/
theorem forall_region_pair_iff {P : Region → Region → Prop} (hsymm : ∀ r r', P r r' → P r' r) :
    (∀ r r', r ≠ r' → P r r') ↔ P 0 1 ∧ P 0 2 ∧ P 1 2 := by
  constructor
  · exact fun h => ⟨h 0 1 (by decide), h 0 2 (by decide), h 1 2 (by decide)⟩
  · rintro ⟨h01, h02, h12⟩ r r' hne
    have hrising : ∀ a b : Region, a < b → P a b := by simp [Fin.forall_fin_succ, h01, h02, h12]
    obtain hlt | hgt := hne.lt_or_gt
    · exact hrising r r' hlt
    · exact hsymm r' r (hrising r' r hgt)

/-- The parameter checks, with the three regions and their pairs quantified over. -/
theorem paramsOk_iff (x : Params) : paramsOk x = true ↔
    x.hwChannels ∈ legalChannels ∧ 2 ≤ x.nreq ∧ x.nreq ≤ 32 ∧ 1 ≤ x.tBit.toNat ∧
    10000 ≤ x.tPoll.toNat ∧ x.tPoll.toNat ≤ 99999 ∧ 1 ≤ x.stores.length ∧
    (∀ f ∈ x.stores, f.bytes.length ≤ 2 ^ 32) ∧
    (∀ r : Region, regionOk (x.regions.get r) = true) ∧
    ∀ r r' : Region, r ≠ r' → regionsDisjoint (x.regions.get r) (x.regions.get r') = true := by
  have hregions : (∀ r : Region, regionOk (x.regions.get r) = true) ↔
      regionOk x.regions[0] = true ∧ regionOk x.regions[1] = true ∧ regionOk x.regions[2] = true := by
    simp [Fin.forall_fin_succ, Vector.get_eq_getElem]
  have hpairs : (∀ r r' : Region, r ≠ r' → regionsDisjoint (x.regions.get r) (x.regions.get r') = true) ↔
      regionsDisjoint x.regions[0] x.regions[1] = true ∧ regionsDisjoint x.regions[0] x.regions[2] = true ∧
      regionsDisjoint x.regions[1] x.regions[2] = true :=
    forall_region_pair_iff fun r r' h => (regionsDisjoint_comm ..).trans h
  rw [hregions, hpairs]
  simp only [paramsOk, paramChecks, List.all_cons, List.all_nil, id, Bool.and_eq_true, Bool.and_true,
    decide_eq_true_eq, List.contains_iff_mem, List.all_eq_true]
  tauto

/-- The checks of the three regions, written out: the pairs are compared once each region is known to hold a byte. -/
theorem regionsOk_iff (v : Vector RegionParam 3) :
    ((∀ r : Region, regionOk (v.get r) = true) ∧
      ∀ r r' : Region, r ≠ r' → regionsDisjoint (v.get r) (v.get r') = true) ↔
    (∀ r : Region, (v.get r).base.toNat % 4 = 0 ∧ 8 ≤ (v.get r).cap.toNat ∧
      (v.get r).base.toNat + (v.get r).cap.toNat ≤ 2 ^ 32 ∧ (v.get r).base ≠ 0) ∧
    ∀ r r' : Region, r ≠ r' → ∀ a : Nat,
      (v.get r).base.toNat ≤ a → a < (v.get r).base.toNat + (v.get r).cap.toNat →
      ¬ ((v.get r').base.toNat ≤ a ∧ a < (v.get r').base.toNat + (v.get r').cap.toNat) := by
  simp only [regionOk_iff]
  refine and_congr_right fun hreg => forall₂_congr fun r r' => imp_congr_right fun _ => ?_
  obtain ⟨-, hr, -⟩ := hreg r
  obtain ⟨-, hr', -⟩ := hreg r'
  exact regionsDisjoint_iff hr hr'

/-! ### The obligations -/

/-- Settles O6: the event is taken off the agenda, and its action's arm reaches the decoded instruction. -/
theorem stepRunsDecoded : Obligations.StepRunsDecoded := by
  refine ⟨?word, ?datagram, ?action, ?free⟩
  case word =>
    intro s q w i n rest hp he hb ha hd
    rw [step_of_agenda_cons hp ha]
    exact (registerWrite_cmdOffset (s := { s with agenda := rest, pick := n }) he w).trans (issueWord_legal hb hd)
  case datagram =>
    intro s d i n rest hp ha hd
    rw [step_of_agenda_cons hp ha, runAction]
    exact ⟨fun hr => deliverDatagram_recognised hr hd, fun hr => deliverDatagram_not_ready d hr⟩
  case action =>
    rintro s _ a n rest hp ha rfl
    rw [step_of_agenda_cons hp ha]
    cases a
    case outsideWrite addr b => exact congrArg Host.Outcome.next (outsideWriteStep_eq addr b _)
    all_goals rfl
  case free =>
    rintro s _ hp ha rfl
    exact step_of_agenda_nil hp ha

/-- Settles O7: TICK on both sides of the wrap, the parameter checks written out, the load and the colour input. -/
theorem tickAndModelFaults : Obligations.TickAndModelFaults := by
  refine ⟨?fits, ?wraps, ?illegal, ?params, fun _ => rfl, ?colours⟩
  case fits =>
    intro s d hd h
    exact ⟨_, tickStep_fits hd h, (BitVec.toNat_ofNat ..).trans (Nat.mod_eq_of_lt h), rfl⟩
  case wraps => exact fun s d hd h => tickStep_wraps hd h
  case illegal => exact fun s hp => step_of_illegal_params hp
  case params =>
    intro x
    rw [paramsOk_iff, regionsOk_iff]
    exact Iff.rfl
  case colours => exact fun s cs => ⟨_, rfl, rfl, fun k j row c hrow hc => colourAt_listed hrow hc⟩

end Sys2Proof.Machine
end

section
/-! PROOFS. The whole-machine rules: the invariant at reset and through every step, and what no step undoes
(`10_state.md` R43, `70_reset_and_hazards.md` R230, R240, R241). -/

namespace Sys2Proof.Machine

/-! ### The invariant through the actions with no law of their own yet (R43) -/

theorem tickStep_inv {s : State} (h : s.Inv) (d : Nat) : NextInv (tickStep d s) := by
  unfold tickStep
  split
  · exact .next h
  · split
    · exact .next (h.same rfl rfl rfl rfl rfl rfl h.memWf)
    · exact .fault

theorem cpLatch_inv {s : State} (h : s.Inv) : (cpLatch s).Inv := by
  unfold cpLatch
  split
  exacts [setCp_inv h _, h]

theorem cpStop_inv {s : State} (h : s.Inv) : (cpStop s).Inv := by
  unfold cpStop
  split
  exacts [setCp_inv h _, h]

theorem cpHang_inv {s : State} (h : s.Inv) : (cpHang s).Inv := by
  unfold cpHang
  split
  exacts [setCp_inv h _, h]

theorem outsideWriteStep_inv {s : State} (h : s.Inv) (a : Nat) (b : Byte) : (outsideWriteStep a b s).Inv := by
  unfold outsideWriteStep
  split
  · exact h.same rfl rfl rfl rfl rfl rfl (write_wf a b h.memWf)
  · exact h

/-- Every agent's step keeps the invariant. -/
theorem runAction_inv {s : State} (h : s.Inv) (hpar : paramsOk s.par = true) (a : Action) :
    NextInv (runAction a s) := by
  cases a with
  | regWrite off size v => exact registerWrite_inv h hpar off size v
  | regRead off size => exact registerRead_inv h off size
  | datagram d => exact deliverDatagram_inv h d
  | portStep q => exact portStep_inv h hpar q
  | grant => exact .next (grantStep_inv h)
  | ringStep => exact ringStep_inv h hpar
  | cpConsume => exact .next (cpConsume_inv h)
  | cpLatch => exact .next (cpLatch_inv h)
  | cpStop => exact .next (cpStop_inv h)
  | cpHang => exact .next (cpHang_inv h)
  | tick d => exact tickStep_inv h d
  | coproLoad => exact .next (h.same rfl rfl rfl rfl rfl rfl h.memWf)
  | sampleColours cs => exact .next (h.same rfl rfl rfl rfl rfl rfl h.memWf)
  | outsideWrite a b => exact .next (outsideWriteStep_inv h a b)

/-! ### What no step undoes (R240, R241) -/

/-- No action undoes what a configuration, the sticky bits, the log and time have become: RC, CP and the outside
world leave them alone, the other actions only add to them. -/
theorem runAction_oneWay {a : Action} {s t : State} (h : runAction a s = .next t) : OneWay s t := by
  cases hr : ringAction a with
  | true => exact (runAction_unit hr h).oneWay
  | false => exact (runAction_frame hr s t h).oneWay

/-! ### Reset (R230) -/

theorem reset_waiting (q : Port) : State.reset.waiting q = false := by simp [State.waiting, State.reset]

theorem reset_portInv (q : Port) : PortInv State.reset q :=
  portInv_idle (by rw [reset_port]; rfl) (by rw [reset_port]; rfl) (by rw [reset_port]; rfl)
    (by rw [reset_port]; rfl) (by rw [reset_port]; rfl) (reset_waiting q)

theorem reset_tokenInv : TokenInv State.reset where
  holderNotWaiting _ := reset_waiting _
  holderExists h := nomatch h
  idleHolder _ := rfl

/-- RC is IDLE at reset, with an empty transfer behind it. -/
theorem reset_ringInv : RingInv State.reset where
  ownerHolds h := absurd rfl h
  ownerBlocked h := absurd rfl h
  cursorLe := le_rfl
  cursorWhole _ := Nat.zero_mod _
  transfer h := absurd rfl h

theorem reset_quietInv : QuietInv State.reset where
  ports _ q := by rw [reset_port]; rfl
  ring _ := rfl
  token _ := rfl

theorem reset_inv : State.reset.Inv where
  memWf := rfl
  lockedValid h := nomatch h
  port := reset_portInv
  token := reset_tokenInv
  ring := reset_ringInv
  quiet := reset_quietInv

/-! ### The obligations -/

/-- Settles O57: taking the event keeps the invariant, and so does every agent's action on a machine with legal
parameters. -/
theorem invariantKept : Obligations.InvariantKept := by
  intro s t h hst
  obtain ⟨hpar, hrun⟩ := step_runAction hst
  exact runAction_inv (takeEvent_inv h) ((takeEvent_par s).symm ▸ hpar) _ t hrun

/-- Settles O59: taking the event leaves all of it alone, and no action undoes any of it. -/
theorem oneWayState : Obligations.OneWayState := by
  intro s t hst
  obtain ⟨-, hrun⟩ := step_runAction hst
  obtain ⟨par, locked, cfgErr, hwErr, fatal, copro, log, time⟩ :=
    (ringSame_takeEvent s).oneWay.trans (runAction_oneWay hrun)
  exact ⟨par, locked, cfgErr, hwErr, fatal, copro, log, time⟩

/-- Settles O56: at reset the ports, the token and RC are idle, and the parameters are legal. -/
theorem resetInvariant : Obligations.ResetInvariant := ⟨by decide, reset_inv⟩

end Sys2Proof.Machine
end

section
/-! PROOFS. The packed status registers (`10_state.md` R25, R30, R32, R33), field by field. -/

namespace Sys2Proof.Machine

/-! ### A packed register's fields -/

/-- A field of a packed register, as a number. -/
theorem field_toNat {n lo len v : Nat} (h : n % 2 ^ 32 / 2 ^ lo % 2 ^ len = v) :
    ((BitVec.ofNat 32 n).extractLsb' lo len).toNat = v := (nat_bit n lo len).trans h

/-- A field of a packed register, as bits. -/
theorem field_eq {n lo len : Nat} {v : BitVec len} (h : n % 2 ^ 32 / 2 ^ lo % 2 ^ len = v.toNat) :
    (BitVec.ofNat 32 n).extractLsb' lo len = v := BitVec.eq_of_toNat_eq (field_toNat h)

theorem bit_lt (b : Bool) : bit b < 2 := by cases b <;> decide

theorem decide_bit_eq_one (b : Bool) : decide (bit b = 1) = b := by cases b <;> rfl

/-- A one-bit field of a packed register. -/
theorem flag_eq {n i : Nat} {b : Bool} (h : n % 2 ^ 32 / 2 ^ i % 2 = bit b) : (BitVec.ofNat 32 n).getLsbD i = b := by
  rw [nat_lsb, h, decide_bit_eq_one]

/-- A reserved bit of a packed register. -/
theorem flag_eq_false {n i : Nat} (h : n % 2 ^ 32 / 2 ^ i % 2 = 0) : (BitVec.ofNat 32 n).getLsbD i = false :=
  flag_eq (b := false) h

theorem RcState.code_lt (c : RcState) : c.code < 7 := by cases c <;> decide

theorem Phase.code_lt (p : Phase) : p.code < 9 := by cases p <;> decide

/-! ### The registers -/

/-- `RC_STATUS` (R30). -/
theorem rcStatus_fields (s : State) :
    (s.rcStatus.extractLsb' 0 4).toNat = s.rc.state.code ∧ s.rcStatus.getLsbD 4 = decide (s.rc.state ≠ .idle) ∧
    (s.rcStatus.extractLsb' 5 2).toNat = s.rc.cur.val ∧ s.rcStatus.getLsbD 7 = false ∧
    s.rcStatus.extractLsb' 8 8 = s.rc.result.code ∧ s.rcStatus.getLsbD 16 = s.rc.flags.underrun ∧
    s.rcStatus.getLsbD 17 = s.rc.flags.timeout ∧ s.rcStatus.getLsbD 18 = s.rc.flags.unconsumed ∧
    (s.rcStatus.extractLsb' 19 5).toNat = s.rc.owner.val ∧ s.rcStatus.extractLsb' 24 8 = 0#8 := by
  have hstate := s.rc.state.code_lt
  have hbusy := bit_lt (decide (s.rc.state ≠ .idle))
  have hcur := s.rc.cur.isLt
  have hresult := s.rc.result.code.isLt
  have hunderrun := bit_lt s.rc.flags.underrun
  have htimeout := bit_lt s.rc.flags.timeout
  have hunconsumed := bit_lt s.rc.flags.unconsumed
  have howner := s.rc.owner.isLt
  simp only [State.rcStatus, Flags.code]
  exact ⟨field_toNat (by omega), flag_eq (by omega), field_toNat (by omega), flag_eq_false (by omega),
    field_eq (by omega), flag_eq (by omega), flag_eq (by omega), flag_eq (by omega), field_toNat (by omega),
    field_eq (by simp only [BitVec.toNat_ofNat]; omega)⟩

theorem tkStatus_of_idle {s : State} (h : s.tk.state = .idle) : s.tkStatus = 0 := by rw [State.tkStatus, h]

theorem tkStatus_of_held {s : State} (h : s.tk.state = .held) :
    s.tkStatus = BitVec.ofNat 32 (1 + 256 * s.tk.holder.val) := by rw [State.tkStatus, h]

/-- `TK_STATUS` (R32): all of it reads 0 while the token is idle. -/
theorem tkStatus_fields (s : State) :
    s.tkStatus.getLsbD 0 = decide (s.tk.state = .held) ∧ s.tkStatus.extractLsb' 1 7 = 0#7 ∧
    (s.tkStatus.extractLsb' 8 5).toNat = (if s.tk.state = .held then s.tk.holder.val else 0) ∧
    s.tkStatus.extractLsb' 13 19 = 0#19 := by
  cases h : s.tk.state with
  | idle =>
    rw [tkStatus_of_idle h]
    exact ⟨by decide, by decide, rfl, by decide⟩
  | held =>
    have hholder := s.tk.holder.isLt
    rw [tkStatus_of_held h]
    exact ⟨flag_eq (b := true) (by simp only [bit, if_true]; omega),
      field_eq (by simp only [BitVec.toNat_ofNat]; omega), field_toNat (by simp only [if_true]; omega),
      field_eq (by simp only [BitVec.toNat_ofNat]; omega)⟩

/-- `TK_WAIT` (R32): the mask keeps the bits of the ports that exist. -/
theorem tkWait_getLsbD (s : State) (p : Port) :
    s.tkWait.getLsbD p.val = (decide (p.val < s.par.nreq) && s.waiting p) := by
  rw [State.tkWait, BitVec.getLsbD_and, BitVec.getLsbD_ofNat, Nat.testBit_two_pow_sub_one, decide_eq_true p.isLt,
    Bool.true_and, Bool.and_comm, State.waiting]

/-- `PORT_STATUS` (R33). -/
theorem portStatus_fields (p : PortState) :
    p.status.getLsbD 0 = p.busy ∧ p.status.getLsbD 1 = p.blocked ∧ p.status.getLsbD 2 = p.ovr ∧
    p.status.getLsbD 3 = false ∧ (p.status.extractLsb' 4 4).toNat = p.seq.phase.code ∧
    p.status.extractLsb' 8 8 = p.opcode ∧ p.status.extractLsb' 16 16 = 0#16 := by
  have hbusy := bit_lt p.busy
  have hblocked := bit_lt p.blocked
  have hovr := bit_lt p.ovr
  have hphase := p.seq.phase.code_lt
  have hopcode := p.opcode.isLt
  simp only [PortState.status]
  exact ⟨flag_eq (by omega), flag_eq (by omega), flag_eq (by omega), flag_eq_false (by omega),
    field_toNat (by omega), field_eq (by omega), field_eq (by simp only [BitVec.toNat_ofNat]; omega)⟩

/-- `CFG.CTRL` (R25). -/
theorem cfgCtrl_fields (s : State) :
    s.cfgCtrl.getLsbD 0 = s.cfg.locked ∧ s.cfgCtrl.getLsbD 1 = s.cfg.cfgErr ∧ s.cfgCtrl.getLsbD 2 = s.cfg.hwErr ∧
    s.cfgCtrl.getLsbD 3 = s.cfg.fatal ∧ s.cfgCtrl.extractLsb' 4 28 = 0#28 := by
  have hlocked := bit_lt s.cfg.locked
  have hcfgErr := bit_lt s.cfg.cfgErr
  have hhwErr := bit_lt s.cfg.hwErr
  have hfatal := bit_lt s.cfg.fatal
  simp only [State.cfgCtrl]
  exact ⟨flag_eq (by omega), flag_eq (by omega), flag_eq (by omega), flag_eq (by omega),
    field_eq (by simp only [BitVec.toNat_ofNat]; omega)⟩

/-- Settles O51: the code tables by their rows, the packed registers each by their fields. -/
theorem statusRegisters : Obligations.StatusRegisters :=
  ⟨by decide, by decide, by decide, fun s q =>
    ⟨rcStatus_fields s, tkStatus_fields s, tkWait_getLsbD s, portStatus_fields (s.port q), cfgCtrl_fields s⟩⟩

end Sys2Proof.Machine
end

section
/-! PROOFS. The register map as accesses see it (`10_state.md` R35, R40, R41): which register an offset names, and
every read and refusal. -/

namespace Sys2Proof.Machine

/-! ### Which register an offset names (R40) -/

theorem regAt_block (nreq : Nat) {off : Nat} (h : off < 0x100) : regAt nreq off = blockReg off := by
  rw [regAt, if_pos h]

theorem regAt_panel (nreq : Nat) (k : PanelIx) {off o : Nat} (hoff : off = 0x100 + 16 * k.val + o) (ho : o < 16) :
    regAt nreq off = panelReg k o := by
  have hk := k.isLt
  have hrow : Fin.ofNat 48 ((off - 0x100) / 16) = k := Fin.ext (by rw [Fin.val_ofNat]; omega)
  rw [regAt, if_neg (by omega), if_pos (by omega), hrow, show (off - 0x100) % 16 = o by omega]

theorem regAt_port {nreq : Nat} {q : Port} (hq : q.val < nreq) {off o : Nat} (hoff : off = 0x400 + 32 * q.val + o)
    (ho : o < 32) : regAt nreq off = portReg q o := by
  have hlt := q.isLt
  have hport : Fin.ofNat 32 ((off - 0x400) / 32) = q := Fin.ext (by rw [Fin.val_ofNat]; omega)
  rw [regAt, if_neg (by omega), if_neg (by omega), if_pos (by omega), if_pos (by omega), hport,
    show (off - 0x400) % 32 = o by omega]

/-- The offsets of ports that do not exist are reserved (log 38). -/
theorem regAt_missing_port {nreq off : Nat} (hlo : 0x400 ≤ off) (hhi : off < 0x800)
    (hq : nreq ≤ (off - 0x400) / 32) : regAt nreq off = .reserved := by
  rw [regAt, if_neg (by omega), if_neg (by omega), if_pos hhi, if_neg (by omega)]

theorem regAt_encOut (nreq n : Nat) : regAt nreq (0x800 + n) = .encOut n := by
  rw [regAt, if_neg (by omega), if_neg (by omega), if_neg (by omega), Nat.add_sub_cancel_left]

theorem blockReg_reserved {off : Nat} (h : 0x068 ≤ off) : blockReg off = .reserved := by
  rw [blockReg] <;> omega

theorem blockReg_regionBase : ∀ r : Region, blockReg (0x020 + 8 * r.val) = .regionBase r := by decide

theorem blockReg_regionCap : ∀ r : Region, blockReg (0x024 + 8 * r.val) = .regionCap r := by decide

theorem panelReg_ne_timeLo (k : PanelIx) (o : Nat) : panelReg k o ≠ .timeLo := by
  unfold panelReg
  split <;> simp

theorem portReg_ne_timeLo (q : Port) (o : Nat) : portReg q o ≠ .timeLo := by
  unfold portReg
  split <;> simp

/-- The rows of R40 below 0x068 whose read has no effect, but for the regions. -/
def plainBlockRows : List (Nat × Reg) :=
  [(0x000, .cfgNc), (0x004, .cfgNl), (0x008, .cfgNp), (0x00C, .hwChannels), (0x010, .timBit), (0x014, .timReset),
    (0x018, .timPoll), (0x01C, .cfgCtrl), (0x038, .encLen), (0x03C, .reserved), (0x040, .rcStatus),
    (0x044, .rcCursor), (0x048, .rcTotal), (0x04C, .rcStore), (0x050, .rcDeadlineLo), (0x054, .rcDeadlineHi),
    (0x058, .tkStatus), (0x05C, .tkWait), (0x064, .timeHi)]

theorem blockReg_plainBlockRows :
    ∀ p ∈ plainBlockRows, p.1 % 4 = 0 ∧ p.1 < 0x100 ∧ blockReg p.1 = p.2 ∧ p.2 ≠ .timeLo := by decide

/-! ### Access forms (R41) -/

theorem wordAccess_iff {off size : Nat} : wordAccess off size = true ↔ size = 4 ∧ off % 4 = 0 := by
  simp only [wordAccess, Bool.and_eq_true, decide_eq_true_eq]

theorem encByteAccess_iff {s : State} {off size : Nat} :
    s.encByteAccess off size = true ↔ size = 1 ∧ 0x800 ≤ off ∧ off < 0x800 + s.encOut.length := by
  simp only [State.encByteAccess, Bool.and_eq_true, decide_eq_true_eq, and_assoc]

/-- An aligned offset below 0x1000 lies in the register space. -/
theorem le_registerEnd (s : State) {off : Nat} (h4 : off % 4 = 0) (h : off < 0x1000) : off + 4 ≤ s.registerEnd :=
  le_max_of_le_left (by omega)

theorem latchTime_of_ne {s : State} {r : Reg} (h : r ≠ .timeLo) : s.latchTime r = s := by
  unfold State.latchTime
  split
  · exact absurd rfl h
  · rfl

theorem registerRead_word {s : State} {off : Nat} (h4 : off % 4 = 0) (hend : off + 4 ≤ s.registerEnd) :
    registerRead off 4 s =
      .next { s.latchTime (regAt s.par.nreq off) with readData := s.readReg (regAt s.par.nreq off) } := by
  rw [registerRead, if_pos (wordAccess_iff.2 ⟨rfl, h4⟩), if_pos hend]

theorem registerWrite_word {s : State} {off : Nat} (v : Word) (h4 : off % 4 = 0) (hend : off + 4 ≤ s.registerEnd) :
    registerWrite off 4 v s = writeEffect (regAt s.par.nreq off) v s := by
  rw [registerWrite, if_pos (wordAccess_iff.2 ⟨rfl, h4⟩), if_pos hend]

theorem registerRead_encByte {s : State} {off : Nat} (hlo : 0x800 ≤ off) (hhi : off < 0x800 + s.encOut.length) :
    registerRead off 1 s = .next { s with readData := BitVec.ofNat 32 (s.encBytes (off - 0x800) 1) } := by
  rw [registerRead, if_neg (by rw [wordAccess_iff]; omega), if_pos (encByteAccess_iff.2 ⟨rfl, hlo, hhi⟩)]

theorem registerRead_refused {s : State} {off size : Nat} (hword : ¬(size = 4 ∧ off % 4 = 0))
    (hbyte : ¬(size = 1 ∧ 0x800 ≤ off ∧ off < 0x800 + s.encOut.length)) :
    registerRead off size s = .refused .registerAccess := by
  rw [registerRead, if_neg (mt wordAccess_iff.1 hword), if_neg (mt encByteAccess_iff.1 hbyte)]

theorem registerWrite_refused {off size : Nat} (s : State) (v : Word) (hword : ¬(size = 4 ∧ off % 4 = 0)) :
    registerWrite off size v s = .refused .registerAccess := by
  rw [registerWrite, if_neg (mt wordAccess_iff.1 hword)]

theorem registerRead_outside {s : State} {off : Nat} (h4 : off % 4 = 0) (h : s.registerEnd < off + 4) :
    registerRead off 4 s = .refused .outsideRegisterSpace := by
  rw [registerRead, if_pos (wordAccess_iff.2 ⟨rfl, h4⟩), if_neg (Nat.not_le_of_lt h)]

theorem registerWrite_outside {s : State} {off : Nat} (v : Word) (h4 : off % 4 = 0) (h : s.registerEnd < off + 4) :
    registerWrite off 4 v s = .refused .outsideRegisterSpace := by
  rw [registerWrite, if_pos (wordAccess_iff.2 ⟨rfl, h4⟩), if_neg (Nat.not_le_of_lt h)]

/-! ### Reads, block by block -/

/-- An aligned read of a register other than `TIME_LO` returns its value and has no effect. -/
theorem readsAs_readReg {s : State} {off : Nat} {r : Reg} (h4 : off % 4 = 0) (hend : off + 4 ≤ s.registerEnd)
    (hr : regAt s.par.nreq off = r) (hne : r ≠ .timeLo) : ReadsAs s off (s.readReg r) := by
  rw [ReadsAs, registerRead_word h4 hend, hr, latchTime_of_ne hne]

theorem readsAs_block {s : State} {off : Nat} {r : Reg} (h4 : off % 4 = 0) (h : off < 0x100) (hr : blockReg off = r)
    (hne : r ≠ .timeLo) : ReadsAs s off (s.readReg r) :=
  readsAs_readReg h4 (le_registerEnd s h4 (by omega)) ((regAt_block _ h).trans hr) hne

/-- A panel row's register, by its offset in the row. -/
theorem readsAs_panel (s : State) (k : PanelIx) {off : Nat} (o : Nat)
    (hoff : off = 0x100 + 16 * k.val + o := by omega) (ho : o % 4 = 0 ∧ o < 16 := by decide) :
    ReadsAs s off (s.readReg (panelReg k o)) := by
  have hk := k.isLt
  have h4 : off % 4 = 0 := by omega
  exact readsAs_readReg h4 (le_registerEnd s h4 (by omega)) (regAt_panel _ k hoff ho.2) (panelReg_ne_timeLo k o)

/-- An existing port's register, by its offset in the port. -/
theorem readsAs_port {s : State} {q : Port} (hq : q.val < s.par.nreq) {off : Nat} (o : Nat)
    (hoff : off = 0x400 + 32 * q.val + o := by omega) (ho : o % 4 = 0 ∧ o < 32 := by decide) :
    ReadsAs s off (s.readReg (portReg q o)) := by
  have hlt := q.isLt
  have h4 : off % 4 = 0 := by omega
  exact readsAs_readReg h4 (le_registerEnd s h4 (by omega)) (regAt_port hq hoff ho.2) (portReg_ne_timeLo q o)

/-! ### The `ENC_OUT` window (log 18) -/

/-- A byte of a little-endian number. -/
theorem leNat_byte (bs : List Byte) (i : Nat) : leNat bs / 2 ^ (8 * i) % 2 ^ 8 = (bs.getD i 0).toNat := by
  induction bs generalizing i with
  | nil => simp [leNat]
  | cons b bs ih =>
    have hb := b.isLt
    cases i with
    | zero => simp only [leNat, List.getD_cons_zero]; omega
    | succ i =>
      have hpow : 2 ^ (8 * (i + 1)) = 256 * 2 ^ (8 * i) := by rw [Nat.mul_succ, pow_add]; ring
      have hdiv : leNat (b :: bs) / 256 = leNat bs := by simp only [leNat]; omega
      rw [hpow, ← Nat.div_div_eq_div_mul, hdiv, List.getD_cons_succ, ih i]

theorem leNat_lt (bs : List Byte) : leNat bs < 2 ^ (8 * bs.length) := by
  induction bs with
  | nil => simp [leNat]
  | cons b bs ih =>
    have hb := b.isLt
    have hpow : 2 ^ (8 * (b :: bs).length) = 256 * 2 ^ (8 * bs.length) := by
      rw [List.length_cons, Nat.mul_succ, pow_add]; ring
    simp only [leNat]
    omega

theorem encBytes_lt (s : State) (n len : Nat) : s.encBytes n len < 2 ^ (8 * len) := by
  have h := leNat_lt ((List.range len).map fun i => s.encOut.getD (n + i) 0)
  rwa [List.length_map, List.length_range] at h

/-- A byte of a read in the window is the byte of `ENC_OUT` there, 0 past `ENC_LEN`. -/
theorem encBytes_byte (s : State) (n : Nat) {len i : Nat} (hi : i < len) :
    s.encBytes n len / 2 ^ (8 * i) % 2 ^ 8 = (s.encOut.getD (n + i) 0).toNat := by
  rw [State.encBytes, leNat_byte, List.getD_eq_getElem _ _ (by simpa using hi), List.getElem_map, List.getElem_range]

/-- A byte read of the window. -/
theorem encBytes_one {s : State} {n : Nat} {b : Byte} (h : s.encOut[n]? = some b) : s.encBytes n 1 = b.toNat := by
  have hlt := encBytes_lt s n 1
  have hbyte := encBytes_byte s n (i := 0) Nat.one_pos
  rw [Nat.add_zero, List.getD_eq_getElem?_getD, h, Option.getD_some] at hbyte
  omega

/-! ### The obligation -/

/-- Settles O52: an access is sorted by its form, an offset by its block, and each register's value is read off. -/
theorem registerReads : Obligations.RegisterReads := by
  intro s
  refine ⟨?block, ?timeLo, ?regions, ?reserved, ?panel, ?port, ?missing, ?byte, ?window, ?form,
    fun off size v hword => registerWrite_refused s v hword,
    fun off v h4 h => ⟨registerRead_outside h4 h, registerWrite_outside v h4 h⟩⟩
  case block =>
    have hrows : ∀ p ∈ plainBlockRows.map fun p => (p.1, s.readReg p.2), ReadsAs s p.1 p.2 :=
      List.forall_mem_map.2 fun p hp => by
        obtain ⟨h4, hlt, hr, hne⟩ := blockReg_plainBlockRows p hp
        exact readsAs_block h4 hlt hr hne
    exact hrows
  case timeLo => exact registerRead_word (by decide) (le_registerEnd s (by decide) (by decide))
  case regions =>
    intro r
    have hr := r.isLt
    exact ⟨readsAs_block (by omega) (by omega) (blockReg_regionBase r) (by simp),
      readsAs_block (by omega) (by omega) (blockReg_regionCap r) (by simp)⟩
  case reserved => exact fun off h4 hlo hhi => readsAs_block h4 hhi (blockReg_reserved hlo) (by simp)
  case panel =>
    intro k
    exact ⟨readsAs_panel s k 0x0, readsAs_panel s k 0x4, readsAs_panel s k 0x8, readsAs_panel s k 0xC⟩
  case port =>
    intro q hq
    exact ⟨readsAs_port hq 0x00, readsAs_port hq 0x04, readsAs_port hq 0x08, readsAs_port hq 0x0C,
      readsAs_port hq 0x10, readsAs_port hq 0x14, readsAs_port hq 0x18, readsAs_port hq 0x1C⟩
  case missing =>
    intro off h4 hlo hhi
    exact readsAs_readReg h4 (le_registerEnd s h4 (by omega)) (regAt_missing_port (by omega) hhi (by omega)) (by simp)
  case byte =>
    intro n b hb
    obtain ⟨hn, -⟩ := List.getElem?_eq_some_iff.1 hb
    rw [registerRead_encByte (by omega) (by omega), Nat.add_sub_cancel_left, encBytes_one hb, BitVec.ofNat_toNat]
  case window =>
    intro n h4 hend
    refine ⟨_, readsAs_readReg (by omega) hend (regAt_encOut _ n) (by simp), fun i hi => field_eq ?_⟩
    rw [Nat.mod_eq_of_lt (encBytes_lt s n 4), encBytes_byte s n hi]
  case form => exact fun off size hword hbyte => registerRead_refused hword hbyte

end Sys2Proof.Machine
end

section
/-! PROOFS. Register writes, offset by offset (`10_state.md` R22-R24, R33, R40, R41, `60_exceptions.md` R214). -/

namespace Sys2Proof.Machine

/-! ### What a write does to a register (R40's access column) -/

/-- How a register takes a write. -/
inductive WriteAccess
  | command
  | argument
  | config
  | readOnly
  deriving DecidableEq

/-- A register's row in R40's access column. -/
def Reg.access : Reg → WriteAccess
  | .cmd _ => .command
  | .arg0 _ => .argument
  | .arg1 _ => .argument
  | .arg2 _ => .argument
  | .arg3 _ => .argument
  | .cfgNc => .config
  | .cfgNl => .config
  | .cfgNp => .config
  | .cfgCtrl => .config
  | .panelCh _ => .config
  | .panelNreal _ => .config
  | .panelNbuf _ => .config
  | _ => .readOnly

theorem writeEffect_readOnly {r : Reg} (h : r.access = .readOnly) (v : Word) (s : State) :
    writeEffect r v s = .next s := by
  cases r <;> simp [Reg.access, writeEffect, State.writeReg] at h ⊢

/-- After the lock and in FATAL a configuration register ignores writes. -/
theorem writeEffect_config_closed {r : Reg} {s : State} (h : r.access = .config) (hs : s.configOpen = false)
    (v : Word) : writeEffect r v s = .next s := by
  cases r <;> simp [Reg.access, writeEffect, State.writeReg, State.whenOpen, writeCfgCtrl, hs] at h ⊢

theorem configOpen_eq_false {s : State} (h : s.cfg.locked = true ∨ s.cfg.fatal = true) : s.configOpen = false := by
  rcases h with h | h <;> simp [State.configOpen, h]

theorem whenOpen_of_open {s s' : State} (h : s.configOpen = true) : s.whenOpen s' = s' := by
  rw [State.whenOpen, if_pos h]

/-- While the configuration is open, a write below 0x100 that it guards takes effect. -/
theorem registerWrite_block_open {s t : State} (hs : s.configOpen = true) (v : Word) {off : Nat} (h4 : off % 4 = 0)
    (h : off < 0x100) (hw : writeEffect (blockReg off) v s = .next (s.whenOpen t)) :
    registerWrite off 4 v s = .next t := by
  rw [registerWrite_word v h4 (le_registerEnd s h4 (by omega)), regAt_block _ h, hw, whenOpen_of_open hs]

/-! ### Which offsets take no write -/

theorem access_blockReg_readOnly {off : Nat} (h : 0x020 ≤ off) : (blockReg off).access = .readOnly := by
  unfold blockReg
  split
  any_goals omega
  all_goals rfl

theorem access_panelReg (k : PanelIx) (o : Nat) :
    (panelReg k o).access = .config ∨ (panelReg k o).access = .readOnly := by
  unfold panelReg
  split <;> simp [Reg.access]

theorem access_portReg_readOnly (q : Port) {o : Nat} (h : 0x14 ≤ o) : (portReg q o).access = .readOnly := by
  unfold portReg
  split
  any_goals omega
  all_goals rfl

/-- A row of the panel, or of the ports, and the offset in it. -/
theorem regAt_panel_of_range {nreq off : Nat} (hlo : 0x100 ≤ off) (hhi : off < 0x400) :
    ∃ k, regAt nreq off = panelReg k (off % 16) :=
  ⟨⟨(off - 0x100) / 16, by omega⟩, regAt_panel nreq _ (by simp only; omega) (by omega)⟩

theorem regAt_port_of_range {nreq off : Nat} (hlo : 0x400 ≤ off) (hhi : off < 0x800)
    (hq : (off - 0x400) / 32 < nreq) : ∃ q, regAt nreq off = portReg q (off % 32) :=
  ⟨⟨(off - 0x400) / 32, by omega⟩, regAt_port hq (by simp only; omega) (by omega)⟩

/-- The read-only and the reserved offsets (R40, logs 18 and 38). -/
theorem access_regAt_readOnly {nreq off : Nat}
    (h : off ∈ [0x00C, 0x010, 0x014, 0x018] ∨ (0x020 ≤ off ∧ off < 0x100) ∨
      (0x100 ≤ off ∧ off < 0x400 ∧ off % 16 = 0xC) ∨
      (0x400 ≤ off ∧ off < 0x800 ∧ (nreq ≤ (off - 0x400) / 32 ∨ 0x14 ≤ off % 32)) ∨ 0x800 ≤ off) :
    (regAt nreq off).access = .readOnly := by
  rcases h with hparams | ⟨hlo, hhi⟩ | ⟨hlo, hhi, hlast⟩ | ⟨hlo, hhi, hport⟩ | henc
  · have hrows : ∀ o ∈ [0x00C, 0x010, 0x014, 0x018], o < 0x100 ∧ (blockReg o).access = .readOnly := by decide
    obtain ⟨hlt, hacc⟩ := hrows off hparams
    rw [regAt_block nreq hlt, hacc]
  · rw [regAt_block nreq hhi, access_blockReg_readOnly hlo]
  · obtain ⟨k, hr⟩ := regAt_panel_of_range hlo hhi
    rw [hr, hlast]
    rfl
  · by_cases hq : nreq ≤ (off - 0x400) / 32
    · rw [regAt_missing_port hlo hhi hq]
      rfl
    · obtain ⟨q, hr⟩ := regAt_port_of_range hlo hhi (Nat.lt_of_not_le hq)
      rw [hr, access_portReg_readOnly q (hport.resolve_left hq)]
  · rw [← Nat.add_sub_cancel' henc, regAt_encOut]
    rfl

/-- The configuration's offsets: its registers, and the last words of the panel rows. -/
theorem access_regAt_config {nreq off : Nat}
    (h : off ∈ [0x000, 0x004, 0x008, 0x01C] ∨ (0x100 ≤ off ∧ off < 0x400)) :
    (regAt nreq off).access = .config ∨ (regAt nreq off).access = .readOnly := by
  rcases h with hblock | ⟨hlo, hhi⟩
  · have hrows : ∀ o ∈ [0x000, 0x004, 0x008, 0x01C], o < 0x100 ∧ (blockReg o).access = .config := by decide
    obtain ⟨hlt, hacc⟩ := hrows off hblock
    exact .inl (by rw [regAt_block nreq hlt, hacc])
  · obtain ⟨k, hr⟩ := regAt_panel_of_range (nreq := nreq) hlo hhi
    exact hr ▸ access_panelReg k _

/-! ### Arguments (R33) -/

/-- The port with its argument `n` written. -/
def PortState.withArg (p : PortState) (v : Word) : Fin 4 → PortState
  | 0 => { p with arg0 := v }
  | 1 => { p with arg1 := v }
  | 2 => { p with arg2 := v }
  | 3 => { p with arg3 := v }

theorem withArg_args (p : PortState) (v : Word) (n : Fin 4) :
    [(p.withArg v n).arg0, (p.withArg v n).arg1, (p.withArg v n).arg2, (p.withArg v n).arg3] =
      [p.arg0, p.arg1, p.arg2, p.arg3].set n v := by
  fin_cases n <;> rfl

theorem withArg_rest (p : PortState) (v : Word) (n : Fin 4) :
    p.withArg v n = { p with
      arg0 := (p.withArg v n).arg0, arg1 := (p.withArg v n).arg1,
      arg2 := (p.withArg v n).arg2, arg3 := (p.withArg v n).arg3 } := by
  fin_cases n <;> rfl

theorem writeEffect_arg (s : State) (v : Word) (q : Port) (n : Fin 4) :
    writeEffect (portReg q (4 + 4 * n.val)) v s = .next (s.setPort q ((s.port q).withArg v n)) := by
  fin_cases n <;> rfl

theorem registerWrite_arg {s : State} (v : Word) {q : Port} (hq : q.val < s.par.nreq) (n : Fin 4) :
    registerWrite (0x404 + 32 * q.val + 4 * n.val) 4 v s = .next (s.setPort q ((s.port q).withArg v n)) := by
  have hlt := q.isLt
  have h4 : (0x404 + 32 * q.val + 4 * n.val) % 4 = 0 := by omega
  rw [registerWrite_word v h4 (le_registerEnd s h4 (by omega)),
    regAt_port hq (o := 4 + 4 * n.val) (by omega) (by omega), writeEffect_arg]

/-! ### The panel table (R24) -/

theorem row_setRow_ne (s : State) {k l : PanelIx} (x : PanelRow) (h : l ≠ k) : (s.setRow k x).row l = s.row l := by
  simp [State.row, State.setRow, Vector.get_eq_getElem, Vector.getElem_set_ne _ _ (Fin.val_ne_of_ne h.symm)]

theorem registerWrite_panel (s : State) (v : Word) (k : PanelIx) {off : Nat} (o : Nat)
    (hoff : off = 0x100 + 16 * k.val + o := by omega) (ho : o % 4 = 0 ∧ o < 16 := by decide) :
    registerWrite off 4 v s = writeEffect (panelReg k o) v s := by
  have hk := k.isLt
  have h4 : off % 4 = 0 := by omega
  rw [registerWrite_word v h4 (le_registerEnd s h4 (by omega)), regAt_panel _ k hoff ho.2]

/-- While the configuration is open, a panel register whose write gives the row `x` changes that row alone. -/
theorem registerWrite_row {s : State} (hs : s.configOpen = true) (v : Word) (k : PanelIx) (x : PanelRow) {off : Nat}
    (hw : registerWrite off 4 v s = .next (s.whenOpen (s.setRow k x))) :
    registerWrite off 4 v s = .next (s.setRow k x) ∧ s.setRow k x = { s with panel := (s.setRow k x).panel } ∧
      (s.setRow k x).row k = x ∧ ∀ l, l ≠ k → (s.setRow k x).row l = s.row l :=
  ⟨hw.trans (by rw [whenOpen_of_open hs]), rfl, row_setRow s k x, fun _ hne => row_setRow_ne s x hne⟩

/-- A panel channel reads back as the low six bits that were written. -/
theorem setWidth_channel (v : Word) : (v.setWidth 6).setWidth 32 = v &&& 0x3F#32 := by
  apply BitVec.eq_of_toNat_eq
  rw [BitVec.toNat_and, BitVec.toNat_setWidth, BitVec.toNat_setWidth]
  have hmask := Nat.and_two_pow_sub_one_eq_mod v.toNat 6
  norm_num at hmask ⊢
  omega

theorem readsAs_setRow_channel (s : State) (k : PanelIx) (v : Word) :
    ReadsAs (s.setRow k { s.row k with ch := v.setWidth 6 }) (0x100 + 16 * k.val) (v &&& 0x3F#32) := by
  have hread := readsAs_panel (s.setRow k { s.row k with ch := v.setWidth 6 }) k (off := 0x100 + 16 * k.val) 0x0
  rwa [panelReg, State.readReg, row_setRow, setWidth_channel] at hread

/-! ### The obligation -/

/-- Settles O53: each offset's register, by its access; the configuration's while it is open and once it is closed. -/
theorem registerWrites : Obligations.RegisterWrites := by
  refine ⟨?readOnly, ?closed, ?port, ?config⟩
  case readOnly =>
    intro s v off h4 hend hoff
    rw [registerWrite_word v h4 hend, writeEffect_readOnly (access_regAt_readOnly hoff)]
  case closed =>
    intro s v off hs h4 hoff
    have hlow : off < 0x1000 := by
      simp only [List.mem_cons, List.not_mem_nil, or_false] at hoff
      omega
    rw [registerWrite_word v h4 (le_registerEnd s h4 hlow)]
    rcases access_regAt_config hoff with h | h
    · exact writeEffect_config_closed h (configOpen_eq_false hs) v
    · exact writeEffect_readOnly h v s
  case port =>
    intro s v q hq
    refine ⟨registerWrite_cmdOffset (by simpa [State.portExists] using hq) v, fun n hn => ?_⟩
    refine ⟨_, registerWrite_arg v hq ⟨n, hn⟩, ?_, ?_, portFrame_setPort .., keepsRing_setPort .., rfl, rfl⟩
    · rw [setPort_port_same, withArg_args]
    · rw [setPort_port_same]
      exact withArg_rest ..
  case config =>
    intro s v hl hf
    have hs : s.configOpen = true := by simp [State.configOpen, hl, hf]
    refine ⟨registerWrite_block_open hs v (by decide) (by decide) rfl,
      registerWrite_block_open hs v (by decide) (by decide) rfl,
      registerWrite_block_open hs v (by decide) (by decide) rfl, fun k => ⟨?channel,
        ⟨_, registerWrite_row hs v k _ (registerWrite_panel s v k 0x4)⟩,
        _, registerWrite_row hs v k _ (registerWrite_panel s v k 0x8)⟩⟩
    obtain ⟨hw, hpanel, hrow, hothers⟩ := registerWrite_row hs v k { s.row k with ch := v.setWidth 6 }
      (registerWrite_panel s v k (off := 0x100 + 16 * k.val) 0x0)
    exact ⟨_, hw, hpanel, hrow, hothers, readsAs_setRow_channel s k v⟩

end Sys2Proof.Machine
end

section
/-! PROOFS. Region memory (`20_memory.md` R50, R54, R58): the bytes of a word, and who writes where. -/

namespace Sys2Proof.Machine

/-! ### Words (R54) -/

theorem leBytes_getElem (n v i : Nat) (h : i < (leBytes n v).length) :
    (leBytes n v)[i] = BitVec.ofNat 8 (v / 2 ^ (8 * i)) := by
  induction n generalizing v i with
  | zero => exact absurd h (Nat.not_lt_zero i)
  | succ n ih =>
    cases i with
    | zero => simp [leBytes]
    | succ i =>
      have hpow : 2 ^ (8 * (i + 1)) = 256 * 2 ^ (8 * i) := by ring
      simp only [leBytes, List.getElem_cons_succ]
      rw [ih, Nat.div_div_eq_div_mul, hpow]

/-- Byte `i` of a number just written. -/
theorem loadByte_memWrite_inside (s : State) (a n v : Nat) {i : Nat} (hi : i < n) :
    (s.memWrite a n v).loadByte (a + i) = BitVec.ofNat 8 (v / 2 ^ (8 * i)) := by
  have hlen : i < (leBytes n v).length := by rwa [leBytes_length]
  rw [State.memWrite, loadByte_storeBytes_inside s a _ i hlen, leBytes_getElem]

/-- A word is its four bytes, least significant first. -/
theorem memRead_four (s : State) (a : Nat) :
    s.memRead a 4 = (s.loadByte a).toNat + (s.loadByte (a + 1)).toNat * 2 ^ 8
      + (s.loadByte (a + 2)).toNat * 2 ^ 16 + (s.loadByte (a + 3)).toNat * 2 ^ 24 := by
  have hrange : List.range 4 = [0, 1, 2, 3] := rfl
  simp only [State.memRead, State.loadBytes, hrange, List.map_cons, List.map_nil, leNat, Nat.add_zero]
  omega

/-- Settles O14: the word read byte by byte, and a write at, through and outside its four bytes. -/
theorem memoryWords : Obligations.MemoryWords := by
  refine ⟨memRead_four, fun s a v hv => ⟨?bytes, ?word, ?outside⟩⟩
  case bytes => exact fun k hk => loadByte_memWrite_inside s a 4 v hk
  case word => exact memRead_memWrite_same s a 4 v hv
  case outside => exact fun x hx => loadByte_memWrite_outside s a 4 v x hx

/-! ### Inside and outside the regions (R50) -/

/-- Outside the three regions every byte reads as before. -/
def KeepsOffRegions (s t : State) : Prop := ∀ a, s.inRegions a = false → t.loadByte a = s.loadByte a

theorem inRegions_eq_false_iff {s : State} {a : Nat} :
    s.inRegions a = false ↔ ∀ r, a < s.base r ∨ s.base r + s.cap r ≤ a := by
  simp [State.inRegions, List.any_eq_false, imp_iff_not_or]

theorem keepsMemory_of_mem {s t : State} (h : t.mem = s.mem) : KeepsMemory s t :=
  fun a => by rw [State.loadByte, State.loadByte, h]

theorem KeepsMemory.offRegions {s t : State} (h : KeepsMemory s t) : KeepsOffRegions s t := fun a _ => h a

/-- A write that stays in the region `r` touches no byte off the regions. -/
theorem KeepsMemoryOutside.offRegions {s t : State} {lo len : Nat} (h : KeepsMemoryOutside lo len s t) (r : Region)
    (hlo : s.base r ≤ lo) (hhi : lo + len ≤ s.base r + s.cap r) : KeepsOffRegions s t := by
  intro a ha
  have hr := inRegions_eq_false_iff.1 ha r
  exact h a (by omega)

/-! ### RC -/

theorem ringCheck_mem (s : State) : (ringCheck s).mem = s.mem := by
  unfold ringCheck State.finishOwner
  split <;> rfl

/-- One step of RC writes region memory only by SETUP's headers and by filling a region (`41_ring_controller.md`
R124, R126). -/
theorem ringStep_mem_cases {s t : State} (h : ringStep s = .next t) :
    t.mem = s.mem ∨ t.mem = (ringSetup s).mem ∨
      ∃ r bs, s.fillBytes r = some bs ∧ t.mem = (s.fillWith r bs).mem := by
  rcases ringStep_cases h with ⟨-, rfl⟩ | ⟨-, rfl⟩ | ⟨-, rfl⟩ | ⟨-, -, r, bs, -, hbs, rfl⟩ | ⟨-, rfl⟩ | ⟨-, -, rfl⟩ |
    ⟨-, -, -, -, bs, hbs, rfl⟩ | ⟨-, -, rfl⟩ | ⟨-, -, rfl⟩ | ⟨-, -, rfl⟩ | ⟨-, rfl⟩
  · exact .inl rfl
  · exact .inr (.inl rfl)
  · exact .inl rfl
  · exact .inr (.inr ⟨r, bs, hbs, rfl⟩)
  · exact .inl rfl
  · exact .inl rfl
  · exact .inr (.inr ⟨s.rc.cur, bs, hbs, rfl⟩)
  · exact .inl rfl
  · exact .inl rfl
  · exact .inl rfl
  · exact .inl (ringCheck_mem s)

/-- SETUP writes the eight header bytes of each region, and a region holds at least those. -/
theorem ringSetup_offRegions {s : State} (hp : paramsOk s.par = true) : KeepsOffRegions s (ringSetup s) := by
  intro a ha
  refine ringSetup_loadByte_outside a fun r => ?_
  obtain ⟨-, hcap, -⟩ := region_of_paramsOk hp r
  have hr := inRegions_eq_false_iff.1 ha r
  omega

/-- FillRegion's bytes fit behind the region's header. -/
theorem fillWith_offRegions {s : State} (hp : paramsOk s.par = true) {r : Region} {bs : List Byte}
    (h : s.fillBytes r = some bs) : KeepsOffRegions s (s.fillWith r bs) := by
  obtain ⟨-, -, hlen, -⟩ := fillBytes_some h
  obtain ⟨-, hcap, -⟩ := region_of_paramsOk hp r
  have hfit : s.fillCount r ≤ s.cap r - 8 := (Nat.min_le_left ..).trans (usableBytes_le ..)
  have houtside : KeepsMemoryOutside (s.base r) (8 + bs.length) s (s.fillWith r bs) :=
    fun a ha => fillWith_loadByte_outside s r bs a (by omega)
  exact houtside.offRegions r le_rfl (by omega)

theorem ringStep_offRegions {s t : State} (hp : paramsOk s.par = true) (h : ringStep s = .next t) :
    KeepsOffRegions s t := by
  rcases ringStep_mem_cases h with hmem | hmem | ⟨r, bs, hbs, hmem⟩
  · exact (keepsMemory_of_mem hmem).offRegions
  · exact fun a ha => (keepsMemory_of_mem hmem a).trans (ringSetup_offRegions hp a ha)
  · exact fun a ha => (keepsMemory_of_mem hmem a).trans (fillWith_offRegions hp hbs a ha)

/-! ### The consumer and the outside world -/

/-- CONSUME writes one `end_addr` word (`41_ring_controller.md` R138). -/
theorem cpConsume_offRegions {s : State} (hp : paramsOk s.par = true) : KeepsOffRegions s (cpConsume s) := by
  rcases cpConsume_cases hp with ⟨-, hsame⟩ | ⟨-, -, -, hhang⟩ | ⟨-, -, -, hconsumed⟩
  · exact fun a _ => by rw [hsame]
  · exact fun a _ => by rw [hhang, hang_loadByte]
  · obtain ⟨-, hcap, -⟩ := region_of_paramsOk hp s.cp.c
    exact hconsumed.outside.offRegions s.cp.c le_rfl (by omega)

theorem cpLatch_mem (s : State) : (cpLatch s).mem = s.mem := by unfold cpLatch; split <;> rfl

theorem cpStop_mem (s : State) : (cpStop s).mem = s.mem := by unfold cpStop; split <;> rfl

theorem cpHang_mem (s : State) : (cpHang s).mem = s.mem := by unfold cpHang; split <;> rfl

/-- An outside write off the regions has no effect (log 20), and one inside them writes its own byte alone. -/
theorem outsideWriteStep_offRegions (a : Nat) (b : Byte) (s : State) : KeepsOffRegions s (outsideWriteStep a b s) := by
  intro x hx
  unfold outsideWriteStep
  split
  · next ha =>
    have hne : x ≠ a := by
      rintro rfl
      exact Bool.false_ne_true (hx.symm.trans ha)
    simp only [State.loadByte, read_write_ne _ _ hne]
  · rfl

/-! ### Every action -/

/-- The three actions that write region memory (R58). -/
def writesRegions : Action → Bool
  | .ringStep => true
  | .cpConsume => true
  | .outsideWrite _ _ => true
  | _ => false

/-- Every other action leaves region memory as it is. -/
theorem runAction_mem {x : Action} (hx : writesRegions x = false) {s t : State} (h : runAction x s = .next t) :
    t.mem = s.mem := by
  cases hr : ringAction x with
  | false => exact (runAction_frame hr s t h).mem
  | true =>
    cases x with
    | cpLatch => cases h; exact cpLatch_mem s
    | cpStop => cases h; exact cpStop_mem s
    | cpHang => cases h; exact cpHang_mem s
    | ringStep | cpConsume | outsideWrite => cases hx
    | _ => cases hr

theorem runAction_offRegions {x : Action} {s t : State} (hp : paramsOk s.par = true) (h : runAction x s = .next t) :
    KeepsOffRegions s t := by
  cases hx : writesRegions x with
  | false => exact (keepsMemory_of_mem (runAction_mem hx h)).offRegions
  | true =>
    cases x with
    | ringStep => exact ringStep_offRegions hp h
    | cpConsume => cases h; exact cpConsume_offRegions hp
    | outsideWrite a b => cases h; exact outsideWriteStep_offRegions a b s
    | _ => cases hx

theorem writesRegions_eq_false {x : Action} (hring : x ≠ .ringStep) (hcp : x ≠ .cpConsume)
    (hout : ∀ a b, x ≠ .outsideWrite a b) : writesRegions x = false := by
  cases x with
  | ringStep => exact absurd rfl hring
  | cpConsume => exact absurd rfl hcp
  | outsideWrite a b => exact absurd rfl (hout a b)
  | _ => rfl

/-- Taking an event changes neither the regions nor what region memory reads as. -/
theorem takeEvent_inRegions (s : State) (a : Nat) : s.takeEvent.inRegions a = s.inRegions a := by
  unfold State.takeEvent
  split <;> rfl

theorem takeEvent_keepsMemory (s : State) : KeepsMemory s s.takeEvent := keepsMemory_of_mem (ringSame_takeEvent s).mem

/-- Settles O60: taking the event changes no byte, and its action writes the regions only if it is one of the three,
and never outside them. What bounds every write is the legal parameters, which a step checks; the rest of the
invariant is not needed. -/
theorem onlyRingWritesRegions : Obligations.OnlyRingWritesRegions := by
  intro s t _ hst
  obtain ⟨hp, hrun⟩ := step_runAction hst
  have htake := takeEvent_keepsMemory s
  constructor
  · intro a ha
    have hoff : KeepsOffRegions s.takeEvent t := runAction_offRegions (by rwa [takeEvent_par]) hrun
    exact (hoff a ((takeEvent_inRegions s a).trans ha)).trans (htake a)
  · intro hring hcp hout a
    have hmem : t.mem = s.takeEvent.mem := runAction_mem (writesRegions_eq_false hring hcp hout) hrun
    exact (keepsMemory_of_mem hmem a).trans (htake a)

end Sys2Proof.Machine
end

section
/-! PROOFS. Encoding (`30_encoding.md` R80-R92): the rows of the opcode map, the number tokens, the tokens of a text,
the token lists of the commands, and decoding after encoding. -/

namespace Sys2Proof

/-! ### Command words (R83-R85) -/

theorem decodeWord_reserved {w : Word} (h : reservedField w ≠ 0#24) : decodeWord w = .error .reservedBits := if_pos h

theorem decodeWord_row {w : Word} {i : Instr} (h0 : reservedField w = 0#24)
    (hrow : opcodeTable.lookup (opcodeField w) = some i) : decodeWord w = .ok i := by
  simp only [decodeWord, h0, hrow, ne_eq, not_true_eq_false, if_false]

theorem decodeWord_no_row {w : Word} (h0 : reservedField w = 0#24)
    (hrow : opcodeTable.lookup (opcodeField w) = none) : decodeWord w = .error .unknownOpcode := by
  simp only [decodeWord, h0, hrow, ne_eq, not_true_eq_false, if_false]

/-- A word without reserved bits is its opcode's command word. -/
theorem opcodeWord_opcodeField {w : Word} (h0 : reservedField w = 0#24) : opcodeWord (opcodeField w) = w := by
  have hhigh : w.toNat / 2 ^ 8 % 2 ^ 24 = 0 := by
    simpa [reservedField, Nat.shiftRight_eq_div_pow] using congrArg BitVec.toNat h0
  apply BitVec.eq_of_toNat_eq
  simp only [opcodeWord, opcodeField, BitVec.toNat_setWidth, BitVec.extractLsb'_toNat, Nat.shiftRight_zero]
  omega

/-- No opcode stands in two rows: looking up a row's opcode finds that row, and its instruction is encoded so. -/
theorem opcodeTable_rows : ∀ r ∈ opcodeTable,
    opcodeTable.lookup r.1 = some r.2 ∧ encode r.2 = .word (opcodeWord r.1) := by decide

theorem lookup_opcodeTable_of_not_mem {op : Byte} (h : op ∉ opcodeTable.map Prod.fst) :
    opcodeTable.lookup op = none := by
  refine List.lookup_eq_none_iff.2 fun r hr => ?_
  have hne : op ≠ r.1 := fun he => h (List.mem_map.2 ⟨r, hr, he.symm⟩)
  exact bne_iff_ne.2 hne

/-- The form of every instruction's encoding, from the law of its row. -/
theorem encodedForm (i : Instr) : Laws.EncodedForm.Statement i := by
  cases i with
  | encodeFrame => exact Laws.EncodedForm.encodeFrame
  | xfer => exact Laws.EncodedForm.xfer
  | acquire => exact Laws.EncodedForm.acquire
  | tryHandoff => exact Laws.EncodedForm.tryHandoff
  | release => exact Laws.EncodedForm.release
  | showFrame => exact Laws.EncodedForm.showFrame
  | playFrames => exact Laws.EncodedForm.playFrames
  | stopPlayback => exact Laws.EncodedForm.stopPlayback
  | showDatagram path frame => exact Laws.EncodedForm.showDatagram path frame
  | playDatagram path first last fps => exact Laws.EncodedForm.playDatagram path first last fps
  | stopDatagram => exact Laws.EncodedForm.stopDatagram

theorem decodeWord_of_encode {i : Instr} {w : Word} (h : encode i = .word w) : decodeWord w = .ok i := by
  have hform := encodedForm i
  simp only [Laws.EncodedForm.Statement, h] at hform
  obtain ⟨h0, hrow⟩ := hform
  exact decodeWord_row h0 hrow

/-- Settles O2: a word with an opcode of the map is that row's command word, any other word is rejected; a word that
encodes two instructions would decode to both. -/
theorem commandWordsDecodeUniquely : Obligations.CommandWordsDecodeUniquely := by
  refine ⟨fun w => ?_, fun w i j hi hj => ?_⟩
  · by_cases h0 : reservedField w = 0#24
    · by_cases hop : opcodeField w ∈ opcodeTable.map Prod.fst
      · obtain ⟨r, hr, hfst⟩ := List.mem_map.1 hop
        obtain ⟨hlookup, hencode⟩ := opcodeTable_rows r hr
        rw [hfst] at hlookup hencode
        exact .inl ⟨h0, hop, r.2, decodeWord_row h0 hlookup, by rw [hencode, opcodeWord_opcodeField h0]⟩
      · exact .inr ⟨.inr hop, _, decodeWord_no_row h0 (lookup_opcodeTable_of_not_mem hop)⟩
    · exact .inr ⟨.inl h0, _, decodeWord_reserved h0⟩
  · exact Except.ok.inj ((decodeWord_of_encode hi).symm.trans (decodeWord_of_encode hj))

/-! ### Number tokens (R91) -/

/-- An ASCII digit. -/
abbrev IsDigit (b : Byte) : Prop := 0x30#8 ≤ b ∧ b ≤ 0x39#8

/-- The value of digits after a value already read (`decimalFrom_of_digits`). -/
def decimalValue (acc : Nat) (t : List Byte) : Nat := t.foldl (fun v b => 10 * v + (b.toNat - 48)) acc

theorem decimalFrom_of_digits {t : List Byte} (h : ∀ b ∈ t, IsDigit b) (acc : Nat) :
    decimalFrom acc t = some (decimalValue acc t) := by
  induction t generalizing acc with
  | nil => rfl
  | cons b t ih =>
    obtain ⟨hb, ht⟩ := List.forall_mem_cons.1 h
    rw [decimalFrom, if_pos hb, ih ht, decimalValue, decimalValue, List.foldl_cons, Nat.mul_comm]

theorem decimalFrom_of_not_digits {t : List Byte} (h : ¬ ∀ b ∈ t, IsDigit b) (acc : Nat) :
    decimalFrom acc t = none := by
  induction t generalizing acc with
  | nil => exact absurd (List.forall_mem_nil _) h
  | cons b t ih =>
    rw [decimalFrom]
    split
    · next hb => exact ih (fun ht => h (List.forall_mem_cons.2 ⟨hb, ht⟩)) _
    · rfl

theorem numberToken_of_digits {t : List Byte} (hne : t ≠ []) (h : ∀ b ∈ t, IsDigit b) :
    numberToken t = if decimalValue 0 t < 2 ^ 32 then some (BitVec.ofNat 32 (decimalValue 0 t)) else none := by
  simp only [numberToken, decimalFrom_of_digits h, List.isEmpty_iff, hne, if_false]

theorem numberToken_of_not_digits {t : List Byte} (h : ¬ ∀ b ∈ t, IsDigit b) : numberToken t = none := by
  simp only [numberToken, decimalFrom_of_not_digits h, ite_self]

theorem numberToken_eq (t : List Byte) : numberToken t =
    if t ≠ [] ∧ (∀ b ∈ t, IsDigit b) ∧ decimalValue 0 t ≤ 2 ^ 32 - 1
    then some (BitVec.ofNat 32 (decimalValue 0 t)) else none := by
  by_cases hne : t = []
  · simp [hne, numberToken]
  · by_cases hdigits : ∀ b ∈ t, IsDigit b
    · have hlt : decimalValue 0 t < 2 ^ 32 ↔ t ≠ [] ∧ (∀ b ∈ t, IsDigit b) ∧ decimalValue 0 t ≤ 2 ^ 32 - 1 :=
        ⟨fun h => ⟨hne, hdigits, by omega⟩, fun ⟨_, _, h⟩ => by omega⟩
      simp only [numberToken_of_digits hne hdigits, hlt]
    · rw [numberToken_of_not_digits hdigits, if_neg fun ⟨_, h, _⟩ => hdigits h]

/-- A leading zero adds nothing to the value. -/
theorem numberToken_zero_cons {t : List Byte} (hne : t ≠ []) : numberToken (0x30#8 :: t) = numberToken t := by
  have hzero : decimalFrom 0 (0x30#8 :: t) = decimalFrom 0 t := rfl
  simp only [numberToken, hzero, List.isEmpty_iff, hne, List.cons_ne_nil]

/-! ### The token lists of the commands (R92) -/

theorem recogniseShow_iff {k p n : List Byte} {i : Instr} : recogniseShow k p n = some i ↔
    k = kwShow ∧ ∃ frame, numberToken n = some frame ∧ i = .showDatagram p frame := by
  unfold recogniseShow
  split
  · next hk => simp [hk, eq_comm]
  · next hk => simp [hk]

theorem recognisePlay_iff {k p f w t a r z : List Byte} {i : Instr} : recognisePlay k p f w t a r z = some i ↔
    (k = kwPlay ∧ w = kwTo ∧ a = kwAt ∧ z = kwFps) ∧ ∃ first last fps,
      numberToken f = some first ∧ numberToken t = some last ∧ numberToken r = some fps ∧
      i = .playDatagram p first last fps := by
  unfold recognisePlay
  split
  · next hk =>
    rw [and_iff_right hk]
    split
    · next first last fps hf ht hr => simp [hf, ht, hr, eq_comm]
    · next hnone =>
      refine iff_of_false nofun ?_
      rintro ⟨first, last, fps, hf, ht, hr, -⟩
      exact hnone first last fps hf ht hr
  · next hk => simp [hk]

theorem recogniseStop_iff {k : List Byte} {i : Instr} :
    recogniseStop k = some i ↔ k = kwStop ∧ i = .stopDatagram := by
  unfold recogniseStop
  split
  · next hk => simp [hk, eq_comm]
  · next hk => simp [hk]

/-- The three rows of R92. -/
theorem recognise_iff {ts : List (List Byte)} {i : Instr} : recognise ts = some i ↔
    (∃ path n frame, ts = [kwShow, path, n] ∧ numberToken n = some frame ∧ i = .showDatagram path frame) ∨
    (∃ path f t r first last fps, ts = [kwPlay, path, f, kwTo, t, kwAt, r, kwFps] ∧
      numberToken f = some first ∧ numberToken t = some last ∧ numberToken r = some fps ∧
      i = .playDatagram path first last fps) ∨
    (ts = [kwStop] ∧ i = .stopDatagram) := by
  constructor
  · intro h
    unfold recognise at h
    split at h
    · obtain ⟨rfl, hi⟩ := recogniseStop_iff.1 h
      exact .inr (.inr ⟨rfl, hi⟩)
    · obtain ⟨rfl, frame, hn, hi⟩ := recogniseShow_iff.1 h
      exact .inl ⟨_, _, frame, rfl, hn, hi⟩
    · obtain ⟨⟨rfl, rfl, rfl, rfl⟩, first, last, fps, hnumbers⟩ := recognisePlay_iff.1 h
      exact .inr (.inl ⟨_, _, _, _, first, last, fps, rfl, hnumbers⟩)
    · cases h
  · rintro (⟨path, n, frame, rfl, hi⟩ | ⟨path, f, t, r, first, last, fps, rfl, hi⟩ | ⟨rfl, hi⟩)
    · exact recogniseShow_iff.2 ⟨rfl, frame, hi⟩
    · exact recognisePlay_iff.2 ⟨⟨rfl, rfl, rfl, rfl⟩, first, last, fps, hi⟩
    · exact recogniseStop_iff.2 ⟨rfl, hi⟩

/-- Settles O4: the value of the digits, a leading zero, and the rows of R92 with a token that is no number. -/
theorem numberTokens : Obligations.NumberTokens := by
  refine ⟨numberToken_eq, fun t => numberToken_zero_cons, fun p n hn => ?showRow, fun p f t r hnone => ?playRow⟩
  case showRow =>
    refine Option.eq_none_iff_forall_ne_some.2 fun i hi => ?_
    obtain ⟨-, frame, hframe, -⟩ := recogniseShow_iff.1 hi
    simp [hn] at hframe
  case playRow =>
    refine Option.eq_none_iff_forall_ne_some.2 fun i hi => ?_
    obtain ⟨-, first, last, fps, hf, ht, hr, -⟩ := recognisePlay_iff.1 hi
    simp [hf, ht, hr] at hnone

/-! ### Tokens (R90) -/

/-- A space ends the run read so far, and the text after it is cut on its own. -/
theorem tokensFrom_append_space (cur t u : List Byte) :
    tokensFrom cur (t ++ spaceByte :: u) = tokensFrom cur t ++ tokens u := by
  induction t generalizing cur with
  | nil => simp [tokensFrom, tokens]
  | cons b t ih =>
    simp only [List.cons_append, tokensFrom, ih]
    split
    · rw [List.append_assoc]
    · rfl

theorem flushToken_mem {cur : List Byte} (hcur : spaceByte ∉ cur) : ∀ k ∈ flushToken cur, k ≠ [] ∧ spaceByte ∉ k := by
  unfold flushToken
  split
  · exact List.forall_mem_nil _
  · next hne => exact List.forall_mem_singleton.2 ⟨by simpa using hne, hcur⟩

/-- What is read so far holds no space, so no token does. -/
theorem tokensFrom_mem {cur : List Byte} (hcur : spaceByte ∉ cur) (t : List Byte) :
    ∀ k ∈ tokensFrom cur t, k ≠ [] ∧ spaceByte ∉ k := by
  induction t generalizing cur with
  | nil => exact flushToken_mem hcur
  | cons b t ih =>
    rw [tokensFrom]
    split
    · exact List.forall_mem_append.2 ⟨flushToken_mem hcur, ih List.not_mem_nil⟩
    · next hb => exact ih (by simp [hcur, Ne.symm hb])

/-! ### Datagrams (R90, R92) -/

/-- An empty datagram needs no case of its own: it has no tokens, and no row of R92 has none. -/
theorem decodeDatagram_eq (d : List Byte) :
    decodeDatagram d = (recognise (tokens d.dropLast)).elim (.error .unrecognised) .ok := by
  unfold decodeDatagram
  split
  · next h => rw [List.isEmpty_iff.1 h]; rfl
  · cases recognise (tokens d.dropLast) <;> rfl

theorem decodeDatagram_iff {d : List Byte} {i : Instr} :
    decodeDatagram d = .ok i ↔ recognise (tokens d.dropLast) = some i := by
  rw [decodeDatagram_eq]
  cases recognise (tokens d.dropLast) <;> simp

theorem decodeDatagram_unrecognised {d : List Byte} (h : recognise (tokens d.dropLast) = none) :
    decodeDatagram d = .error .unrecognised := by
  rw [decodeDatagram_eq, h, Option.elim_none]

/-- Settles O5: the laws of `tokens`, and a datagram is what its tokens are recognised as. -/
theorem tokenising : Obligations.Tokenising := by
  refine ⟨rfl, fun d x i h => ?_, fun d x h => ?_, rfl, tokensFrom_append_space [], fun t hne hs => ?_,
    tokensFrom_mem List.not_mem_nil, fun d i => decodeDatagram_iff.trans recognise_iff, fun d h => ?_⟩
  · exact decodeDatagram_iff.2 (by rwa [List.dropLast_concat])
  · exact decodeDatagram_unrecognised (by rwa [List.dropLast_concat])
  · exact tokens_single t hs hne
  · refine decodeDatagram_unrecognised (Option.eq_none_iff_forall_ne_some.2 fun i hi => ?_)
    exact h i (decodeDatagram_iff.2 hi)

/-! ### Decoding after encoding -/

theorem pathOk_iff {p : List Byte} : pathOk p = true ↔ p ≠ [] ∧ spaceByte ∉ p := by
  simp [pathOk]

theorem keywords_are_tokens : ∀ k ∈ [kwShow, kwPlay, kwTo, kwAt, kwFps, kwStop], k ≠ [] ∧ spaceByte ∉ k := by decide

/-- A text written from tokens decodes to what the tokens are recognised as. -/
theorem decodeDatagram_datagramText {ts : List (List Byte)} {i : Instr} (hts : ∀ t ∈ ts, t ≠ [] ∧ spaceByte ∉ t)
    (hi : recognise ts = some i) : decodeDatagram (datagramText ts) = .ok i :=
  decodeDatagram_iff.2 (by rwa [tokens_datagramText ts hts])

theorem decode_encode_showDatagram {path : List Byte} (hpath : pathOk path = true) (frame : Word) :
    decode (encode (.showDatagram path frame)) = .ok (.showDatagram path frame) := by
  refine decodeDatagram_datagramText ?tokens ?row
  case tokens =>
    simp only [List.forall_mem_cons]
    exact ⟨keywords_are_tokens _ (by decide), pathOk_iff.1 hpath, numberText_token frame, List.forall_mem_nil _⟩
  case row => exact recogniseShow_iff.2 ⟨rfl, frame, numberToken_numberText frame, rfl⟩

theorem decode_encode_playDatagram {path : List Byte} (hpath : pathOk path = true) (first last fps : Word) :
    decode (encode (.playDatagram path first last fps)) = .ok (.playDatagram path first last fps) := by
  refine decodeDatagram_datagramText ?tokens ?row
  case tokens =>
    simp only [List.forall_mem_cons]
    exact ⟨keywords_are_tokens _ (by decide), pathOk_iff.1 hpath, numberText_token first,
      keywords_are_tokens _ (by decide), numberText_token last, keywords_are_tokens _ (by decide),
      numberText_token fps, keywords_are_tokens _ (by decide), List.forall_mem_nil _⟩
  case row =>
    exact recognisePlay_iff.2 ⟨⟨rfl, rfl, rfl, rfl⟩, first, last, fps, numberToken_numberText first,
      numberToken_numberText last, numberToken_numberText fps, rfl⟩

theorem decode_encode_stopDatagram : decode (encode .stopDatagram) = .ok .stopDatagram :=
  decodeDatagram_datagramText (by decide) (recogniseStop_iff.2 ⟨rfl, rfl⟩)

/-- Settles O1: a command word is its row's, a datagram form is the tokens it was written from. -/
theorem decodeEncodeRoundTrip : Obligations.DecodeEncodeRoundTrip := by
  intro i hwf
  cases i with
  | showDatagram path frame => exact decode_encode_showDatagram hwf frame
  | playDatagram path first last fps => exact decode_encode_playDatagram hwf first last fps
  | stopDatagram => exact decode_encode_stopDatagram
  | _ => exact decodeWord_of_encode rfl

/-- Settles O3: the legal words are the encodings of their rows, `stop` is its form's text; the other words and texts
are evaluated. -/
theorem writtenOutEncodings : Obligations.WrittenOutEncodings := by
  refine ⟨decodeWord_of_encode rfl, decodeWord_of_encode rfl, decodeWord_of_encode rfl, decodeWord_of_encode rfl,
    decodeWord_of_encode rfl, decodeWord_of_encode rfl, decodeWord_of_encode rfl, decodeWord_of_encode rfl,
    decodeWord_reserved (by decide), decodeWord_no_row (by decide) (by decide), decode_encode_stopDatagram, ?_, rfl⟩
  decide

end Sys2Proof
end

section
/-! PROOFS. What reaches a port and what does not: `CMD` writes that run nothing (`30_encoding.md` R81, R84) and
datagrams dispatched on an idle port (`43_command_sequencer.md` R181, R183). -/

namespace Sys2Proof.Machine

/-! ### `CMD` writes that run nothing (R81, R84) -/

theorem issueWord_busy {s : State} {q : Port} (w : Word) (hb : (s.port q).busy = true) :
    issueWord q w s = .next (s.setPort q { s.port q with ovr := true }) := by
  simp only [issueWord, hb, if_true]

theorem issueWord_illegal {s : State} {q : Port} {w : Word} {e : DecodeError} (hb : (s.port q).busy = false)
    (hd : decodeWord w = .error e) : issueWord q w s =
      .next ((s.beginCommand q (opcodeField w)).complete q s.illegalResult) := by
  simp only [issueWord, hb, hd, Bool.false_eq_true, if_false, raise]

/-- Settles O8: a busy port's write sets one bit of that port; an illegal word is a completion of the port that has
accepted it. -/
theorem wordsThatRunNothing : Obligations.WordsThatRunNothing := by
  refine ⟨fun s q w hb => ?busy, fun s q w e hb hd => ?illegal⟩
  case busy =>
    exact ⟨_, issueWord_busy w hb, setPort_port_same .., portFrame_setPort .., keepsRing_setPort .., rfl, rfl⟩
  case illegal => exact ⟨_, issueWord_illegal hb hd, onlyCompletes ..⟩

/-! ### Dispatching a datagram (R181) -/

/-- Port q becomes `p` and is the issuer (log 21): what accepting a command and beginning it come to
(`issueShow_eq`, `issuePlay_eq`, `issueStop_eq`). -/
def State.dispatch (s : State) (q : Port) (p : PortState) : State := { s.setPort q p with issuer := q }

theorem dispatch_port_same (s : State) (q : Port) (p : PortState) : (s.dispatch q p).port q = p :=
  setPort_port_same ..

theorem portFrame_dispatch (s : State) (q : Port) (p : PortState) : PortFrame q s (s.dispatch q p) :=
  portFrame_of (h := fun _ hne => setPort_port_ne s p hne)

theorem beginCommand_eq_dispatch (s : State) (q : Port) (op : Byte) :
    s.beginCommand q op = s.dispatch q { s.port q with busy := true, opcode := op } := rfl

theorem setPort_dispatch (s : State) (q : Port) (p p' : PortState) :
    (s.setPort q p).dispatch q p' = s.dispatch q p' := by
  simp only [State.dispatch, setPort_setPort]

theorem dispatch_setPort (s : State) (q : Port) (p p' : PortState) :
    (s.dispatch q p).setPort q p' = s.dispatch q p' := by
  simp [State.dispatch, State.setPort]

theorem issueShow_eq (s : State) (q : Port) (frame store : Word) : s.issueShow q frame store =
    s.dispatch q { s.port q with
      arg0 := frame, arg1 := store, busy := true, opcode := 0x30#8
      seq := { (s.port q).seq with kind := .showCmd, phase := .validate, idx := frame, store := store } } := by
  simp only [State.issueShow, State.writeShowArgs, State.beginShow, State.setSeq, State.operands,
    beginCommand_eq_dispatch, setPort_port_same, dispatch_port_same, setPort_dispatch, dispatch_setPort]
  rfl

theorem issuePlay_eq (s : State) (q : Port) (first store upto fps : Word) : s.issuePlay q first store upto fps =
    s.dispatch q { s.port q with
      arg0 := first, arg1 := store, arg2 := upto, arg3 := fps, busy := true, opcode := 0x31#8
      seq := { (s.port q).seq with
        kind := .playCmd, phase := .validate, first := first, store := store, upto := upto, fps := fps } } := by
  simp only [State.issuePlay, State.writePlayArgs, State.beginPlay, State.setSeq, State.operands,
    beginCommand_eq_dispatch, setPort_port_same, dispatch_port_same, setPort_dispatch, dispatch_setPort]
  rfl

theorem issueStop_eq (s : State) (q : Port) : s.issueStop q =
    s.dispatch q { s.port q with
      busy := true, opcode := 0x32#8, seq := { (s.port q).seq with kind := .stopCmd, phase := .acq } } := by
  simp only [State.issueStop, State.beginStop, State.setSeq, beginCommand_eq_dispatch, dispatch_port_same,
    dispatch_setPort]
  rfl

/-! ### The datagram forms on a ready machine -/

section
variable {s : State} {q : Port}

theorem exec_showDatagram {path : List Byte} {store : Word} (frame : Word) (hr : s.ready = true)
    (hpath : s.par.resolve.lookup path = some store) (hfree : s.freePort = some q) :
    exec (.showDatagram path frame) s = .next (s.issueShow q frame store) := by
  simp only [exec, execShowDatagram, State.resolvePath, hr, hpath, hfree, Bool.not_true, Bool.false_eq_true, if_false]

theorem exec_playDatagram {path : List Byte} {store : Word} (first last fps : Word) (hr : s.ready = true)
    (hpath : s.par.resolve.lookup path = some store) (hfree : s.freePort = some q) :
    exec (.playDatagram path first last fps) s = .next (s.issuePlay q first store last fps) := by
  simp only [exec, execPlayDatagram, State.resolvePath, hr, hpath, hfree, Bool.not_true, Bool.false_eq_true, if_false]

theorem exec_stopDatagram (hr : s.ready = true) (hfree : s.freePort = some q) :
    exec .stopDatagram s = .next (s.issueStop q) := by
  simp only [exec, execStopDatagram, hr, hfree, Bool.not_true, Bool.false_eq_true, if_false]

/-- A command that comes to a dispatch writes its port and leaves everything else. -/
theorem exec_dispatch {i : Instr} {t : State} {p : PortState} (h : exec i s = .next t) (ht : t = s.dispatch q p) :
    ∃ t, exec i s = .next t ∧ t.port q = p ∧ PortFrame q s t ∧ KeepsRing s t ∧ t.tk = s.tk ∧ t.log = s.log :=
  ⟨_, ht ▸ h, dispatch_port_same .., portFrame_dispatch .., ⟨rfl, rfl, rfl, fun _ => rfl⟩, rfl, rfl⟩

end

/-- Settles O49: the lowest idle port is the free port, and each form is a dispatch on it. -/
theorem datagramsDispatch : Obligations.DatagramsDispatch := by
  refine ⟨fun s path frame store q hr hpath he hb hlow => ?showForm,
    fun s path first last fps store q hr hpath he hb hlow => ?playForm, fun s q hr he hb hlow => ?stopForm⟩
  case showForm => exact exec_dispatch (exec_showDatagram frame hr hpath (freePort_eq he hb hlow)) (issueShow_eq ..)
  case playForm =>
    exact exec_dispatch (exec_playDatagram first last fps hr hpath (freePort_eq he hb hlow)) (issuePlay_eq ..)
  case stopForm => exact exec_dispatch (exec_stopDatagram hr (freePort_eq he hb hlow)) (issueStop_eq ..)

end Sys2Proof.Machine
end

section
/-! PROOFS. The frame encoder (`40_encoder.md` R100-R113): the packed colour and its stream slots, the place of a bit,
the bits of the payload, and ENCODE. -/

namespace Sys2Proof.Machine

/-! ### The packed colour (R100, R101) -/

/-- R100's shifts and ORs put the three channels side by side. -/
theorem packColour_eq_append (c : Colour) : packColour c = c.g ++ c.r ++ c.b :=
  calc packColour c = (c.g ++ c.r ++ c.b).setWidth 24 := by
        rw [packColour, BitVec.setWidth_append_append_eq_shiftLeft_setWidth_or]
    _ = c.g ++ c.r ++ c.b := BitVec.setWidth_eq _

theorem packColour_toNat (c : Colour) :
    (packColour c).toNat = c.g.toNat * 2 ^ 16 + c.r.toNat * 2 ^ 8 + c.b.toNat := by
  rw [packColour_eq_append, BitVec.toNat_append, BitVec.toNat_append, ← Nat.shiftLeft_add_eq_or_of_lt c.b.isLt,
    ← Nat.shiftLeft_add_eq_or_of_lt c.r.isLt, Nat.shiftLeft_eq, Nat.shiftLeft_eq]
  omega

theorem packColour_blue (c : Colour) {k : Nat} (hk : k < 8) : (packColour c).getLsbD k = c.b.getLsbD k := by
  rw [packColour_eq_append, BitVec.getLsbD_append, if_pos hk]

theorem packColour_red (c : Colour) {k : Nat} (hk : k < 8) : (packColour c).getLsbD (8 + k) = c.r.getLsbD k := by
  rw [packColour_eq_append, BitVec.getLsbD_append, if_neg (by omega), Nat.add_sub_cancel_left, BitVec.getLsbD_append,
    if_pos hk]

theorem packColour_green (c : Colour) (k : Nat) : (packColour c).getLsbD (16 + k) = c.g.getLsbD k := by
  rw [packColour_eq_append, BitVec.getLsbD_append, if_neg (by omega), BitVec.getLsbD_append, if_neg (by omega),
    Nat.sub_sub, Nat.add_sub_cancel_left]

/-- Settles O12: a stream slot is a bit of the packed colour, and that a bit of one channel. -/
theorem colourSlots : Obligations.ColourSlots := by
  refine ⟨packColour_toNat, rfl, rfl, rfl, fun c j hj => ?slots⟩
  have hj' : 7 - j < 8 := by omega
  refine ⟨?_, ?_, ?_, packColour_blue c hj, packColour_red c hj, packColour_green c j⟩
  · rw [slotBit, show 23 - j = 16 + (7 - j) by omega, packColour_green]
  · rw [slotBit, show 23 - (8 + j) = 8 + (7 - j) by omega, packColour_red c hj']
  · rw [slotBit, show 23 - (16 + j) = 7 - j by omega, packColour_blue c hj']

/-! ### The place of a bit (R102, R104, R110, R113) -/

/-- The index counts the groups of `nc` bits, 24 for each LED slot, and then the channel inside the group. -/
theorem bitIndex_eq (nc p i ch : Nat) : bitIndex nc p i ch = nc * (24 * p + i) + ch := by
  unfold bitIndex
  ring

theorem bitIndex_lt {nc nl p i ch : Nat} (hp : p < nl) (hi : i < 24) (hch : ch < nc) :
    bitIndex nc p i ch < nc * nl * 3 * 8 := by
  calc bitIndex nc p i ch = nc * (24 * p + i) + ch := bitIndex_eq ..
    _ < nc * (24 * p + i + 1) := by rw [Nat.mul_succ]; omega
    _ ≤ nc * (24 * nl) := Nat.mul_le_mul_left _ (by omega)
    _ = nc * nl * 3 * 8 := by ring

/-- The byte of a bit lies inside the payload (R104). -/
theorem bitIndex_byte_lt {nc nl p i ch : Nat} (hp : p < nl) (hi : i < 24) (hch : ch < nc) :
    bitIndex nc p i ch / 8 < nc * nl * 3 :=
  Nat.div_lt_of_lt_mul (Nat.mul_comm .. ▸ bitIndex_lt hp hi hch)

theorem bitIndex_injective {nc p i ch p' i' ch' : Nat} (hi : i < 24) (hch : ch < nc) (hi' : i' < 24) (hch' : ch' < nc)
    (h : bitIndex nc p i ch = bitIndex nc p' i' ch') : p = p' ∧ i = i' ∧ ch = ch' := by
  rw [bitIndex_eq, bitIndex_eq] at h
  have hgroup : 24 * p + i = 24 * p' + i' := by
    have := congrArg (· / nc) h
    simpa [Nat.mul_add_div (Nat.zero_lt_of_lt hch), Nat.div_eq_of_lt, hch, hch'] using this
  rw [hgroup] at h
  omega

/-- With `8 ∣ nc` a group begins at a byte (R110). -/
theorem bitIndex_div_mod {nc : Nat} (hnc : nc % 8 = 0) (p i ch : Nat) :
    bitIndex nc p i ch / 8 = (24 * p + i) * (nc / 8) + ch / 8 ∧ bitIndex nc p i ch % 8 = ch % 8 := by
  have hindex : bitIndex nc p i ch = 8 * ((24 * p + i) * (nc / 8)) + ch := by
    rw [bitIndex_eq, Nat.mul_left_comm, Nat.mul_div_cancel' (Nat.dvd_of_mod_eq_zero hnc), Nat.mul_comm]
  omega

/-- Settles O13: the index is the group, then the channel, and the groups are whole bytes. -/
theorem bitPlaces : Obligations.BitPlaces := fun _ _ hnc =>
  ⟨fun p i ch hp hi hch => ⟨bitIndex_byte_lt hp hi hch, bitIndex_div_mod hnc p i ch⟩,
    fun _ _ _ _ _ _ hi hch hi' hch' h => bitIndex_injective hi hch hi' hch' h⟩

/-! ### The bits of the payload (R103, R107-R109) -/

theorem bitSet_lsb0 (buf : List Byte) (x : Nat) : bitSet .lsb0 buf x = (buf.getD (x / 8) 0).getLsbD (x % 8) :=
  testBit_shift ⟨x % 8, Nat.mod_lt _ (by decide)⟩ _

theorem bitSet_msb0 (buf : List Byte) (x : Nat) : bitSet .msb0 buf x = (buf.getD (x / 8) 0).getLsbD (7 - x % 8) :=
  testBit_shift ⟨7 - x % 8, by omega⟩ _

section
variable {s : State} (hv : s.cfgValid = true)
include hv

theorem payloadBits_lt {x : Nat} (hx : x ∈ s.payloadBits) :
    x / 8 < payloadBytes s.cfg.nc.toNat s.cfg.nl.toNat := by
  obtain ⟨k, hk, j, hj, i, hi, -, rfl⟩ := (mem_payloadBits s x).1 hx
  obtain ⟨-, -, -, -, -, hrows, -⟩ := (cfgValid_iff s).1 hv
  obtain ⟨hch, hleds⟩ := hrows k hk
  exact bitIndex_byte_lt (by omega) hi hch

/-- A bit of the payload is set exactly when it was ORed in: the buffer starts at zero (R107). -/
theorem bitSet_payload (x : Nat) : bitSet s.par.bitOrder s.payload x = decide (x ∈ s.payloadBits) := by
  rw [State.payload, bitSet_foldl _ _ _ (fun y hy => by simpa using payloadBits_lt hv hy), bitSet_zero, Bool.false_or]

/-- R108, R109: the set bits of the payload, by their places. -/
theorem bitAt_payload_iff {p i ch : Nat} (hi : i < 24) (hch : ch < s.cfg.nc.toNat) :
    bitAt s.par.bitOrder s.cfg.nc.toNat s.payload p i ch = true ↔
      ∃ k : PanelIx, k.val < s.cfg.np.toNat ∧ (s.row k).ch.toNat = ch ∧ (s.row k).nbuf.toNat ≤ p ∧
        p < (s.row k).nbuf.toNat + (s.row k).nreal.toNat ∧
        slotBit s.par.slotOrder (packColour (s.colourAt k (p - (s.row k).nbuf.toNat))) i = true := by
  obtain ⟨-, -, -, -, -, hrows, -⟩ := (cfgValid_iff s).1 hv
  rw [bitAt, bitSet_payload hv, decide_eq_true_iff, mem_payloadBits]
  constructor
  · rintro ⟨k, hk, j, hj, i', hi', hslot, hindex⟩
    obtain ⟨rfl, rfl, rfl⟩ := bitIndex_injective hi' (hrows k hk).1 hi hch hindex
    exact ⟨k, hk, rfl, by omega, by omega, by rwa [Nat.add_sub_cancel]⟩
  · rintro ⟨k, hk, rfl, hlo, hhi, hslot⟩
    exact ⟨k, hk, p - (s.row k).nbuf.toNat, by omega, i, hi, hslot, by rw [Nat.sub_add_cancel hlo]⟩

/-- A valid row has its channel to itself, so the bit of its real LED is the slot's bit and no other row's (R112). -/
theorem bitAt_payload_realLed {k : PanelIx} {j i : Nat} (hk : k.val < s.cfg.np.toNat)
    (hj : j < (s.row k).nreal.toNat) (hi : i < 24) :
    bitAt s.par.bitOrder s.cfg.nc.toNat s.payload (j + (s.row k).nbuf.toNat) i (s.row k).ch.toNat =
      slotBit s.par.slotOrder (packColour (s.colourAt k j)) i := by
  obtain ⟨-, -, -, -, -, hrows, hinj⟩ := (cfgValid_iff s).1 hv
  rw [Bool.eq_iff_iff, bitAt_payload_iff hv hi (hrows k hk).1]
  constructor
  · rintro ⟨l, hl, hch, -, -, hslot⟩
    obtain rfl := hinj l k hl hk (BitVec.eq_of_toNat_eq hch)
    rwa [Nat.add_sub_cancel] at hslot
  · intro hslot
    exact ⟨k, hk, rfl, by omega, by omega, by rwa [Nat.add_sub_cancel]⟩

end

/-! ### ENCODE (R107) -/

theorem exec_encodeFrame {s : State} (hr : s.ready = true) :
    exec .encodeFrame s = .next (s.encodeFor s.issuer) := by
  rw [exec, execEncodeFrame, if_pos hr]

/-- Settles O10: ENCODE replaces `ENC_OUT` and completes its port. -/
theorem encodeCompletes : Obligations.EncodeCompletes := by
  intro s hr
  have hdone := onlyCompletes { s with encOut := s.payload } s.issuer .ok
  exact ⟨_, exec_encodeFrame hr, rfl, payload_length s, hdone.port, hdone.others, ⟨rfl, rfl, rfl⟩,
    ⟨rfl, rfl, rfl, rfl, rfl, rfl, rfl, rfl⟩, ⟨rfl, rfl, rfl, fun _ => rfl⟩, rfl, rfl⟩

/-- Settles O11: `ENC_OUT` is the payload, whose set bits are those ORed in. -/
theorem encodedBits : Obligations.EncodedBits := by
  refine ⟨?place, fun s t hv he hr => ?encoded⟩
  case place =>
    rintro buf nc p i ch _ rfl
    exact ⟨bitSet_lsb0 .., bitSet_msb0 ..⟩
  case encoded =>
    obtain rfl : s.encodeFor s.issuer = t := by simpa [exec_encodeFrame hr] using he
    exact ⟨fun p i ch _ hi hch => bitAt_payload_iff hv hi hch,
      fun k j i hk hj hi => bitAt_payload_realLed hv hk hj hi⟩

end Sys2Proof.Machine
end

section
/-! PROOFS. XFER: the checks of `Validate` in their order (`41_ring_controller.md` R121), and how a transfer is started
or refused (R120). -/

namespace Sys2Proof.Machine

/-! ### Validate (R121) -/

/-- Up to four bytes as a number; a byte that is missing counts 0 (`20_memory.md` R54). -/
theorem leNat_take_four (l : List Byte) : leNat (l.take 4) = (l.getD 0 0).toNat + (l.getD 1 0).toNat * 2 ^ 8
    + (l.getD 2 0).toNat * 2 ^ 16 + (l.getD 3 0).toNat * 2 ^ 24 := by
  rcases l with _ | ⟨a, _ | ⟨b, _ | ⟨c, _ | ⟨d, l⟩⟩⟩⟩ <;> simp [leNat] <;> omega

theorem fsWord_eq (f : Store) (off : Nat) : fsWord f off = (f.bytes.getD off 0).toNat
    + (f.bytes.getD (off + 1) 0).toNat * 2 ^ 8 + (f.bytes.getD (off + 2) 0).toNat * 2 ^ 16
    + (f.bytes.getD (off + 3) 0).toNat * 2 ^ 24 := by
  rw [fsWord, leNat_take_four]
  simp [List.getD_eq_getElem?_getD, List.getElem?_drop]

theorem header_eq {f : Store} {H NF : Nat} (hsingle : f.variant = .single → H = 8 ∧ NF = 1)
    (hmulti : f.variant = .multi → H = 12 ∧ NF = fsWord f 8) : H = headerSize f.variant ∧ NF = frameCount f := by
  unfold frameCount
  cases hv : f.variant with
  | single => exact hsingle hv
  | multi => exact hmulti hv

theorem validate_absent {s : State} {store : Word} (frame : Word) (h : s.par.stores[store.toNat]? = none) :
    s.validate store frame = .error .eIo := by
  simp only [State.validate, h]

/-- The checks of a store that is there. -/
theorem validate_present {s : State} {store : Word} {f : Store} (frame : Word)
    (h : s.par.stores[store.toNat]? = some f) : s.validate store frame =
      if f.bytes.length < headerSize f.variant then .error .eIo
      else if fsWord f 0 ≠ s.par.hwChannels then .error .eChannels
      else if fsWord f 4 = 0 ∨ 2 ^ 32 - 1 < fsWord f 0 * fsWord f 4 * 3 then .error .eIo
      else if f.bytes.length ≠ headerSize f.variant + frameCount f * (fsWord f 0 * fsWord f 4 * 3) then .error .eIo
      else if frameCount f ≤ frame.toNat then .error .eRange
      else if ∃ r, s.usable r (fsWord f 0 / 8) = 0 then .error .eConfig
      else .ok ⟨fsWord f 0, fsWord f 4, headerSize f.variant + frame.toNat * (fsWord f 0 * fsWord f 4 * 3)⟩ := by
  simp only [State.validate, h, List.any_eq_true, List.mem_finRange, true_and, decide_eq_true_eq]

/-- Settles O15: the header words and sizes are the model's, and each clause passes the checks before its own. -/
theorem validateInOrder : Obligations.ValidateInOrder := by
  intro s store frame
  refine ⟨validate_absent frame, ?_⟩
  rintro f hf word H NF nc nl size hword hsingle hmulti rfl rfl rfl
  obtain rfl : word = fsWord f := funext fun off => (hword off).trans (fsWord_eq f off).symm
  obtain ⟨rfl, rfl⟩ := header_eq hsingle hmulti
  rw [validate_present frame hf]
  refine ⟨fun h => if_pos h, fun hlen => ?_⟩
  rw [if_neg (not_lt.2 hlen)]
  refine ⟨fun h => if_pos h, fun hnc => ?_⟩
  rw [if_neg (not_not.2 hnc)]
  refine ⟨fun h => if_pos h, fun hnl hsize => ?_⟩
  rw [if_neg (not_or.2 ⟨hnl, not_lt.2 hsize⟩)]
  refine ⟨fun h => if_pos h, fun hwhole => ?_⟩
  rw [if_neg (not_not.2 hwhole)]
  refine ⟨fun h => if_pos h, fun hframe => ?_⟩
  rw [if_neg (not_le.2 hframe)]
  exact ⟨fun h => if_pos h, fun h => if_neg (not_exists.2 h)⟩

/-! ### XFER (R120) -/

section
variable {s : State} (hr : s.ready = true)
include hr

theorem exec_xfer_holder (hh : s.holds s.issuer = true) : exec .xfer s = s.xferFor s.issuer := by
  simp [exec, execXfer, hr, hh]

theorem exec_xfer_other (hh : s.holds s.issuer = false) :
    exec .xfer s = .next (s.complete s.issuer .eNotHolder) := by
  simp [exec, execXfer, hr, hh, raise]

end

theorem xferFor_starts {s : State} {q : Port} {v : Frame} (hi : s.rc.state = .idle)
    (hv : s.validate (s.port q).arg1 (s.port q).arg0 = .ok v) :
    s.xferFor q = .next ((s.setRc (s.rc.load q (s.port q).arg1 v)).setBlocked q true) := by
  have hstart := startXfer_ok q hi hv
  simp only [State.xferFor, State.operands, Operands.frame, Operands.store, hstart]

theorem xferFor_invalid {s : State} {q : Port} {e : Result}
    (hv : s.validate (s.port q).arg1 (s.port q).arg0 = .error e) :
    s.xferFor q = .next ((s.setRc { s.rc with result := e, flags := Flags.clear }).complete q e) := by
  simp only [State.xferFor, State.startXfer, State.operands, Operands.frame, Operands.store, hv, raise]

theorem xferFor_reentry {s : State} {q : Port} {v : Frame} (hi : s.rc.state ≠ .idle)
    (hv : s.validate (s.port q).arg1 (s.port q).arg0 = .ok v) : s.xferFor q = .fault .rcReentry := by
  simp only [State.xferFor, State.startXfer, State.operands, Operands.frame, Operands.store, hv, if_pos hi]

/-- RC written, then port q. -/
theorem portFrame_setRc_setPort (s : State) (x : Rc) (q : Port) (p : PortState) :
    PortFrame q s ((s.setRc x).setPort q p) :=
  portFrame_of (h := fun _ hne => setPort_port_ne _ _ hne)

/-- Settles O16: RC is loaded with the frame, whose numbers fit its registers, and the port holds. -/
theorem xferStarts : Obligations.XferStarts := by
  intro s v hp hr hh hi hv
  obtain ⟨hg, htotal, hsrc⟩ := load_toNat hp hv s.issuer
  obtain ⟨-, -, hnc, -⟩ := validate_ok hv
  exact ⟨_, (exec_xfer_holder hr hh).trans (xferFor_starts hi hv), rfl, hsrc, htotal, by rw [hnc]; exact hg,
    setBlocked_port_same .., portFrame_setRc_setPort .., rfl, rfl, rfl, rfl, fun _ => rfl⟩

/-- Settles O17: each refusal ends the command, and only that of the frame writes RC. -/
theorem xferRejected : Obligations.XferRejected := by
  intro s hr
  refine ⟨fun hh => ⟨_, exec_xfer_other hr hh, onlyCompletes ..⟩, fun hh e he => ?invalid, fun hh hi v hv =>
    (exec_xfer_holder hr hh).trans (xferFor_reentry hi hv)⟩
  case invalid =>
    exact ⟨_, (exec_xfer_holder hr hh).trans (xferFor_invalid he), rfl, complete_port_same ..,
      portFrame_setRc_setPort .., rfl, rfl, rfl, rfl, fun _ => rfl⟩

end Sys2Proof.Machine
end

section
/-! PROOFS. The steps of RC, state by state (`41_ring_controller.md` R123-R135, R144, R145). -/

namespace Sys2Proof.Machine

theorem keepsRequesters_setRc (s : State) (x : Rc) : KeepsRequesters s (s.setRc x) :=
  ⟨⟨rfl, rfl, rfl⟩, ⟨rfl, rfl, rfl, rfl, rfl, rfl, rfl, rfl⟩, rfl, rfl, rfl, rfl⟩

/-! ### RC's step in each state (R125) -/

section
variable {s : State}

theorem ringStep_of_idle (hs : s.rc.state = .idle) : ringStep s = .next s := by rw [ringStep, hs]

theorem ringStep_of_setup (hs : s.rc.state = .setup) : ringStep s = .next (ringSetup s) := by rw [ringStep, hs]

theorem ringStep_of_fill (hs : s.rc.state = .fill) : ringStep s = ringFill s := by rw [ringStep, hs]

theorem ringStep_of_start (hs : s.rc.state = .start) : ringStep s = .next (ringStart s) := by rw [ringStep, hs]

theorem ringStep_of_drain (hs : s.rc.state = .drain) : ringStep s = ringDrain s := by rw [ringStep, hs]

theorem ringStep_of_sleep (hs : s.rc.state = .sleep) : ringStep s = .next (ringSleep s) := by rw [ringStep, hs]

theorem ringStep_of_check (hs : s.rc.state = .check) : ringStep s = .next (ringCheck s) := by rw [ringStep, hs]

end

/-! ### SETUP (R126) -/

theorem ringSetup_keeps (s : State) : KeepsRequesters s (ringSetup s) :=
  ⟨⟨by simp, by simp, by simp⟩, ⟨by simp, by simp, by simp, by simp, by simp, by simp, by simp, by simp⟩,
    by simp, by simp, by simp, by simp⟩

/-- Settles O18: SETUP writes the eight header bytes of each region and two registers. -/
theorem setupStep : Obligations.SetupStep := by
  intro s hp hs
  exact ⟨_, ringStep_of_setup hs, ringSetup_headers hp, ringSetup_rc s, ringSetup_loadByte_outside,
    ringSetup_keeps s, ringSetup_cp s, ringSetup_out s⟩

/-! ### FillRegion (R124) -/

theorem fillRegion_some {s t : State} {r : Region} (h : s.fillRegion r = some t) :
    ∃ bs, s.fillBytes r = some bs ∧ t = s.fillWith r bs := by
  obtain ⟨bs, hbs, rfl⟩ := Option.map_eq_some_iff.1 h
  exact ⟨bs, hbs, rfl⟩

/-- The bytes copied are those of the store, one by one. -/
theorem fillBytes_getElem {s : State} {r : Region} {f : Store} {bs : List Byte} {i : Nat}
    (hf : s.par.stores[s.rc.store.toNat]? = some f) (hb : s.fillBytes r = some bs) (hi : i < bs.length) :
    f.bytes[s.rc.src.toNat + s.rc.cursor.toNat + i]? = some bs[i] := by
  obtain ⟨f', hf', hlen, hbytes⟩ := fillBytes_some hb
  obtain rfl : f = f' := Option.some.inj (hf.symm.trans hf')
  have hget : bs[i]? = f.bytes[s.rc.src.toNat + s.rc.cursor.toNat + i]? := by
    rw [hbytes, List.getElem?_take_of_lt (hlen ▸ hi), List.getElem?_drop]
  rw [← hget, List.getElem?_eq_getElem hi]

/-- Settles O19: the payload lies inside its store, so the bytes are there to copy; a fill is whole LEDs and fits its
region. -/
theorem fillRegionStep : Obligations.FillRegionStep := by
  intro s r hp hI hne hcur
  obtain ⟨f, hf, hin⟩ := (hI.ring.transfer hne).inStore
  obtain ⟨bs, hbs⟩ := fillBytes_isSome (r := r) hf hin hI.ring.cursorLe
  obtain ⟨-, -, hlen, -⟩ := fillBytes_some hbs
  obtain ⟨hleds, hled, -, hfit⟩ := fillCount_facts hI hp hne r hcur
  have hfilled := fill_filled hI hp hne hcur hbs
  refine ⟨s.fillWith r bs, s.fillCount r, f, by rw [State.fillRegion, hbs]; rfl, hf, rfl, hleds, hled, hfit, ?bytes,
    hfilled.endAddr, hfilled.nextAddr, rfl, fill_cursor hI hp hne hcur hbs, ?outside, fillWith_keeps s r bs,
    fillWith_cp s r bs, fillWith_out s r bs⟩
  case bytes =>
    intro i hi
    rw [fillWith_loadByte_payload s r bs i (by omega)]
    exact fillBytes_getElem hf hbs _
  case outside => exact fun a hheader hpayload => fillWith_loadByte_outside s r bs a (by omega)

/-! ### FILL (R127) -/

theorem fillTarget_lt {i : BitVec 2} {r : Region} (h : fillTarget i = some r) : i.toNat < 3 := by
  by_contra hge
  simp [fillTarget, hge] at h

theorem fillTarget_eq_some {i : BitVec 2} {r : Region} (h : i.toNat = r.val) : fillTarget i = some r := by
  have hlt : i.toNat < 3 := by omega
  rw [fillTarget, dif_pos hlt]
  exact congrArg some (Fin.ext h)

theorem ringFill_fills {s u : State} {r : Region} (hidx : s.rc.fillIdx.toNat = r.val)
    (hcur : s.rc.cursor.toNat < s.rc.total.toNat) (hu : s.fillRegion r = some u) :
    ringFill s = .next (u.setRc { u.rc with fillIdx := u.rc.fillIdx + 1 }) := by
  simp only [ringFill, fillTarget_eq_some hidx, if_pos hcur, hu]

theorem ringFill_done {s : State} (h : s.rc.fillIdx.toNat = 3 ∨ s.rc.total.toNat ≤ s.rc.cursor.toNat) :
    ringFill s = .next (ringFillDone s) := by
  unfold ringFill
  split
  · rfl
  · next r hr =>
    have hlt := fillTarget_lt hr
    rw [if_neg (by omega)]

theorem ringFill_cases {s t : State} (h : ringFill s = .next t) : t = ringFillDone s ∨
    (s.rc.fillIdx.toNat < 3 ∧ ∃ r bs,
      t = (s.fillWith r bs).setRc { (s.fillWith r bs).rc with fillIdx := s.rc.fillIdx + 1 }) := by
  by_cases hmore : s.rc.fillIdx.toNat < 3 ∧ s.rc.cursor.toNat < s.rc.total.toNat
  · obtain ⟨hidx, hcur⟩ := hmore
    cases hu : s.fillRegion ⟨s.rc.fillIdx.toNat, hidx⟩ with
    | none => simp [ringFill, fillTarget, hidx, hcur, hu] at h
    | some u =>
      rw [ringFill_fills rfl hcur hu] at h
      obtain ⟨bs, -, rfl⟩ := fillRegion_some hu
      cases h
      exact .inr ⟨hidx, _, bs, rfl⟩
  · have hidx := s.rc.fillIdx.isLt
    rw [ringFill_done (by omega)] at h
    cases h
    exact .inl rfl

/-- Settles O20: a region is filled, or FILL is done and notes the next region. -/
theorem fillStep : Obligations.FillStep := by
  intro s hs
  rw [ringStep_of_fill hs]
  refine ⟨?fills, ?done⟩
  case fills =>
    intro r u hidx hcur hu
    obtain ⟨bs, -, rfl⟩ := fillRegion_some hu
    exact ringFill_fills hidx hcur hu
  case done =>
    intro h
    exact ⟨_, ringFill_done h, rfl, rfl, rfl, keepsRequesters_setRc .., rfl, rfl, fun _ => rfl⟩

/-! ### START (R128, R131) -/

/-- Settles O21: the deadline fits its register. -/
theorem startStep : Obligations.StartStep := by
  intro s hs
  refine ⟨ringStart s, ringStep_of_start hs, rfl, ?_, rfl, rfl,
    ⟨⟨rfl, rfl, rfl⟩, ⟨rfl, rfl, rfl, rfl, rfl, rfl, rfl, rfl⟩, rfl, rfl, rfl, rfl⟩, fun _ => rfl⟩
  exact (BitVec.toNat_ofNat ..).trans (Nat.mod_eq_of_lt (deadline_lt s))

/-- The deadline of `nl` LEDs: 24 groups each (R145). -/
theorem deadline_eq {s : State} {nl : Nat} (hg : 0 < s.rc.g.toNat)
    (htotal : s.rc.total.toNat = 24 * s.rc.g.toNat * nl) :
    s.deadline = 24 * nl * s.par.tBit.toNat + s.par.tReset.toNat := by
  have hgroups : s.rc.total.toNat / s.rc.g.toNat = 24 * nl := by
    rw [htotal, Nat.mul_right_comm, Nat.mul_div_cancel _ hg]
  rw [State.deadline, hgroups]

/-- Settles O25: both deadlines are R145's, and a bit takes time. -/
theorem deadlineGrows : Obligations.DeadlineGrows := by
  intro s s' nl nl' hp hpar hg hgne htotal htotal' hlt
  have hgpos : 0 < s.rc.g.toNat := Nat.pos_of_ne_zero fun h => hgne (BitVec.eq_of_toNat_eq h)
  have hdeadline := deadline_eq hgpos htotal
  have hdeadline' : s'.deadline = 24 * nl' * s.par.tBit.toNat + s.par.tReset.toNat := by
    rw [deadline_eq (by rwa [hg]) (by rwa [hg]), hpar]
  obtain ⟨-, -, -, hbit, -⟩ := (paramsOk_iff _).1 hp
  have hmore : 24 * nl * s.par.tBit.toNat < 24 * nl' * s.par.tBit.toNat :=
    Nat.mul_lt_mul_of_pos_right (by omega) hbit
  exact ⟨hdeadline, by omega⟩

/-! ### DRAIN (R129) -/

/-- DRAIN goes on while the consumer runs and the deadline is to come (R135). -/
theorem drain_goes_on_iff (s : State) : (s.isRunning && s.underDeadline) = true ↔
    s.cp.mode ≠ .stopped ∧ s.tNow.toNat - s.rc.t0.toNat < s.rc.deadline.toNat := by
  simp [State.isRunning, State.underDeadline]

theorem ringDrain_ends {s : State} (h : ¬ (s.isRunning && s.underDeadline) = true) :
    ringDrain s = .next (s.setRc { s.rc with state := .check }) := by
  simp only [ringDrain, Bool.eq_false_iff.2 h, Bool.not_false, if_true]

section
variable {s : State} (h : (s.isRunning && s.underDeadline) = true)
include h

theorem ringDrain_refills {u : State} (hcur : s.rc.cursor.toNat < s.rc.total.toNat)
    (hempty : s.endAddr s.rc.cur = 0) (hu : s.fillRegion s.rc.cur = some u) :
    ringDrain s = .next (u.setRc { u.rc with cur := u.rc.cur + 1 }) := by
  simp only [ringDrain, h, Bool.not_true, Bool.false_eq_true, if_false, if_pos (And.intro hcur hempty), hu]

theorem ringDrain_sleeps (hno : ¬ (s.rc.cursor.toNat < s.rc.total.toNat ∧ s.endAddr s.rc.cur = 0)) :
    ringDrain s = .next (ringSleepNow s) := by
  simp only [ringDrain, h, Bool.not_true, Bool.false_eq_true, if_false, if_neg hno]

end

/-- Settles O22: the three branches of DRAIN, the deadline being strict (R135). -/
theorem drainStep : Obligations.DrainStep := by
  intro s hs
  rw [ringStep_of_drain hs]
  refine ⟨fun h => ringDrain_ends ?_, fun hm htime => ?_⟩
  · rw [drain_goes_on_iff, not_and_or, not_not, not_lt]
    exact h
  · have hgo := (drain_goes_on_iff s).2 ⟨hm, htime⟩
    refine ⟨fun u hcur hempty hu => ?refill, fun h => ?sleep⟩
    case refill =>
      obtain ⟨bs, -, rfl⟩ := fillRegion_some hu
      exact ringDrain_refills hgo hcur hempty hu
    case sleep =>
      exact ⟨_, ringDrain_sleeps hgo (by rwa [not_and_or, not_lt]), rfl, fun hfits => fitU64_toNat hfits,
        keepsRequesters_setRc .., rfl, rfl, fun _ => rfl⟩

/-! ### SLEEP (R130) -/

/-- Settles O23: SLEEP on both sides of `RC.WAKE`. -/
theorem sleepStep : Obligations.SleepStep := by
  intro s hs
  rw [ringStep_of_sleep hs]
  exact ⟨fun h => congrArg Host.Outcome.next (if_pos h), fun h => congrArg Host.Outcome.next (if_neg (not_lt.2 h))⟩

/-! ### CHECK (R132-R134) -/

/-- RC as CHECK leaves it, before the owner's command ends. -/
def State.checked (s : State) : State :=
  s.setRc { s.rc with flags := s.completionFlags, result := s.completionFlags.result, state := .idle }

/-- CHECK writes its three registers; then a plain XFER's port completes, and the port of a SHOW or PLAY stays as it
is (log 11). -/
theorem ringCheck_cases (s : State) :
    ((s.port s.rc.owner).seq.kind = .none ∧
      ringCheck s = s.checked.complete s.rc.owner s.completionFlags.result) ∨
    ((s.port s.rc.owner).seq.kind ≠ .none ∧ ringCheck s = s.checked) := by
  unfold ringCheck State.finishOwner
  split
  · next hk => exact .inl ⟨hk, rfl⟩
  all_goals next hk => exact .inr ⟨fun h => absurd (hk.symm.trans h) (by decide), rfl⟩

theorem ringCheck_rc (s : State) : (ringCheck s).rc =
    { s.rc with flags := s.completionFlags, result := s.completionFlags.result, state := .idle } := by
  rcases ringCheck_cases s with ⟨-, h⟩ | ⟨-, h⟩ <;> rw [h] <;> rfl

theorem ringCheck_out (s : State) : (ringCheck s).out = s.out := by
  rcases ringCheck_cases s with ⟨-, h⟩ | ⟨-, h⟩ <;> rw [h] <;> rfl

theorem result_eq_ok_iff (f : Flags) :
    f.result = .ok ↔ f.timeout = false ∧ f.underrun = false ∧ f.unconsumed = false := by
  rcases f with ⟨_ | _, _ | _, _ | _⟩ <;> decide

theorem anyUnconsumed_eq_false_iff (s : State) : s.anyUnconsumed = false ↔ ∀ r, s.endAddr r = 0 := by
  simp [State.anyUnconsumed, List.any_eq_false]

theorem anyUnconsumed_iff (s : State) : s.anyUnconsumed = true ↔ ∃ r, s.endAddr r ≠ 0 := by
  simp [State.anyUnconsumed]

/-- CHECK touches no port but the owner's. -/
theorem ringCheck_frame (s : State) : PortFrame s.rc.owner s (ringCheck s) ∧ (ringCheck s).tk = s.tk ∧
    (ringCheck s).log = s.log ∧ (ringCheck s).cp = s.cp ∧ (ringCheck s).out = s.out ∧ KeepsMemory s (ringCheck s) := by
  rcases ringCheck_cases s with ⟨-, h⟩ | ⟨-, h⟩ <;> rw [h]
  · exact ⟨portFrame_setRc_setPort .., rfl, rfl, rfl, rfl, fun _ => rfl⟩
  · exact ⟨portFrame_of (h := fun _ _ => rfl), rfl, rfl, rfl, rfl, fun _ => rfl⟩

/-- The owner's port after CHECK: a plain XFER has completed, a SHOW or PLAY goes on by its
port's own step (log 11). -/
theorem ringCheck_owner (s : State) :
    ((s.port s.rc.owner).seq.kind = .none →
      (ringCheck s).port s.rc.owner = (s.port s.rc.owner).completed s.completionFlags.result) ∧
    ((s.port s.rc.owner).seq.kind ≠ .none → (ringCheck s).port s.rc.owner = s.port s.rc.owner) := by
  rcases ringCheck_cases s with ⟨hk, h⟩ | ⟨hk, h⟩ <;> rw [h]
  · exact ⟨fun _ => complete_port_same .., fun hk' => absurd hk hk'⟩
  · exact ⟨fun hk' => absurd hk' hk, fun _ => rfl⟩

/-- Settles O24: CHECK's registers are the completion flags and their result, and its port is the owner's. -/
theorem checkStep : Obligations.CheckStep := by
  intro s hs
  obtain ⟨hplain, hmacro⟩ := ringCheck_owner s
  refine ⟨ringCheck s, ringStep_of_check hs, ?_⟩
  rw [ringCheck_rc]
  exact ⟨rfl, decide_eq_true_iff, decide_eq_true_iff, anyUnconsumed_iff s, rfl, hplain, hmacro, ringCheck_frame s⟩

end Sys2Proof.Machine
end

section
/-! PROOFS. The steps of the consumer (`41_ring_controller.md` R136-R140). -/

namespace Sys2Proof.Machine

/-! ### CONSUME (R138) -/

theorem badEnd_iff {s : State} {r : Region} : s.badEnd r = true ↔ s.endAddr r < s.base r + 8 ∨
    s.base r + s.cap r < s.endAddr r + s.consumerGroup ∨ (s.endAddr r - s.base r - 8) % s.consumerGroup ≠ 0 := by
  simp [State.badEnd, or_assoc]

theorem keepsRequesters_setCp (s : State) (x : Cp) : KeepsRequesters s (s.setCp x) :=
  ⟨⟨rfl, rfl, rfl⟩, ⟨rfl, rfl, rfl, rfl, rfl, rfl, rfl, rfl⟩, rfl, rfl, rfl, rfl⟩

theorem regionGroups_getElem {s : State} {r : Region} {m : Nat} (hm : m < (s.regionGroups r).length) :
    (s.regionGroups r)[m]? =
      some (s.loadBytes (s.base r + 8 + m * s.consumerGroup) s.consumerGroup) := by
  rw [List.getElem?_eq_getElem hm]
  simp [State.regionGroups]

/-- Settles O27: a bad `end_addr` hangs; a good one is consumed, and its `next_addr` followed or lost. -/
theorem consumeStep : Obligations.ConsumeStep := by
  rintro s _ _ _ hp hm rfl rfl rfl hne
  rcases cpConsume_cases hp with ⟨hno, -⟩ | ⟨-, -, hbad, hhang⟩ | ⟨-, -, hgood, hconsumed⟩
  · exact absurd ⟨hm, hne⟩ hno
  · rw [hhang]
    refine ⟨keepsRequesters_setCp .., rfl, fun _ => ⟨rfl, rfl, fun _ => rfl⟩, fun hlo hhi hgroup => ?_⟩
    have hgood : s.badEnd s.cp.c = false := badEnd_false.2 ⟨hlo, hhi, hgroup⟩
    exact absurd hbad (by simp [hgood])
  · refine ⟨hconsumed.keeps, hconsumed.rc, fun hbad => ?_, fun _ _ _ => ?_⟩
    · exact absurd (badEnd_iff.2 hbad) (by simp [hgood])
    · have hbase : (cpConsume s).base s.cp.c = s.base s.cp.c := by
        rw [State.base, hconsumed.keeps.config.par, State.base]
      refine ⟨⟨s.regionGroups s.cp.c, hconsumed.out, ?_, fun m hlt => regionGroups_getElem hlt⟩, ?_,
        hconsumed.outside, fun r hr => ?_, hconsumed.lost⟩
      · simp only [State.regionGroups, List.length_map, List.length_range, State.groupCount, Nat.sub_sub]
        rfl
      · rw [← hbase]
        exact hconsumed.endAddr
      · rw [hconsumed.follows r hr, hm]

/-! ### LATCH, STOPPED and HUNG (R139, R140) -/

/-- CONSUME needs a running consumer at a region that is not empty. -/
theorem cpConsume_still {s : State} (h : s.cp.mode ≠ .running ∨ s.endAddr s.cp.c = 0) : cpConsume s = s := by
  rw [cpConsume, if_neg]
  rintro ⟨hm, hne⟩
  exact h.elim (absurd hm) fun h0 => hne h0

/-- LATCH needs a running consumer at an empty region. -/
theorem cpLatch_still {s : State} (h : s.cp.mode ≠ .running ∨ s.endAddr s.cp.c ≠ 0) : cpLatch s = s := by
  rw [cpLatch, if_neg]
  rintro ⟨hm, h0⟩
  exact h.elim (absurd hm) (absurd h0)

theorem cpStop_still {s : State} (h : s.cp.mode ≠ .latch) : cpStop s = s := if_neg h

theorem cpHang_still {s : State} (h : ¬ (s.cp.mode = .running ∨ s.cp.mode = .latch)) : cpHang s = s := if_neg h

theorem cpLatch_latches {s : State} (hm : s.cp.mode = .running) (h0 : s.endAddr s.cp.c = 0) :
    cpLatch s = s.setCp { s.cp with mode := .latch } := if_pos ⟨hm, h0⟩

theorem cpStop_stops {s : State} (hm : s.cp.mode = .latch) : cpStop s = s.setCp { s.cp with mode := .stopped } :=
  if_pos hm

theorem cpHang_hangs {s : State} (h : s.cp.mode = .running ∨ s.cp.mode = .latch) : cpHang s = s.hang := if_pos h

theorem isRunning_iff (s : State) : s.isRunning = true ↔ s.cp.mode ≠ .stopped := by simp [State.isRunning]

/-- Settles O28: in each mode, the steps the consumer has and those it has not. -/
theorem consumerStops : Obligations.ConsumerStops := by
  intro s
  refine ⟨fun hm h0 => ?latch, fun _ hne => cpLatch_still (.inr hne), fun hm => cpStop_still (by simp [hm]),
    fun hm => ?stop, fun h => ?hang, fun h => ?still, isRunning_iff s⟩
  case latch =>
    rw [cpLatch_latches hm h0]
    exact ⟨rfl, rfl, cpConsume_still (.inr h0)⟩
  case stop =>
    have hne : s.cp.mode ≠ .running := by simp [hm]
    rw [cpStop_stops hm]
    exact ⟨rfl, rfl, cpConsume_still (.inl hne), cpLatch_still (.inl hne)⟩
  case hang =>
    rw [cpHang_hangs h]
    exact ⟨rfl, rfl⟩
  case still =>
    obtain ⟨hrunning, hlatch⟩ : s.cp.mode ≠ .running ∧ s.cp.mode ≠ .latch := by
      rcases h with hm | hm <;> simp [hm]
    exact ⟨cpConsume_still (.inl hrunning), cpLatch_still (.inl hrunning), cpStop_still hlatch,
      cpHang_still (not_or.2 ⟨hrunning, hlatch⟩)⟩

end Sys2Proof.Machine
end

section
/-! PROOFS. The headers and the payload in the ring through every step of a transfer (`41_ring_controller.md`
R141-R143, `10_state.md` R43). -/

namespace Sys2Proof.Machine

/-! ### RC's registers through the other agents' steps -/

theorem cpConsume_rc (s : State) : (cpConsume s).rc = s.rc := by
  unfold cpConsume State.consumeRegion
  split
  · split
    · rfl
    · exact (followNext_keeps _ _).2.1
  · rfl

/-- The consumer and the outside world leave RC alone. -/
theorem unit_rc {x : Action} (hr : ringAction x = true) (hx : x ≠ .ringStep) {s t : State}
    (h : runAction x s = .next t) : t.rc = s.rc := by
  cases x with
  | ringStep => exact absurd rfl hx
  | cpConsume => cases h; exact cpConsume_rc s
  | cpLatch => cases h; unfold cpLatch; split <;> rfl
  | cpStop => cases h; unfold cpStop; split <;> rfl
  | cpHang => cases h; unfold cpHang; split <;> rfl
  | outsideWrite a b => cases h; unfold outsideWriteStep; split <;> rfl
  | _ => cases hr

/-! ### Headers (R142) -/

theorem runAction_headers {x : Action} {s t : State} (hI : s.Inv) (hp : paramsOk s.par = true) (h : s.HeadersOk)
    (hx : ∀ a b, x ≠ .outsideWrite a b) (ht : runAction x s = .next t) : t.HeadersOk := by
  cases hw : writesRegions x with
  | false => exact HeadersOk.same h (runAction_oneWay ht).par (runAction_mem hw ht)
  | true =>
    cases x with
    | ringStep => exact ringStep_headers hI hp h ht
    | cpConsume => cases ht; exact consume_headers hp h
    | outsideWrite a b => exact absurd rfl (hx a b)
    | _ => cases hw

theorem ringSetup_headersOk {s : State} (hp : paramsOk s.par = true) : (ringSetup s).HeadersOk := by
  intro r
  obtain ⟨hend, hnext⟩ := ringSetup_headers hp r
  exact ⟨.inl hend, by rw [hnext, ringSetup_base]⟩

/-- Good headers give CONSUME an `end_addr` it takes and a `next_addr` it follows. -/
theorem cpConsume_running {s : State} (hp : paramsOk s.par = true) (h : s.HeadersOk) (hm : s.cp.mode = .running) :
    (cpConsume s).cp.mode = .running := by
  obtain ⟨hend, hnext⟩ := h s.cp.c
  rcases cpConsume_cases hp with ⟨-, hsame⟩ | ⟨-, hne, hbad, -⟩ | ⟨-, -, -, hconsumed⟩
  · rwa [hsame]
  · exact absurd (hend.resolve_left hne) (by simp [hbad])
  · rw [hconsumed.follows _ hnext]
    exact hm

/-- Settles O29: of the actions but an outside write only RC's and CONSUME write region memory, and both keep good
headers; SETUP makes them, and CONSUME does not hang on them. -/
theorem headersStayGood : Obligations.HeadersStayGood := by
  refine ⟨?kept, ?setup, fun s hp h hm => cpConsume_running hp h hm⟩
  case kept =>
    intro s t hI h hx hst
    obtain ⟨hp, hrun⟩ := step_runAction hst
    have hp' : paramsOk s.takeEvent.par = true := (takeEvent_par s).symm ▸ hp
    have htake : s.takeEvent.HeadersOk := HeadersOk.same h (takeEvent_par s) (ringSame_takeEvent s).mem
    have ht : t.HeadersOk := runAction_headers (takeEvent_inv hI) hp' htake hx hrun
    exact ⟨ht, HeadersOk.ends (by rwa [(runAction_oneWay hrun).par]) ht⟩
  case setup =>
    intro s t hp hs ht
    obtain rfl : ringSetup s = t := by simpa [ringStep_of_setup hs] using ht
    exact ringSetup_headersOk hp

/-! ### Streaming (R141) -/

theorem RingSame.streaming {s t : State} (h : RingSame s t) (hS : Streaming s) : Streaming t :=
  hS.same h.par h.mem h.cp h.out (by rw [h.rc]) (by rw [h.rc]) (by rw [h.rc]) (by rw [h.rc]) (by rw [h.rc])
    (by rw [h.rc]) (by rw [h.rc])

/-- While a transfer runs the other agents touch nothing of RC but its report of a refused frame (R120). -/
theorem RingFrame.streaming {s t : State} (h : RingFrame s t) (hne : s.rc.state ≠ .idle) (hS : Streaming s) :
    Streaming t := by
  rcases h.rc with hrc | ⟨e, f, hrc⟩ | ⟨hidle, -⟩
  · apply hS.same h.par h.mem h.cp h.out <;> rw [hrc]
  · apply hS.same h.par h.mem h.cp h.out <;> rw [hrc]
  · exact absurd hidle hne

theorem runAction_streaming {x : Action} {s t : State} (hI : s.Inv) (hp : paramsOk s.par = true) (hS : Streaming s)
    (hne : s.rc.state ≠ .idle) (hx : ∀ a b, x ≠ .outsideWrite a b) (ht : runAction x s = .next t)
    (hnt : t.rc.state ≠ .idle) : Streaming t := by
  cases hr : ringAction x with
  | false => exact (runAction_frame hr s t ht).streaming hne hS
  | true =>
    cases x with
    | ringStep => exact ringStep_streaming hI hp hS ht hne hnt
    | cpConsume => cases ht; exact cpConsume_streaming hp hS hne
    | cpLatch =>
      cases ht
      unfold cpLatch
      split
      exacts [hS.setMode .latch nofun, hS]
    | cpStop =>
      cases ht
      unfold cpStop
      split
      exacts [hS.setMode .stopped nofun, hS]
    | cpHang =>
      cases ht
      unfold cpHang
      split
      exacts [hS.setMode .hung nofun, hS]
    | outsideWrite a b => exact absurd rfl (hx a b)
    | _ => cases hr

/-- Settles O30: taking the event changes nothing of the ring, and no action but an outside write breaks the
stream. -/
theorem streamingKept : Obligations.StreamingKept := by
  intro s t hI hS hne hx hst hnt
  obtain ⟨hp, hrun⟩ := step_runAction hst
  have htake := ringSame_takeEvent s
  exact runAction_streaming (takeEvent_inv hI) (by rwa [takeEvent_par]) (htake.streaming hS) (by rwa [htake.rc]) hx
    hrun hnt

/-! ### From the start of a transfer to its end (R141, R143) -/

/-- In SETUP nothing has been filled or clocked out yet. -/
theorem Streaming.ofSetup {s : State} (hs : s.rc.state = .setup) (hcur : s.rc.cursor = 0)
    (hm : s.cp.mode ≠ .running) : Streaming s where
  quiet _ := hm
  starting _ := hcur
  headers h := absurd hs h
  filling h := nomatch hs.symm.trans h
  filled h := nomatch hs.symm.trans h
  draining h := by simp [State.afterStart, hs] at h
  groups h := by simp [State.afterStart, hs] at h

/-- Only a validated frame takes RC from IDLE to SETUP: RC is loaded with the cursor at 0, and the consumer is as it
was (R120). -/
theorem runAction_starts {x : Action} {s t : State} (hs : s.rc.state = .idle) (ht : t.rc.state = .setup)
    (h : runAction x s = .next t) : t.rc.cursor = 0 ∧ t.cp = s.cp := by
  have hmoved : t.rc.state ≠ s.rc.state := by simp [hs, ht]
  cases hr : ringAction x with
  | true =>
    by_cases hx : x = .ringStep
    · subst hx
      obtain rfl : s = t := by simpa [runAction, ringStep_of_idle hs] using h
      exact absurd rfl hmoved
    · exact absurd (congrArg Rc.state (unit_rc hr hx h)) hmoved
  | false =>
    have hframe := runAction_frame hr s t h
    rcases hframe.rc with hrc | ⟨e, f, hrc⟩ | ⟨-, q, store, v, hrc⟩
    · exact absurd (congrArg Rc.state hrc) hmoved
    · exact absurd (congrArg Rc.state hrc) hmoved
    · exact ⟨by rw [hrc]; rfl, hframe.cp⟩

theorem transferBytes_length {s : State} (h : TransferInv s) : s.transferBytes.length = s.rc.total.toNat := by
  obtain ⟨f, hf, hin⟩ := h.inStore
  simp only [State.transferBytes, hf, List.length_take, List.length_drop]
  omega

/-- Once every byte has been written and every region is empty, everything has been clocked out. -/
theorem Streaming.whole {s : State} (hS : Streaming s) (hT : TransferInv s) (haf : s.afterStart = true)
    (hcur : s.rc.total.toNat ≤ s.rc.cursor.toNat) (hempty : ∀ r, s.endAddr r = 0) :
    s.out.flatten = s.transferBytes := by
  obtain ⟨n, ⟨-, hfull⟩, -, hbytes⟩ := hS.draining haf
  have hn : n = 0 := by
    have hnone : ¬ 0 < n := fun hpos => (hfull 0 (by decide)).2 hpos (hempty _)
    omega
  subst hn
  have hall : s.transferBytes.take s.rc.cursor.toNat = s.transferBytes :=
    List.take_of_length_le (by rw [transferBytes_length hT]; exact hcur)
  simpa [State.pendingFrom, hall] using hbytes

/-- Settles O31: a transfer starts in SETUP with nothing in the ring, and an OK in CHECK means that nothing is left
to write and nothing is left in the regions. -/
theorem streamedPayload : Obligations.StreamedPayload := by
  refine ⟨?starts, ?ends⟩
  case starts =>
    intro s t a hs ht hm hrun
    obtain ⟨hcur, hcp⟩ := runAction_starts hs ht hrun
    exact .ofSetup ht hcur (by rwa [hcp])
  case ends =>
    intro s t hI hS hs ht hok
    obtain rfl : ringCheck s = t := by simpa [ringStep_of_check hs] using ht
    rw [ringCheck_rc] at hok
    obtain ⟨-, hunderrun, hunconsumed⟩ := (result_eq_ok_iff _).1 hok
    have hT := hI.ring.transfer (by simp [hs])
    have haf : s.afterStart = true := by simp [State.afterStart, hs]
    rw [ringCheck_out]
    exact ⟨hS.whole hT haf (not_lt.1 (of_decide_eq_false hunderrun)) ((anyUnconsumed_eq_false_iff s).1 hunconsumed),
      transferBytes_length hT, hS.groups haf⟩

end Sys2Proof.Machine
end

section
/-! PROOFS. Every transfer ends in a fair run (`41_ring_controller.md` R146, `00_scope.md` R6). -/

namespace Sys2Proof.Machine

/-! ### One step of DRAIN (R129) -/

theorem ringStep_next {s : State} (hI : s.Inv) : ∃ t, ringStep s = .next t := by
  cases h : ringStep s with
  | next t => exact ⟨t, rfl⟩
  | fault f => exact absurd h (ringStep_noFault hI f)
  | refused x => exact absurd h (ringStep_not_refused s x)

/-- `T_NOW` is at or past the deadline (R135). -/
def State.overdue (s : State) : Prop := s.rc.deadline.toNat ≤ s.tNow.toNat - s.rc.t0.toNat

/-- What is overdue stays so as time passes. -/
theorem State.overdue.later {s t : State} (h : s.overdue) (ht0 : t.rc.t0 = s.rc.t0)
    (hdeadline : t.rc.deadline = s.rc.deadline) (htime : s.tNow.toNat ≤ t.tNow.toNat) : t.overdue := by
  unfold State.overdue at *
  rw [ht0, hdeadline]
  omega

theorem goes_on_not_overdue {s : State} (h : (s.isRunning && s.underDeadline) = true) : ¬ s.overdue :=
  not_le.2 ((drain_goes_on_iff s).1 h).2

/-- What a step of DRAIN does to RC: CHECK, a refill of a region, or SLEEP; nothing but CHECK once it is overdue. -/
theorem ringDrain_cases {s t : State} (h : ringDrain s = .next t) :
    t.rc = { s.rc with state := .check } ∨
    (¬ s.overdue ∧ s.rc.cursor.toNat < s.rc.total.toNat ∧ ∃ bs, s.fillBytes s.rc.cur = some bs ∧
      t.rc = { (s.fillWith s.rc.cur bs).rc with cur := s.rc.cur + 1 }) ∨
    (¬ s.overdue ∧ ∃ w, t.rc = { s.rc with wake := w, state := .sleep }) := by
  by_cases hgo : (s.isRunning && s.underDeadline) = true
  · by_cases hrefill : s.rc.cursor.toNat < s.rc.total.toNat ∧ s.endAddr s.rc.cur = 0
    · cases hu : s.fillRegion s.rc.cur with
      | none => simp [ringDrain, hgo, hrefill, hu] at h
      | some u =>
        rw [ringDrain_refills hgo hrefill.1 hrefill.2 hu] at h
        obtain ⟨bs, hbs, rfl⟩ := fillRegion_some hu
        cases h
        exact .inr (.inl ⟨goes_on_not_overdue hgo, hrefill.1, bs, hbs, rfl⟩)
    · rw [ringDrain_sleeps hgo hrefill] at h
      cases h
      exact .inr (.inr ⟨goes_on_not_overdue hgo, _, rfl⟩)
  · rw [ringDrain_ends hgo] at h
    cases h
    exact .inl rfl

/-! ### What the steps of RC do to a transfer -/

/-- The states before DRAIN. -/
def RcState.preparing (x : RcState) : Prop := x = .setup ∨ x = .fill ∨ x = .start

/-- The states between START and CHECK. -/
def RcState.clocking (x : RcState) : Prop := x = .drain ∨ x = .sleep

/-- A bound on the steps RC still takes before it reaches DRAIN. -/
def Rc.stepsToDrain (x : Rc) : Nat :=
  match x.state with
  | .setup => 5
  | .fill => 4 - x.fillIdx.toNat
  | _ => 0

theorem ringStep_owner {s t : State} (h : ringStep s = .next t) : t.rc.owner = s.rc.owner := by
  rcases ringStep_cases h with ⟨-, rfl⟩ | ⟨-, rfl⟩ | ⟨-, rfl⟩ | ⟨-, -, r, bs, -, -, rfl⟩ | ⟨-, rfl⟩ | ⟨-, -, rfl⟩ |
    ⟨-, -, -, -, bs, -, rfl⟩ | ⟨-, -, rfl⟩ | ⟨-, -, rfl⟩ | ⟨-, -, rfl⟩ | ⟨-, rfl⟩
  · rfl
  · rw [ringSetup_rc]
  · rfl
  · rfl
  · rfl
  · rfl
  · rfl
  · rfl
  · rfl
  · rfl
  · rw [ringCheck_rc]

/-- Only CHECK takes RC to IDLE. -/
theorem ringStep_busy {s t : State} (h : ringStep s = .next t) (hne : s.rc.state ≠ .idle)
    (hcheck : s.rc.state ≠ .check) : t.rc.state ≠ .idle := by
  rcases ringStep_cases h with ⟨hs, -⟩ | ⟨-, rfl⟩ | ⟨-, rfl⟩ | ⟨hs, -, r, bs, -, -, rfl⟩ | ⟨-, rfl⟩ | ⟨-, -, rfl⟩ |
    ⟨hs, -, -, -, bs, -, rfl⟩ | ⟨-, -, rfl⟩ | ⟨-, -, rfl⟩ | ⟨-, -, rfl⟩ | ⟨hs, -⟩
  · exact absurd hs hne
  · simp
  · exact nofun
  · exact hne
  · exact nofun
  · exact nofun
  · exact hne
  · exact nofun
  · exact hne
  · exact nofun
  · exact absurd hs hcheck

/-- SETUP, FILL and START come to DRAIN: each region is filled once. -/
theorem ringStep_preparing {s t : State} (h : ringStep s = .next t) (hs : s.rc.state.preparing) :
    t.rc.state = .drain ∨ (t.rc.state.preparing ∧ t.rc.stepsToDrain < s.rc.stepsToDrain) := by
  rcases hs with hs | hs | hs
  · obtain rfl : ringSetup s = t := by simpa [ringStep_of_setup hs] using h
    exact .inr ⟨.inr (.inl (by simp)), by simp [Rc.stepsToDrain, hs]⟩
  · rcases ringFill_cases (ringStep_of_fill hs ▸ h) with rfl | ⟨hlt, r, bs, rfl⟩
    · have hidx := s.rc.fillIdx.isLt
      refine .inr ⟨.inr (.inr rfl), ?_⟩
      simp only [Rc.stepsToDrain, ringFillDone, setRc_rc, hs]
      omega
    · have hidx : (s.rc.fillIdx + 1).toNat = s.rc.fillIdx.toNat + 1 := by
        rw [BitVec.toNat_add]
        exact Nat.mod_eq_of_lt (by simp; omega)
      have hfill : (s.fillWith r bs).rc.state = .fill := hs
      refine .inr ⟨.inr (.inl hs), ?_⟩
      simp only [Rc.stepsToDrain, hs, hfill, setRc_rc, hidx]
      omega
  · obtain rfl : ringStart s = t := by simpa [ringStep_of_start hs] using h
    exact .inl rfl

/-- From DRAIN and SLEEP RC goes on clocking to the same deadline, or to CHECK. -/
theorem ringStep_clocking {s t : State} (h : ringStep s = .next t) (hs : s.rc.state.clocking) :
    t.rc.state = .check ∨
      (t.rc.state.clocking ∧ t.rc.t0 = s.rc.t0 ∧ t.rc.deadline = s.rc.deadline) := by
  rcases hs with hs | hs
  · rcases ringDrain_cases (ringStep_of_drain hs ▸ h) with hrc | ⟨-, -, bs, -, hrc⟩ | ⟨-, w, hrc⟩ <;> rw [hrc]
    · exact .inl rfl
    · exact .inr ⟨.inl hs, rfl, rfl⟩
    · exact .inr ⟨.inr rfl, rfl, rfl⟩
  · obtain rfl : ringSleep s = t := by simpa [ringStep_of_sleep hs] using h
    unfold ringSleep
    split
    · exact .inr ⟨.inr hs, rfl, rfl⟩
    · exact .inr ⟨.inl rfl, rfl, rfl⟩

theorem ringStep_overdue {s t : State} (h : ringStep s = .next t) (hs : s.rc.state = .drain) (hover : s.overdue) :
    t.rc.state = .check := by
  rcases ringDrain_cases (ringStep_of_drain hs ▸ h) with hrc | ⟨hnot, -⟩ | ⟨hnot, -⟩
  · rw [hrc]
  · exact absurd hover hnot
  · exact absurd hover hnot

theorem ringStep_wakes {s t : State} (h : ringStep s = .next t) (hs : s.rc.state = .sleep)
    (he : s.ringEnabled = true) : t.rc.state = .drain := by
  have hwake : ¬ s.tNow.toNat < s.rc.wake.toNat := by simpa [State.ringEnabled, hs] using he
  obtain rfl : ringSleep s = t := by simpa [ringStep_of_sleep hs] using h
  rw [ringSleep, if_neg hwake]
  rfl

theorem ringStep_check {s t : State} (h : ringStep s = .next t) (hs : s.rc.state = .check) : t.rc.state = .idle := by
  obtain rfl : ringCheck s = t := by simpa [ringStep_of_check hs] using h
  rw [ringCheck_rc]

/-! ### RC through the steps of the other agents -/

/-- RC is where it was in the transfer; its report may have changed, for a frame refused meanwhile writes `RC.RESULT`
and `RC.FLAGS` (R120). -/
structure SameTransfer (s t : State) : Prop where
  state    : t.rc.state = s.rc.state
  owner    : t.rc.owner = s.rc.owner
  fillIdx  : t.rc.fillIdx = s.rc.fillIdx
  t0       : t.rc.t0 = s.rc.t0
  deadline : t.rc.deadline = s.rc.deadline
  wake     : t.rc.wake = s.rc.wake

theorem SameTransfer.of_rc {s t : State} (h : t.rc = s.rc) : SameTransfer s t := by
  constructor <;> rw [h]

theorem SameTransfer.trans {s t u : State} (h : SameTransfer s t) (h' : SameTransfer t u) : SameTransfer s u :=
  ⟨h'.state.trans h.state, h'.owner.trans h.owner, h'.fillIdx.trans h.fillIdx, h'.t0.trans h.t0,
    h'.deadline.trans h.deadline, h'.wake.trans h.wake⟩

theorem SameTransfer.stepsToDrain {s t : State} (h : SameTransfer s t) :
    t.rc.stepsToDrain = s.rc.stepsToDrain := by
  rw [Rc.stepsToDrain, Rc.stepsToDrain, h.state, h.fillIdx]

theorem runAction_sameTransfer {x : Action} (hx : x ≠ .ringStep) {s t : State} (hne : s.rc.state ≠ .idle)
    (h : runAction x s = .next t) : SameTransfer s t := by
  cases hr : ringAction x with
  | true => exact .of_rc (unit_rc hr hx h)
  | false =>
    rcases (runAction_frame hr s t h).rc with hrc | ⟨e, f, hrc⟩ | ⟨hidle, -⟩
    · exact .of_rc hrc
    · constructor <;> rw [hrc]
    · exact absurd hidle hne

/-- RC has a step from every state of a transfer, once a sleep has passed. -/
theorem ringEnabled_of_wake {s : State} (hne : s.rc.state ≠ .idle) (hw : s.rc.wake.toNat ≤ s.tNow.toNat) :
    s.ringEnabled = true := by
  cases hs : s.rc.state <;> simp_all [State.ringEnabled]

/-! ### Runs -/

/-- The state in which event `e` runs, in place of the agenda (log 1). -/
def State.taking (s : State) (e : Event) : State := { s with agenda := [], pick := e.pick }

section
variable {σ : Schedule} {r : Nat → State}

theorem IsRun.next (h : IsRun σ r) (n : Nat) : runAction (σ n).act ((r n).taking (σ n)) = .next (r (n + 1)) :=
  (step_runAction (h n)).2

theorem IsRun.time_mono (h : IsRun σ r) {m n : Nat} (hmn : m ≤ n) : (r m).tNow.toNat ≤ (r n).tNow.toNat :=
  monotone_nat_of_le_succ (f := fun k => (r k).tNow.toNat) (fun k => (runAction_oneWay (h.next k)).time) hmn

/-- RC steps at `m`, and has a step to take. -/
def RcSteps (σ : Schedule) (r : Nat → State) (m : Nat) : Prop := (σ m).act = .ringStep ∧ (r m).ringEnabled = true

theorem IsRun.rc_next (h : IsRun σ r) {m : Nat} (hm : RcSteps σ r m) :
    ringStep ((r m).taking (σ m)) = .next (r (m + 1)) := by
  have hrun := h.next m
  rwa [hm.1] at hrun

/-- A step in which RC does not move leaves the transfer as it is. -/
theorem IsRun.same_succ (h : IsRun σ r) {m : Nat} (hne : (r m).rc.state ≠ .idle) (hm : ¬ RcSteps σ r m) :
    SameTransfer (r m) (r (m + 1)) := by
  have hrun := h.next m
  by_cases hact : (σ m).act = .ringStep
  · have hstill : ringStep ((r m).taking (σ m)) = .next ((r m).taking (σ m)) := by
      by_contra hmoves
      exact hm ⟨hact, (ringEnabled_iff ((r m).taking (σ m))).2 hmoves⟩
    rw [hact, runAction, hstill] at hrun
    have hsame : (r m).taking (σ m) = r (m + 1) := by simpa using hrun
    exact .of_rc (hsame ▸ rfl)
  · have htaking : SameTransfer (r m) ((r m).taking (σ m)) := .of_rc rfl
    exact htaking.trans (runAction_sameTransfer hact hne hrun)

theorem IsRun.same_still (h : IsRun σ r) {j m : Nat} (hne : (r j).rc.state ≠ .idle) (hjm : j ≤ m)
    (hno : ∀ k, j ≤ k → k < m → ¬ RcSteps σ r k) : SameTransfer (r j) (r m) := by
  induction m, hjm using Nat.le_induction with
  | base => exact .of_rc rfl
  | succ m hjm ih =>
    have hm := ih fun k hk hkm => hno k hk (by omega)
    exact hm.trans (h.same_succ (by rwa [hm.state]) (hno m hjm (by omega)))

/-- Time passes a sleep's end, so in a fair run RC always steps again. -/
theorem IsRun.rcSteps_again (h : IsRun σ r) (hF : Fair σ r) {j : Nat} (hne : (r j).rc.state ≠ .idle) :
    ∃ m, j ≤ m ∧ RcSteps σ r m := by
  by_contra hnone
  have hno : ∀ k, j ≤ k → ¬ RcSteps σ r k := fun k hk hstep => hnone ⟨k, hk, hstep⟩
  obtain ⟨T, hT⟩ := hF.time (r j).rc.wake.toNat (r j).rc.wake.isLt
  have henabled : ∀ m, max j T ≤ m → (r m).ringEnabled = true := by
    intro m hm
    have hstill := h.same_still hne (le_of_max_le_left hm) fun k hk _ => hno k hk
    have htime := h.time_mono (le_of_max_le_right hm)
    exact ringEnabled_of_wake (by rwa [hstill.state]) (by rw [hstill.wake]; exact hT.trans htime)
  obtain ⟨m, hm, hact⟩ := hF.agents .rc (max j T) henabled
  exact hno m (le_of_max_le_left hm) ⟨hact, henabled m hm⟩

/-- RC's next step finds the transfer as it is now. -/
theorem IsRun.rcSteps_next (h : IsRun σ r) (hF : Fair σ r) {j : Nat} (hne : (r j).rc.state ≠ .idle) :
    ∃ m, j ≤ m ∧ RcSteps σ r m ∧ ∀ k, j ≤ k → k ≤ m → SameTransfer (r j) (r k) := by
  classical
  have hagain := h.rcSteps_again hF hne
  refine ⟨Nat.find hagain, (Nat.find_spec hagain).1, (Nat.find_spec hagain).2, fun k hjk hk => ?_⟩
  exact h.same_still hne hjk fun i hji hik hstep => Nat.find_min hagain (by omega) ⟨hji, hstep⟩

/-! ### From the start of a transfer to its end -/

/-- From step `n` to step `m` one transfer runs, for one owner. -/
def InTransfer (r : Nat → State) (n m : Nat) : Prop :=
  n ≤ m ∧ ∀ k, n ≤ k → k ≤ m → (r k).rc.state ≠ .idle ∧ (r k).rc.owner = (r n).rc.owner

theorem InTransfer.ne_idle {n m : Nat} (h : InTransfer r n m) : (r m).rc.state ≠ .idle := (h.2 m h.1 le_rfl).1

/-- RC stays in the transfer up to its next step, which finds RC as it is now. -/
theorem InTransfer.rcSteps (h : IsRun σ r) (hF : Fair σ r) {n j : Nat} (hj : InTransfer r n j) :
    ∃ m, j ≤ m ∧ InTransfer r n m ∧ RcSteps σ r m ∧ SameTransfer (r j) (r m) := by
  obtain ⟨m, hjm, hstep, hsame⟩ := h.rcSteps_next hF hj.ne_idle
  refine ⟨m, hjm, ⟨hj.1.trans hjm, fun k hnk hkm => ?_⟩, hstep, hsame m hjm le_rfl⟩
  rcases Nat.le_total k j with hkj | hjk
  · exact hj.2 k hnk hkj
  · obtain ⟨hne, howner⟩ := hj.2 j hj.1 le_rfl
    have hk := hsame k hjk hkm
    exact ⟨by rwa [hk.state], by rwa [hk.owner]⟩

theorem InTransfer.extend {n m : Nat} (hm : InTransfer r n m) (hne : (r (m + 1)).rc.state ≠ .idle)
    (howner : (r (m + 1)).rc.owner = (r m).rc.owner) : InTransfer r n (m + 1) := by
  refine ⟨hm.1.trans (Nat.le_succ m), fun k hnk hkm => ?_⟩
  rcases Nat.le_succ_iff.1 hkm with hk | rfl
  · exact hm.2 k hnk hk
  · exact ⟨hne, howner.trans (hm.2 m hm.1 le_rfl).2⟩

/-- A step of RC before CHECK stays in the transfer. -/
theorem InTransfer.succ_of_rcSteps (h : IsRun σ r) {n m : Nat} (hm : InTransfer r n m) (hstep : RcSteps σ r m)
    (hcheck : (r m).rc.state ≠ .check) : InTransfer r n (m + 1) :=
  hm.extend (ringStep_busy (h.rc_next hstep) hm.ne_idle hcheck)
    (ringStep_owner (s := (r m).taking (σ m)) (h.rc_next hstep))

theorem InTransfer.succ_of_not_rcSteps (h : IsRun σ r) {n m : Nat} (hm : InTransfer r n m) (hstep : ¬ RcSteps σ r m) :
    InTransfer r n (m + 1) := by
  have hsame := h.same_succ hm.ne_idle hstep
  exact hm.extend (by rw [hsame.state]; exact hm.ne_idle) hsame.owner

/-- SETUP, FILL and START end. -/
theorem InTransfer.reaches_drain (h : IsRun σ r) (hF : Fair σ r) {n j : Nat} (hj : InTransfer r n j)
    (hs : (r j).rc.state.preparing) : ∃ m, InTransfer r n m ∧ (r m).rc.state = .drain := by
  induction hk : (r j).rc.stepsToDrain using Nat.strong_induction_on generalizing j with
  | _ k ih =>
    obtain ⟨m, -, hm, hstep, hsame⟩ := hj.rcSteps h hF
    have hleft : (r m).rc.stepsToDrain = k := hk ▸ hsame.stepsToDrain
    have hprep : (r m).rc.state.preparing := by rwa [hsame.state]
    have hcheck : (r m).rc.state ≠ .check := fun hc => by simp [RcState.preparing, hc] at hprep
    have hnext := hm.succ_of_rcSteps h hstep hcheck
    rcases ringStep_preparing (h.rc_next hstep) hprep with hdrain | ⟨hprep', hless⟩
    · exact ⟨m + 1, hnext, hdrain⟩
    · exact ih _ (hleft ▸ hless) hnext hprep' rfl

/-- At or after the deadline the next step of DRAIN goes to CHECK. -/
theorem InTransfer.drain_reaches_check (h : IsRun σ r) (hF : Fair σ r) {n j : Nat} (hj : InTransfer r n j)
    (hs : (r j).rc.state = .drain) (hover : (r j).overdue) : ∃ m, InTransfer r n m ∧ (r m).rc.state = .check := by
  obtain ⟨m, hjm, hm, hstep, hsame⟩ := hj.rcSteps h hF
  have hdrain : (r m).rc.state = .drain := hsame.state.trans hs
  have hover' : (r m).overdue := hover.later hsame.t0 hsame.deadline (h.time_mono hjm)
  exact ⟨m + 1, hm.succ_of_rcSteps h hstep (by simp [hdrain]), ringStep_overdue (h.rc_next hstep) hdrain hover'⟩

theorem InTransfer.overdue_reaches_check (h : IsRun σ r) (hF : Fair σ r) {n j : Nat} (hj : InTransfer r n j)
    (hs : (r j).rc.state.clocking) (hover : (r j).overdue) : ∃ m, InTransfer r n m ∧ (r m).rc.state = .check := by
  rcases hs with hs | hs
  · exact hj.drain_reaches_check h hF hs hover
  · obtain ⟨m, hjm, hm, hstep, hsame⟩ := hj.rcSteps h hF
    have hsleep : (r m).rc.state = .sleep := hsame.state.trans hs
    have hover' : (r m).overdue := hover.later hsame.t0 hsame.deadline (h.time_mono hjm)
    have hwakes : (r (m + 1)).rc.state = .drain := ringStep_wakes (h.rc_next hstep) hsleep hstep.2
    have hnext := hm.succ_of_rcSteps h hstep (by simp [hsleep])
    rcases ringStep_clocking (h.rc_next hstep) (.inr hsleep) with hc | ⟨-, ht0, hdeadline⟩
    · exact absurd (hwakes.symm.trans hc) (by decide)
    · exact hnext.drain_reaches_check h hF hwakes (hover'.later ht0 hdeadline (h.time_mono (Nat.le_succ m)))

/-- Until it reaches CHECK, RC clocks to one deadline. -/
theorem InTransfer.clocks_on (h : IsRun σ r) {n j i : Nat} (hj : InTransfer r n j) (hs : (r j).rc.state.clocking)
    (hji : j ≤ i) : (∃ m, InTransfer r n m ∧ (r m).rc.state = .check) ∨
      (InTransfer r n i ∧ (r i).rc.state.clocking ∧ (r i).rc.t0 = (r j).rc.t0 ∧
        (r i).rc.deadline = (r j).rc.deadline) := by
  induction i, hji using Nat.le_induction with
  | base => exact .inr ⟨hj, hs, rfl, rfl⟩
  | succ i hji ih =>
    rcases ih with hcheck | ⟨hi, hclock, ht0, hdeadline⟩
    · exact .inl hcheck
    · by_cases hstep : RcSteps σ r i
      · have hne : (r i).rc.state ≠ .check := fun hc => by simp [RcState.clocking, hc] at hclock
        have hnext := hi.succ_of_rcSteps h hstep hne
        rcases ringStep_clocking (h.rc_next hstep) hclock with hc | ⟨hclock', ht0', hdeadline'⟩
        · exact .inl ⟨i + 1, hnext, hc⟩
        · exact .inr ⟨hnext, hclock', ht0'.trans ht0, hdeadline'.trans hdeadline⟩
      · have hsame := h.same_succ hi.ne_idle hstep
        exact .inr ⟨hi.succ_of_not_rcSteps h hstep, by rwa [hsame.state], hsame.t0.trans ht0,
          hsame.deadline.trans hdeadline⟩

/-- Time passes the deadline, so DRAIN and SLEEP end. -/
theorem InTransfer.clocking_reaches_check (h : IsRun σ r) (hF : Fair σ r) {n j : Nat} (hj : InTransfer r n j)
    (hs : (r j).rc.state.clocking) (hfits : (r j).rc.t0.toNat + (r j).rc.deadline.toNat < 2 ^ 64) :
    ∃ m, InTransfer r n m ∧ (r m).rc.state = .check := by
  obtain ⟨T, hT⟩ := hF.time _ hfits
  rcases hj.clocks_on h hs (le_max_left j T) with hcheck | ⟨hi, hclock, ht0, hdeadline⟩
  · exact hcheck
  · refine hi.overdue_reaches_check h hF hclock ?_
    have hmono := h.time_mono (le_max_right j T)
    show (r (max j T)).rc.deadline.toNat ≤ (r (max j T)).tNow.toNat - (r (max j T)).rc.t0.toNat
    rw [ht0, hdeadline]
    omega

/-- Every transfer comes to CHECK when its deadline falls before the end of time. -/
theorem InTransfer.reaches_check (h : IsRun σ r) (hF : Fair σ r) {n j : Nat} (hj : InTransfer r n j)
    (hfits : ∀ m, InTransfer r n m → (r m).rc.state.clocking →
      (r m).rc.t0.toNat + (r m).rc.deadline.toNat < 2 ^ 64) :
    ∃ m, InTransfer r n m ∧ (r m).rc.state = .check := by
  have hclocking : ∀ m, InTransfer r n m → (r m).rc.state.clocking → ∃ m, InTransfer r n m ∧ (r m).rc.state = .check :=
    fun m hm hs => hm.clocking_reaches_check h hF hs (hfits m hm hs)
  have hpreparing : (r j).rc.state.preparing → ∃ m, InTransfer r n m ∧ (r m).rc.state = .check := fun hs => by
    obtain ⟨m, hm, hdrain⟩ := hj.reaches_drain h hF hs
    exact hclocking m hm (.inl hdrain)
  cases hs : (r j).rc.state with
  | idle => exact absurd hs hj.ne_idle
  | setup => exact hpreparing (.inl hs)
  | fill => exact hpreparing (.inr (.inl hs))
  | start => exact hpreparing (.inr (.inr hs))
  | drain => exact hclocking j hj (.inl hs)
  | sleep => exact hclocking j hj (.inr hs)
  | check => exact ⟨j, hj, hs⟩

end

/-- Settles O26: a refill takes a whole LED; in a run fairness gives RC its steps and time passes every sleep and the
deadline, so RC comes to CHECK and leaves it. -/
theorem drainProgress : Obligations.DrainProgress := by
  refine ⟨?drain, ?ends⟩
  case drain =>
    intro s hp hI hs
    obtain ⟨t, ht⟩ := ringStep_next hI
    refine ⟨t, ht, ?_, fun hover => ringStep_overdue ht hs hover⟩
    have hne : s.rc.state ≠ .idle := by simp [hs]
    rcases ringDrain_cases (ringStep_of_drain hs ▸ ht) with hrc | ⟨-, hcur, bs, hbs, hrc⟩ | ⟨-, w, hrc⟩ <;> rw [hrc]
    · exact .inl rfl
    · obtain ⟨-, hled, hle, -⟩ := fillCount_facts hI hp hne s.rc.cur hcur
      have hcursor := fill_cursor hI hp hne hcur hbs
      refine .inr (.inl ⟨hs, ?_, ?_, rfl⟩)
      · show _ ≤ (s.fillWith s.rc.cur bs).rc.cursor.toNat
        omega
      · show (s.fillWith s.rc.cur bs).rc.cursor.toNat ≤ s.rc.total.toNat
        omega
    · exact .inr (.inr rfl)
  case ends =>
    intro σ r n hrun hF _ hne hfits
    have hn : InTransfer r n n := ⟨le_rfl, fun k hnk hkn => by
      obtain rfl := Nat.le_antisymm hkn hnk
      exact ⟨hne, rfl⟩⟩
    have hfits' : ∀ m, InTransfer r n m → (r m).rc.state.clocking →
        (r m).rc.t0.toNat + (r m).rc.deadline.toNat < 2 ^ 64 := fun m hm hs =>
      hfits m hm.1 (fun k hnk hkm => (hm.2 k hnk hkm).1) (by simpa [RcState.clocking] using hs)
    obtain ⟨j, hj, hcheck⟩ := hn.reaches_check hrun hF hfits'
    obtain ⟨m, -, hm, hstep, hsame⟩ := hj.rcSteps hrun hF
    have hcheck' : (r m).rc.state = .check := hsame.state.trans hcheck
    exact ⟨m, hm.1, hm.2, hcheck', hstep.1, ringStep_check (hrun.rc_next hstep) hcheck'⟩

end Sys2Proof.Machine
end

section
/-! PROOFS. The token arbiter (`42_token_arbiter.md` R150-R158): its commands, GRANT, how the token moves in one step,
and that in a fair run an idle token is granted. -/

namespace Sys2Proof.Machine

/-! ### The commands on a ready machine (R151-R154) -/

theorem exec_acquire_ready {s : State} (hr : s.ready = true) : exec .acquire s = .next (s.acquireFor s.issuer) := by
  simp [exec, execAcquire, hr]

theorem exec_tryHandoff_ready {s : State} (hr : s.ready = true) :
    exec .tryHandoff s = .next ((s.handoffFor s.issuer).1.complete s.issuer (s.handoffFor s.issuer).2) := by
  simp [exec, execTryHandoff, raise, hr]

theorem exec_release_ready {s : State} (hr : s.ready = true) :
    exec .release s = .next ((s.releaseFor s.issuer).1.complete s.issuer (s.releaseFor s.issuer).2) := by
  simp [exec, execRelease, raise, hr]

theorem acquireFor_waits {s : State} {q : Port} (hh : s.holds q = false) (hw : s.waiting q = false) :
    s.acquireFor q = s.enterWait q := by
  simp [State.acquireFor, State.reentrant, hh, hw]

theorem acquireFor_reentry {s : State} {q : Port} (h : s.holds q = true ∨ s.waiting q = true) :
    s.acquireFor q = s.complete q .eReentry := by
  simp [State.acquireFor, State.reentrant, h]

theorem enterWait_waiting_iff (s : State) (q p : Port) :
    (s.enterWait q).waiting p = true ↔ s.waiting p = true ∨ p = q := by
  simp [State.enterWait]

theorem enterWait_port (s : State) (q : Port) : (s.enterWait q).port q = { s.port q with blocked := true } := by
  simp [State.enterWait]

theorem portFrame_enterWait (s : State) (q : Port) : PortFrame q s (s.enterWait q) :=
  portFrame_of (h := fun p hp => by simp [State.enterWait, hp])

theorem keepsRing_enterWait (s : State) (q : Port) : KeepsRing s (s.enterWait q) := ⟨rfl, rfl, rfl, fun _ => rfl⟩

theorem portFrame_freeToken_complete (s : State) (q : Port) (x : Result) : PortFrame q s (s.freeToken.complete q x) :=
  portFrame_of (h := fun p hp => by simp [hp])

theorem handoffFor_of_draw {s : State} {q w : Port} (hh : s.holds q = true) (hd : s.drawWaiter = some w) :
    s.handoffFor q = (s.grantTo w, .preempted) := by
  simp [State.handoffFor, hh, hd]

theorem handoffFor_of_no_waiter {s : State} {q : Port} (hh : s.holds q = true) (hnone : ∀ p, s.waiting p = false) :
    s.handoffFor q = (s, .stillHeld) := by
  simp [State.handoffFor, hh, (drawWaiter_eq_none_iff s).2 hnone]

theorem handoffFor_of_not_holds {s : State} {q : Port} (hh : s.holds q = false) :
    s.handoffFor q = (s, .eNotHolder) := by
  simp [State.handoffFor, hh]

theorem releaseFor_of_not_holds {s : State} {q : Port} (hh : s.holds q = false) :
    s.releaseFor q = (s, .eNotHolder) := by
  simp [State.releaseFor, hh]

theorem releaseFor_of_holds {s : State} {q : Port} (hh : s.holds q = true) : s.releaseFor q = (s.freeToken, .ok) := by
  simp [State.releaseFor, hh]

/-! ### A grant (R152, R153, R155) -/

theorem grantTo_waiting_iff (s : State) (w p : Port) :
    (s.grantTo w).waiting p = true ↔ s.waiting p = true ∧ p ≠ w := by
  simp

theorem grantEnds_grantTo (s : State) (w : Port) : GrantEnds w s (s.grantTo w) := grantEnds_of (grantTo_port_same s w)

/-- The hand-off grants, then the caller completes. -/
theorem grantTo_complete_port {s : State} {q w : Port} (x : Result) (hne : q ≠ w) :
    CompletesWith q x s ((s.grantTo w).complete q x) := by
  rw [CompletesWith, complete_port_same, grantTo_port_ne s hne]

theorem grantEnds_grantTo_complete {s : State} {q w : Port} (x : Result) (hne : q ≠ w) :
    GrantEnds w s ((s.grantTo w).complete q x) :=
  grantEnds_of (by rw [complete_port_ne _ x hne.symm, grantTo_port_same])

theorem grantTo_complete_port_ne (s : State) {q w p : Port} (x : Result) (hq : p ≠ q) (hw : p ≠ w) :
    ((s.grantTo w).complete q x).port p = s.port p := by
  rw [complete_port_ne _ x hq, grantTo_port_ne s hw]

theorem keepsConfig_grantTo_complete (s : State) (q w : Port) (x : Result) :
    KeepsConfig s ((s.grantTo w).complete q x) := by
  constructor <;> simp

theorem keepsInputs_grantTo_complete (s : State) (q w : Port) (x : Result) :
    KeepsInputs s ((s.grantTo w).complete q x) := by
  constructor <;> simp

theorem keepsRing_grantTo_complete (s : State) (q w : Port) (x : Result) :
    KeepsRing s ((s.grantTo w).complete q x) := by
  constructor <;> simp [KeepsMemory]

theorem grantStep_of_draw {s : State} {w : Port} (hi : s.tk.state = .idle) (hd : s.drawWaiter = some w) :
    grantStep s = s.grantTo w := by
  simp [grantStep, hi, hd]

theorem grantStep_still {s : State} (h : s.tk.state = .held ∨ ∀ q, s.waiting q = false) : grantStep s = s := by
  rcases h with hheld | hnone
  · simp [grantStep, hheld]
  · cases hs : s.tk.state with
    | held => simp [grantStep, hs]
    | idle => simp [grantStep, hs, (drawWaiter_eq_none_iff s).2 hnone]

/-- GRANT of an idle token with a waiter leaves it held. -/
theorem grantStep_held {s : State} {q : Port} (hi : s.tk.state = .idle) (hq : s.waiting q = true) :
    (grantStep s).tk.state = .held := by
  obtain ⟨w, hd⟩ := drawWaiter_exists hq
  rw [grantStep_of_draw hi hd, grantTo_tk]

/-! ### How the token moves in one step (R156, R157) -/

theorem holds_of_tk {s t : State} (h : t.tk = s.tk) (q : Port) : t.holds q = s.holds q := by
  simp only [State.holds, h]

theorem waiting_of_tk {s t : State} (h : t.tk = s.tk) (q : Port) : t.waiting q = s.waiting q := by
  simp only [State.waiting, h]

theorem holds_of_idle {s : State} (h : s.tk.state = .idle) (q : Port) : s.holds q = false := by
  simp [State.holds, h]

theorem runAction_tokenMove {a : Action} {s t : State} (h : runAction a s = .next t) : TokenMove s t := by
  cases hr : ringAction a with
  | true => exact .inl (runAction_unit hr h).tk
  | false => exact (runAction_frame hr s t h).token

theorem step_tokenMove {s t : State} (h : step s = .next t) : TokenMove s t :=
  TokenMove.congr (ringSame_takeEvent s).tk (runAction_tokenMove (step_runAction h).2)

/-- Of the moves of the token only a grant makes a new holder, and it takes the port out of `TK.WAIT`. -/
theorem TokenMove.newHolder {s t : State} (h : TokenMove s t) {w : Port} (ht : t.holds w = true)
    (hs : s.holds w = false) : s.waiting w = true ∧ t.waiting w = false := by
  rcases h with hsame | ⟨q, -, -, henqueue⟩ | ⟨v, hv, hgrant⟩ | ⟨q, -, hfree⟩ | ⟨-, hfatal⟩
  · simp [holds_of_tk hsame, hs] at ht
  · have hkept : t.holds w = s.holds w := holds_of_tk henqueue w
    simp [hkept, hs] at ht
  · obtain rfl : w = v := by simpa [holds_of_tk hgrant] using ht
    exact ⟨hv, by simp [waiting_of_tk hgrant]⟩
  · simp [holds_of_idle (s := t) (by rw [hfree]; rfl)] at ht
  · simp [holds_of_idle (s := t) (by rw [hfatal])] at ht

/-- Of the moves of the token only a grant and FATAL take a port out of `TK.WAIT`. -/
theorem TokenMove.leavesWait {s t : State} (h : TokenMove s t) {w : Port} (hs : s.waiting w = true)
    (ht : t.waiting w = false) : t.holds w = true ∨ t.cfg.fatal = true := by
  rcases h with hsame | ⟨q, -, -, henqueue⟩ | ⟨v, -, hgrant⟩ | ⟨q, -, hfree⟩ | ⟨hfatal, -⟩
  · simp [waiting_of_tk hsame, hs] at ht
  · simp [waiting_of_tk henqueue, hs] at ht
  · obtain rfl : w = v := by simpa [waiting_of_tk hgrant, hs] using ht
    exact .inl (by simp [holds_of_tk hgrant])
  · have hkept : t.waiting w = s.waiting w := waiting_of_tk hfree w
    simp [hkept, hs] at ht
  · exact .inr hfatal

/-! ### A running transfer keeps its owner (R158) -/

/-- While a transfer runs, a step leaves it and its owner as they are, but for RC's own step. -/
theorem step_sameTransfer {s t : State} (hne : s.rc.state ≠ .idle) (hx : s.nextEvent.act ≠ .ringStep)
    (h : step s = .next t) : SameTransfer s t := by
  have htake := (ringSame_takeEvent s).rc
  exact (SameTransfer.of_rc htake).trans (runAction_sameTransfer hx (by rwa [htake]) (step_runAction h).2)

/-- RC's own step leaves the token alone. -/
theorem step_ring_tk {s t : State} (hx : s.nextEvent.act = .ringStep) (h : step s = .next t) : t.tk = s.tk := by
  have hrun := (step_runAction h).2
  rw [hx] at hrun
  exact (ringStep_unit hrun).tk.trans (ringSame_takeEvent s).tk

/-! ### Runs (R6, R152) -/

theorem grantEnabled_of_waiting {s : State} {q : Port} (hi : s.tk.state = .idle) (hq : s.waiting q = true) :
    s.grantEnabled = true := by
  have hne : s.waiters ≠ [] := List.ne_nil_of_mem ((mem_waiters s q).2 hq)
  simp [State.grantEnabled, hi, hne]

section
variable {σ : Schedule} {r : Nat → State}

theorem IsRun.tokenMove (h : IsRun σ r) (n : Nat) : TokenMove (r n) (r (n + 1)) :=
  TokenMove.congr (s' := (r n).taking (σ n)) rfl (runAction_tokenMove (h.next n))

/-- As long as the token stays idle and the machine does not become fatal, a waiter goes on waiting. -/
theorem IsRun.keeps_waiting (h : IsRun σ r) {n m : Nat} {q : Port} (hq : (r n).waiting q = true) (hnm : n ≤ m)
    (hno : ∀ k, n ≤ k → (r k).tk.state = .idle ∧ (r k).cfg.fatal = false) : (r m).waiting q = true := by
  induction m, hnm using Nat.le_induction with
  | base => exact hq
  | succ m hnm ih =>
    obtain ⟨hidle, hfatal⟩ := hno (m + 1) (by omega)
    by_contra hleft
    rcases (h.tokenMove m).leavesWait ih (by simpa using hleft) with hholds | hfatal'
    · simp [holds_of_idle hidle] at hholds
    · simp [hfatal] at hfatal'

/-- A GRANT that takes place while the token is idle and some port waits leaves it held. -/
theorem IsRun.grant_held (h : IsRun σ r) {m : Nat} {q : Port} (hact : (σ m).act = .grant)
    (hi : (r m).tk.state = .idle) (hq : (r m).waiting q = true) : (r (m + 1)).tk.state = .held := by
  have hrun := h.next m
  rw [hact] at hrun
  have hnext : grantStep ((r m).taking (σ m)) = r (m + 1) := by simpa [runAction] using hrun
  exact hnext ▸ grantStep_held (s := (r m).taking (σ m)) hi hq

/-- In a fair run some port comes to hold the token where one waits, or the machine becomes fatal: else GRANT would be
enabled for ever, and fairness would have it take place. -/
theorem IsRun.comes_to_be_held (h : IsRun σ r) (hF : Fair σ r) {n : Nat} {q : Port} (hq : (r n).waiting q = true) :
    ∃ m, n ≤ m ∧ ((r m).tk.state = .held ∨ (r m).cfg.fatal = true) := by
  by_contra hnever
  have hno : ∀ k, n ≤ k → (r k).tk.state = .idle ∧ (r k).cfg.fatal = false := by
    intro k hk
    obtain ⟨hheld, hfatal⟩ := not_or.1 fun hor => hnever ⟨k, hk, hor⟩
    refine ⟨?_, by simpa using hfatal⟩
    cases hs : (r k).tk.state with
    | idle => rfl
    | held => exact absurd hs hheld
  have hwaits : ∀ k, n ≤ k → (r k).waiting q = true := fun k hk => h.keeps_waiting hq hk hno
  obtain ⟨m, hnm, hact⟩ := hF.agents .grant n fun k hk => grantEnabled_of_waiting (hno k hk).1 (hwaits k hk)
  have hheld := h.grant_held hact (hno m hnm).1 (hwaits m hnm)
  exact hnever ⟨m + 1, by omega, .inl hheld⟩

end

/-! ### The obligations -/

/-- Settles O36: of the ways the token can move in one action, only a grant makes a new holder, and only a grant or
FATAL takes a port out of `TK.WAIT`. -/
theorem tokenMovesToWaiters : Obligations.TokenMovesToWaiters := by
  intro s t hst
  have hmove := step_tokenMove hst
  exact ⟨fun _ ht hs => hmove.newHolder ht hs, fun _ hs ht => hmove.leavesWait hs ht⟩

/-- Settles O37: RC's own step leaves the token alone; any other leaves the transfer running for the same owner, and
the invariant, which holds after it, gives that owner the token. -/
theorem noPreemptionMidTransfer : Obligations.NoPreemptionMidTransfer := by
  intro s t hI hne hst
  by_cases hx : s.nextEvent.act = .ringStep
  · rw [holds_of_tk (step_ring_tk hx hst)]
    exact hI.ring.ownerHolds hne
  · have hsame := step_sameTransfer hne hx hst
    have hholds := (invariantKept s t hI hst).ring.ownerHolds (by rwa [hsame.state])
    rwa [hsame.owner] at hholds

/-- Settles O32: a port that neither holds nor waits enters `TK.WAIT`; any other completes with `E_REENTRY`. -/
theorem acquireWaits : Obligations.AcquireWaits := by
  intro s hr
  refine ⟨_, exec_acquire_ready hr, ?enters, ?reentry⟩
  case enters =>
    intro hh hw
    rw [acquireFor_waits hh hw]
    exact ⟨rfl, rfl, enterWait_waiting_iff s s.issuer, enterWait_port s s.issuer, portFrame_enterWait s s.issuer,
      keepsRing_enterWait s s.issuer, rfl⟩
  case reentry =>
    intro h
    rw [acquireFor_reentry h]
    exact onlyCompletes s s.issuer .eReentry

/-- Settles O33: GRANT grants the port drawn, and the draw can be any waiter; in a fair run GRANT is not enabled for
ever without taking place. (The name `grantStep` is the model's own.) -/
theorem grantStep_spec : Obligations.GrantStep := by
  refine ⟨?grants, ?any, fun s h => grantStep_still h, fun σ r n hrun hF _ ⟨q, hq⟩ => hrun.comes_to_be_held hF hq⟩
  case grants =>
    rintro s hi ⟨q, hq⟩
    obtain ⟨w, hd⟩ := drawWaiter_exists hq
    rw [grantStep_of_draw hi hd]
    exact ⟨w, drawWaiter_waiting hd, by rw [grantTo_tk], by rw [grantTo_tk], grantTo_waiting_iff s w,
      grantEnds_grantTo s w, portFrame_grantTo s w, keepsRing_grantTo s w, grantTo_log s w⟩
  case any =>
    intro s w hi hw
    obtain ⟨n, hd⟩ := drawWaiter_any hw
    exact ⟨n, by rw [grantStep_of_draw (s := { s with pick := n }) hi hd, grantTo_tk]⟩

/-- Settles O34: the effect is a grant to the waiter drawn, or nothing where nobody waits; then the caller, which is
not the waiter, completes. -/
theorem tryHandoffCompletes : Obligations.TryHandoffCompletes := by
  intro s hr hh hnw
  refine ⟨_, exec_tryHandoff_ready hr, ?handsOff, ?stillHeld⟩
  case handsOff =>
    rintro ⟨p, hp⟩
    obtain ⟨w, hd⟩ := drawWaiter_exists hp
    have hw : s.waiting w = true := drawWaiter_waiting hd
    have hne : s.issuer ≠ w := fun e => by simp [← e, hnw] at hw
    rw [handoffFor_of_draw hh hd]
    exact ⟨w, hw, by simp, by simp, grantTo_waiting_iff s w, grantTo_complete_port _ hne,
      grantEnds_grantTo_complete _ hne, fun p hq hpw => grantTo_complete_port_ne s _ hq hpw,
      keepsConfig_grantTo_complete s _ w _, keepsInputs_grantTo_complete s _ w _, keepsRing_grantTo_complete s _ w _,
      by simp, by simp⟩
  case stillHeld =>
    intro hnone
    rw [handoffFor_of_no_waiter hh hnone]
    exact onlyCompletes s s.issuer .stillHeld

/-- Settles O35: the holder's RELEASE idles the token and completes; for another port both effects are `E_NOT_HOLDER`
on the state as it is. -/
theorem releaseCompletes : Obligations.ReleaseCompletes := by
  refine ⟨?releases, ?notHolder⟩
  case releases =>
    intro s hr hh
    refine ⟨_, exec_release_ready hr, ?_⟩
    rw [releaseFor_of_holds hh]
    exact ⟨rfl, complete_port_same .., portFrame_freeToken_complete s s.issuer .ok, ⟨rfl, rfl, rfl, fun _ => rfl⟩, rfl⟩
  case notHolder =>
    intro i hi s hr hh
    refine ⟨s.complete s.issuer .eNotHolder, ?_, onlyCompletes s s.issuer .eNotHolder⟩
    simp only [List.mem_cons, List.not_mem_nil, or_false] at hi
    rcases hi with rfl | rfl
    · rw [exec_tryHandoff_ready hr, handoffFor_of_not_holds hh]
    · rw [exec_release_ready hr, releaseFor_of_not_holds hh]

end Sys2Proof.Machine
end

section
/-! PROOFS. The play index and its deadlines (`43_command_sequencer.md` R175, R176), and that a validated range holds
every frame of it (R174). -/

namespace Sys2Proof.Machine

/-! ### The index and its deadlines (R175, R176) -/

theorem playIndex_eq (x : Seq) (now : Nat) :
    playIndex x now = min x.upto.toNat (x.first.toNat + (now - x.t0.toNat) * x.fps.toNat / 10 ^ 9) := rfl

theorem nextDeadline_eq (x : Seq) (idx : Nat) :
    nextDeadline x idx = x.t0.toNat + ceilDiv ((idx - x.first.toNat + 1) * 10 ^ 9) x.fps.toNat := rfl

/-- `ceil_div` is the least number that reaches `a` in steps of `b` (`00_scope.md` R9). -/
theorem ceilDiv_le_iff {a b d : Nat} (hb : 0 < b) : ceilDiv a b ≤ d ↔ a ≤ d * b := by
  rw [Nat.mul_comm]
  exact gc_mul_ceilDiv hb a d

theorem word_toNat_pos {w : Word} (h : w ≠ 0) : 0 < w.toNat := by
  bv_omega

/-- A frame's deadline has passed exactly when the frames that fit in the time since `T0` have passed it. -/
theorem nextDeadline_le_iff {x : Seq} (hfps : x.fps ≠ 0) (idx now : Nat) : nextDeadline x idx ≤ now ↔
    idx - x.first.toNat + 1 ≤ (now - x.t0.toNat) * x.fps.toNat / 10 ^ 9 := by
  have hpos : 0 < x.fps.toNat := word_toNat_pos hfps
  have hsome : ¬ ceilDiv ((idx - x.first.toNat + 1) * 10 ^ 9) x.fps.toNat ≤ 0 := by
    rw [ceilDiv_le_iff hpos]
    omega
  calc nextDeadline x idx ≤ now
      ↔ ceilDiv ((idx - x.first.toNat + 1) * 10 ^ 9) x.fps.toNat ≤ now - x.t0.toNat := by
        rw [nextDeadline_eq]
        omega
    _ ↔ (idx - x.first.toNat + 1) * 10 ^ 9 ≤ (now - x.t0.toNat) * x.fps.toNat := ceilDiv_le_iff hpos
    _ ↔ _ := (Nat.le_div_iff_mul_le (by decide)).symm

theorem playIndex_before_deadline {x : Seq} {idx now : Nat} (hfps : x.fps ≠ 0) (hfrom : x.first.toNat ≤ idx)
    (h : now < nextDeadline x idx) : playIndex x now ≤ idx := by
  rw [← not_le, nextDeadline_le_iff hfps] at h
  rw [playIndex_eq]
  omega

theorem playIndex_from_deadline {x : Seq} {idx now : Nat} (hfps : x.fps ≠ 0) (h : nextDeadline x idx ≤ now) :
    idx + 1 ≤ playIndex x now ∨ playIndex x now = x.upto.toNat := by
  rw [nextDeadline_le_iff hfps] at h
  rw [playIndex_eq]
  omega

theorem playIndex_mono (x : Seq) : Monotone (playIndex x) := by
  intro now later h
  rw [playIndex_eq, playIndex_eq]
  gcongr

theorem first_le_playIndex {x : Seq} (h : x.first.toNat ≤ x.upto.toNat) (now : Nat) :
    x.first.toNat ≤ playIndex x now :=
  le_min h (Nat.le_add_right _ _)

/-! ### A validated range (R174) -/

/-- Of `Validate`'s checks only the range check looks at the frame index, so a lower one passes them all. -/
theorem validate_of_le {s : State} {store upto i : Word} {v : Frame} (h : s.validate store upto = .ok v)
    (hi : i.toNat ≤ upto.toNat) : ∃ v', s.validate store i = .ok v' ∧ v'.nc = v.nc ∧ v'.nl = v.nl := by
  obtain ⟨f, hf, hhw, hnc, hnl, hnz, hsize, hlen, hframe, husable, -⟩ := validate_ok h
  rw [hnc] at hhw hsize hlen husable
  rw [hnl] at hnz hsize hlen
  rw [hnc, hnl, validate_present i hf, if_neg (by omega), if_neg (not_not.2 hhw),
    if_neg (not_or.2 ⟨hnz, not_lt.2 hsize⟩), if_neg (not_not.2 hlen), if_neg (not_le.2 (hi.trans_lt hframe)),
    if_neg (not_exists.2 husable)]
  exact ⟨_, rfl, rfl, rfl⟩

/-- Settles O48: the deadline is the least time by which the index has passed the frame, and of the checks only the
range looks at the index. -/
theorem playOrder : Obligations.PlayOrder := by
  refine ⟨fun x now => ⟨playIndex_eq x now, fun idx hfps hfrom => ⟨⟨_, nextDeadline_eq x idx, ?reaches, ?least⟩,
      playIndex_before_deadline hfps hfrom, playIndex_from_deadline hfps⟩,
    fun _ hlater => playIndex_mono x hlater, fun hrange => first_le_playIndex hrange now⟩,
    fun s store upto v hv i hi => validate_of_le hv hi⟩
  case reaches => exact (ceilDiv_le_iff (word_toNat_pos hfps)).1 le_rfl
  case least => exact fun d hd => (ceilDiv_le_iff (word_toNat_pos hfps)).2 hd

end Sys2Proof.Machine
end

section
/-! PROOFS. Datagrams that reach no port (`43_command_sequencer.md` R181-R183). -/

namespace Sys2Proof.Machine

theorem deliverDatagram_unrecognised {s : State} {d : List Byte} {e : DecodeError} (hr : s.ready = true)
    (hd : decodeDatagram d = .error e) : deliverDatagram d s = .next (s.logUnrecognised d) := by
  simp [deliverDatagram, hr, hd]

/-- The length of a datagram that fits the log's argument is what is logged (log 29). -/
theorem logUnrecognised_fits (s : State) {d : List Byte} (h : d.length < 2 ^ 32) :
    s.logUnrecognised d = s.logEvent none .dgramUnrecognized (BitVec.ofNat 32 d.length) 0 := by
  rw [State.logUnrecognised, fitWord, if_pos h]

/-! ### The datagram forms that are not dispatched -/

section
variable {s : State} {path : List Byte}

theorem exec_showDatagram_not_ready (frame : Word) (hr : s.ready = false) :
    exec (.showDatagram path frame) s = .next s := by
  simp [exec, execShowDatagram, hr]

theorem exec_playDatagram_not_ready (first last fps : Word) (hr : s.ready = false) :
    exec (.playDatagram path first last fps) s = .next s := by
  simp [exec, execPlayDatagram, hr]

theorem exec_stopDatagram_not_ready (hr : s.ready = false) : exec .stopDatagram s = .next s := by
  simp [exec, execStopDatagram, hr]

theorem exec_showDatagram_missing (frame : Word) (hr : s.ready = true) (hpath : s.par.resolve.lookup path = none) :
    exec (.showDatagram path frame) s = .next s.logMissing := by
  simp [exec, execShowDatagram, State.resolvePath, hr, hpath]

theorem exec_playDatagram_missing (first last fps : Word) (hr : s.ready = true)
    (hpath : s.par.resolve.lookup path = none) : exec (.playDatagram path first last fps) s = .next s.logMissing := by
  simp [exec, execPlayDatagram, State.resolvePath, hr, hpath]

theorem exec_showDatagram_dropped {store : Word} (frame : Word) (hr : s.ready = true)
    (hpath : s.par.resolve.lookup path = some store) (hfree : s.freePort = none) :
    exec (.showDatagram path frame) s = .next (s.logDropped 0x30#8) := by
  simp [exec, execShowDatagram, State.resolvePath, hr, hpath, hfree]

theorem exec_playDatagram_dropped {store : Word} (first last fps : Word) (hr : s.ready = true)
    (hpath : s.par.resolve.lookup path = some store) (hfree : s.freePort = none) :
    exec (.playDatagram path first last fps) s = .next (s.logDropped 0x31#8) := by
  simp [exec, execPlayDatagram, State.resolvePath, hr, hpath, hfree]

theorem exec_stopDatagram_dropped (hr : s.ready = true) (hfree : s.freePort = none) :
    exec .stopDatagram s = .next (s.logDropped 0x32#8) := by
  simp [exec, execStopDatagram, hr, hfree]

end

/-- Settles O50: each datagram ends in the log, or nowhere. -/
theorem datagramsNotDispatched : Obligations.DatagramsNotDispatched := by
  refine ⟨fun s d e hr hd hlen => ?unrecognised, fun s => ⟨fun hr d => deliverDatagram_not_ready d hr,
    fun hr path a b c => ?notReady, fun hr path a b c hpath => ?missing, fun hr hbusy => ?dropped⟩⟩
  case unrecognised =>
    rw [deliverDatagram_unrecognised hr hd, logUnrecognised_fits s hlen]
    rfl
  case notReady =>
    exact ⟨exec_showDatagram_not_ready a hr, exec_playDatagram_not_ready a b c hr, exec_stopDatagram_not_ready hr⟩
  case missing => exact ⟨exec_showDatagram_missing a hr hpath, exec_playDatagram_missing a b c hr hpath⟩
  case dropped =>
    have hfree : s.freePort = none := freePort_none hbusy
    exact ⟨fun path a b c store hpath =>
      ⟨exec_showDatagram_dropped a hr hpath hfree, exec_playDatagram_dropped a b c hr hpath hfree⟩,
      exec_stopDatagram_dropped hr hfree⟩

end Sys2Proof.Machine
end

section
/-! PROOFS. SHOW, PLAY and STOP: their issue and their phases, one by one (`43_command_sequencer.md` R170-R179). -/

namespace Sys2Proof.Machine

/-! ### Steps that write one port -/

section
variable {s : State} {q : Port} {p : PortState} {o : Host.Outcome State Fault Refusal}

theorem writesPort (h : o = .next (s.setPort q p)) :
    ∃ t, o = .next t ∧ t.port q = p ∧ PortFrame q s t ∧ KeepsRing s t ∧ t.tk = s.tk ∧ t.log = s.log :=
  ⟨_, h, setPort_port_same .., portFrame_setPort .., keepsRing_setPort .., rfl, rfl⟩

theorem portFrame_logEvent_setPort (s : State) (q : Port) (l : Option Port) (kind : LogKind) (a b : Word)
    (p : PortState) : PortFrame q s ((s.logEvent l kind a b).setPort q p) :=
  portFrame_of (h := fun _ hne => setPort_port_ne _ _ hne)

theorem logsAndWritesPort {kind : LogKind} {a b : Word}
    (h : o = .next ((s.logEvent (some q) kind a b).setPort q p)) :
    ∃ t, o = .next t ∧ t.log = s.log ++ [⟨s.tNow, some q, kind, a, b⟩] ∧ t.port q = p ∧ PortFrame q s t ∧
      KeepsRing s t ∧ t.tk = s.tk :=
  ⟨_, h, rfl, setPort_port_same .., portFrame_logEvent_setPort .., ⟨rfl, rfl, rfl, fun _ => rfl⟩, rfl⟩

theorem loadsAndWritesPort {x : Rc} (h : o = .next ((s.setRc x).setPort q p)) :
    ∃ t, o = .next t ∧ t.rc = x ∧ t.port q = p ∧ PortFrame q s t ∧ t.tk = s.tk ∧ t.log = s.log ∧ t.cp = s.cp ∧
      t.out = s.out ∧ KeepsMemory s t :=
  ⟨_, h, rfl, setPort_port_same .., portFrame_setRc_setPort .., rfl, rfl, rfl, rfl, fun _ => rfl⟩

end

/-! ### Issue (R172, R174, R178) -/

section
variable {s : State} (hr : s.ready = true)
include hr

theorem exec_showFrame_ready : exec .showFrame s = .next (s.beginShow s.issuer) := by simp [exec, execShowFrame, hr]

theorem exec_playFrames_ready : exec .playFrames s = .next (s.beginPlay s.issuer) := by
  simp [exec, execPlayFrames, hr]

theorem exec_stopPlayback_ready : exec .stopPlayback s = .next (s.beginStop s.issuer) := by
  simp [exec, execStopPlayback, hr]

end

/-- Settles O38: the issue of each writes the context of its port. -/
theorem macroBegins : Obligations.MacroBegins := fun _ hr =>
  ⟨writesPort (exec_showFrame_ready hr), writesPort (exec_playFrames_ready hr),
    writesPort (exec_stopPlayback_ready hr)⟩

/-! ### The step of each phase (R170) -/

section
variable {s : State} {q : Port} {k : Kind}

theorem portStep_show {p : Phase} (h : AtPhase s q .showCmd p) : portStep q s = showStep q s := atPhase_step h

theorem portStep_play {p : Phase} (h : AtPhase s q .playCmd p) : portStep q s = playStep q s := atPhase_step h

theorem portStep_stop {p : Phase} (h : AtPhase s q .stopCmd p) : portStep q s = stopStep q s := atPhase_step h

theorem portStep_showValidate (h : AtPhase s q .showCmd .validate) : portStep q s = .next (showValidate q s) := by
  rw [portStep_show h, showStep, h.phase]

theorem portStep_playValidate (h : AtPhase s q .playCmd .validate) : portStep q s = .next (playValidate q s) := by
  rw [portStep_play h, playStep, h.phase]

theorem portStep_acq (hk : k ≠ .none) (h : AtPhase s q k .acq) : portStep q s = .next (acqPhase q s) := by
  cases k with
  | none => exact absurd rfl hk
  | showCmd => rw [portStep_show h, showStep, h.phase]
  | playCmd => rw [portStep_play h, playStep, h.phase]
  | stopCmd => rw [portStep_stop h, stopStep, h.phase]

theorem portStep_clock (h : AtPhase s q .playCmd .clock) : portStep q s = .next (playClock q s) := by
  rw [portStep_play h, playStep, h.phase]

theorem mem_showPlay_iff : k ∈ [Kind.showCmd, .playCmd] ↔ k = .showCmd ∨ k = .playCmd := by simp

theorem portStep_poll (hk : k ∈ [Kind.showCmd, .playCmd]) (h : AtPhase s q k .poll) :
    portStep q s = .next (pollPhase q s) := by
  rcases mem_showPlay_iff.1 hk with rfl | rfl
  · rw [portStep_show h, showStep, h.phase]
  · rw [portStep_play h, playStep, h.phase]

theorem portStep_showXfer (h : AtPhase s q .showCmd .xfer) : portStep q s = showXfer q s := by
  rw [portStep_show h, showStep, h.phase]

theorem portStep_playXfer (h : AtPhase s q .playCmd .xfer) : portStep q s = playXfer q s := by
  rw [portStep_play h, playStep, h.phase]

theorem portStep_wait {p : Phase} (hk : (k, p) ∈ [(Kind.showCmd, Phase.backoff), (.playCmd, .pace)])
    (h : AtPhase s q k p) : portStep q s = .next (wakePhase q s) := by
  simp only [List.mem_cons, Prod.mk.injEq, List.not_mem_nil, or_false] at hk
  rcases hk with ⟨rfl, rfl⟩ | ⟨rfl, rfl⟩
  · rw [portStep_show h, showStep, h.phase]
  · rw [portStep_play h, playStep, h.phase]

theorem portStep_showRelease (h : AtPhase s q .showCmd .release) : portStep q s = .next (showRelease q s) := by
  rw [portStep_show h, showStep, h.phase]

theorem portStep_playRelease (h : AtPhase s q .playCmd .release) : portStep q s = .next (playRelease q s) := by
  rw [portStep_play h, playStep, h.phase]

theorem portStep_stopRelease (h : AtPhase s q .stopCmd .release) : portStep q s = .next (stopRelease q s) := by
  rw [portStep_stop h, stopStep, h.phase]

end

/-! ### VALIDATE (R171, R172, R174) -/

/-- What VALIDATE does with what its checks found (`showValidate_eq`, `playValidate_eq`). -/
def State.endValidate (s : State) (q : Port) : Except Result Frame → State
  | .error e => s.invalidCommand q e
  | .ok _ => s.setPhase q .acq

/-- PLAY's checks: its range, then the frame TO. -/
def State.playChecks (s : State) (q : Port) : Except Result Frame :=
  if playRangeBad (s.port q).seq then .error .eRange else s.validate (s.port q).seq.store (s.port q).seq.upto

theorem showValidate_eq (s : State) (q : Port) :
    showValidate q s = s.endValidate q (s.validate (s.port q).seq.store (s.port q).seq.idx) := by
  unfold showValidate
  cases s.validate (s.port q).seq.store (s.port q).seq.idx <;> rfl

theorem playValidate_eq (s : State) (q : Port) : playValidate q s = s.endValidate q (s.playChecks q) := by
  unfold playValidate State.playChecks
  split
  · rfl
  · cases s.validate (s.port q).seq.store (s.port q).seq.upto <;> rfl

theorem playRangeBad_iff (x : Seq) : playRangeBad x = true ↔ x.fps = 0 ∨ x.upto.toNat < x.first.toNat := by
  simp [playRangeBad, BitVec.toNat_eq]

theorem playChecks_bad {s : State} {q : Port}
    (h : (s.port q).seq.fps = 0 ∨ (s.port q).seq.upto.toNat < (s.port q).seq.first.toNat) :
    s.playChecks q = .error .eRange :=
  if_pos ((playRangeBad_iff _).2 h)

theorem playChecks_good {s : State} {q : Port} (hfps : (s.port q).seq.fps ≠ 0)
    (hle : (s.port q).seq.first.toNat ≤ (s.port q).seq.upto.toNat) :
    s.playChecks q = s.validate (s.port q).seq.store (s.port q).seq.upto :=
  if_neg fun h => ((playRangeBad_iff _).1 h).elim hfps (not_lt.2 hle)

/-- The two ends of VALIDATE (R171). -/
theorem endValidate_spec (s : State) (q : Port) (found : Except Result Frame) :
    PortFrame q s (s.endValidate q found) ∧ KeepsRing s (s.endValidate q found) ∧
      (s.endValidate q found).tk = s.tk ∧
      (∀ e, found = .error e →
        (s.endValidate q found).log = s.log ++ [⟨s.tNow, some q, .cmdInvalid, e.word, 0⟩] ∧
          CompletesWith q e s (s.endValidate q found)) ∧
      ∀ v, found = .ok v → (s.endValidate q found).log = s.log ∧
        (s.endValidate q found).port q = { s.port q with seq := { (s.port q).seq with phase := .acq } } := by
  cases found with
  | error e =>
    refine ⟨portFrame_logEvent_setPort .., ⟨rfl, rfl, rfl, fun _ => rfl⟩, rfl, ?_, nofun⟩
    rintro _ ⟨⟩
    exact ⟨rfl, complete_port_same ..⟩
  | ok v => exact ⟨portFrame_setPort .., keepsRing_setPort .., rfl, nofun, fun _ _ => ⟨rfl, setPhase_port_same ..⟩⟩

/-- Settles O39: both kinds end VALIDATE alike; PLAY's checks begin with its range. -/
theorem macroValidates : Obligations.MacroValidates := by
  refine fun s q => ⟨fun hat => ?showKind, fun hat => ?playKind⟩
  case showKind => exact ⟨_, (portStep_showValidate hat).trans (by rw [showValidate_eq]), endValidate_spec ..⟩
  case playKind =>
    obtain ⟨hframe, hring, htk, herror, hok⟩ := endValidate_spec s q (s.playChecks q)
    exact ⟨_, (portStep_playValidate hat).trans (by rw [playValidate_eq]), hframe, hring, htk,
      fun hbad => herror _ (playChecks_bad hbad), fun hfps hle =>
        ⟨fun e he => herror e ((playChecks_good hfps hle).trans he),
          fun v hv => hok v ((playChecks_good hfps hle).trans hv)⟩⟩

/-! ### ACQ (R172, R174, R178) -/

section
variable {s : State} {q : Port}

theorem acqPhase_blocked (hb : (s.port q).blocked = true) : acqPhase q s = s := if_pos hb

theorem acqPhase_granted (hb : (s.port q).blocked = false) (hq : (s.port q).seq.queued = true) :
    acqPhase q s =
      s.setSeq q { (s.port q).seq with phase := (s.port q).seq.kind.afterAcq, queued := false } := by
  simp [acqPhase, hb, hq]

theorem acqPhase_reentry (hb : (s.port q).blocked = false) (hq : (s.port q).seq.queued = false)
    (h : s.holds q = true ∨ s.waiting q = true) : acqPhase q s = s.complete q .eReentry := by
  simp [acqPhase, State.reentrant, hb, hq, h]

theorem acqPhase_enters (hb : (s.port q).blocked = false) (hq : (s.port q).seq.queued = false)
    (hh : s.holds q = false) (hw : s.waiting q = false) :
    acqPhase q s = (s.enqueue q).setPort q
      { s.port q with blocked := true, seq := { (s.port q).seq with queued := true } } := by
  calc acqPhase q s = (s.setSeq q { (s.port q).seq with queued := true }).enterWait q := by
        simp [acqPhase, State.reentrant, hb, hq, hh, hw]
    _ = ((s.enqueue q).setPort q { s.port q with seq := { (s.port q).seq with queued := true } }).setBlocked q true :=
        rfl
    _ = _ := by rw [State.setBlocked, setPort_setPort, setPort_port_same]

end

/-- Settles O40: blocked, entering (or refused) and granted are the branches of ACQ. -/
theorem macroAcquires : Obligations.MacroAcquires := by
  intro s q k hk hat
  have hstep := portStep_acq hk hat
  refine ⟨fun hb => ?blocked, fun hb hq => ⟨_, hstep, fun h => ?reentry, fun hh hw => ?enters⟩,
    fun hb hq p hp => ?granted⟩
  case blocked => rw [hstep, acqPhase_blocked hb]
  case reentry =>
    rw [acqPhase_reentry hb hq h]
    exact onlyCompletes ..
  case enters =>
    rw [acqPhase_enters hb hq hh hw]
    exact ⟨fun p => by simp, rfl, rfl, setPort_port_same .., portFrame_of (h := fun _ hne => setPort_port_ne _ _ hne),
      ⟨rfl, rfl, rfl, fun _ => rfl⟩, rfl⟩
  case granted =>
    obtain rfl : p = (s.port q).seq.kind.afterAcq := by
      rw [hat.kind]
      simp only [List.mem_cons, Prod.mk.injEq, List.not_mem_nil, or_false] at hp
      rcases hp with ⟨rfl, rfl⟩ | ⟨rfl, rfl⟩ | ⟨rfl, rfl⟩ <;> rfl
    exact writesPort (hstep.trans (by rw [acqPhase_granted hb hq]; rfl))

/-! ### CLOCK, POLL and the waits (R172, R174, `70_reset_and_hazards.md` R244) -/

section
variable {s : State} {q : Port}

theorem pollPhase_of_draw {w : Port} (hh : s.holds q = true) (hd : s.drawWaiter = some w) :
    pollPhase q s = (s.grantTo w).complete q .preempted := by
  rw [pollPhase, handoffFor_of_draw hh hd]

theorem pollPhase_of_no_waiter (hh : s.holds q = true) (hnone : ∀ p, s.waiting p = false) :
    pollPhase q s = s.setPhase q .xfer := by
  rw [pollPhase, handoffFor_of_no_waiter hh hnone]

theorem wakePhase_before (h : s.tNow.toNat < (s.port q).seq.wake.toNat) : wakePhase q s = s := if_pos h

theorem wakePhase_due (h : (s.port q).seq.wake.toNat ≤ s.tNow.toNat) :
    wakePhase q s =
      s.setPort q { s.port q with blocked := false, seq := { (s.port q).seq with phase := .poll } } := by
  rw [wakePhase, if_neg (not_lt.2 h), State.setBlocked, setPhase_port_same]
  exact setPort_setPort ..

end

/-- Settles O41: POLL is the hand-off of TRY_HANDOFF; the port goes on where nobody waits. -/
theorem macroPolls : Obligations.MacroPolls := by
  intro s q k hk hat hh hnw
  refine ⟨_, portStep_poll hk hat, ?_⟩
  cases hd : s.drawWaiter with
  | some w =>
    have hw : s.waiting w = true := drawWaiter_waiting hd
    have hne : q ≠ w := fun e => by simp [← e, hnw] at hw
    rw [pollPhase_of_draw hh hd]
    exact ⟨keepsConfig_grantTo_complete .., keepsInputs_grantTo_complete .., keepsRing_grantTo_complete .., by simp,
      by simp, fun _ => ⟨w, hw, by simp, by simp, grantTo_complete_port _ hne, grantTo_waiting_iff s w,
        grantEnds_grantTo_complete _ hne, fun p hq hpw => grantTo_complete_port_ne s _ hq hpw⟩,
      fun hnone => absurd hw (by simp [hnone w])⟩
  | none =>
    have hnone := (drawWaiter_eq_none_iff s).1 hd
    rw [pollPhase_of_no_waiter hh hnone]
    exact ⟨⟨rfl, rfl, rfl⟩, ⟨rfl, rfl, rfl, rfl, rfl, rfl, rfl, rfl⟩, keepsRing_setPort .., rfl, rfl,
      fun ⟨p, hp⟩ => absurd hp (by simp [hnone p]),
      fun _ => ⟨rfl, setPhase_port_same .., fun _ hne => setPhase_port_ne _ _ hne⟩⟩

/-- Settles O46: CLOCK writes the port; a wait ends with the first step at its wake time. -/
theorem clockAndWaits : Obligations.ClockAndWaits := by
  refine ⟨fun s q hat => writesPort (portStep_clock hat), fun s q k p hk hat =>
    ⟨fun hbefore => ?holds, fun hdue => ?wakes⟩⟩
  case holds => rw [portStep_wait hk hat, wakePhase_before hbefore]
  case wakes => exact writesPort ((portStep_wait hk hat).trans (by rw [wakePhase_due hdue]))

/-! ### XFER: the start of the transfer (R172, R174) -/

section
variable {s : State} {q : Port} {v : Frame}

theorem showXfer_starts (hb : (s.port q).blocked = false) (hi : s.rc.state = .idle)
    (hv : s.validate (s.port q).seq.store (s.port q).seq.idx = .ok v) :
    showXfer q s = .next ((s.setRc (s.rc.load q (s.port q).seq.store v)).setBlocked q true) := by
  simp [showXfer, hb, startXfer_ok q hi hv]

/-- PLAY chooses its frame and starts that frame's transfer. -/
theorem playXfer_starts (hb : (s.port q).blocked = false) (hi : s.rc.state = .idle)
    (hv : s.validate (s.port q).seq.store (BitVec.ofNat 32 (playIndex (s.port q).seq s.tNow.toNat)) = .ok v) :
    playXfer q s = .next ((s.setRc (s.rc.load q (s.port q).seq.store v)).setPort q
      { s.port q with
        blocked := true
        seq := { (s.port q).seq with idx := BitVec.ofNat 32 (playIndex (s.port q).seq s.tNow.toNat) } }) := by
  have hport : ((s.choosePlayIndex q).port q).seq =
      { (s.port q).seq with idx := BitVec.ofNat 32 (playIndex (s.port q).seq s.tNow.toNat) } := by
    rw [State.choosePlayIndex, setSeq_port_same]
  have hstart := startXfer_ok (s := s.choosePlayIndex q) q hi hv
  simp only [playXfer, hb, Bool.false_eq_true, if_false, hport, hstart]
  rw [State.setBlocked, setRc_port, State.choosePlayIndex, setSeq_port_same]
  exact congrArg Host.Outcome.next (setPort_setPort (s.setRc _) q _ _)

theorem showXfer_running (hb : (s.port q).blocked = true) (hi : s.rc.state ≠ .idle) : showXfer q s = .next s := by
  simp [showXfer, hb, hi]

theorem playXfer_running (hb : (s.port q).blocked = true) (hi : s.rc.state ≠ .idle) : playXfer q s = .next s := by
  simp [playXfer, hb, hi]

end

/-- Settles O42: the start loads RC and blocks the port; a blocked port waits for IDLE. -/
theorem macroStartsTransfer : Obligations.MacroStartsTransfer := by
  refine fun s q => ⟨fun v hat hb hi hv => ?showKind, fun v hat hb hi hv => ?playKind, fun k hk hat hb hi => ?running⟩
  case showKind => exact loadsAndWritesPort ((portStep_showXfer hat).trans (showXfer_starts hb hi hv))
  case playKind => exact loadsAndWritesPort ((portStep_playXfer hat).trans (playXfer_starts hb hi hv))
  case running =>
    rcases mem_showPlay_iff.1 hk with rfl | rfl
    · rw [portStep_showXfer hat, showXfer_running hb hi]
    · rw [portStep_playXfer hat, playXfer_running hb hi]

/-! ### XFER: the end of the transfer (R173, R176, R179) -/

section
variable {s : State} {q : Port}

theorem showXfer_ended (hb : (s.port q).blocked = true) (hi : s.rc.state = .idle) :
    showXfer q s = .next (showXferDone q s.rc.result s) := by
  simp [showXfer, hb, hi]

theorem playXfer_ended (hb : (s.port q).blocked = true) (hi : s.rc.state = .idle) :
    playXfer q s = .next (playXferDone q s.rc.result s) := by
  simp [playXfer, hb, hi]

/-- The transfer's result recorded in the port's context, and the event with the frame's index logged (R173, R174):
what SHOW and PLAY do first after a transfer, whatever its result (`showXferDone_ok`, `showXferDone_server`,
`showXferDone_standalone`, `playXferDone_last`, `playXferDone_paces`, `playXferDone_standalone`). -/
def State.logResult (s : State) (q : Port) (r : Result) (kind : LogKind) (b : Word) : State :=
  (s.recordLast q r).logEvent (some q) kind (s.port q).seq.idx b

theorem logResult_port_same (s : State) (q : Port) (r : Result) (kind : LogKind) (b : Word) :
    (s.logResult q r kind b).port q =
      { s.port q with blocked := false, seq := { (s.port q).seq with last := r } } :=
  recordLast_port_same ..

theorem logResult_port_ne (s : State) {q p : Port} (r : Result) (kind : LogKind) (b : Word) (h : p ≠ q) :
    (s.logResult q r kind b).port p = s.port p :=
  recordLast_port_ne s r h

theorem logResult_setPort (s : State) (q : Port) (r : Result) (kind : LogKind) (b : Word) (p : PortState) :
    (s.logResult q r kind b).setPort q p = (s.logEvent (some q) kind (s.port q).seq.idx b).setPort q p :=
  setPort_setPort (s.logEvent (some q) kind (s.port q).seq.idx b) q _ p

theorem logResult_setPhase (s : State) (q : Port) (r : Result) (kind : LogKind) (b : Word) (p : Phase) :
    (s.logResult q r kind b).setPhase q p =
      (s.logEvent (some q) kind (s.port q).seq.idx b).setPort q
        { s.port q with blocked := false, seq := { (s.port q).seq with last := r, phase := p } } := by
  rw [State.setPhase, State.setSeq, logResult_setPort, logResult_port_same]

theorem logResult_sleepUntil (s : State) (q : Port) (r : Result) (kind : LogKind) (b : Word) (p : Phase)
    (wake : U64) :
    (s.logResult q r kind b).sleepUntil q p wake =
      (s.logEvent (some q) kind (s.port q).seq.idx b).setPort q
        { s.port q with
          blocked := decide (s.tNow.toNat < wake.toNat)
          seq := { (s.port q).seq with last := r, phase := p, wake := wake } } := by
  rw [State.sleepUntil, logResult_setPort, logResult_port_same]
  rfl

theorem showXferDone_ok (q : Port) (s : State) :
    showXferDone q .ok s = (s.logResult q .ok .showOk 0).setPhase q .release :=
  if_pos rfl

theorem showXferDone_server {r : Result} (hr : r ≠ .ok) (hm : s.par.mode = .server) : showXferDone q r s =
    (s.logResult q r .showFail r.word).sleepUntil q .backoff (fitU64 (s.tNow.toNat + s.par.showBackoff)) := by
  rw [showXferDone, if_neg hr, showRetry, logEvent_par, recordLast_par, hm]
  rfl

theorem showXferDone_standalone {r : Result} (hr : r ≠ .ok) (hm : s.par.mode = .standalone) :
    showXferDone q r s = (s.logResult q r .showFail r.word).fatalTransfer q r := by
  rw [showXferDone, if_neg hr, showRetry, logEvent_par, recordLast_par, hm]
  rfl

theorem playXferDone_last (h : (s.port q).seq.idx = (s.port q).seq.upto) :
    playXferDone q .ok s = (s.logResult q .ok .playFrame (Result.word .ok)).setPhase q .release := by
  rw [playXferDone, if_pos rfl, if_pos h]
  rfl

/-- The deadline is that of the context before the result was recorded: it does not depend on `LAST`. -/
theorem playPace_logResult (s : State) (q : Port) (r : Result) (kind : LogKind) (b : Word) :
    playPace q (s.logResult q r kind b) = (s.logResult q r kind b).sleepUntil q .pace
      (fitU64 (nextDeadline (s.port q).seq (s.port q).seq.idx.toNat)) := by
  rw [playPace, logResult_port_same]
  rfl

/-- The pacing goes on after another frame than the last, and after any failure in SERVER mode. -/
theorem playXferDone_paces {r : Result}
    (h : (r = .ok ∧ (s.port q).seq.idx ≠ (s.port q).seq.upto) ∨ (r ≠ .ok ∧ s.par.mode = .server)) :
    playXferDone q r s = playPace q (s.logResult q r .playFrame r.word) := by
  rcases h with ⟨rfl, hne⟩ | ⟨hr, hm⟩
  · rw [playXferDone, if_pos rfl, if_neg hne]
    rfl
  · rw [playXferDone, if_neg hr, playFailed, logEvent_par, recordLast_par, hm]
    rfl

theorem playXferDone_standalone {r : Result} (hr : r ≠ .ok) (hm : s.par.mode = .standalone) :
    playXferDone q r s = (s.logResult q r .playFrame r.word).fatalTransfer q r := by
  rw [playXferDone, if_neg hr, playFailed, logEvent_par, recordLast_par, hm]
  rfl

end

/-- Settles O43: the port's step records and logs the result, and releases or sleeps. -/
theorem showTransferEnds : Obligations.ShowTransferEnds := by
  intro s q hat hb hi
  have hstep := (portStep_showXfer hat).trans (showXfer_ended hb hi)
  refine ⟨fun hok => ?released, fun hfail hm => ?sleeps⟩
  case released =>
    exact logsAndWritesPort (hstep.trans (by rw [hok, showXferDone_ok, logResult_setPhase]))
  case sleeps =>
    obtain ⟨t, ht, hlog, hport, hframe, hring, htk⟩ := logsAndWritesPort (hstep.trans (by
      rw [showXferDone_server hfail hm, logResult_sleepUntil]))
    exact ⟨t, ht, hlog, by rw [hport], by rw [hport], fun hfit => by rw [hport]; exact fitU64_toNat hfit,
      by rw [hport], hframe, hring, htk⟩

/-- Settles O44: the port's step records and logs the result, and releases or sleeps. -/
theorem playTransferEnds : Obligations.PlayTransferEnds := by
  intro s q hat hb hi
  have hstep := (portStep_playXfer hat).trans (playXfer_ended hb hi)
  refine ⟨fun ⟨hok, hlast⟩ => ?released, fun hgoes => ?sleeps⟩
  case released =>
    rw [hok] at hstep ⊢
    exact logsAndWritesPort (hstep.trans (by rw [playXferDone_last hlast, logResult_setPhase]))
  case sleeps =>
    obtain ⟨t, ht, hlog, hport, hframe, hring, htk⟩ := logsAndWritesPort (hstep.trans (by
      rw [playXferDone_paces hgoes, playPace_logResult, logResult_sleepUntil]))
    exact ⟨t, ht, hlog, fun hfit => by rw [hport]; exact fitU64_toNat hfit, by rw [hport], hframe, hring, htk⟩

/-! ### A failed transfer in STANDALONE mode (R179, `60_exceptions.md` R214) -/

section
variable {s : State} {q : Port}

theorem cutOff_of_busy {p : PortState} (h : p.busy = true) : p.cutOff = p.completed .eNotReady := if_pos h

theorem cutOff_of_idle {p : PortState} (h : p.busy = false) : p.cutOff = p := by simp [PortState.cutOff, h]

theorem fatalTransfer_port_same (s : State) (q : Port) (r : Result) :
    (s.fatalTransfer q r).port q = (s.port q).completed r := by
  rw [State.fatalTransfer, complete_port_same, enterFatal_port, if_pos rfl, logEvent_port]

theorem fatalTransfer_port_ne (s : State) {q p : Port} (r : Result) (h : p ≠ q) :
    (s.fatalTransfer q r).port p = (s.port p).cutOff := by
  rw [State.fatalTransfer, complete_port_ne _ _ h, enterFatal_port, if_neg (by simpa using h.symm), logEvent_port]

/-- SHOW and PLAY fail alike but for the event they log. -/
theorem portStep_fails_standalone {k : Kind} (hk : k ∈ [Kind.showCmd, .playCmd]) (hat : AtPhase s q k .xfer)
    (hb : (s.port q).blocked = true) (hi : s.rc.state = .idle) (hr : s.rc.result ≠ .ok)
    (hm : s.par.mode = .standalone) :
    portStep q s = .next ((s.logResult q s.rc.result (if k = .showCmd then .showFail else .playFrame)
      s.rc.result.word).fatalTransfer q s.rc.result) := by
  rcases mem_showPlay_iff.1 hk with rfl | rfl
  · rw [portStep_showXfer hat, showXfer_ended hb hi, showXferDone_standalone hr hm, if_pos rfl]
  · rw [portStep_playXfer hat, playXfer_ended hb hi, playXferDone_standalone hr hm, if_neg (by decide)]

end

/-- Settles O45: the result is recorded and logged, FATAL cuts off the other ports, and the command completes. -/
theorem standaloneFailureIsFatal : Obligations.StandaloneFailureIsFatal := by
  intro s q k hk hat hb hi hr hm
  refine ⟨_, portStep_fails_standalone hk hat hb hi hr hm, rfl, rfl, ?own, fun p hne hbusy => ?cut,
    fun p hne hidle => ?kept, ?logged, rfl, rfl, ⟨rfl, rfl, rfl, rfl, rfl, rfl, rfl, rfl⟩,
    ⟨rfl, rfl, rfl, fun _ => rfl⟩, rfl⟩
  case own =>
    rw [fatalTransfer_port_same, logResult_port_same]
    rfl
  case cut =>
    rw [fatalTransfer_port_ne _ _ hne, logResult_port_ne _ _ _ _ hne, cutOff_of_busy hbusy]
  case kept =>
    rw [fatalTransfer_port_ne _ _ hne, logResult_port_ne _ _ _ _ hne, cutOff_of_idle hidle]
  case logged => simp [State.fatalTransfer, State.logResult]

/-! ### RELEASE (R172, R174, R178) -/

section
variable {s : State} {q : Port}

theorem showRelease_holder (hh : s.holds q = true) : showRelease q s = s.freeToken.complete q .ok := by
  rw [showRelease, releaseFor_of_holds hh]

theorem stopRelease_holder (hh : s.holds q = true) : stopRelease q s = s.freeToken.complete q .ok := by
  rw [stopRelease, releaseFor_of_holds hh]

theorem playRelease_holder (hh : s.holds q = true) : playRelease q s =
    (s.freeToken.logEvent (some q) .playDone (s.port q).seq.upto 0).complete q .ok := by
  rw [playRelease, releaseFor_of_holds hh]

/-- The holder's command ends with OK, the token idle, whatever it has logged. -/
theorem releases {o : Host.Outcome State Fault Refusal} (es : List LogEvent)
    (h : o = .next { s.freeToken.complete q .ok with log := s.log ++ es }) :
    ∃ t, o = .next t ∧ t.tk = { s.tk with state := .idle, holder := 0 } ∧ CompletesWith q .ok s t ∧
      PortFrame q s t ∧ KeepsRing s t ∧ t.log = s.log ++ es :=
  ⟨_, h, rfl, complete_port_same s.freeToken q .ok, portFrame_of (h := fun _ hne => complete_port_ne s.freeToken _ hne),
    ⟨rfl, rfl, rfl, fun _ => rfl⟩, rfl⟩

end

/-- Settles O47: the three kinds release alike; only PLAY logs. -/
theorem macroReleases : Obligations.MacroReleases := by
  intro s q k hk hat hh
  refine releases _ ?_
  cases k with
  | none => exact absurd rfl hk
  | showCmd =>
    rw [portStep_showRelease hat, showRelease_holder hh, if_neg (by decide), List.append_nil]
    rfl
  | playCmd =>
    rw [portStep_playRelease hat, playRelease_holder hh, if_pos rfl]
    rfl
  | stopCmd =>
    rw [portStep_stopRelease hat, stopRelease_holder hh, if_neg (by decide), List.append_nil]
    rfl

end Sys2Proof.Machine
end

section
/-! PROOFS. A command on a machine that is not ready (`60_exceptions.md` R203, R206), and what the model faults of
R213 come from: the two of the transfer need a state that no run reaches. -/

namespace Sys2Proof.Machine

/-! ### Commands on a machine that is not ready (R203) -/

theorem exec_command_not_ready {i : Instr} (hi : i ∈ commandWords) {s : State} (hr : s.ready = false) :
    exec i s = .next (s.complete s.issuer .eNotReady) := by
  simp only [commandWords, List.mem_cons, List.not_mem_nil, or_false] at hi
  rcases hi with rfl | rfl | rfl | rfl | rfl | rfl | rfl | rfl
  · simp [exec, execEncodeFrame, raise, hr]
  · simp [exec, execXfer, raise, hr]
  · simp [exec, execAcquire, raise, hr]
  · simp [exec, execTryHandoff, raise, hr]
  · simp [exec, execRelease, raise, hr]
  · simp [exec, execShowFrame, raise, hr]
  · simp [exec, execPlayFrames, raise, hr]
  · simp [exec, execStopPlayback, raise, hr]

/-- Settles O9: each command word's run is the completion with `E_NOT_READY`, which changes nothing else. -/
theorem commandsNeedReady : Obligations.CommandsNeedReady :=
  fun _ hi _ hr => ⟨_, exec_command_not_ready hi hr, onlyCompletes ..⟩

/-! ### The commands that fault (R213) -/

section
variable {i : Instr} {s : State} {q : Port} {f : Fault}

theorem startXfer_reentry {frame store : Word} (h : s.startXfer q frame store = .reentry) : s.rc.state ≠ .idle := by
  rcases startXfer_cases s q frame store with ⟨_, _, hfail⟩ | ⟨_, _, hne, _⟩ | ⟨_, _, _, hstart⟩
  · rw [hfail] at h; cases h
  · exact hne
  · rw [hstart] at h; cases h

/-- XFER faults only for the token's holder, while a transfer runs. -/
theorem execXfer_fault (h : execXfer s = .fault f) : s.holds s.issuer = true ∧ s.rc.state ≠ .idle := by
  unfold execXfer at h
  split at h
  · cases h
  · split at h
    · cases h
    · next hholds =>
      unfold State.xferFor at h
      split at h
      · cases h
      · cases h
      · next hstart => exact ⟨by simpa using hholds, startXfer_reentry hstart⟩

/-- A command word that runs on a ready machine and completes on any other does not fault. -/
theorem ite_ready_ne_fault {t : State} {r : Result} :
    (if s.ready then .next t else raise q r s : Host.Outcome State Fault Refusal) ≠ .fault f := by
  split <;> nofun

theorem execShowDatagram_ne_fault {path : List Byte} {frame : Word} : execShowDatagram path frame s ≠ .fault f := by
  unfold execShowDatagram
  repeat' split
  all_goals nofun

theorem execPlayDatagram_ne_fault {path : List Byte} {first last fps : Word} :
    execPlayDatagram path first last fps s ≠ .fault f := by
  unfold execPlayDatagram
  repeat' split
  all_goals nofun

theorem execStopDatagram_ne_fault : execStopDatagram s ≠ .fault f := by
  unfold execStopDatagram
  repeat' split
  all_goals nofun

/-- Of all the instructions only XFER faults. -/
theorem exec_fault (h : exec i s = .fault f) : i = .xfer ∧ s.holds s.issuer = true ∧ s.rc.state ≠ .idle := by
  cases i with
  | xfer => exact ⟨rfl, execXfer_fault h⟩
  | encodeFrame => exact absurd h ite_ready_ne_fault
  | acquire => exact absurd h ite_ready_ne_fault
  | tryHandoff => exact absurd h ite_ready_ne_fault
  | release => exact absurd h ite_ready_ne_fault
  | showFrame => exact absurd h ite_ready_ne_fault
  | playFrames => exact absurd h ite_ready_ne_fault
  | stopPlayback => exact absurd h ite_ready_ne_fault
  | showDatagram path frame => exact absurd h execShowDatagram_ne_fault
  | playDatagram path first last fps => exact absurd h execPlayDatagram_ne_fault
  | stopDatagram => exact absurd h execStopDatagram_ne_fault

/-! ### The actions that fault (R213) -/

/-- A command word faults only on an idle port that holds the token while a transfer runs. -/
theorem issueWord_fault {w : Word} (h : issueWord q w s = .fault f) :
    (s.port q).busy = false ∧ s.holds q = true ∧ s.rc.state ≠ .idle := by
  unfold issueWord at h
  split at h
  · cases h
  · next hbusy =>
    split at h
    · obtain ⟨-, hholds, hrc⟩ := exec_fault h
      exact ⟨by simpa using hbusy, hholds, hrc⟩
    · cases h

theorem registerWrite_fault {off size : Nat} {v : Word} (h : registerWrite off size v s = .fault f) :
    ∃ q, (s.port q).busy = false ∧ s.holds q = true ∧ s.rc.state ≠ .idle := by
  unfold registerWrite at h
  split at h
  · split at h
    · unfold writeEffect at h
      split at h
      · exact ⟨_, issueWord_fault h⟩
      · cases h
    · cases h
  · cases h

theorem registerRead_ne_fault {off size : Nat} : registerRead off size s ≠ .fault f := by
  unfold registerRead
  repeat' split
  all_goals nofun

/-- No datagram is an XFER. -/
theorem deliverDatagram_ne_fault {d : List Byte} : deliverDatagram d s ≠ .fault f := by
  intro h
  unfold deliverDatagram at h
  split at h
  · cases h
  · split at h
    · next i hd =>
      obtain ⟨rfl, -⟩ := exec_fault h
      simpa using recognise_form (decodeDatagram_iff.1 hd)
    · cases h

theorem tickStep_fault {d : Nat} (h : tickStep d s = .fault f) : f = .timeWrap := by
  unfold tickStep at h
  split at h
  · cases h
  · split at h
    · cases h
    · cases h; rfl

/-! ### The phases that fault (R213) -/

theorem showXfer_fault (h : showXfer q s = .fault f) : (s.port q).blocked = false ∧ s.rc.state ≠ .idle := by
  unfold showXfer at h
  split at h
  · split at h <;> cases h
  · next hblocked =>
    split at h
    · cases h
    · cases h
    · next hstart => exact ⟨by simpa using hblocked, startXfer_reentry hstart⟩

theorem playXfer_fault (h : playXfer q s = .fault f) : (s.port q).blocked = false ∧ s.rc.state ≠ .idle := by
  unfold playXfer at h
  split at h
  · split at h <;> cases h
  · next hblocked =>
    dsimp only at h
    split at h
    · cases h
    · cases h
    · next hstart => exact ⟨by simpa using hblocked, startXfer_reentry (s := s.choosePlayIndex q) hstart⟩

/-- SHOW faults only where its XFER phase begins while a transfer runs. -/
theorem showStep_fault (h : showStep q s = .fault f) :
    (s.port q).seq.phase = .xfer ∧ (s.port q).blocked = false ∧ s.rc.state ≠ .idle := by
  unfold showStep at h
  split at h <;> try cases h
  next hphase => exact ⟨hphase, showXfer_fault h⟩

/-- PLAY faults only where its XFER phase begins while a transfer runs. -/
theorem playStep_fault (h : playStep q s = .fault f) :
    (s.port q).seq.phase = .xfer ∧ (s.port q).blocked = false ∧ s.rc.state ≠ .idle := by
  unfold playStep at h
  split at h <;> try cases h
  next hphase => exact ⟨hphase, playXfer_fault h⟩

theorem stopStep_ne_fault : stopStep q s ≠ .fault f := by
  unfold stopStep
  split <;> nofun

theorem portStep_fault (h : portStep q s = .fault f) :
    (s.port q).seq.phase = .xfer ∧ (s.port q).blocked = false ∧ s.rc.state ≠ .idle := by
  unfold portStep at h
  split at h
  · split at h
    · cases h
    · exact showStep_fault h
    · exact playStep_fault h
    · exact absurd h stopStep_ne_fault
  · cases h

/-! ### A running transfer's port holds (R43, R213) -/

/-- While a transfer runs the token's holder is its owner, whose XFER holds: no other port reaches an XFER, and the
owner issues none. -/
theorem State.Inv.holder_blocked (hI : s.Inv) (hrc : s.rc.state ≠ .idle) (hholds : s.holds q = true) :
    (s.port q).blocked = true := by
  have howner : s.rc.owner = q := by
    by_contra hne
    simpa [hholds] using Loose.no_other (hI.ring.ownerHolds hrc) q (Ne.symm hne)
  exact howner ▸ (hI.ring.ownerBlocked hrc).1

theorem registerWrite_ne_fault (hI : s.Inv) {off size : Nat} {v : Word} : registerWrite off size v s ≠ .fault f := by
  intro h
  obtain ⟨q, hidle, hholds, hrc⟩ := registerWrite_fault h
  have hbusy := (hI.port q).blockedBusy (hI.holder_blocked hrc hholds)
  exact absurd hbusy (by simp [hidle])

theorem portStep_ne_fault (hI : s.Inv) : portStep q s ≠ .fault f := by
  intro h
  obtain ⟨hphase, hopen, hrc⟩ := portStep_fault h
  have hholds := (hI.port q).phaseHolds (by simp [PortState.pastGrant, hphase, holderPhase])
  exact absurd (hI.holder_blocked hrc hholds) (by simp [hopen])

/-- From a state that meets the invariant only TICK faults. -/
theorem runAction_fault (hI : s.Inv) {a : Action} (h : runAction a s = .fault f) : f = .timeWrap := by
  cases a with
  | regWrite off size v => exact absurd h (registerWrite_ne_fault hI)
  | regRead off size => exact absurd h registerRead_ne_fault
  | datagram d => exact absurd h deliverDatagram_ne_fault
  | portStep q => exact absurd h (portStep_ne_fault hI)
  | ringStep => exact absurd h (ringStep_noFault hI f)
  | tick d => exact tickStep_fault h
  | grant | cpConsume | cpLatch | cpStop | cpHang | coproLoad | sampleColours _ | outsideWrite _ _ => cases h

theorem step_fault (hI : s.Inv) (h : step s = .fault f) : f = .badParam ∨ f = .timeWrap := by
  unfold step at h
  split at h
  · exact .inr (runAction_fault (takeEvent_inv hI) h)
  · cases h; exact .inl rfl

end

/-- Settles O58: an illegal parameter and TICK are what is left, both of the environment. -/
theorem noModelFault : Obligations.NoModelFault := by
  intro s f hI hstep
  obtain rfl | rfl := step_fault hI hstep
  · trivial
  · trivial

end Sys2Proof.Machine
end

section
/-! PROOFS. Reset and the lock (`70_reset_and_hazards.md` R230, R233, `60_exceptions.md` R214). -/

namespace Sys2Proof.Machine

/-! ### The lock step (R233) -/

section
variable {s : State}

theorem registerWrite_cfgCtrl (s : State) (v : Word) : registerWrite 0x01C 4 v s = .next (writeCfgCtrl v s) := by
  rw [registerWrite_word v (by decide) (le_registerEnd s (by decide) (by decide)), regAt_block _ (by decide)]
  rfl

theorem writeCfgCtrl_ignored {v : Word} (h : v.getLsbD 0 = false ∨ s.cfg.locked = true ∨ s.cfg.fatal = true) :
    writeCfgCtrl v s = s := by
  rcases h with hbit | hclosed
  · rw [writeCfgCtrl, hbit, Bool.false_and, if_neg Bool.false_ne_true]
  · rw [writeCfgCtrl, configOpen_eq_false hclosed, Bool.and_false, if_neg Bool.false_ne_true]

theorem writeCfgCtrl_taken {v : Word} (hbit : v.getLsbD 0 = true) (hl : s.cfg.locked = false)
    (hf : s.cfg.fatal = false) : writeCfgCtrl v s = lockStep s := by
  have hopen : s.configOpen = true := by simp [State.configOpen, hl, hf]
  rw [writeCfgCtrl, hbit, hopen, Bool.and_self, if_pos rfl]

theorem lockStep_valid (hv : s.cfgValid = true) (hr : s.coproReady = true) :
    lockStep s = { s with cfg := { s.cfg with locked := true } } := by
  simp [lockStep, hv, hr]

theorem lockStep_invalid (h : s.cfgValid = false ∨ s.coproReady = false) :
    lockStep s = State.enterFatal
      { s with
        cfg := { s.cfg with cfgErr := s.cfg.cfgErr || !s.cfgValid, hwErr := s.cfg.hwErr || !s.coproReady } } none :=
  if_neg (by simpa [imp_iff_not_or] using h)

/-- Entering FATAL and keeping no port cuts off every port. -/
theorem enterFatal_none_port (s : State) (q : Port) : (s.enterFatal none).port q = (s.port q).cutOff := by
  rw [enterFatal_port, if_neg nofun]

end

/-- Settles O54: the write reaches the lock step only while the configuration is open, and that step either sets
`LOCKED` or enters FATAL with the errors recorded, which cuts off every running port. -/
theorem lockValidates : Obligations.LockValidates := by
  intro s v
  refine ⟨cfgValid_iff s, ?ignored, ?taken⟩
  case ignored =>
    intro h
    rw [registerWrite_cfgCtrl, writeCfgCtrl_ignored h]
  case taken =>
    intro hbit hl hf
    rw [registerWrite_cfgCtrl, writeCfgCtrl_taken hbit hl hf]
    refine ⟨fun hv hr => by rw [lockStep_valid hv hr], fun hfail => ?_⟩
    rw [lockStep_invalid hfail]
    refine ⟨_, rfl, rfl, rfl, fun q hbusy => ?cut, fun q hidle => ?kept, rfl, rfl,
      ⟨rfl, rfl, rfl, rfl, rfl, rfl, rfl, rfl⟩, ⟨rfl, rfl, rfl, fun _ => rfl⟩, rfl, rfl⟩
    case cut => exact (enterFatal_none_port _ q).trans (cutOff_of_busy hbusy)
    case kept => exact (enterFatal_none_port _ q).trans (cutOff_of_idle hidle)

/-! ### Reset (R230) -/

/-- Settles O55: every port is `PortState.reset`, each parameter register reads its parameter, and the rest are the
fields of `State.reset`. -/
theorem resetState : Obligations.ResetState := by
  refine ⟨rfl, rfl, rfl, rfl, rfl, rfl, fun q => ?port, rfl, rfl, rfl, rfl, fun r => ⟨rfl, rfl⟩, rfl, rfl, rfl, rfl,
    rfl⟩
  case port =>
    rw [reset_port]
    rfl

end Sys2Proof.Machine
end
